-- ==== Sys2Proof/Word.lean ====
section
/-! DEFINITION. The widths the spec gives: the byte, the only width of the wire (rule R53), and the 32-bit word of a command
argument, a sector number and a typed ioctl value (rules R60, R71, R252). Byte order of a word on the wire is rule R54. -/

namespace Sys2Proof

/-- One byte: rule R10, "A byte is 8 bits". -/
abbrev Byte := BitVec 8

/-- A 32-bit unsigned number: command argument (rule R73), sector number (rule R60), typed ioctl value (rule R252). -/
abbrev Word := BitVec 32

end Sys2Proof
end

