-- ==== Sys2Proof/Config.lean ====
section
/-! DEFINITION. What is fixed for the whole machine and what the environment chooses: the events of the wire (rules R8, R53),
the two oracles of rule R13 as free values, the two media inputs the spec leaves unspecified at reset (rule R36), the
one unstated value of the default capacity formula (rule R262), and the register functions of an instance that does not take the
defaults (rules R262, R263). An opaque constant here has no body: nothing can be proved of it but
what holds of every value. The numeric parameters of rule R9 stand in Machine/Params.lean, where a repair can mend them. -/

namespace Sys2Proof

/-- `TYPE` (rule R24) and the working register `TY` (rule R30): the bitmask's five names; the byte form is `CardType.toByte` in
Machine/Flags.lean. -/
structure Machine.CardType where
  mmcV3 : Bool
  mmcV4 : Bool
  sdV1 : Bool
  sdV2 : Bool
  blockAddressed : Bool
  deriving DecidableEq, Repr

/-- The two levels of the card-select line, rule R28. -/
inductive CsLevel where
  | asserted
  | deasserted
  deriving DecidableEq, Repr

/-- One event of the stream WIRE, rules R8, R11 and R53: an exchange `X(tx, rx)` or a transition `CS(level)`. -/
inductive WireEvent where
  | xchg (tx rx : Byte)
  | cs (level : CsLevel)
  deriving DecidableEq, Repr

/-- The Card oracle (rule R13, U9): the byte drawn when no scripted byte is left, for the number of bytes drawn before, the
wire so far (newest event first) and the byte sent. Free value, assumption 1. -/
opaque Config.cardByte : Nat → List WireEvent → Byte → Byte

/-- The Timeout Source oracle (rule R13, U10, U11): how many times `Expired` answers false on a fresh deadline before it
answers true for good, for the number of deadlines set before, the wire so far and the milliseconds asked for. A finite number
is exactly what laws (a) and (b) of rule R13 allow. Free value, assumption 2. -/
opaque Config.expiryCount : Nat → List WireEvent → Nat → Nat

/-- `STATUS.NO_MEDIUM` right after reset: "unspecified; whatever the `MEDIA` input holds" (rule R36, U8). Assumption 3. -/
opaque Config.noMediumAtReset : Bool

/-- `STATUS.WRITE_PROTECTED` right after reset: "unspecified; whatever the `MEDIA` input holds" (rule R36, U8). Assumption 3. -/
opaque Config.writeProtectedAtReset : Bool

/-- The value of the default `CsdCapacity` for a version-1 CSD whose block-length exponent `n` is below 9, where the formula
of rule R262 shifts by a negative number and states no result. A free value of the 16 CSD bytes, assumption 11. -/
opaque Config.csdCapacityBelowSector : List Byte → Word

/-- `CsdCapacity` of an instance with functions of its own (rule R9 OPEN, rule R262, decision D26). Assumption 10. -/
opaque Config.csdCapacity : List Byte → Word

/-- `EraseEnabled` of an instance with functions of its own (rule R262, decision D26). Assumption 10. -/
opaque Config.eraseEnabled : List Byte → Bool

/-- `EraseGranularity` of an instance with functions of its own (rule R9 OPEN, rule R263, decision D26), of the card type and the register
bytes. Assumption 10. -/
opaque Config.eraseGranularity : Machine.CardType → List Byte → Word

end Sys2Proof
end

