-- ==== Sys2Proof/Machine/Params.lean ====
section
/-! DEFINITION. The parameters of rule R9. First those whose value the source states: constants. Then those whose ground is GK or
OPEN: fields of the configuration `Params`, which State holds and nothing writes, at their defaults right after reset (decision
D29, assumption 4). -/

namespace Sys2Proof.Machine

/-- `LUN`: the only legal drive index (source). -/
def lunIndex : Byte := 0x00#8

/-- `SECTOR_SIZE` in bytes (source). -/
def sectorSize : Nat := 512

/-- `COUNT_MIN`, sectors per transfer (source). -/
def countMin : Nat := 1

/-- `COUNT_MAX`, sectors per transfer (source). -/
def countMax : Nat := 128

/-- `N_POWERUP_DUMMY`, power-up bytes (source, rule R192). -/
def nPowerUpDummy : Nat := 10

/-- `N_R1_POLL`, the most response polls of one command (source, rule R125). -/
def nR1Poll : Nat := 10

/-- `T_SETTLE_MS` (source, rule R110). -/
def tSettleMs : Nat := 1

/-- `T_READY_MS` (source, rule R112). -/
def tReadyMs : Nat := 500

/-- `T_TOKEN_MS` (source, rule R171). -/
def tTokenMs : Nat := 200

/-- `T_NEGOTIATE_MS` (source, rule R194). -/
def tNegotiateMs : Nat := 1000

/-- `T_ERASE_MS` (source, rule R254). -/
def tEraseMs : Nat := 30000

/-- `READY_BYTE` (source, rule R85). -/
def readyByteValue : Byte := 0xFF#8

/-- `TOKEN_START_BLOCK` (received: source; sent: GK4). -/
def startBlockToken : Byte := 0xFE#8

/-- The byte that means "not yet" while a data token is awaited (source, rule R171 "any other non-0xFF byte"). -/
def idleLineByte : Byte := 0xFF#8

/-- `ACCEPT_MASK` (source, rule R83). -/
def acceptMask : Byte := 0x1F#8

/-- `IF_COND_ARG` (source, rule R194). -/
def ifCondArg : Word := 0x000001AA#32

/-- `IF_COND_ECHO`, trailing byte 2 counted from 0 (source, rule R78). -/
def ifCondEchoHigh : Byte := 0x01#8

/-- `IF_COND_ECHO`, trailing byte 3 counted from 0 (source, rule R78). -/
def ifCondEchoLow : Byte := 0xAA#8

/-- `BLOCKLEN_ARG` (source, rule R199). -/
def blockLenArg : Word := 512#32

/-- The byte `SendCmd` returns on a select timeout (rule R122, decision D9). -/
def responseFailure : Byte := 0xFF#8

/-- Bytes of a CSD or a CID (source, rule R32). -/
def registerLength : Nat := 16

/-- Bytes of the SD status (GK12). -/
def sdStatusLength : Nat := 64

/-- Bytes get-block-size discards after the first 16 of the SD status (GK12, rule R253). -/
def sdStatusPurge : Nat := 48

/-- Bytes of the OCR, the trailing bytes of R3 (rule R79). -/
def ocrLength : Nat := 4

/-! ### The configuration -/

/-- Which definitions of `CsdCapacity`, `EraseEnabled` and `EraseGranularity` the instance takes (rule R9 OPEN, decision D26): the
defaults of rules R262 and R263, or functions of its own, of which nothing is known (assumption 10). -/
inductive RegisterFunctions where
  | specDefault
  | configured
  deriving DecidableEq, Repr

/-- The parameters of rule R9 whose ground is GK or OPEN, fixed for the life of the instance (`WRITE_CAPABLE` is a field of State). -/
structure Params where
  /-- `DUMMY_TX` (GK3), the byte sent on every exchange whose purpose is to read or to clock. -/
  dummyTx : Byte
  /-- `FILL_BYTE` of a block receive (GK3). -/
  fillByte : Byte
  /-- `CRC_PLACEHOLDER_TX` (GK3), each of the two bytes after a written payload. -/
  crcPlaceholderTx : Byte
  /-- `CMD_PREFIX_BITS` (GK1), or-ed onto the opcode (rule R72). -/
  cmdPrefixBits : Byte
  /-- `CRC_CMD0` (GK2). -/
  crcCmd0 : Byte
  /-- `CRC_CMD8` (GK2). -/
  crcCmd8 : Byte
  /-- `CRC_DUMMY` (GK2). -/
  crcDummy : Byte
  /-- `TOKEN_START_MULTI` (GK4). -/
  startMultiToken : Byte
  /-- `TOKEN_STOP_MULTI` (GK4). -/
  stopMultiToken : Byte
  /-- `ACCEPT_VAL` (GK5), a pattern of the low five bits. -/
  acceptVal : BitVec 5
  /-- `HCS_ARG` (GK6). -/
  hcsArg : Word
  /-- Opcode of `SEND_CSD` (GK7, rule R98), and so on down to `ERASE`. -/
  opSendCsd : BitVec 6
  opSendCid : BitVec 6
  opStopTransmission : BitVec 6
  opSdStatus : BitVec 6
  opReadSingleBlock : BitVec 6
  opReadMultipleBlock : BitVec 6
  opSetWrBlkEraseCount : BitVec 6
  opWriteBlock : BitVec 6
  opWriteMultipleBlock : BitVec 6
  opEraseWrBlkStart : BitVec 6
  opEraseWrBlkEnd : BitVec 6
  opErase : BitVec 6
  /-- The raw-query code of the type byte (GK10, rule R88), and so on down to the SD status. -/
  rawTypeCode : Byte
  rawCsdCode : Byte
  rawCidCode : Byte
  rawOcrCode : Byte
  rawSdStatusCode : Byte
  /-- The mask of `NOT_INITIALIZED` in the byte form of `STATUS` (GK9, rule R20), and so on. -/
  notInitializedMask : Byte
  noMediumMask : Byte
  writeProtectedMask : Byte
  /-- The mask of `MMCv3` in the byte form of `TYPE` (GK9, rule R24), and so on. -/
  mmcV3Mask : Byte
  mmcV4Mask : Byte
  sdV1Mask : Byte
  sdV2Mask : Byte
  blockAddressedMask : Byte
  /-- The numeric code of `OK` (GK9, rule R87), and so on. -/
  okCode : Byte
  errorCode : Byte
  writeProtectedCode : Byte
  notReadyCode : Byte
  paramErrorCode : Byte
  /-- `CsdCapacity`, `EraseEnabled`, `EraseGranularity` (OPEN). -/
  registerFunctions : RegisterFunctions
  deriving DecidableEq, Repr

/-- The defaults of rule R9 and of Part 2 of 93_implementation_defined.md. -/
def Params.default : Params where
  dummyTx := 0xFF#8
  fillByte := 0xFF#8
  crcPlaceholderTx := 0xFF#8
  cmdPrefixBits := 0x40#8
  crcCmd0 := 0x95#8
  crcCmd8 := 0x87#8
  crcDummy := 0x01#8
  startMultiToken := 0xFC#8
  stopMultiToken := 0xFD#8
  acceptVal := 0x05#5
  hcsArg := 0x40000000#32
  opSendCsd := 9#6
  opSendCid := 10#6
  opStopTransmission := 12#6
  opSdStatus := 13#6
  opReadSingleBlock := 17#6
  opReadMultipleBlock := 18#6
  opSetWrBlkEraseCount := 23#6
  opWriteBlock := 24#6
  opWriteMultipleBlock := 25#6
  opEraseWrBlkStart := 32#6
  opEraseWrBlkEnd := 33#6
  opErase := 38#6
  rawTypeCode := 50#8
  rawCsdCode := 51#8
  rawCidCode := 52#8
  rawOcrCode := 53#8
  rawSdStatusCode := 54#8
  notInitializedMask := 0x01#8
  noMediumMask := 0x02#8
  writeProtectedMask := 0x04#8
  mmcV3Mask := 0x01#8
  mmcV4Mask := 0x02#8
  sdV1Mask := 0x04#8
  sdV2Mask := 0x08#8
  blockAddressedMask := 0x10#8
  okCode := 0#8
  errorCode := 1#8
  writeProtectedCode := 2#8
  notReadyCode := 3#8
  paramErrorCode := 4#8
  registerFunctions := .specDefault

/-! ### Which configurations are configurations of this engine -/

/-- Opcodes of the commands whose number the source states (rule R9). -/
def opGoIdleState : BitVec 6 := 0#6
def opSendOpCond : BitVec 6 := 1#6
def opSendIfCond : BitVec 6 := 8#6
def opSetBlockLen : BitVec 6 := 16#6
def opSdSendOpCond : BitVec 6 := 41#6
def opAppCmd : BitVec 6 := 55#6
def opReadOcr : BitVec 6 := 58#6

/-- The ioctl codes whose number the source states (rule R9). -/
def syncCode : Byte := 0#8
def sectorCountCode : Byte := 1#8
def blockSizeCode : Byte := 3#8
def trimCode : Byte := 4#8

/-- The opcodes of the 19 commands, in the order of rule R98. -/
def opcodes (cfg : Params) : List (BitVec 6) :=
  [opGoIdleState, opSendOpCond, opSendIfCond, cfg.opSendCsd, cfg.opSendCid, cfg.opStopTransmission, cfg.opSdStatus, opSetBlockLen,
    cfg.opReadSingleBlock, cfg.opReadMultipleBlock, cfg.opSetWrBlkEraseCount, cfg.opWriteBlock, cfg.opWriteMultipleBlock,
    cfg.opEraseWrBlkStart, cfg.opEraseWrBlkEnd, cfg.opErase, opSdSendOpCond, opAppCmd, opReadOcr]

/-- The nine ioctl codes of rule R88. -/
def ioctlCodes (cfg : Params) : List Byte :=
  [syncCode, sectorCountCode, blockSizeCode, trimCode, cfg.rawTypeCode, cfg.rawCsdCode, cfg.rawCidCode, cfg.rawOcrCode,
    cfg.rawSdStatusCode]

/-- The bytes the engine sends as a token or to clock the card (rules R84, R85). -/
def sentBytes (cfg : Params) : List Byte := [startBlockToken, cfg.startMultiToken, cfg.stopMultiToken, cfg.dummyTx]

/-- Every mask has one bit, no two the same. -/
def masksDistinct (masks : List Byte) : Bool :=
  masks.all (fun m => [0x01#8, 0x02#8, 0x04#8, 0x08#8, 0x10#8, 0x20#8, 0x40#8, 0x80#8].contains m) && decide masks.Nodup

/-- The configurations in which the things rule R9 names are told apart: the prefix leaves the six opcode bits clear (rule R72), no
two commands share an opcode (rule R98), no two ioctl codes are the same and the raw queries are 50 or above (rules R9, R88), no
two bytes the engine sends as tokens or dummies are the same (rules R84, R85), the HCS argument is not the bare probe's 0 (rule
R97), and the bits and the result codes are distinct (rules R20, R24, R87). Assumption 4. -/
def Params.wf (cfg : Params) : Bool :=
  cfg.cmdPrefixBits &&& 0x3F#8 == 0x00#8 && decide (opcodes cfg).Nodup && decide (ioctlCodes cfg).Nodup &&
    ((ioctlCodes cfg).drop 4).all (fun code => decide (50 ≤ code.toNat)) && decide (sentBytes cfg).Nodup &&
    cfg.hcsArg != 0#32 && masksDistinct [cfg.notInitializedMask, cfg.noMediumMask, cfg.writeProtectedMask] &&
    masksDistinct [cfg.mmcV3Mask, cfg.mmcV4Mask, cfg.sdV1Mask, cfg.sdV2Mask, cfg.blockAddressedMask] &&
    decide [cfg.okCode, cfg.errorCode, cfg.writeProtectedCode, cfg.notReadyCode, cfg.paramErrorCode].Nodup

end Sys2Proof.Machine
end

