-- ==== Sys2Proof/Syntax.lean ====
section
/-! DEFINITION. The instructions of rule R5's reading: one constructor per row of spec/opcode_table.json, grouped as the table
groups them (19 card command frames, 7 byte tokens, 10 host selectors, 10 ioctl codes), and the ports a record of each format
arrives at (rule R70). -/

namespace Sys2Proof

/-- Which way a `TOKEN_START_BLOCK` travels (rule R84): sent by the engine before a written payload, or by the card before a
received one. -/
inductive TokenDir where
  | toCard
  | fromCard
  deriving DecidableEq, Repr

/-- The `buf` field of a host request (rule R86): "a handle to a `BUF` space or null". -/
inductive Handle where
  | null
  | given
  deriving DecidableEq, Repr

/-- The instructions, one per row of the opcode table. -/
inductive Instr where
  -- card command frames (format CMD48)
  | cmd0
  | cmd1
  | cmd8
  | cmd9
  | cmd10
  | cmd12
  | acmd13
  | cmd16
  | cmd17 (addr : Word)
  | cmd18 (addr : Word)
  | acmd23 (count : Byte)
  | cmd24 (addr : Word)
  | cmd25 (addr : Word)
  | cmd32 (addr : Word)
  | cmd33 (addr : Word)
  | cmd38
  | acmd41 (hcs : Bool)
  | cmd55
  | cmd58
  -- tokens and single bytes (format BYTE8)
  | tokenStartBlock (dir : TokenDir)
  | tokenStartMulti
  | tokenStopMulti
  | dataResponseAccepted (high : BitVec 3)
  | r1Valid (flags : BitVec 7)
  | readyByte
  | dummyTx
  -- host requests (format HOST)
  | initDrive (lun : Byte)
  | driveStatus (lun : Byte)
  | readSingle (lun : Byte) (buf : Handle) (sector : Word)
  | readMulti (lun : Byte) (buf : Handle) (sector : Word) (count : BitVec 16)
  | writeSingle (lun : Byte) (buf : Handle) (sector : Word)
  | writeMulti (lun : Byte) (buf : Handle) (sector : Word) (count : BitVec 16)
  | ioctl (lun : Byte) (code : Byte) (buf : Handle)
  | reservedOp5
  | reservedOp6
  | reservedOp7
  -- ioctl requests by their code (format IOCTL8)
  | ioctlSync (lun : Byte) (buf : Handle)
  | ioctlSectorCount (lun : Byte) (buf : Handle)
  | ioctlBlockSize (lun : Byte) (buf : Handle)
  | ioctlTrim (lun : Byte) (buf : Handle)
  | ioctlRawType (lun : Byte) (buf : Handle)
  | ioctlRawCsd (lun : Byte) (buf : Handle)
  | ioctlRawCid (lun : Byte) (buf : Handle)
  | ioctlRawOcr (lun : Byte) (buf : Handle)
  | ioctlRawSdStatus (lun : Byte) (buf : Handle)
  | ioctlUnknown (lun : Byte) (code : Byte) (buf : Handle)
  deriving DecidableEq, Repr

/-- Where a record arrives, which fixes its format ("the engine always knows from its own sequence what comes next", rule R70):
the command record of the dispatcher, a token the engine sends, a byte the engine awaits from the card (as data token, as ready
byte, as R1, as data response: the tests of rule R92), a host request, an ioctl request by its code. -/
inductive Port where
  | command
  | tokenTx
  | tokenRx
  | readyRx
  | r1Rx
  | dataResponseRx
  | host
  | ioctlCode
  deriving DecidableEq, Repr

/-- Why a record is no instruction. -/
inductive DecodeError where
  /-- The record has not the one length of its format (rule R70). -/
  | length
  /-- Bits 47:46 of a frame are not 01 (rule R71). -/
  | startBits
  /-- Byte 5 of a frame is not `crc_byte(op)` (rule R74). -/
  | crcByte
  /-- The opcode is none of the 19 of rule R98 (rule R93). -/
  | opcode
  /-- The argument is none the command is ever sent with (rule R97). -/
  | argument
  /-- The byte is none the port's test accepts (rules R84, R92). -/
  | byteValue
  /-- Bits above `OP_SEL`, or a field that is absent from the operation's signature, are not zero (rule R86). -/
  | absentField
  /-- The buffer handle is neither null nor given (rule R86). -/
  | handle
  deriving DecidableEq, Repr

end Sys2Proof
end

