-- ==== Sys2Proof/WellFormed.lean ====
section
/-! DEFINITION. Which instructions are well formed: the table splits `read`, `write` and `ioctl` into rows by an operand, and an
operand that belongs to a sibling row makes the term ill formed. Every other operand value is admitted. -/

namespace Sys2Proof

open Sys2Proof.Machine

/-- Rule R228 gives `count == 1` to the single-sector rows, so no multi-sector row holds it; rule R260's row holds only codes
outside the nine of rule R88, at the codes of the instance. -/
def Instr.wellFormed (cfg : Params) : Instr → Bool
  | .readMulti _ _ _ count => count != 1#16
  | .writeMulti _ _ _ count => count != 1#16
  | .ioctlUnknown _ code _ => !((ioctlCodes cfg).contains code)
  | .cmd0 | .cmd1 | .cmd8 | .cmd9 | .cmd10 | .cmd12 | .acmd13 | .cmd16 => true
  | .cmd17 _ | .cmd18 _ | .acmd23 _ | .cmd24 _ | .cmd25 _ | .cmd32 _ | .cmd33 _ => true
  | .cmd38 | .acmd41 _ | .cmd55 | .cmd58 => true
  | .tokenStartBlock _ | .tokenStartMulti | .tokenStopMulti | .dataResponseAccepted _ | .r1Valid _ | .readyByte | .dummyTx => true
  | .initDrive _ | .driveStatus _ | .readSingle _ _ _ | .writeSingle _ _ _ | .ioctl _ _ _ => true
  | .reservedOp5 | .reservedOp6 | .reservedOp7 => true
  | .ioctlSync _ _ | .ioctlSectorCount _ _ | .ioctlBlockSize _ _ | .ioctlTrim _ _ => true
  | .ioctlRawType _ _ | .ioctlRawCsd _ _ | .ioctlRawCid _ _ | .ioctlRawOcr _ _ | .ioctlRawSdStatus _ _ => true

end Sys2Proof
end

