-- ==== Sys2Proof/Decode.lean ====
section
/-! DEFINITION. The decoder, total on any bytes at any port and rejecting by name, and after it the encoder, both written from
the formats of 30_encoding.md with the parameters of rule R9. The frame of a command (rules R71 to R74) is built here once; the
dispatcher sends what the encoder writes. The bits of a host record beyond `OP_SEL` are the model's own layout (assumption 5). -/

namespace Sys2Proof

open Sys2Proof.Machine

/-- A 32-bit value as four bytes, most significant first (rules R54, R73). -/
def wordBytes (w : Word) : List Byte :=
  [w.extractLsb' 24 8, w.extractLsb' 16 8, w.extractLsb' 8 8, w.extractLsb' 0 8]

/-- Four bytes as a 32-bit value, the first the most significant (rules R54, R55). -/
def bytesWord (b0 b1 b2 b3 : Byte) : Word := b0 ++ b1 ++ b2 ++ b3

/-- Byte 5 of a frame, by opcode alone (rule R74). -/
def crcByte (cfg : Params) (op : BitVec 6) : Byte :=
  if op = opGoIdleState then cfg.crcCmd0 else if op = opSendIfCond then cfg.crcCmd8 else cfg.crcDummy

/-- Byte 0 of a frame: `CMD_PREFIX_BITS | opcode` (rule R72). -/
def frameByte0 (cfg : Params) (op : BitVec 6) : Byte := cfg.cmdPrefixBits ||| op.setWidth 8

/-- The six bytes of a command frame in wire order (rules R71 to R74). -/
def frameBytes (cfg : Params) (op : BitVec 6) (arg : Word) : List Byte :=
  [frameByte0 cfg op] ++ wordBytes arg ++ [crcByte cfg op]

/-! ### The decoder -/

/-- A command whose argument is one fixed value (rule R97). -/
def fixedArg (arg want : Word) (i : Instr) : Except DecodeError Instr :=
  if arg = want then .ok i else .error .argument

/-- `ACMD23`: the argument is the zero-extended count, one byte (rules R97, R140). A frame presented by itself carries any byte,
also 0, 1 and 129 to 255, which no write of rule R225 sends (DESIGN CHOICE, assumption 24). -/
def decodeAcmd23 (arg : Word) : Except DecodeError Instr :=
  if arg.extractLsb' 8 24 = 0#24 then .ok (.acmd23 (arg.extractLsb' 0 8)) else .error .argument

/-- `ACMD41`: the argument is 0 or has the HCS bit alone (rules R97, R146); presented by itself either, whatever the card (DESIGN
CHOICE, assumption 24). -/
def decodeAcmd41 (cfg : Params) (arg : Word) : Except DecodeError Instr :=
  if arg = 0#32 then .ok (.acmd41 false) else if arg = cfg.hcsArg then .ok (.acmd41 true) else .error .argument

/-- The closed set of 19 commands (rules R93, R98), by opcode. A frame of `CMD17`, `CMD18`, `CMD24`, `CMD25`, `CMD32` or `CMD33`
carries any 32-bit argument, whatever `TYPE`, also one that is no multiple of 512 where `BLOCK_ADDRESSED` is clear: rules R57 and
R60 give the addresses of the engine's own operations and say nothing of a frame presented by itself (DESIGN CHOICE, assumption
24). -/
def commandOf (cfg : Params) (op : BitVec 6) (arg : Word) : Except DecodeError Instr :=
  if op = opGoIdleState then fixedArg arg 0#32 .cmd0
  else if op = opSendOpCond then fixedArg arg 0#32 .cmd1
  else if op = opSendIfCond then fixedArg arg ifCondArg .cmd8
  else if op = cfg.opSendCsd then fixedArg arg 0#32 .cmd9
  else if op = cfg.opSendCid then fixedArg arg 0#32 .cmd10
  else if op = cfg.opStopTransmission then fixedArg arg 0#32 .cmd12
  else if op = cfg.opSdStatus then fixedArg arg 0#32 .acmd13
  else if op = opSetBlockLen then fixedArg arg blockLenArg .cmd16
  else if op = cfg.opReadSingleBlock then .ok (.cmd17 arg)
  else if op = cfg.opReadMultipleBlock then .ok (.cmd18 arg)
  else if op = cfg.opSetWrBlkEraseCount then decodeAcmd23 arg
  else if op = cfg.opWriteBlock then .ok (.cmd24 arg)
  else if op = cfg.opWriteMultipleBlock then .ok (.cmd25 arg)
  else if op = cfg.opEraseWrBlkStart then .ok (.cmd32 arg)
  else if op = cfg.opEraseWrBlkEnd then .ok (.cmd33 arg)
  else if op = cfg.opErase then fixedArg arg 0#32 .cmd38
  else if op = opSdSendOpCond then decodeAcmd41 cfg arg
  else if op = opAppCmd then fixedArg arg 0#32 .cmd55
  else if op = opReadOcr then fixedArg arg 0#32 .cmd58
  else .error .opcode

/-- A frame of format CMD48 (rule R71). -/
def decodeCommand (cfg : Params) : List Byte → Except DecodeError Instr
  | [b0, b1, b2, b3, b4, b5] =>
    if b0 &&& 0xC0#8 ≠ cfg.cmdPrefixBits then .error .startBits
    else if b5 ≠ crcByte cfg (b0.extractLsb' 0 6) then .error .crcByte
    else commandOf cfg (b0.extractLsb' 0 6) (bytesWord b1 b2 b3 b4)
  | _ => .error .length

/-- A byte the engine sends as a token or to clock the card (rules R84, R85). -/
def decodeTokenTx (cfg : Params) : List Byte → Except DecodeError Instr
  | [b] =>
    if b = startBlockToken then .ok (.tokenStartBlock .toCard)
    else if b = cfg.startMultiToken then .ok .tokenStartMulti
    else if b = cfg.stopMultiToken then .ok .tokenStopMulti
    else if b = cfg.dummyTx then .ok .dummyTx
    else .error .byteValue
  | _ => .error .length

/-- A byte awaited as the token of a received packet (rules R80, R92). -/
def decodeTokenRx : List Byte → Except DecodeError Instr
  | [b] => if b = startBlockToken then .ok (.tokenStartBlock .fromCard) else .error .byteValue
  | _ => .error .length

/-- A byte awaited in a ready wait (rules R85, R92). -/
def decodeReadyRx : List Byte → Except DecodeError Instr
  | [b] => if b = readyByteValue then .ok .readyByte else .error .byteValue
  | _ => .error .length

/-- A byte awaited as R1: valid when bit 7 is 0 (rule R75). -/
def decodeR1Rx : List Byte → Except DecodeError Instr
  | [b] => if b.extractLsb' 7 1 = 0#1 then .ok (.r1Valid (b.extractLsb' 0 7)) else .error .byteValue
  | _ => .error .length

/-- A byte awaited as data response: the low 5 bits are tested, bits 7:5 ignored (rule R83). -/
def decodeDataResponseRx (cfg : Params) : List Byte → Except DecodeError Instr
  | [b] => if b &&& acceptMask = cfg.acceptVal.setWidth 8 then .ok (.dataResponseAccepted (b.extractLsb' 5 3)) else .error .byteValue
  | _ => .error .length

/-- The byte of a buffer handle in a request record (assumption 5). -/
def handleByte : Handle → Byte
  | .null => 0x00#8
  | .given => 0x01#8

/-- A buffer handle from its byte. -/
def decodeHandle (b : Byte) : Except DecodeError Handle :=
  if b = 0x00#8 then .ok .null else if b = 0x01#8 then .ok .given else .error .handle

/-- Rule R228: `read` of one sector is the single-sector row, of any other count the multi-sector row. -/
def readOf (lun : Byte) (buf : Handle) (sector : Word) (count : BitVec 16) : Instr :=
  if count = 1#16 then .readSingle lun buf sector else .readMulti lun buf sector count

/-- Rule R228 for `write`. -/
def writeOf (lun : Byte) (buf : Handle) (sector : Word) (count : BitVec 16) : Instr :=
  if count = 1#16 then .writeSingle lun buf sector else .writeMulti lun buf sector count

/-- Rule R88: the row of an ioctl code. -/
def ioctlOf (cfg : Params) (code lun : Byte) (buf : Handle) : Instr :=
  if code = syncCode then .ioctlSync lun buf
  else if code = sectorCountCode then .ioctlSectorCount lun buf
  else if code = blockSizeCode then .ioctlBlockSize lun buf
  else if code = trimCode then .ioctlTrim lun buf
  else if code = cfg.rawTypeCode then .ioctlRawType lun buf
  else if code = cfg.rawCsdCode then .ioctlRawCsd lun buf
  else if code = cfg.rawCidCode then .ioctlRawCid lun buf
  else if code = cfg.rawOcrCode then .ioctlRawOcr lun buf
  else if code = cfg.rawSdStatusCode then .ioctlRawSdStatus lun buf
  else .ioctlUnknown lun code buf

/-- A host request record: `OP_SEL`, `lun`, `start_sector` (4 bytes), `count` (2 bytes), `code`, `buf`. A field that is absent from
the operation's signature (rule R86) is zero. -/
def decodeHost : List Byte → Except DecodeError Instr
  | [op, lun, s3, s2, s1, s0, c1, c0, code, h] =>
    match op.toNat with
    | 0 => if [s3, s2, s1, s0, c1, c0, code, h] = List.replicate 8 0x00#8 then .ok (.initDrive lun) else .error .absentField
    | 1 => if [s3, s2, s1, s0, c1, c0, code, h] = List.replicate 8 0x00#8 then .ok (.driveStatus lun) else .error .absentField
    | 2 =>
      if code = 0x00#8 then (decodeHandle h).map fun buf => readOf lun buf (bytesWord s3 s2 s1 s0) (c1 ++ c0)
      else .error .absentField
    | 3 =>
      if code = 0x00#8 then (decodeHandle h).map fun buf => writeOf lun buf (bytesWord s3 s2 s1 s0) (c1 ++ c0)
      else .error .absentField
    | 4 =>
      if [s3, s2, s1, s0, c1, c0] = List.replicate 6 0x00#8 then (decodeHandle h).map fun buf => .ioctl lun code buf
      else .error .absentField
    | 5 => if [lun, s3, s2, s1, s0, c1, c0, code, h] = List.replicate 9 0x00#8 then .ok .reservedOp5 else .error .absentField
    | 6 => if [lun, s3, s2, s1, s0, c1, c0, code, h] = List.replicate 9 0x00#8 then .ok .reservedOp6 else .error .absentField
    | 7 => if [lun, s3, s2, s1, s0, c1, c0, code, h] = List.replicate 9 0x00#8 then .ok .reservedOp7 else .error .absentField
    | _ => .error .absentField
  | _ => .error .length

/-- An ioctl request given by its code byte (format IOCTL8), with the other two fields of its signature: `code`, `lun`, `buf`. -/
def decodeIoctlCode (cfg : Params) : List Byte → Except DecodeError Instr
  | [code, lun, h] => (decodeHandle h).map fun buf => ioctlOf cfg code lun buf
  | _ => .error .length

/-- The decoder: total at every port on every list of bytes. -/
def decode (cfg : Params) (port : Port) (bytes : List Byte) : Except DecodeError Instr :=
  match port with
  | .command => decodeCommand cfg bytes
  | .tokenTx => decodeTokenTx cfg bytes
  | .tokenRx => decodeTokenRx bytes
  | .readyRx => decodeReadyRx bytes
  | .r1Rx => decodeR1Rx bytes
  | .dataResponseRx => decodeDataResponseRx cfg bytes
  | .host => decodeHost bytes
  | .ioctlCode => decodeIoctlCode cfg bytes

/-! ### The encoder -/

/-- A host request record (assumption 5). -/
def hostRecord (op lun : Byte) (sector : Word) (count : BitVec 16) (code h : Byte) : List Byte :=
  [op, lun] ++ wordBytes sector ++ [count.extractLsb' 8 8, count.extractLsb' 0 8, code, h]

/-- The port an instruction's record arrives at, and the record's bytes. -/
def encode (cfg : Params) : Instr → Port × List Byte
  | .cmd0 => (.command, frameBytes cfg opGoIdleState 0#32)
  | .cmd1 => (.command, frameBytes cfg opSendOpCond 0#32)
  | .cmd8 => (.command, frameBytes cfg opSendIfCond ifCondArg)
  | .cmd9 => (.command, frameBytes cfg cfg.opSendCsd 0#32)
  | .cmd10 => (.command, frameBytes cfg cfg.opSendCid 0#32)
  | .cmd12 => (.command, frameBytes cfg cfg.opStopTransmission 0#32)
  | .acmd13 => (.command, frameBytes cfg cfg.opSdStatus 0#32)
  | .cmd16 => (.command, frameBytes cfg opSetBlockLen blockLenArg)
  | .cmd17 addr => (.command, frameBytes cfg cfg.opReadSingleBlock addr)
  | .cmd18 addr => (.command, frameBytes cfg cfg.opReadMultipleBlock addr)
  | .acmd23 count => (.command, frameBytes cfg cfg.opSetWrBlkEraseCount (count.setWidth 32))
  | .cmd24 addr => (.command, frameBytes cfg cfg.opWriteBlock addr)
  | .cmd25 addr => (.command, frameBytes cfg cfg.opWriteMultipleBlock addr)
  | .cmd32 addr => (.command, frameBytes cfg cfg.opEraseWrBlkStart addr)
  | .cmd33 addr => (.command, frameBytes cfg cfg.opEraseWrBlkEnd addr)
  | .cmd38 => (.command, frameBytes cfg cfg.opErase 0#32)
  | .acmd41 hcs => (.command, frameBytes cfg opSdSendOpCond (if hcs then cfg.hcsArg else 0#32))
  | .cmd55 => (.command, frameBytes cfg opAppCmd 0#32)
  | .cmd58 => (.command, frameBytes cfg opReadOcr 0#32)
  | .tokenStartBlock .toCard => (.tokenTx, [startBlockToken])
  | .tokenStartBlock .fromCard => (.tokenRx, [startBlockToken])
  | .tokenStartMulti => (.tokenTx, [cfg.startMultiToken])
  | .tokenStopMulti => (.tokenTx, [cfg.stopMultiToken])
  | .dataResponseAccepted high => (.dataResponseRx, [high ++ cfg.acceptVal])
  | .r1Valid flags => (.r1Rx, [0#1 ++ flags])
  | .readyByte => (.readyRx, [readyByteValue])
  | .dummyTx => (.tokenTx, [cfg.dummyTx])
  | .initDrive lun => (.host, hostRecord 0x00#8 lun 0#32 0#16 0x00#8 0x00#8)
  | .driveStatus lun => (.host, hostRecord 0x01#8 lun 0#32 0#16 0x00#8 0x00#8)
  | .readSingle lun buf sector => (.host, hostRecord 0x02#8 lun sector 1#16 0x00#8 (handleByte buf))
  | .readMulti lun buf sector count => (.host, hostRecord 0x02#8 lun sector count 0x00#8 (handleByte buf))
  | .writeSingle lun buf sector => (.host, hostRecord 0x03#8 lun sector 1#16 0x00#8 (handleByte buf))
  | .writeMulti lun buf sector count => (.host, hostRecord 0x03#8 lun sector count 0x00#8 (handleByte buf))
  | .ioctl lun code buf => (.host, hostRecord 0x04#8 lun 0#32 0#16 code (handleByte buf))
  | .reservedOp5 => (.host, hostRecord 0x05#8 0x00#8 0#32 0#16 0x00#8 0x00#8)
  | .reservedOp6 => (.host, hostRecord 0x06#8 0x00#8 0#32 0#16 0x00#8 0x00#8)
  | .reservedOp7 => (.host, hostRecord 0x07#8 0x00#8 0#32 0#16 0x00#8 0x00#8)
  | .ioctlSync lun buf => (.ioctlCode, [syncCode, lun, handleByte buf])
  | .ioctlSectorCount lun buf => (.ioctlCode, [sectorCountCode, lun, handleByte buf])
  | .ioctlBlockSize lun buf => (.ioctlCode, [blockSizeCode, lun, handleByte buf])
  | .ioctlTrim lun buf => (.ioctlCode, [trimCode, lun, handleByte buf])
  | .ioctlRawType lun buf => (.ioctlCode, [cfg.rawTypeCode, lun, handleByte buf])
  | .ioctlRawCsd lun buf => (.ioctlCode, [cfg.rawCsdCode, lun, handleByte buf])
  | .ioctlRawCid lun buf => (.ioctlCode, [cfg.rawCidCode, lun, handleByte buf])
  | .ioctlRawOcr lun buf => (.ioctlCode, [cfg.rawOcrCode, lun, handleByte buf])
  | .ioctlRawSdStatus lun buf => (.ioctlCode, [cfg.rawSdStatusCode, lun, handleByte buf])
  | .ioctlUnknown lun code buf => (.ioctlCode, [code, lun, handleByte buf])

/-! ### The table's words -/

/-- The `n` bytes of a number, most significant first: the opcode table writes a frame as a number whose bit 47 is first on the
wire (rule R71). -/
def bytesOfNat : Nat → Nat → List Byte
  | 0, _ => []
  | n + 1, w => BitVec.ofNat 8 (w / 256 ^ n) :: bytesOfNat n w

/-- The record a table word stands for. A word of 48 bits is a frame. The table's one-byte formats share their words, so a byte
is read as `OP_SEL` below 8, as an ioctl code from 50 to 54, as a token the engine sends at 0xFC to 0xFE, as the ready byte at
0xFF, as a data response where its low five bits are the accepted pattern, and as R1 where its bit 7 is 0 (assumption 6). The
fields the table gives no bits are zero. The table's words are those of the default parameters. -/
def tableRecord (nbits w : Nat) : Option (Port × List Byte) :=
  if nbits = 48 then some (.command, bytesOfNat 6 w)
  else if nbits ≤ 8 then
    let b := BitVec.ofNat 8 w
    if w < 8 then some (.host, b :: List.replicate 9 0x00#8)
    else if 50 ≤ w ∧ w ≤ 54 then some (.ioctlCode, [b, 0x00#8, 0x00#8])
    else if 0xFC ≤ w ∧ w ≤ 0xFE then some (.tokenTx, [b])
    else if w = 0xFF then some (.readyRx, [b])
    else if b &&& acceptMask = Params.default.acceptVal.setWidth 8 then some (.dataResponseRx, [b])
    else some (.r1Rx, [b])
  else none

/-- The instruction the decoder reads, with the default parameters, from a word numbered as spec/opcode_table.json numbers it. -/
def decodeTableWord (nbits w : Nat) : Option Instr :=
  match tableRecord nbits w with
  | none => none
  | some (port, bytes) =>
    match decode Params.default port bytes with
    | .ok i => some i
    | .error _ => none

end Sys2Proof
end

