-- ==== Sys2Proof/Machine/State.lean ====
section
/-! DEFINITION. The state, as plain data: the configured parameters, the session registers, the select level, the sequencer, the
working registers of rule R30, the host buffer, the reply, the wire trace of rule R34, and what the environment has in store
(scripted draws of the two oracles, and the moves of the host and of the media detector). INVENTORY.md lists every field with its
rule. -/

namespace Sys2Proof.Machine

/-- `STATUS`, rule R20: three booleans; the byte form is `Status.toByte` in Flags.lean. -/
structure Status where
  notInitialized : Bool
  noMedium : Bool
  writeProtected : Bool
  deriving DecidableEq, Repr

/-- `TYPE == 0`: no card negotiated (rule R25). -/
def CardType.unknown : CardType := ⟨false, false, false, false, false⟩

/-- `MMCv3` (rule R25). -/
def CardType.ofMmcV3 : CardType := ⟨true, false, false, false, false⟩

/-- `SDv1` (rule R25). -/
def CardType.ofSdV1 : CardType := ⟨false, false, true, false, false⟩

/-- `SDv2`, byte addressed (rule R25). -/
def CardType.ofSdV2 : CardType := ⟨false, false, false, true, false⟩

/-- `SDv2 | BLOCK_ADDRESSED` (rules R25, R26). -/
def CardType.ofSdV2Block : CardType := ⟨false, false, false, true, true⟩

/-- `SEQ`, rules R29 and R191: idle, the states of `initialize`, the other operations by name, and `issuing`, the model's own: a
command or a token presented outside a host operation is in progress (assumption 7). -/
inductive Seq where
  | idle
  | reset
  | idleSent
  | sdv2Probe
  | legacyProbe
  | negotiating
  | ready (ty : CardType)
  | failed
  | reading
  | writing
  | control (code : Byte)
  | issuing
  deriving DecidableEq, Repr

/-- A deadline handle (rules R11, R13): the milliseconds it was set with, and how many more times `Expired` answers false. -/
structure Deadline where
  ms : Nat
  left : Nat
  deriving DecidableEq, Repr

/-- The Command record `CMD` (rule R30): 6-bit opcode, 32-bit argument, application-command flag. -/
structure Command where
  op : BitVec 6
  arg : Word
  acmd : Bool
  deriving DecidableEq, Repr

/-- The working registers of rule R30. `none` is the spec's own state "holds no value" (rules R31, R36), not a missing reset
value. `COUNT` takes the values 0 to 128, and `OFF` the values 0 to 65536 in steps of 512 (rules R14, R30, R57): it is held as the
number of steps, so that no offset is misaligned and none exceeds 65536. `r` and `ok` are the short-named working registers of
rule R12. -/
structure Working where
  cmd : Option Command
  r1 : Option Byte
  nPoll : Option (BitVec 4)
  resp4 : Option Word
  token : Option Byte
  dResp : Option Byte
  count : Option (Fin 129)
  addr : Option Word
  off : Option (Fin 129)
  ty : Option CardType
  initCmd : Option (BitVec 6 × Bool)
  dNeg : Option Deadline
  dPoll : Option Deadline
  csdBuf : Option (List Byte)
  r : Option Byte
  ok : Option Bool
  deriving DecidableEq, Repr

/-- No working register holds a value (rule R36). -/
def Working.empty : Working :=
  ⟨none, none, none, none, none, none, none, none, none, none, none, none, none, none, none, none⟩

/-- The bytes of a host buffer as cells in canonical form: offsets strictly rising, no cell equal to what an unlisted offset
reads as. -/
abbrev Memory := List Host.Cell

/-- The host buffer `BUF` (rule R51): its size in bytes, its bytes, and the pair of sector numbers it carries for `trim`, which the
model takes as a typed pair (rule R254, decision D20; assumption 8). -/
structure Buf where
  size : Nat
  mem : Memory
  pair : Word × Word
  deriving DecidableEq, Repr

/-- Result names of rule R87. -/
inductive Result where
  | ok
  | error
  | writeProtected
  | notReady
  | paramError
  deriving DecidableEq, Repr

/-- A reply on `HOST` (rules R87, R252): a status value, a result, or `OK` with a typed 32-bit value. -/
inductive Reply where
  | status (value : Status)
  | result (value : Result)
  | value (sectors : Word)
  deriving DecidableEq, Repr

/-- A move of the environment (rule R6), the model's own field and no queue of the hardware (rule R331; assumption 7). -/
inductive EnvMove where
  /-- A record is presented at a port: a host request, or a command or token of the sequencer. With it come the sectors its issuer
  has still to transfer beyond the first, so that `COUNT` is 1 to 128 (rule R14), and the sectors it has transferred, so that `OFF`
  is 512 times that and at most 65024 (rules R51, R57); host ports ignore both. -/
  | present (port : Port) (bytes : List Byte) (beyond : Fin 128) (done : Fin 128)
  /-- `MediaEvent` (rule R287): the new levels of `NO_MEDIUM` and `WRITE_PROTECTED`, and whether `NOT_INITIALIZED` is set. -/
  | media (noMedium writeProtected removed : Bool)
  /-- The host fills a buffer between operations (rule R334): its size, the bytes that are not zero, and the trim pair. -/
  | buffer (size : Nat) (cells : List Host.Cell) (pair : Word × Word)
  deriving DecidableEq, Repr

/-- The state of the machine. `params` is fixed for the life of the instance: no step writes it (rule R9, assumption 4). -/
structure State where
  params : Params
  status : Status
  type : CardType
  writeCapable : Bool
  cs : CsLevel
  seq : Seq
  w : Working
  buf : Buf
  reply : Option Reply
  wire : List WireEvent
  settleMs : Nat
  cardIn : List Byte
  cardDraws : Nat
  clockIn : List Nat
  clockDraws : Nat
  agenda : List EnvMove
  deriving DecidableEq, Repr

/-- The error taxonomy of rule R281. -/
inductive SdError where
  | notReady
  | writeProtected
  | paramError
  | ioError
  | initFailed
  deriving DecidableEq, Repr

/-- Working registers a sequence can find without a value. -/
inductive WorkingName where
  | count
  | off
  deriving DecidableEq, Repr

/-- What stops the machine with a fault. -/
inductive Fault where
  /-- A working register that nothing has written in the current operation was read (rule R31, U7). Raised by a bare `CMD18` or
  `CMD25` that comes to `COUNT`, or a bare `TOKEN_START_MULTI`, whose issuer gave no `COUNT` or `OFF`. Safe: the machine stops. -/
  | unwrittenRegister (name : WorkingName)
  /-- `EraseGranularity` of an `SDv1` card shifts by -1 (rule R263, U19: "a fault of the function, not a value"). Raised by
  get-block-size. Safe: the machine stops. -/
  | eraseGranularityShift
  deriving DecidableEq, Repr

/-- What the model refuses. -/
inductive Refusal where
  /-- exec has no meaning for this instruction yet. Safe. -/
  | notModelled (mnemonic : String)
  /-- `OP_SEL` 5 to 7 (rule R91, U5). Raised by the three reserved selectors. Safe: no behaviour is given to what has none. -/
  | reservedOpSel
  /-- A host move while an operation is outstanding (rule R331, U1, U2, U21). Raised by every host request, and by a media or buffer
  move. Safe. -/
  | operationOutstanding
  /-- The buffer is smaller than the operation moves (rules R51, R334, U3). Raised by transfers that touch `BUF`. Safe. -/
  | bufferTooSmall
  /-- `ioctl(trim)` with a null `buf` (rule R250, U4). Safe. -/
  | trimNullBuffer
  /-- `write`, or the transmit half of the transceiver, on a read-only instance (rules R27, R178, U6). Safe. -/
  | writeNotCapable
  /-- The record presented is no instruction (rules R91, R93, U18). Raised by step. Safe. -/
  | undecodable (error : DecodeError)
  deriving DecidableEq, Repr

/-- The buffer at reset: the largest any operation needs (128 * 512 bytes, rule R51), all zero (assumption 9). -/
def Buf.reset : Buf := ⟨65536, [], (0#32, 0#32)⟩

/-- The machine right after reset, rules R36 and R321, with the default parameters of rule R9. -/
def State.reset : State where
  params := Params.default
  status := ⟨true, Config.noMediumAtReset, Config.writeProtectedAtReset⟩
  type := CardType.unknown
  writeCapable := true
  cs := .deasserted
  seq := .idle
  w := Working.empty
  buf := Buf.reset
  reply := none
  wire := []
  settleMs := 0
  cardIn := []
  cardDraws := 0
  clockIn := []
  clockDraws := 0
  agenda := []

end Sys2Proof.Machine
end

