-- ==== Sys2Proof/Machine/Flags.lean ====
section
/-! DEFINITION. Every test the engine makes of a byte or a flag, and the byte forms of the two session registers. -/

namespace Sys2Proof.Machine

/-- One bit of a byte form. -/
def flagBit (b : Bool) (mask : Byte) : Byte := if b then mask else 0x00#8

/-- The byte form of `STATUS`, rule R20 (GK9): by default 0x01, 0x02, 0x04, bits 7 to 3 zero. -/
def Status.toByte (cfg : Params) (v : Status) : Byte :=
  flagBit v.notInitialized cfg.notInitializedMask ||| flagBit v.noMedium cfg.noMediumMask |||
    flagBit v.writeProtected cfg.writeProtectedMask

/-- The byte form of `TYPE`, rule R24 (GK9): by default 0x01, 0x02, 0x04, 0x08, 0x10, bits 7 to 5 zero. -/
def CardType.toByte (cfg : Params) (t : CardType) : Byte :=
  flagBit t.mmcV3 cfg.mmcV3Mask ||| flagBit t.mmcV4 cfg.mmcV4Mask ||| flagBit t.sdV1 cfg.sdV1Mask |||
    flagBit t.sdV2 cfg.sdV2Mask ||| flagBit t.blockAddressed cfg.blockAddressedMask

/-- The numeric form of a result, rule R87 (GK9). -/
def Result.toByte (cfg : Params) : Result → Byte
  | .ok => cfg.okCode
  | .error => cfg.errorCode
  | .writeProtected => cfg.writeProtectedCode
  | .notReady => cfg.notReadyCode
  | .paramError => cfg.paramErrorCode

/-- The values rule R25 allows `TYPE`. -/
def CardType.legal (t : CardType) : Bool :=
  t == CardType.unknown || t == CardType.ofMmcV3 || t == CardType.ofSdV1 || t == CardType.ofSdV2 || t == CardType.ofSdV2Block

/-- "SDC family": `TYPE.SDv1 or TYPE.SDv2` (rules R225, R254). -/
def CardType.isSdc (t : CardType) : Bool := t.sdV1 || t.sdV2

/-- The status a drive index other than 0 is answered with: `STATUS | NOT_INITIALIZED` (rules R190, R205). -/
def Status.forcedNotInitialized (v : Status) : Status := { v with notInitialized := true }

/-- `r[7] == 0`: a response has arrived (rules R75, R76, R125). -/
def r1Arrived (r : Byte) : Bool := r.extractLsb' 7 1 == 0#1

/-- `r > 1`: hard failure of the `CMD55` round trip (rules R76, R121). -/
def r1HardFailure (r : Byte) : Bool := decide (1 < r.toNat)

/-- `r == 1`: in idle state, required of `CMD0` and `CMD8` (rules R76, R193, R194). -/
def r1Idle (r : Byte) : Bool := r == 0x01#8

/-- `r <= 1`: the bare `ACMD41(0)` was understood (rules R76, R196). -/
def r1Understood (r : Byte) : Bool := decide (r.toNat ≤ 1)

/-- `r == 0`: accepted (rule R76). -/
def r1Accepted (r : Byte) : Bool := r == 0x00#8

/-- The card is ready: 0xFF read back (rules R85, R112). -/
def isReady (rx : Byte) : Bool := rx == readyByteValue

/-- No token yet: the line is idle (rules R92, R171). -/
def isNotYetToken (rx : Byte) : Bool := rx == idleLineByte

/-- The token of a received packet (rules R80, R171). -/
def isStartBlock (rx : Byte) : Bool := rx == startBlockToken

/-- The data response is the accepted pattern: `(d & ACCEPT_MASK) == ACCEPT_VAL` (rules R83, R176). -/
def dataAccepted (cfg : Params) (d : Byte) : Bool := d &&& acceptMask == cfg.acceptVal.setWidth 8

/-- Trailing byte `k` of an R7 or R3 response, counted from 0 (rule R55): byte 0 is bits 31:24. -/
def respByte (resp : Word) (k : Nat) : Byte := resp.extractLsb' (24 - 8 * k) 8

/-- The echo test of R7 (rule R78): trailing bytes 2 and 3 are 0x01 and 0xAA. -/
def echoMatches (resp : Word) : Bool := respByte resp 2 == ifCondEchoHigh && respByte resp 3 == ifCondEchoLow

/-- `CCS = RESP4[0][6]`, bit 30 of the OCR (rule R79). -/
def ccsSet (resp : Word) : Bool := (respByte resp 0).extractLsb' 6 1 == 1#1

end Sys2Proof.Machine
end

