-- ==== Sys2Proof/Machine/Operands.lean ====
section
/-! DEFINITION. Operand forms: the address conversion, the command records with their arguments (rule R97), the checks of a host
request's operands, and the configuration functions of rules R262 and R263 with their default definitions (assumption 10). -/

namespace Sys2Proof.Machine

/-- Address conversion, rule R60: the sector number itself on a block-addressed card, else `sector * 512` kept to 32 bits. -/
def convertAddress (t : CardType) (sector : Word) : Word :=
  if t.blockAddressed then sector else sector * 512#32

/-! ### The command records of rules R97 and R98 -/

def goIdleState : Command := ⟨opGoIdleState, 0#32, false⟩
def sendOpCond : Command := ⟨opSendOpCond, 0#32, false⟩
def sendIfCond : Command := ⟨opSendIfCond, ifCondArg, false⟩
def sendCsd (cfg : Params) : Command := ⟨cfg.opSendCsd, 0#32, false⟩
def sendCid (cfg : Params) : Command := ⟨cfg.opSendCid, 0#32, false⟩
def stopTransmission (cfg : Params) : Command := ⟨cfg.opStopTransmission, 0#32, false⟩
def sdStatus (cfg : Params) : Command := ⟨cfg.opSdStatus, 0#32, true⟩
def setBlockLen : Command := ⟨opSetBlockLen, blockLenArg, false⟩
def readSingleBlock (cfg : Params) (addr : Word) : Command := ⟨cfg.opReadSingleBlock, addr, false⟩
def readMultipleBlock (cfg : Params) (addr : Word) : Command := ⟨cfg.opReadMultipleBlock, addr, false⟩
def setWrBlkEraseCount (cfg : Params) (count : Byte) : Command := ⟨cfg.opSetWrBlkEraseCount, count.setWidth 32, true⟩
def writeBlock (cfg : Params) (addr : Word) : Command := ⟨cfg.opWriteBlock, addr, false⟩
def writeMultipleBlock (cfg : Params) (addr : Word) : Command := ⟨cfg.opWriteMultipleBlock, addr, false⟩
def eraseWrBlkStart (cfg : Params) (addr : Word) : Command := ⟨cfg.opEraseWrBlkStart, addr, false⟩
def eraseWrBlkEnd (cfg : Params) (addr : Word) : Command := ⟨cfg.opEraseWrBlkEnd, addr, false⟩
def eraseExecute (cfg : Params) : Command := ⟨cfg.opErase, 0#32, false⟩
def sdSendOpCond (cfg : Params) (hcs : Bool) : Command := ⟨opSdSendOpCond, if hcs then cfg.hcsArg else 0#32, true⟩
def appCmd : Command := ⟨opAppCmd, 0#32, false⟩
def readOcr : Command := ⟨opReadOcr, 0#32, false⟩

/-! ### The checks of a host request -/

/-- `count` within 1 to 128 (rule R220). -/
def countLegal (count : Nat) : Bool := decide (countMin ≤ count) && decide (count ≤ countMax)

/-- The preconditions of `read` and `write` in the order of rule R220: `NotReady`, `ParamError`, and for `write` `WriteProtected`. -/
def ioPreconditions (isWrite : Bool) (lun : Byte) (buf : Handle) (count : Nat) (v : Status) : Option SdError :=
  if v.notInitialized then some .notReady
  else if lun ≠ lunIndex ∨ buf = .null ∨ countLegal count = false then some .paramError
  else if isWrite = true ∧ v.writeProtected = true then some .writeProtected
  else none

/-- `sync` and `trim` make no null test (rule R250). -/
def ioctlNeedsBuf (code : Byte) : Bool := code != syncCode && code != trimCode

/-- The preconditions of `ioctl` in the order of rule R250: `NotReady`, then `ParamError` for the drive index, for an unknown code,
for a null buffer where one is required. -/
def ioctlPreconditions (cfg : Params) (lun code : Byte) (buf : Handle) (v : Status) : Option SdError :=
  if v.notInitialized then some .notReady
  else if lun ≠ lunIndex then some .paramError
  else if (ioctlCodes cfg).contains code = false then some .paramError
  else if buf = .null ∧ ioctlNeedsBuf code = true then some .paramError
  else none

/-- The bytes of `BUF` a request by code moves (rule R51); the typed values of rules R252 to R254 move none (decision D20). -/
def ioctlBufBytes (cfg : Params) (code : Byte) : Nat :=
  if code = cfg.rawTypeCode then 1
  else if code = cfg.rawCsdCode ∨ code = cfg.rawCidCode then registerLength
  else if code = cfg.rawOcrCode then ocrLength
  else if code = cfg.rawSdStatusCode then sdStatusLength
  else 0

/-! ### The configuration functions -/

/-- Byte `k` of a received register, counted from 0. -/
def regByte (reg : List Byte) (k : Nat) : Byte := reg.getD k 0x00#8

/-- Byte `k` of a received register in 32-bit arithmetic (rule R262). -/
def regWord (reg : List Byte) (k : Nat) : Word := (regByte reg k).setWidth 32

/-- The structure-version bits `csd[0][7:6]` (rule R262). -/
def csdVersion (csd : List Byte) : BitVec 2 := (regByte csd 0).extractLsb' 6 2

/-- The 22-bit size field of a version-2 CSD (rule R262). -/
def csdSizeV2 (csd : List Byte) : Word :=
  regWord csd 9 + (regWord csd 8 <<< 8) + ((regWord csd 7 &&& 0x3F#32) <<< 16)

/-- The size field of a version-1 or MMC CSD (rule R262). -/
def csdSizeV1 (csd : List Byte) : Word :=
  (regWord csd 8 >>> 6) + (regWord csd 7 <<< 2) + ((regWord csd 6 &&& 0x03#32) <<< 10)

/-- The exponent `n` of a version-1 or MMC CSD (rule R262). -/
def csdExponentV1 (csd : List Byte) : Nat :=
  ((regWord csd 5 &&& 0x0F#32) + ((regWord csd 10 &&& 0x80#32) >>> 7) + ((regWord csd 9 &&& 0x03#32) <<< 1) + 2#32).toNat

/-- The default `CsdCapacity` of rule R262. Where `n < 9` the rule's shift by `n - 9` has no stated result: a free value
(assumption 11). -/
def csdCapacityDefault (csd : List Byte) : Word :=
  if csdVersion csd = 1#2 then (csdSizeV2 csd + 1#32) <<< 10
  else if 9 ≤ csdExponentV1 csd then (csdSizeV1 csd + 1#32) <<< (csdExponentV1 csd - 9)
  else Config.csdCapacityBelowSector csd

/-- The default `EraseEnabled` of rule R262. -/
def eraseEnabledDefault (csd : List Byte) : Bool :=
  csdVersion csd != 0#2 || regByte csd 10 &&& 0x40#8 != 0x00#8

/-- The default `EraseGranularity` of rule R263. `none` is the rule's "fault of the function": `SDv1` with a shift by -1. -/
def eraseGranularityDefault (t : CardType) (reg : List Byte) : Option Word :=
  if t.sdV2 then some (16#32 <<< (regByte reg 10 >>> 4).toNat)
  else if t.sdV1 then
    if (regByte reg 13 >>> 6).toNat = 0 then none
    else some ((((regWord reg 10 &&& 0x3F#32) <<< 1) + ((regWord reg 11 &&& 0x80#32) >>> 7) + 1#32) <<<
      ((regByte reg 13 >>> 6).toNat - 1))
  else some ((((regWord reg 10 &&& 0x7C#32) >>> 2) + 1#32) *
    ((((regWord reg 11 &&& 0x03#32) <<< 3) + ((regWord reg 11 &&& 0xE0#32) >>> 5)) + 1#32))

/-- `CsdCapacity` of the instance (rules R9, R252, R262). -/
def csdCapacity (cfg : Params) (csd : List Byte) : Word :=
  match cfg.registerFunctions with
  | .specDefault => csdCapacityDefault csd
  | .configured => Config.csdCapacity csd

/-- `EraseEnabled` of the instance (rules R254, R262). -/
def eraseEnabled (cfg : Params) (csd : List Byte) : Bool :=
  match cfg.registerFunctions with
  | .specDefault => eraseEnabledDefault csd
  | .configured => Config.eraseEnabled csd

/-- `EraseGranularity` of the instance (rules R9, R253, R263); a configured one is total. -/
def eraseGranularity (cfg : Params) (t : CardType) (reg : List Byte) : Option Word :=
  match cfg.registerFunctions with
  | .specDefault => eraseGranularityDefault t reg
  | .configured => some (Config.eraseGranularity t reg)

end Sys2Proof.Machine
end

