-- ==== Sys2Proof/Machine/Ops.lean ====
section
/-! DEFINITION. The named operations: reads and writes of `BUF`, the primitives of rule R11, the chip-select controller (rules
R110 to R113), the command dispatcher (rules R120 to R125), the data block transceiver (rules R171 to R177), and the error exit
(rule R289) beside the return. Every one is a total function: an exchange always returns (decision D6) and every wait is bounded
(rule R333), so a procedure ends with its result and the state it leaves. -/

namespace Sys2Proof.Machine

/-! ### The host buffer -/

/-- What an offset that no cell lists reads as (assumption 9). -/
def unlistedByte : Byte := 0x00#8

/-- The byte at an offset. -/
def memRead (m : Memory) (a : Nat) : Byte :=
  match m with
  | [] => unlistedByte
  | (k, v) :: rest => if k = a then v else memRead rest a

/-- A cell put in front, unless it holds what an unlisted offset reads as. -/
def memCons (a : Nat) (b : Byte) (m : Memory) : Memory := if b = unlistedByte then m else (a, b) :: m

/-- Write one byte, keeping the canonical form. -/
def memWrite (m : Memory) (a : Nat) (b : Byte) : Memory :=
  match m with
  | [] => memCons a b []
  | (k, v) :: rest =>
    if a < k then memCons a b ((k, v) :: rest)
    else if a = k then memCons a b rest
    else (k, v) :: memWrite rest a b

/-- The canonical form: offsets strictly rising above `low`, no cell equal to the unlisted byte. -/
def memWfFrom : Nat → Memory → Bool
  | _, [] => true
  | low, (k, v) :: rest => decide (low ≤ k) && v != unlistedByte && memWfFrom (k + 1) rest

/-- The canonical form of a buffer's cells. -/
def Memory.wf (m : Memory) : Bool := memWfFrom 0 m

/-- A memory from any list of cells, in canonical form whatever the list. -/
def memOfCells (cells : List Host.Cell) : Memory := cells.foldl (fun m c => memWrite m c.1 c.2) []

/-- `MemRead(BUF, off, 1)`. -/
def bufRead (off : Nat) (s : State) : Byte := memRead s.buf.mem off

/-- `MemWrite(BUF, off, 1, b)`. -/
def bufWrite (off : Nat) (b : Byte) (s : State) : State :=
  { s with buf := { s.buf with mem := memWrite s.buf.mem off b } }

/-- The buffer has at least `n` bytes (rules R51, R334). -/
def bufFits (n : Nat) (s : State) : Bool := decide (n ≤ s.buf.size)

/-! ### Working registers (rule R30) and the sequencer (rule R29) -/

def setCmd (c : Command) (s : State) : State := { s with w := { s.w with cmd := some c } }
def setR1 (v : Byte) (s : State) : State := { s with w := { s.w with r1 := some v } }
def setNPoll (n : Nat) (s : State) : State := { s with w := { s.w with nPoll := some (BitVec.ofNat 4 n) } }
def setResp4 (v : Word) (s : State) : State := { s with w := { s.w with resp4 := some v } }
def setToken (v : Byte) (s : State) : State := { s with w := { s.w with token := some v } }
def setDResp (v : Byte) (s : State) : State := { s with w := { s.w with dResp := some v } }
def setCount (n : Nat) (s : State) : State := { s with w := { s.w with count := some (Fin.ofNat 129 n) } }
def setAddr (v : Word) (s : State) : State := { s with w := { s.w with addr := some v } }
def setOff (off : Nat) (s : State) : State := { s with w := { s.w with off := some (Fin.ofNat 129 (off / sectorSize)) } }
def setTy (t : CardType) (s : State) : State := { s with w := { s.w with ty := some t } }
def setInitCmd (op : BitVec 6) (acmd : Bool) (s : State) : State := { s with w := { s.w with initCmd := some (op, acmd) } }
def setDNeg (d : Deadline) (s : State) : State := { s with w := { s.w with dNeg := some d } }
def setDPoll (d : Deadline) (s : State) : State := { s with w := { s.w with dPoll := some d } }
def setCsdBuf (bytes : List Byte) (s : State) : State := { s with w := { s.w with csdBuf := some bytes } }
def setR (v : Byte) (s : State) : State := { s with w := { s.w with r := some v } }
def setOk (v : Bool) (s : State) : State := { s with w := { s.w with ok := some v } }
def setSeq (q : Seq) (s : State) : State := { s with seq := q }

/-! ### The primitives of rule R11 -/

/-- The next draw of the Card oracle (rule R13): the scripted byte, else the free value of assumption 1. -/
def nextRx (tx : Byte) (s : State) : Byte :=
  match s.cardIn with
  | b :: _ => b
  | [] => Config.cardByte s.cardDraws s.wire tx

/-- `Xchg(tx) -> rx`. -/
def xchg (tx : Byte) (s : State) : Byte × State :=
  (nextRx tx s,
    { s with
      cardIn := s.cardIn.tail
      cardDraws := s.cardDraws + 1
      wire := .xchg tx (nextRx tx s) :: s.wire })

/-- An exchange whose received byte is discarded. -/
def send (tx : Byte) (s : State) : State := (xchg tx s).2

/-- Exchanges whose received bytes are discarded, in order. -/
def sendAll : List Byte → State → State
  | [], s => s
  | b :: rest, s => sendAll rest (send b s)

/-- `n` exchanges of `DUMMY_TX`, received bytes discarded. -/
def sendDummies (cfg : Params) (n : Nat) (s : State) : State := sendAll (List.replicate n cfg.dummyTx) s

/-- `CsOn()`: the level, then the settle delay (rule R110). -/
def csOn (s : State) : State :=
  { s with cs := .asserted, settleMs := s.settleMs + tSettleMs, wire := .cs .asserted :: s.wire }

/-- `CsOff()`: the level, then the settle delay (rule R110). -/
def csOff (s : State) : State :=
  { s with cs := .deasserted, settleMs := s.settleMs + tSettleMs, wire := .cs .deasserted :: s.wire }

/-- How many times a deadline set now will be found unexpired: the scripted number, else the free value of assumption 2. -/
def nextExpiry (ms : Nat) (s : State) : Nat :=
  match s.clockIn with
  | n :: _ => n
  | [] => Config.expiryCount s.clockDraws s.wire ms

/-- `SetDeadline(n) -> d`. It appends nothing to the wire trace. -/
def setDeadline (ms : Nat) (s : State) : Deadline × State :=
  (⟨ms, nextExpiry ms s⟩, { s with clockIn := s.clockIn.tail, clockDraws := s.clockDraws + 1 })

/-- `Expired(d) -> bool`: the answer and the handle after it (rule R13). -/
def expired (d : Deadline) : Bool × Deadline :=
  match d.left with
  | 0 => (true, d)
  | k + 1 => (false, { d with left := k })

/-- `RecvBlock(off, len)` into `BUF`: `len` exchanges of `FILL_BYTE` in ascending offset order. -/
def recvBlock (cfg : Params) : Nat → Nat → State → State
  | _, 0, s => s
  | off, n + 1, s => recvBlock cfg (off + 1) n (bufWrite off (xchg cfg.fillByte s).1 (xchg cfg.fillByte s).2)

/-- `RecvBlock` into `CSDBUF`: the bytes received, in order. -/
def recvBytes (cfg : Params) : Nat → State → List Byte × State
  | 0, s => ([], s)
  | n + 1, s => ((xchg cfg.fillByte s).1 :: (recvBytes cfg n (xchg cfg.fillByte s).2).1, (recvBytes cfg n (xchg cfg.fillByte s).2).2)

/-- `XmitBlock(off, len)`: `len` exchanges of the bytes of `BUF` in ascending offset order. -/
def xmitBlock : Nat → Nat → State → State
  | _, 0, s => s
  | off, n + 1, s => xmitBlock (off + 1) n (send (bufRead off s) s)

/-! ### The chip-select controller -/

/-- `Deselect()`, rule R111. -/
def deselect (cfg : Params) (s : State) : State := send cfg.dummyTx (csOff s)

/-- The loop of rule R112, with the number of false answers `D_POLL` has left: exchange, test the byte, test the deadline. -/
def waitReadyLoop (cfg : Params) (ms : Nat) : Nat → State → Bool × State
  | 0, s => (isReady (xchg cfg.dummyTx s).1, (xchg cfg.dummyTx s).2)
  | k + 1, s =>
    if isReady (xchg cfg.dummyTx s).1 then (true, (xchg cfg.dummyTx s).2)
    else waitReadyLoop cfg ms k (setDPoll ⟨ms, k⟩ (xchg cfg.dummyTx s).2)

/-- `WaitReady(t_ms) -> bool`, rule R112. -/
def waitReady (cfg : Params) (ms : Nat) (s : State) : Bool × State :=
  waitReadyLoop cfg ms (setDeadline ms s).1.left (setDPoll (setDeadline ms s).1 (setDeadline ms s).2)

/-- `Select() -> bool`, rule R113. -/
def select (cfg : Params) (s : State) : Bool × State := waitReady cfg tReadyMs (send cfg.dummyTx (csOn (deselect cfg s)))

/-! ### The command dispatcher -/

/-- The loop of rule R125, with the polls left after this one: stop at the first byte with bit 7 clear, or at the last poll. -/
def pollR1Loop (cfg : Params) : Nat → State → Byte × State
  | 0, s => ((xchg cfg.dummyTx s).1, setNPoll 0 (setR1 (xchg cfg.dummyTx s).1 (xchg cfg.dummyTx s).2))
  | n + 1, s =>
    if r1Arrived (xchg cfg.dummyTx s).1 then
      ((xchg cfg.dummyTx s).1, setNPoll (n + 1) (setR1 (xchg cfg.dummyTx s).1 (xchg cfg.dummyTx s).2))
    else pollR1Loop cfg n (setNPoll (n + 1) (setR1 (xchg cfg.dummyTx s).1 (xchg cfg.dummyTx s).2))

/-- The response poll, rule R125. -/
def pollR1 (cfg : Params) (s : State) : Byte × State := pollR1Loop cfg (nR1Poll - 1) (setNPoll nR1Poll s)

/-- The opcode whose dispatch skips the bracket and discards a stuff byte (rules R90, R122, R124). -/
def isStop (cfg : Params) (c : Command) : Bool := c.op == cfg.opStopTransmission

/-- The six exchanges of the frame, rule R123. -/
def sendFrame (cfg : Params) (c : Command) (s : State) : State := sendAll (frameBytes cfg c.op c.arg) s

/-- One frame and its response: the bracket (rule R122), the frame (R123), the stuff byte (R124), the poll (R125). -/
def sendOne (cfg : Params) (c : Command) (s : State) : Byte × State :=
  if isStop cfg c then pollR1 cfg (send cfg.dummyTx (sendFrame cfg c (setCmd c s)))
  else if (select cfg (setCmd c s)).1 then pollR1 cfg (sendFrame cfg c (select cfg (setCmd c s)).2)
  else (responseFailure, (select cfg (setCmd c s)).2)

/-- An application command: the `CMD55` round trip, then the target unless the round trip failed hard (rule R121). -/
def sendApp (cfg : Params) (c : Command) (s : State) : Byte × State :=
  if r1HardFailure (sendOne cfg appCmd s).1 then sendOne cfg appCmd s else sendOne cfg c (sendOne cfg appCmd s).2

/-- `SendCmd(op, arg, acmd) -> r`, rule R120. -/
def sendCmd (cfg : Params) (c : Command) (s : State) : Byte × State :=
  if c.acmd then ((sendApp cfg c s).1, setR (sendApp cfg c s).1 (sendApp cfg c s).2)
  else ((sendOne cfg c s).1, setR (sendOne cfg c s).1 (sendOne cfg c s).2)

/-- Four trailing bytes of an R7 or R3 response into `RESP4`, most significant first (rules R55, R77). -/
def readTrailing (cfg : Params) (s : State) : Word × State :=
  let p0 := xchg cfg.dummyTx s
  let p1 := xchg cfg.dummyTx p0.2
  let p2 := xchg cfg.dummyTx p1.2
  let p3 := xchg cfg.dummyTx p2.2
  (bytesWord p0.1 p1.1 p2.1 p3.1, setResp4 (bytesWord p0.1 p1.1 p2.1 p3.1) p3.2)

/-! ### The data block transceiver -/

/-- The token wait of rule R171, with the number of false answers `D_POLL` has left: exchange, test the byte, test the deadline. -/
def tokenWaitLoop (cfg : Params) (ms : Nat) : Nat → State → Byte × State
  | 0, s => ((xchg cfg.dummyTx s).1, setToken (xchg cfg.dummyTx s).1 (xchg cfg.dummyTx s).2)
  | k + 1, s =>
    if isNotYetToken (xchg cfg.dummyTx s).1 then
      tokenWaitLoop cfg ms k (setDPoll ⟨ms, k⟩ (setToken (xchg cfg.dummyTx s).1 (xchg cfg.dummyTx s).2))
    else ((xchg cfg.dummyTx s).1, setToken (xchg cfg.dummyTx s).1 (xchg cfg.dummyTx s).2)

/-- The token wait with its deadline, rule R171. -/
def tokenWait (cfg : Params) (s : State) : Byte × State :=
  tokenWaitLoop cfg tTokenMs (setDeadline tTokenMs s).1.left (setDPoll (setDeadline tTokenMs s).1 (setDeadline tTokenMs s).2)

/-- `RecvDataBlock(off, len) -> bool` into `BUF`, rule R171. The two bytes after the payload are discarded (rule R173). -/
def recvDataBlock (cfg : Params) (off len : Nat) (s : State) : Bool × State :=
  if isStartBlock (tokenWait cfg s).1 then (true, sendDummies cfg 2 (recvBlock cfg off len (tokenWait cfg s).2))
  else (false, (tokenWait cfg s).2)

/-- `RecvDataBlock` of a 16-byte register into `CSDBUF`, rules R171, R252 to R254: the bytes, when the packet came. -/
def recvRegister (cfg : Params) (s : State) : Option (List Byte) × State :=
  if isStartBlock (tokenWait cfg s).1 then
    (some (recvBytes cfg registerLength (tokenWait cfg s).2).1,
      sendDummies cfg 2 (setCsdBuf (recvBytes cfg registerLength (tokenWait cfg s).2).1 (recvBytes cfg registerLength
        (tokenWait cfg s).2).2))
  else (none, (tokenWait cfg s).2)

/-- The data response, rule R176: the single byte exchanged now is tested. -/
def dataResponse (cfg : Params) (s : State) : Bool × State :=
  (dataAccepted cfg (xchg cfg.dummyTx s).1, setDResp (xchg cfg.dummyTx s).1 (xchg cfg.dummyTx s).2)

/-- The payload, the two dummy CRC bytes and the data response of a transmitted packet, rules R81 and R175. -/
def xmitPayload (cfg : Params) (off : Nat) (s : State) : Bool × State :=
  dataResponse cfg (sendAll [cfg.crcPlaceholderTx, cfg.crcPlaceholderTx] (xmitBlock off sectorSize s))

/-- `XmitDataBlock(off, token) -> bool`, rules R175 and R177. `TOKEN` is written before the ready wait, and so also where the wait
times out and nothing is sent: rule R175 names it as written and its pseudocode does not say when (DESIGN CHOICE, assumption 21). -/
def xmitDataBlock (cfg : Params) (off : Nat) (token : Byte) (s : State) : Bool × State :=
  let ready := waitReady cfg tReadyMs (setToken token s)
  if ready.1 then
    if token = cfg.stopMultiToken then (true, send token ready.2)
    else xmitPayload cfg off (send token ready.2)
  else (false, ready.2)

/-! ### Launch, error exit and return -/

/-- A host operation that passed its checks starts: no working register holds a value (rule R31), and `SEQ` names it (rule R29). -/
def beginOperation (q : Seq) (s : State) : State := { s with w := Working.empty, seq := q, reply := none }

/-- A reply given at once, nothing else changed (rule R289). -/
def replyAtOnce (r : Reply) (s : State) : State := { s with reply := some r }

/-- The return of an operation that touched the transport: the final `Deselect`, `SEQ <- IDLE`, the reply (rules R226, R261). -/
def finishOperation (cfg : Params) (r : Reply) (s : State) : State := { deselect cfg s with seq := .idle, reply := some r }

/-- The finish of `initialize`, rule R200: `TYPE <- TY`, `Deselect`, `NOT_INITIALIZED` set iff the type is 0, the reply is
`STATUS`. -/
def finishInitialize (cfg : Params) (ty : CardType) (s : State) : State :=
  let t := deselect cfg { s with type := ty, w := { s.w with ty := some ty } }
  let v : Status := { t.status with notInitialized := ty == CardType.unknown }
  { t with status := v, seq := .idle, reply := some (.status v) }

/-- The error exit path, rules R281 and R289: a precondition error replies at once, an `IOError` deselects and replies `ERROR`, an
`InitFailed` is the finish of rule R200 with type 0. -/
def raiseError (cfg : Params) (e : SdError) (s : State) : State :=
  match e with
  | .notReady => replyAtOnce (.result .notReady) s
  | .paramError => replyAtOnce (.result .paramError) s
  | .writeProtected => replyAtOnce (.result .writeProtected) s
  | .ioError => finishOperation cfg (.result .error) s
  | .initFailed => finishInitialize cfg CardType.unknown s

/-- The end of every `ioctl` that passed its checks, rule R261: `OK` or `IOError`, so the reply is the spec's. The pseudocode of
rules R252 to R259 tests `ok` also on a path that has written none, where a command or a packet failed, and rule R31 has no rule
read an unwritten register: that `ok` is written there too, with false, is the model's, and so is that the type-byte query, for
which rule R255 writes no `ok`, ends with `ok` true (DESIGN CHOICE, assumption 13). -/
def endControl (cfg : Params) (ok : Bool) (s : State) : State :=
  if ok then finishOperation cfg (.result .ok) (setOk true s) else raiseError cfg .ioError (setOk false s)

/-- The end of every `read` and `write` that passed its checks, rule R226: `OK` iff `COUNT` reached 0. -/
def endTransfer (cfg : Params) (s : State) : State :=
  if s.w.count = some 0 then finishOperation cfg (.result .ok) s else raiseError cfg .ioError s

/-- The issuer of a command or token presented outside a host operation (assumption 7): from idle a new sequence begins, and
`COUNT` and `OFF` are the issuer's. It has a sector to transfer and `beyond` more, `COUNT` 1 to 128 (rule R14), and has transferred
`done`, `OFF` a multiple of 512 of at most 65024 (rules R51, R57). -/
def issuerPrepares (beyond done : Fin 128) (s : State) : State :=
  let t := if s.seq = .idle then { s with w := Working.empty, seq := .issuing } else s
  { t with w := { t.w with count := some beyond.succ, off := some done.castSucc } }

/-- `MediaEvent`, rule R287: the two inputs take their levels, and `NOT_INITIALIZED` may be set, never cleared. -/
def mediaEvent (noMedium writeProtected removed : Bool) (s : State) : State :=
  { s with status := ⟨s.status.notInitialized || removed, noMedium, writeProtected⟩ }

/-- The host fills its buffer between operations (rule R334). -/
def fillBuffer (size : Nat) (cells : List Host.Cell) (pair : Word × Word) (s : State) : State :=
  { s with buf := ⟨size, memOfCells cells, pair⟩ }

end Sys2Proof.Machine
end

