-- ==== Sys2Proof/Machine/CardCommands.lean ====
section
/-! DEFINITION. The 19 card commands (rules R130 to R148). First the transactions, a command with what its rule says follows the
response; the host operations and the bare commands share them. Then one meaning per command row: a bare command runs its
transaction and leaves the line as it is, the final `Deselect` being the issuer's (rule R127, assumption 7). It tests neither the
`STATUS` flags nor `TYPE`, which rules R62, R220, R250 and R254 put on the host operations (DESIGN CHOICE, assumption 25). -/

namespace Sys2Proof.Machine

/-! ### Transactions -/

/-- `CMD8` and, when it returned 1, the four trailing bytes of R7 (rules R132, R195): the trailing value when it was read. -/
def ifCondTransaction (cfg : Params) (s : State) : Option Word × State :=
  if r1Idle (sendCmd cfg sendIfCond s).1 then
    (some (readTrailing cfg (sendCmd cfg sendIfCond s).2).1, (readTrailing cfg (sendCmd cfg sendIfCond s).2).2)
  else (none, (sendCmd cfg sendIfCond s).2)

/-- `CMD58` and, when accepted, the four trailing bytes of R3 (rules R148, R198, R258): the OCR when it was read. -/
def ocrTransaction (cfg : Params) (s : State) : Option Word × State :=
  if r1Accepted (sendCmd cfg readOcr s).1 then
    (some (readTrailing cfg (sendCmd cfg readOcr s).2).1, (readTrailing cfg (sendCmd cfg readOcr s).2).2)
  else (none, (sendCmd cfg readOcr s).2)

/-- `CMD9` and, when accepted, the CSD into `CSDBUF` (rules R133, R252 to R254): the 16 bytes when they came. -/
def csdTransaction (cfg : Params) (s : State) : Option (List Byte) × State :=
  if r1Accepted (sendCmd cfg (sendCsd cfg) s).1 then recvRegister cfg (sendCmd cfg (sendCsd cfg) s).2 else (none,
    (sendCmd cfg (sendCsd cfg) s).2)

/-- A command and, when accepted, one received packet of `len` bytes to the start of `BUF` (rules R133, R134, R138, R222, R256,
R257). -/
def recvTransaction (cfg : Params) (c : Command) (len : Nat) (s : State) : Bool × State :=
  if r1Accepted (sendCmd cfg c s).1 then recvDataBlock cfg 0 len (sendCmd cfg c s).2 else (false, (sendCmd cfg c s).2)

/-- `ACMD13` and, when accepted, the second byte of R2S, discarded, and the 64-byte packet to `BUF` (rules R136, R259). -/
def sdStatusTransaction (cfg : Params) (s : State) : Bool × State :=
  if r1Accepted (sendCmd cfg (sdStatus cfg) s).1 then recvDataBlock cfg 0 sdStatusLength (send cfg.dummyTx (sendCmd cfg (sdStatus cfg) s).2)
  else (false, (sendCmd cfg (sdStatus cfg) s).2)

/-- `ACMD13` for get-block-size on `SDv2` (rule R253): the second byte of R2S, the first 16 bytes into `CSDBUF`, 48 bytes purged. -/
def sdStatusHeadTransaction (cfg : Params) (s : State) : Option (List Byte) × State :=
  if r1Accepted (sendCmd cfg (sdStatus cfg) s).1 then
    let p := recvRegister cfg (send cfg.dummyTx (sendCmd cfg (sdStatus cfg) s).2)
    match p.1 with
    | some reg => (some reg, sendDummies cfg sdStatusPurge p.2)
    | none => (none, p.2)
  else (none, (sendCmd cfg (sdStatus cfg) s).2)

/-- The receive loop of rule R223 with `COUNT` sectors left: it breaks at the first failed receive. With none left it moves none,
where the rule's loop moves one before it tests `COUNT`: no launch and no issuer gives 0 (rule R14; DESIGN CHOICE, assumption 23).
-/
def recvSectors (cfg : Params) : Nat → Nat → State → State
  | 0, _, s => s
  | n + 1, off, s =>
    if (recvDataBlock cfg off sectorSize s).1 then
      recvSectors cfg n (off + sectorSize) (setCount n (setOff (off + sectorSize) (recvDataBlock cfg off sectorSize s).2))
    else (recvDataBlock cfg off sectorSize s).2

/-- `CMD18` and, when accepted, the received sectors and `STOP_TRANSMISSION` in the same bracket, its result ignored (rules R135,
R139, R223). -/
def readMultiTransaction (cfg : Params) (addr : Word) (count : Nat) (s : State) : State :=
  if r1Accepted (sendCmd cfg (readMultipleBlock cfg addr) s).1 then
    (sendCmd cfg (stopTransmission cfg) (recvSectors cfg count 0 (setOff 0 (sendCmd cfg (readMultipleBlock cfg addr) s).2))).2
  else (sendCmd cfg (readMultipleBlock cfg addr) s).2

/-- Whether a multi-sector read comes to its `COUNT <- COUNT - 1`, the first place where rule R223 reads `COUNT`: `CMD18` was
accepted and the first sector came. Before that nothing of it depends on `COUNT`. -/
def readReachesCount (cfg : Params) (addr : Word) (s : State) : Bool :=
  r1Accepted (sendCmd cfg (readMultipleBlock cfg addr) s).1 &&
    (recvDataBlock cfg 0 sectorSize (setOff 0 (sendCmd cfg (readMultipleBlock cfg addr) s).2)).1

/-- `CMD24` and, when accepted, one transmitted packet from the start of `BUF` (rules R141, R224). -/
def writeSingleTransaction (cfg : Params) (addr : Word) (s : State) : Bool × State :=
  if r1Accepted (sendCmd cfg (writeBlock cfg addr) s).1 then xmitDataBlock cfg 0 startBlockToken (sendCmd cfg (writeBlock cfg addr) s).2
  else (false, (sendCmd cfg (writeBlock cfg addr) s).2)

/-- The transmit loop of rule R225 with `COUNT` sectors left: it breaks at the first failed transmit. With none left it moves
none, as `recvSectors` (DESIGN CHOICE, assumption 23). -/
def xmitSectors (cfg : Params) : Nat → Nat → State → State
  | 0, _, s => s
  | n + 1, off, s =>
    if (xmitDataBlock cfg off cfg.startMultiToken s).1 then
      xmitSectors cfg n (off + sectorSize) (setCount n (setOff (off + sectorSize) (xmitDataBlock cfg off cfg.startMultiToken s).2))
    else (xmitDataBlock cfg off cfg.startMultiToken s).2

/-- The stop token of rule R225: its failure makes `COUNT` 1. -/
def closeWriteStream (cfg : Params) (s : State) : State :=
  if (xmitDataBlock cfg 0 cfg.stopMultiToken s).1 then (xmitDataBlock cfg 0 cfg.stopMultiToken s).2
  else setCount 1 (xmitDataBlock cfg 0 cfg.stopMultiToken s).2

/-- `CMD25` and, when accepted, the transmitted sectors and the stop token (rules R142, R225). -/
def writeMultiTransaction (cfg : Params) (addr : Word) (count : Nat) (s : State) : State :=
  if r1Accepted (sendCmd cfg (writeMultipleBlock cfg addr) s).1 then
    closeWriteStream cfg (xmitSectors cfg count 0 (setOff 0 (sendCmd cfg (writeMultipleBlock cfg addr) s).2))
  else (sendCmd cfg (writeMultipleBlock cfg addr) s).2

/-- Whether a multi-sector write comes to its `COUNT <- COUNT - 1`, the first place where rule R225 reads `COUNT`: `CMD25` was
accepted and so was the first packet. -/
def writeReachesCount (cfg : Params) (addr : Word) (s : State) : Bool :=
  r1Accepted (sendCmd cfg (writeMultipleBlock cfg addr) s).1 &&
    (xmitDataBlock cfg 0 cfg.startMultiToken (setOff 0 (sendCmd cfg (writeMultipleBlock cfg addr) s).2)).1

/-- `CMD38` and, when accepted, the erase wait in the same bracket (rules R145, R254). -/
def eraseTransaction (cfg : Params) (s : State) : Bool × State :=
  if r1Accepted (sendCmd cfg (eraseExecute cfg) s).1 then waitReady cfg tEraseMs (sendCmd cfg (eraseExecute cfg) s).2
  else (false, (sendCmd cfg (eraseExecute cfg) s).2)

/-! ### Bare commands -/

/-- A command whose rule has nothing follow its R1 (rules R120, R127). -/
def bareCommand (cfg : Params) (c : Command) (s : State) : Host.Outcome State Fault Refusal := .next (sendCmd cfg c s).2

/-- The outcome of a transaction whose success is a boolean, kept in `ok` (rule R12). -/
def bareResult (p : Bool × State) : Host.Outcome State Fault Refusal := .next (setOk p.1 p.2)

/-- `GO_IDLE_STATE`, rule R130. -/
def execCmd0 (s : State) : Host.Outcome State Fault Refusal := bareCommand s.params goIdleState s

/-- `SEND_OP_COND`, rule R131. -/
def execCmd1 (s : State) : Host.Outcome State Fault Refusal := bareCommand s.params sendOpCond s

/-- `SEND_IF_COND`, rule R132: the four trailing bytes are read when R1 is 1, and the echo test gives `ok` (rule R78). -/
def execCmd8 (s : State) : Host.Outcome State Fault Refusal :=
  bareResult ((ifCondTransaction s.params s).1.elim false echoMatches, (ifCondTransaction s.params s).2)

/-- `SEND_CSD`, rule R133: the packet goes to `CSDBUF` (DESIGN CHOICE, assumption 18). -/
def execCmd9 (s : State) : Host.Outcome State Fault Refusal :=
  bareResult ((csdTransaction s.params s).1.isSome, (csdTransaction s.params s).2)

/-- `SEND_CID`, rule R134: the packet goes to `BUF[0..15]` (DESIGN CHOICE, assumption 18). -/
def execCmd10 (s : State) : Host.Outcome State Fault Refusal :=
  if bufFits registerLength s then bareResult (recvTransaction s.params (sendCid s.params) registerLength s) else .refused .bufferTooSmall

/-- `STOP_TRANSMISSION`, rule R135: no bracket, one stuff byte. -/
def execCmd12 (s : State) : Host.Outcome State Fault Refusal := bareCommand s.params (stopTransmission s.params) s

/-- `SD_STATUS`, rule R136: R2S, then the packet of 64 bytes to `BUF[0..63]` (DESIGN CHOICE, assumption 18). -/
def execAcmd13 (s : State) : Host.Outcome State Fault Refusal :=
  if bufFits sdStatusLength s then bareResult (sdStatusTransaction s.params s) else .refused .bufferTooSmall

/-- `SET_BLOCKLEN`, rule R137. -/
def execCmd16 (s : State) : Host.Outcome State Fault Refusal := bareCommand s.params setBlockLen s

/-- `READ_SINGLE_BLOCK`, rule R138: one packet of 512 bytes to `BUF[0..511]`. -/
def execCmd17 (addr : Word) (s : State) : Host.Outcome State Fault Refusal :=
  if bufFits sectorSize s then bareResult (recvTransaction s.params
    (readSingleBlock s.params addr) sectorSize s) else .refused .bufferTooSmall

/-- `READ_MULTIPLE_BLOCK`, rule R139: at most `COUNT` packets, then `STOP_TRANSMISSION`. `COUNT` is the issuer's (rule R31),
1 to 128; where a state holds 0, which no step gives it, none is moved and the stop is sent (DESIGN CHOICE, assumption 23). Where
`COUNT` holds no value it runs until rule R223 reads `COUNT`, and only there is the fault of rule R31: rejected, or with no first
sector, it ends as it does for any `COUNT` of 1 or more. -/
def execCmd18 (addr : Word) (s : State) : Host.Outcome State Fault Refusal :=
  match s.w.count with
  | none =>
    if bufFits sectorSize s then
      if readReachesCount s.params addr s then .fault (.unwrittenRegister .count)
      else .next (readMultiTransaction s.params addr 1 s)
    else .refused .bufferTooSmall
  | some n =>
    if bufFits (n.val * sectorSize) s then .next (readMultiTransaction s.params addr n.val s) else .refused .bufferTooSmall

/-- `SET_WR_BLK_ERASE_COUNT`, rule R140. -/
def execAcmd23 (count : Byte) (s : State) : Host.Outcome State Fault Refusal := bareCommand s.params (setWrBlkEraseCount s.params count) s

/-- `WRITE_BLOCK`, rule R141: one packet from `BUF[0..511]`. Its transmit exists only when `WRITE_CAPABLE` (rule R178); no
`STATUS` flag is tested (DESIGN CHOICE, assumption 25). -/
def execCmd24 (addr : Word) (s : State) : Host.Outcome State Fault Refusal :=
  if s.writeCapable then
    if bufFits sectorSize s then bareResult (writeSingleTransaction s.params addr s) else .refused .bufferTooSmall
  else .refused .writeNotCapable

/-- `WRITE_MULTIPLE_BLOCK`, rule R142: at most `COUNT` packets, then the stop token. `COUNT` is the issuer's (rule R31), 1 to 128,
and a `COUNT` of 0 as in `execCmd18` (assumption 23); its transmit exists only when `WRITE_CAPABLE` (rule R178), which is tested
first (DESIGN CHOICE, assumption 14). Where `COUNT` holds no value it runs until rule R225 reads `COUNT`, as `execCmd18`. No
`STATUS` flag is tested (DESIGN CHOICE, assumption 25). -/
def execCmd25 (addr : Word) (s : State) : Host.Outcome State Fault Refusal :=
  if s.writeCapable then
    match s.w.count with
    | none =>
      if bufFits sectorSize s then
        if writeReachesCount s.params addr s then .fault (.unwrittenRegister .count)
        else .next (writeMultiTransaction s.params addr 1 s)
      else .refused .bufferTooSmall
    | some n =>
      if bufFits (n.val * sectorSize) s then .next (writeMultiTransaction s.params addr n.val s) else .refused .bufferTooSmall
  else .refused .writeNotCapable

/-- `ERASE_WR_BLK_START`, rule R143. -/
def execCmd32 (addr : Word) (s : State) : Host.Outcome State Fault Refusal := bareCommand s.params (eraseWrBlkStart s.params addr) s

/-- `ERASE_WR_BLK_END`, rule R144. -/
def execCmd33 (addr : Word) (s : State) : Host.Outcome State Fault Refusal := bareCommand s.params (eraseWrBlkEnd s.params addr) s

/-- `ERASE`, rule R145: the 30-second ready wait follows an accepted command in its bracket. -/
def execCmd38 (s : State) : Host.Outcome State Fault Refusal := bareResult (eraseTransaction s.params s)

/-- `SD_SEND_OP_COND`, rule R146. -/
def execAcmd41 (hcs : Bool) (s : State) : Host.Outcome State Fault Refusal := bareCommand s.params (sdSendOpCond s.params hcs) s

/-- `APP_CMD`, rule R147. -/
def execCmd55 (s : State) : Host.Outcome State Fault Refusal := bareCommand s.params appCmd s

/-- `READ_OCR`, rule R148: the four trailing bytes are read when R1 is 0. -/
def execCmd58 (s : State) : Host.Outcome State Fault Refusal :=
  bareResult ((ocrTransaction s.params s).1.isSome, (ocrTransaction s.params s).2)

end Sys2Proof.Machine
end

