-- ==== Sys2Proof/Machine/BlockIo.lean ====
section
/-! DEFINITION. The host operations `read` and `write` (rules R220 to R228) and the reserved selectors (rule R91). -/

namespace Sys2Proof.Machine

/-- `COUNT <- count` and `ADDR <-` the converted start sector, before the first command (rules R60, R228). -/
def startTransfer (q : Seq) (sector : Word) (count : Nat) (s : State) : State :=
  setAddr (convertAddress s.type sector) (setCount count (beginOperation q s))

/-- Single-sector read, rule R222. -/
def readSinglePath (cfg : Params) (sector : Word) (s : State) : State :=
  let p := recvTransaction cfg (readSingleBlock cfg (convertAddress s.type sector)) sectorSize (startTransfer .reading sector 1 s)
  endTransfer cfg (if p.1 then setCount 0 p.2 else p.2)

/-- Multi-sector read, rule R223. -/
def readMultiPath (cfg : Params) (sector : Word) (count : Nat) (s : State) : State :=
  endTransfer cfg (readMultiTransaction cfg (convertAddress s.type sector) count (startTransfer .reading sector count s))

/-- Single-sector write, rule R224. -/
def writeSinglePath (cfg : Params) (sector : Word) (s : State) : State :=
  let p := writeSingleTransaction cfg (convertAddress s.type sector) (startTransfer .writing sector 1 s)
  endTransfer cfg (if p.1 then setCount 0 p.2 else p.2)

/-- The erase-count hint of rule R225: sent to an SD card only, its result ignored. -/
def predefineEraseCount (cfg : Params) (count : Nat) (s : State) : State :=
  if s.type.isSdc then (sendCmd cfg (setWrBlkEraseCount cfg (BitVec.ofNat 8 count)) s).2 else s

/-- Multi-sector write, rule R225. -/
def writeMultiPath (cfg : Params) (sector : Word) (count : Nat) (s : State) : State :=
  endTransfer cfg
    (writeMultiTransaction cfg (convertAddress s.type sector) count
      (predefineEraseCount cfg count (startTransfer .writing sector count s)))

/-- A `read` request: enabled in idle (rule R331), checked by rule R220, refused with a buffer too small for its sectors (rule R51). -/
def readRequest (cfg : Params) (lun : Byte) (buf : Handle) (count : Nat) (run : State) (s : State) : Host.Outcome State Fault Refusal :=
  if s.seq = .idle then
    match ioPreconditions false lun buf count s.status with
    | some e => .next (raiseError cfg e s)
    | none => if bufFits (count * sectorSize) s then .next run else .refused .bufferTooSmall
  else .refused .operationOutstanding

/-- A `write` request: it does not exist on a read-only instance (rule R27); otherwise as `readRequest`. -/
def writeRequest (cfg : Params) (lun : Byte) (buf : Handle) (count : Nat) (run : State) (s : State) : Host.Outcome State Fault Refusal :=
  if s.seq = .idle then
    if s.writeCapable then
      match ioPreconditions true lun buf count s.status with
      | some e => .next (raiseError cfg e s)
      | none => if bufFits (count * sectorSize) s then .next run else .refused .bufferTooSmall
    else .refused .writeNotCapable
  else .refused .operationOutstanding

/-- `read` of one sector, rules R220, R222, R226. -/
def execReadSingle (lun : Byte) (buf : Handle) (sector : Word) (s : State) : Host.Outcome State Fault Refusal :=
  readRequest s.params lun buf 1 (readSinglePath s.params sector s) s

/-- `read` of any other count, rules R220, R223, R226. -/
def execReadMulti (lun : Byte) (buf : Handle) (sector : Word) (count : BitVec 16) (s : State) : Host.Outcome State Fault Refusal :=
  readRequest s.params lun buf count.toNat (readMultiPath s.params sector count.toNat s) s

/-- `write` of one sector, rules R220, R224, R226. -/
def execWriteSingle (lun : Byte) (buf : Handle) (sector : Word) (s : State) : Host.Outcome State Fault Refusal :=
  writeRequest s.params lun buf 1 (writeSinglePath s.params sector s) s

/-- `write` of any other count, rules R220, R225, R226. -/
def execWriteMulti (lun : Byte) (buf : Handle) (sector : Word) (count : BitVec 16) (s : State) : Host.Outcome State Fault Refusal :=
  writeRequest s.params lun buf count.toNat (writeMultiPath s.params sector count.toNat s) s

/-- `OP_SEL` 5: no such request exists (rule R91, U5). -/
def execReservedOp5 (_s : State) : Host.Outcome State Fault Refusal := .refused .reservedOpSel

/-- `OP_SEL` 6: no such request exists (rule R91, U5). -/
def execReservedOp6 (_s : State) : Host.Outcome State Fault Refusal := .refused .reservedOpSel

/-- `OP_SEL` 7: no such request exists (rule R91, U5). -/
def execReservedOp7 (_s : State) : Host.Outcome State Fault Refusal := .refused .reservedOpSel

end Sys2Proof.Machine
end

