-- ==== Sys2Proof/Machine/Control.lean ====
section
/-! DEFINITION. The host operation `ioctl` (rules R250 to R261): one body per code, one meaning per code row, and the dispatching
row that selects a body by the request's code. -/

namespace Sys2Proof.Machine

/-- The outcome of a body that always ends the operation. -/
abbrev ControlOutcome := Host.Outcome State Fault Refusal

/-! ### Bodies, from a request that passed its checks to the reply -/

/-- `sync`, rule R251. -/
def syncBody (cfg : Params) (s : State) : ControlOutcome :=
  .next (endControl cfg (select cfg s).1 (select cfg s).2)

/-- The end of an `ioctl` with a typed value, rules R252, R253 and R261; without one `ok` is false (`endControl`, assumption 13). -/
def endWithValue (cfg : Params) (v : Option Word) (s : State) : State :=
  match v with
  | some sectors => finishOperation cfg (.value sectors) (setOk true s)
  | none => endControl cfg false s

/-- `get-sector-count`, rule R252. -/
def sectorCountBody (cfg : Params) (s : State) : ControlOutcome :=
  .next (endWithValue cfg ((csdTransaction cfg s).1.map (csdCapacity cfg)) (csdTransaction cfg s).2)

/-- The register get-block-size reads: the SD status of an `SDv2` card, else the CSD (rule R253). -/
def granularityRegister (cfg : Params) (s : State) : Option (List Byte) × State :=
  if s.type.sdV2 then sdStatusHeadTransaction cfg s else csdTransaction cfg s

/-- `get-block-size`, rules R253 and R263. -/
def blockSizeBody (cfg : Params) (s : State) : ControlOutcome :=
  match (granularityRegister cfg s).1 with
  | none => .next (endControl cfg false (granularityRegister cfg s).2)
  | some reg =>
    match eraseGranularity cfg s.type reg with
    | some sectors => .next (endWithValue cfg (some sectors) (granularityRegister cfg s).2)
    | none => .fault .eraseGranularityShift

/-- Both ends converted into `ADDR` (rules R30, R60), then erase-start, erase-end, erase-execute, each only if the one before was
accepted (rule R254). -/
def eraseRange (cfg : Params) (first last : Word) (s : State) : Bool × State :=
  let p := sendCmd cfg (eraseWrBlkStart cfg first) (setAddr last (setAddr first s))
  if r1Accepted p.1 then
    let q := sendCmd cfg (eraseWrBlkEnd cfg last) p.2
    if r1Accepted q.1 then eraseTransaction cfg q.2 else (false, q.2)
  else (false, p.2)

/-- The sequence of `trim`, rule R254. -/
def trimSequence (cfg : Params) (pair : Word × Word) (s : State) : Bool × State :=
  if s.type.isSdc then
    match (csdTransaction cfg s).1 with
    | some csd =>
      if eraseEnabled cfg csd then
        eraseRange cfg (convertAddress s.type pair.1) (convertAddress s.type pair.2) (csdTransaction cfg s).2
      else (false, (csdTransaction cfg s).2)
    | none => (false, (csdTransaction cfg s).2)
  else (false, s)

/-- `trim`, rule R254. -/
def trimBody (cfg : Params) (pair : Word × Word) (s : State) : ControlOutcome :=
  .next (endControl cfg (trimSequence cfg pair s).1 (trimSequence cfg pair s).2)

/-- Raw query of the type byte, rule R255, which cannot fail; its `ok`, true at the end, is the model's (DESIGN CHOICE, assumption
13). -/
def rawTypeBody (cfg : Params) (s : State) : ControlOutcome := .next (endControl cfg true (bufWrite 0 (CardType.toByte cfg s.type) s))

/-- Raw query of the CSD, rule R256. -/
def rawCsdBody (cfg : Params) (s : State) : ControlOutcome :=
  .next (endControl cfg (recvTransaction cfg (sendCsd cfg) registerLength s).1 (recvTransaction cfg (sendCsd cfg) registerLength s).2)

/-- Raw query of the CID, rule R257. -/
def rawCidBody (cfg : Params) (s : State) : ControlOutcome :=
  .next (endControl cfg (recvTransaction cfg (sendCid cfg) registerLength s).1 (recvTransaction cfg (sendCid cfg) registerLength s).2)

/-- The four bytes of the OCR to `BUF[0..3]`, most significant first (rules R55, R258). -/
def storeOcr (ocr : Word) (s : State) : State :=
  bufWrite 3 (respByte ocr 3) (bufWrite 2 (respByte ocr 2) (bufWrite 1 (respByte ocr 1) (bufWrite 0 (respByte ocr 0) s)))

/-- Raw query of the OCR, rule R258. -/
def rawOcrBody (cfg : Params) (s : State) : ControlOutcome :=
  match (ocrTransaction cfg s).1 with
  | some ocr => .next (endControl cfg true (storeOcr ocr (ocrTransaction cfg s).2))
  | none => .next (endControl cfg false (ocrTransaction cfg s).2)

/-- Raw query of the SD status, rule R259. -/
def rawSdStatusBody (cfg : Params) (s : State) : ControlOutcome :=
  .next (endControl cfg (sdStatusTransaction cfg s).1 (sdStatusTransaction cfg s).2)

/-! ### Requests -/

/-- The body of a code (rule R250). An unknown code never passes the checks; it would reply `PARAM_ERROR` (rule R260). -/
def ioctlBody (cfg : Params) (code : Byte) (s : State) : ControlOutcome :=
  if code = syncCode then syncBody cfg s
  else if code = sectorCountCode then sectorCountBody cfg s
  else if code = blockSizeCode then blockSizeBody cfg s
  else if code = trimCode then trimBody cfg s.buf.pair s
  else if code = cfg.rawTypeCode then rawTypeBody cfg s
  else if code = cfg.rawCsdCode then rawCsdBody cfg s
  else if code = cfg.rawCidCode then rawCidBody cfg s
  else if code = cfg.rawOcrCode then rawOcrBody cfg s
  else if code = cfg.rawSdStatusCode then rawSdStatusBody cfg s
  else .next (raiseError cfg .paramError s)

/-- An `ioctl` request: enabled in idle (rule R331); the checks of rule R250; a `trim` with a null buffer (U4) or a buffer smaller
than the query moves (U3) is refused; then the body of the code. -/
def ioctlRequest (cfg : Params) (lun code : Byte) (buf : Handle) (s : State) : Host.Outcome State Fault Refusal :=
  if s.seq = .idle then
    match ioctlPreconditions cfg lun code buf s.status with
    | some e => .next (raiseError cfg e s)
    | none =>
      if buf = .null ∧ code = trimCode then .refused .trimNullBuffer
      else if bufFits (ioctlBufBytes cfg code) s then ioctlBody cfg code (beginOperation (.control code) s)
      else .refused .bufferTooSmall
  else .refused .operationOutstanding

/-- `ioctl(lun, opcode, buf)`, rule R250: the request is dispatched on its code. -/
def execIoctl (lun code : Byte) (buf : Handle) (s : State) : Host.Outcome State Fault Refusal := ioctlRequest s.params lun code buf s

/-- `sync`, rule R251. -/
def execIoctlSync (lun : Byte) (buf : Handle) (s : State) : Host.Outcome State Fault Refusal := ioctlRequest s.params lun syncCode buf s

/-- `get-sector-count`, rule R252. -/
def execIoctlSectorCount (lun : Byte) (buf : Handle) (s : State) : Host.Outcome State Fault Refusal :=
    ioctlRequest s.params lun sectorCountCode buf s

/-- `get-block-size`, rule R253. -/
def execIoctlBlockSize (lun : Byte) (buf : Handle) (s : State) : Host.Outcome State Fault Refusal :=
    ioctlRequest s.params lun blockSizeCode buf s

/-- `trim`, rule R254. -/
def execIoctlTrim (lun : Byte) (buf : Handle) (s : State) : Host.Outcome State Fault Refusal := ioctlRequest s.params lun trimCode buf s

/-- Raw query of the type byte, rule R255. -/
def execIoctlRawType (lun : Byte) (buf : Handle) (s : State) : Host.Outcome State Fault Refusal :=
    ioctlRequest s.params lun s.params.rawTypeCode buf s

/-- Raw query of the CSD, rule R256. -/
def execIoctlRawCsd (lun : Byte) (buf : Handle) (s : State) : Host.Outcome State Fault Refusal :=
    ioctlRequest s.params lun s.params.rawCsdCode buf s

/-- Raw query of the CID, rule R257. -/
def execIoctlRawCid (lun : Byte) (buf : Handle) (s : State) : Host.Outcome State Fault Refusal :=
    ioctlRequest s.params lun s.params.rawCidCode buf s

/-- Raw query of the OCR, rule R258. -/
def execIoctlRawOcr (lun : Byte) (buf : Handle) (s : State) : Host.Outcome State Fault Refusal :=
    ioctlRequest s.params lun s.params.rawOcrCode buf s

/-- Raw query of the SD status, rule R259. -/
def execIoctlRawSdStatus (lun : Byte) (buf : Handle) (s : State) : Host.Outcome State Fault Refusal :=
    ioctlRequest s.params lun s.params.rawSdStatusCode buf s

/-- A code outside the nine, rule R260. -/
def execIoctlUnknown (lun code : Byte) (buf : Handle) (s : State) : Host.Outcome State Fault Refusal := ioctlRequest s.params lun code buf s

end Sys2Proof.Machine
end

