-- ==== Sys2Proof/Machine/Initializer.lean ====
section
/-! DEFINITION. The card initializer's state machine (rules R190 to R202), one definition per state of rule R191, and the two host
operations that answer with `STATUS`. Each stage sets `SEQ` where its rule does and goes on with the next stage; the last one
answers the type negotiated. -/

namespace Sys2Proof.Machine

/-- `Failed` (rule R191): `TY` is 0. -/
def initFailedStage (s : State) : CardType × State := (CardType.unknown, setSeq .failed (setTy CardType.unknown s))

/-- `Ready(type)` (rule R191). -/
def initReadyStage (ty : CardType) (s : State) : CardType × State := (ty, setSeq (.ready ty) (setTy ty s))

/-- The loop of rule R197, with the number of false answers `D_NEG` has left: test the deadline, send, test the response. -/
def negotiateLoop (cfg : Params) (c : Command) : Nat → State → Bool × State
  | 0, s => (false, s)
  | k + 1, s =>
    if r1Accepted (sendCmd cfg c (setDNeg ⟨tNegotiateMs, k⟩ s)).1 then (true, (sendCmd cfg c (setDNeg ⟨tNegotiateMs, k⟩ s)).2)
    else negotiateLoop cfg c k (sendCmd cfg c (setDNeg ⟨tNegotiateMs, k⟩ s)).2

/-- `Negotiating` on the SDv2 path, rules R197 and R198: `ACMD41` with HCS, then `CMD58` and its CCS bit. -/
def negotiateSdV2 (cfg : Params) (dNeg : Deadline) (s : State) : CardType × State :=
  let p := negotiateLoop cfg (sdSendOpCond cfg true) dNeg.left (setSeq .negotiating s)
  if p.1 then
    match (ocrTransaction cfg p.2).1 with
    | some ocr => initReadyStage (if ccsSet ocr then CardType.ofSdV2Block else CardType.ofSdV2) (ocrTransaction cfg p.2).2
    | none => initFailedStage (ocrTransaction cfg p.2).2
  else initFailedStage p.2

/-- `Negotiating` on the legacy path, rules R197 and R199: the init command, then `CMD16`. -/
def negotiateLegacy (cfg : Params) (c : Command) (ty : CardType) (dNeg : Deadline) (s : State) : CardType × State :=
  let p := negotiateLoop cfg c dNeg.left (setSeq .negotiating (setInitCmd c.op c.acmd (setTy ty s)))
  if p.1 then
    if r1Accepted (sendCmd cfg setBlockLen p.2).1 then initReadyStage ty (sendCmd cfg setBlockLen p.2).2
    else initFailedStage (sendCmd cfg setBlockLen p.2).2
  else initFailedStage p.2

/-- `LegacyProbe`, rule R196: the bare `ACMD41(0)` tells SD from MMC; it cannot fail. -/
def initLegacyProbe (cfg : Params) (dNeg : Deadline) (s : State) : CardType × State :=
  let p := sendCmd cfg (sdSendOpCond cfg false) (setSeq .legacyProbe s)
  if r1Understood p.1 then negotiateLegacy cfg (sdSendOpCond cfg false) CardType.ofSdV1 dNeg p.2
  else negotiateLegacy cfg sendOpCond CardType.ofMmcV3 dNeg p.2

/-- `SDv2Probe`, rule R195: the four trailing bytes of R7 and the echo test. -/
def initSdV2Probe (cfg : Params) (dNeg : Deadline) (s : State) : CardType × State :=
  let p := readTrailing cfg (setSeq .sdv2Probe s)
  if echoMatches p.1 then negotiateSdV2 cfg dNeg p.2 else initFailedStage p.2

/-- `IdleSent`, rule R194: the negotiation deadline starts, then `CMD8`. -/
def initIdleSent (cfg : Params) (s : State) : CardType × State :=
  let d := setDeadline tNegotiateMs (setSeq .idleSent s)
  let p := sendCmd cfg sendIfCond (setDNeg d.1 d.2)
  if r1Idle p.1 then initSdV2Probe cfg d.1 p.2 else initLegacyProbe cfg d.1 p.2

/-- `Reset`, rules R192 and R193: ten power-up bytes, `TY <- 0`, then `CMD0`. -/
def initResetStage (cfg : Params) (s : State) : CardType × State :=
  let p := sendCmd cfg goIdleState (setTy CardType.unknown (sendDummies cfg nPowerUpDummy s))
  if r1Idle p.1 then initIdleSent cfg p.2 else initFailedStage p.2

/-- `initialize(0)`, rule R201. -/
def initializeDrive (cfg : Params) (s : State) : State :=
  let p := initResetStage cfg (beginOperation .reset s)
  if p.1 = CardType.unknown then raiseError cfg .initFailed p.2 else finishInitialize cfg p.1 p.2

/-- `initialize(lun)`, rule R190. -/
def execInitDrive (lun : Byte) (s : State) : Host.Outcome State Fault Refusal :=
  if s.seq = .idle then
    if lun = lunIndex then .next (initializeDrive s.params s)
    else .next (replyAtOnce (.status s.status.forcedNotInitialized) s)
  else .refused .operationOutstanding

/-- `status(lun)`, rule R205. -/
def execDriveStatus (lun : Byte) (s : State) : Host.Outcome State Fault Refusal :=
  if s.seq = .idle then
    if lun = lunIndex then .next (replyAtOnce (.status s.status) s)
    else .next (replyAtOnce (.status s.status.forcedNotInitialized) s)
  else .refused .operationOutstanding

end Sys2Proof.Machine
end

