-- ==== Sys2Proof/Machine/Tokens.lean ====
section
/-! DEFINITION. The seven byte rows (rules R75, R82 to R85). A byte the engine sends is the procedure that sends it; a byte the
engine awaits is the card's next byte, met by the procedure that awaits it (assumption 7). -/

namespace Sys2Proof.Machine

/-- The card answers the next exchange with this byte. -/
def cardAnswers (b : Byte) (s : State) : State := { s with cardIn := b :: s.cardIn }

/-- A token transmitted from an offset of `BUF`, on an instance that can write and with a buffer that holds the packet.
No `STATUS` flag is tested: rules R62 and R220 put `WRITE_PROTECTED` and `NOT_INITIALIZED` on the host operations (DESIGN CHOICE,
assumption 25). -/
def transmitToken (cfg : Params) (off : Nat) (token : Byte) (s : State) : Host.Outcome State Fault Refusal :=
  if s.writeCapable then
    if bufFits (off + sectorSize) s then
      .next (setOk (xmitDataBlock cfg off token s).1 (xmitDataBlock cfg off token s).2)
    else .refused .bufferTooSmall
  else .refused .writeNotCapable

/-- `TOKEN_START_BLOCK` (rule R84). From the card, the packet it opens is received (rule R171): rule R171 takes its offset and its
length from its caller, a bare token has none, and the model takes a sector, 512 bytes into `BUF[0..511]` (DESIGN CHOICE,
assumption 18). To the card, the packet of `WRITE_BLOCK` is transmitted from `BUF[0..511]` (rules R175, R224). -/
def execTokenStartBlock (dir : TokenDir) (s : State) : Host.Outcome State Fault Refusal :=
  match dir with
  | .fromCard =>
    if bufFits sectorSize s then
      .next (setOk (recvDataBlock s.params 0 sectorSize (cardAnswers startBlockToken s)).1
        (recvDataBlock s.params 0 sectorSize (cardAnswers startBlockToken s)).2)
    else .refused .bufferTooSmall
  | .toCard => transmitToken s.params 0 startBlockToken s

/-- `TOKEN_START_MULTI` (rule R84): one packet of `WRITE_MULTIPLE_BLOCK`, from offset `OFF` of `BUF` (rules R175, R225). A
read-only instance is refused before `OFF` is read, as in `execCmd25` (DESIGN CHOICE, assumption 14); an `OFF` that holds no value
is the fault of rule R31. -/
def execTokenStartMulti (s : State) : Host.Outcome State Fault Refusal :=
  if s.writeCapable then
    match s.w.off with
    | none => .fault (.unwrittenRegister .off)
    | some off => transmitToken s.params (off.val * sectorSize) s.params.startMultiToken s
  else .refused .writeNotCapable

/-- `TOKEN_STOP_MULTI` (rules R82, R177): the ready wait and the token, nothing else; no `STATUS` flag is tested (assumption 25). -/
def execTokenStopMulti (s : State) : Host.Outcome State Fault Refusal :=
  if s.writeCapable then .next (setOk (xmitDataBlock s.params 0 s.params.stopMultiToken s).1
    (xmitDataBlock s.params 0 s.params.stopMultiToken s).2)
  else .refused .writeNotCapable

/-- `DATA_RESPONSE_ACCEPTED` (rules R83, R176): the byte is exchanged into `DRESP` and tested. Part of the transmit half (R178). -/
def execDataResponseAccepted (high : BitVec 3) (s : State) : Host.Outcome State Fault Refusal :=
  if s.writeCapable then
    .next (setOk (dataResponse s.params (cardAnswers (high ++ s.params.acceptVal) s)).1 (dataResponse s.params (cardAnswers (high ++
      s.params.acceptVal) s)).2)
  else .refused .writeNotCapable

/-- `R1_VALID` (rules R75, R125): the response poll meets a byte with bit 7 clear. -/
def execR1Valid (flags : BitVec 7) (s : State) : Host.Outcome State Fault Refusal :=
  .next (pollR1 s.params (cardAnswers (0#1 ++ flags) s)).2

/-- `READY_BYTE` (rules R85, R112): the ready wait meets 0xFF. Rule R112 takes its limit from its caller, 500 ms for a select or a
packet and 30000 ms for an erase; a bare byte has none, and the model takes 500 ms (DESIGN CHOICE, assumption 22). -/
def execReadyByte (s : State) : Host.Outcome State Fault Refusal :=
  .next (setOk (waitReady s.params tReadyMs (cardAnswers readyByteValue s)).1 (waitReady s.params tReadyMs
    (cardAnswers readyByteValue s)).2)

/-- `DUMMY_TX` (rule R85): one exchange that only clocks the card. -/
def execDummyTx (s : State) : Host.Outcome State Fault Refusal := .next (send s.params.dummyTx s)

end Sys2Proof.Machine
end

