-- ==== Sys2Proof/Machine/Dispatch.lean ====
section
/-! DEFINITION. The dispatch: one arm per row of the opcode table. -/

namespace Sys2Proof.Machine

def exec (i : Instr) (s : State) : Host.Outcome State Fault Refusal :=
  match i with
  | .cmd0 => Sys2Proof.Machine.execCmd0 s
  | .cmd1 => Sys2Proof.Machine.execCmd1 s
  | .cmd8 => Sys2Proof.Machine.execCmd8 s
  | .cmd9 => Sys2Proof.Machine.execCmd9 s
  | .cmd10 => Sys2Proof.Machine.execCmd10 s
  | .cmd12 => Sys2Proof.Machine.execCmd12 s
  | .acmd13 => Sys2Proof.Machine.execAcmd13 s
  | .cmd16 => Sys2Proof.Machine.execCmd16 s
  | .cmd17 addr => Sys2Proof.Machine.execCmd17 addr s
  | .cmd18 addr => Sys2Proof.Machine.execCmd18 addr s
  | .acmd23 count => Sys2Proof.Machine.execAcmd23 count s
  | .cmd24 addr => Sys2Proof.Machine.execCmd24 addr s
  | .cmd25 addr => Sys2Proof.Machine.execCmd25 addr s
  | .cmd32 addr => Sys2Proof.Machine.execCmd32 addr s
  | .cmd33 addr => Sys2Proof.Machine.execCmd33 addr s
  | .cmd38 => Sys2Proof.Machine.execCmd38 s
  | .acmd41 hcs => Sys2Proof.Machine.execAcmd41 hcs s
  | .cmd55 => Sys2Proof.Machine.execCmd55 s
  | .cmd58 => Sys2Proof.Machine.execCmd58 s
  | .tokenStartBlock dir => Sys2Proof.Machine.execTokenStartBlock dir s
  | .tokenStartMulti => Sys2Proof.Machine.execTokenStartMulti s
  | .tokenStopMulti => Sys2Proof.Machine.execTokenStopMulti s
  | .dataResponseAccepted high => Sys2Proof.Machine.execDataResponseAccepted high s
  | .r1Valid flags => Sys2Proof.Machine.execR1Valid flags s
  | .readyByte => Sys2Proof.Machine.execReadyByte s
  | .dummyTx => Sys2Proof.Machine.execDummyTx s
  | .initDrive lun => Sys2Proof.Machine.execInitDrive lun s
  | .driveStatus lun => Sys2Proof.Machine.execDriveStatus lun s
  | .readSingle lun buf sector => Sys2Proof.Machine.execReadSingle lun buf sector s
  | .readMulti lun buf sector count => Sys2Proof.Machine.execReadMulti lun buf sector count s
  | .writeSingle lun buf sector => Sys2Proof.Machine.execWriteSingle lun buf sector s
  | .writeMulti lun buf sector count => Sys2Proof.Machine.execWriteMulti lun buf sector count s
  | .ioctl lun code buf => Sys2Proof.Machine.execIoctl lun code buf s
  | .reservedOp5 => Sys2Proof.Machine.execReservedOp5 s
  | .reservedOp6 => Sys2Proof.Machine.execReservedOp6 s
  | .reservedOp7 => Sys2Proof.Machine.execReservedOp7 s
  | .ioctlSync lun buf => Sys2Proof.Machine.execIoctlSync lun buf s
  | .ioctlSectorCount lun buf => Sys2Proof.Machine.execIoctlSectorCount lun buf s
  | .ioctlBlockSize lun buf => Sys2Proof.Machine.execIoctlBlockSize lun buf s
  | .ioctlTrim lun buf => Sys2Proof.Machine.execIoctlTrim lun buf s
  | .ioctlRawType lun buf => Sys2Proof.Machine.execIoctlRawType lun buf s
  | .ioctlRawCsd lun buf => Sys2Proof.Machine.execIoctlRawCsd lun buf s
  | .ioctlRawCid lun buf => Sys2Proof.Machine.execIoctlRawCid lun buf s
  | .ioctlRawOcr lun buf => Sys2Proof.Machine.execIoctlRawOcr lun buf s
  | .ioctlRawSdStatus lun buf => Sys2Proof.Machine.execIoctlRawSdStatus lun buf s
  | .ioctlUnknown lun code buf => Sys2Proof.Machine.execIoctlUnknown lun code buf s

end Sys2Proof.Machine
end

