-- ==== Sys2Proof/Machine/Step.lean ====
section
/-! DEFINITION. One step: the environment's next move. A record presented at a port is decoded and executed; `MediaEvent` and a
buffer fill happen between operations; with no move left, a sequence begun outside a host operation is closed by its issuer, and
an idle engine stays idle. -/

namespace Sys2Proof.Machine

/-- The ports of the `HOST` interface; the others are the sequencer's. -/
def Port.isHost : Port → Bool
  | .host => true
  | .ioctlCode => true
  | .command => false
  | .tokenTx => false
  | .tokenRx => false
  | .readyRx => false
  | .r1Rx => false
  | .dataResponseRx => false

/-- A record at a port, read with the parameters of the instance: a host request runs on the state as it is, a command or token after
its issuer's preparation. -/
def presentRecord (port : Port) (bytes : List Byte) (beyond done : Fin 128) (s : State) : Host.Outcome State Fault Refusal :=
  match decode s.params port bytes with
  | .error e => .refused (.undecodable e)
  | .ok i => if Port.isHost port then exec i s else exec i (issuerPrepares beyond done s)

/-- The final `Deselect` of a sequence begun outside a host operation: its issuer ends it (rules R114, R127; assumption 7). -/
def issuerCloses (s : State) : State := { deselect s.params s with seq := .idle }

/-- One step of the machine. -/
def step (s : State) : Host.Outcome State Fault Refusal :=
  match s.agenda with
  | [] => if s.seq = .idle then .next s else .next (issuerCloses s)
  | .present port bytes beyond done :: rest => presentRecord port bytes beyond done { s with agenda := rest }
  | .media noMedium writeProtected removed :: rest =>
    if s.seq = .idle then .next (mediaEvent noMedium writeProtected removed { s with agenda := rest })
    else .refused .operationOutstanding
  | .buffer size cells pair :: rest =>
    if s.seq = .idle then .next (fillBuffer size cells pair { s with agenda := rest })
    else .refused .operationOutstanding

/-- The instruction of a table word presented next, in its record for this instance (assumption 6): the very next step decodes and
executes it. The issuer has one sector beyond the first to transfer and has transferred none: `COUNT` is 2 and `OFF` 0, the least
multi-sector transfer at its start. A word that is no instruction becomes a record that is none. -/
def State.withFetchWord (s : State) (nbits w : Nat) : State :=
  match decodeTableWord nbits w with
  | some i => { s with agenda := .present (encode s.params i).1 (encode s.params i).2 1 0 :: s.agenda }
  | none => { s with agenda := .present .command [] 1 0 :: s.agenda }

end Sys2Proof.Machine
end

