-- ==== Sys2Proof/Safety.lean ====
section
/-! DEFINITION. The terms claims are stated in: what the wire trace may look like (independent of the definitions that make it),
what a step leaves alone, and the invariant of the machine. `cfg` is the parameters of rule R9. A trace here is in the order of
time, oldest event first; the state keeps the newest first. -/

namespace Sys2Proof.Safety

open Sys2Proof.Machine

/-! ### Traces -/

/-- `t`'s wire is `s`'s wire followed by the events `evs`, oldest first. -/
def Appends (s t : State) (evs : List WireEvent) : Prop := t.wire = evs.reverse ++ s.wire

/-- Exchanges that send `tx` and receive the given bytes, in order. -/
def sending (tx : Byte) (rxs : List Byte) : List WireEvent := rxs.map (WireEvent.xchg tx)

/-- The bytes received, in order. -/
def received : List WireEvent → List Byte
  | [] => []
  | .cs _ :: rest => received rest
  | .xchg _ rx :: rest => rx :: received rest

/-- The bytes received from `s` to `t` are the scripted ones, in order, for as long as the script lasts (rule R13). -/
def Drew (s t : State) (evs : List WireEvent) : Prop :=
  t.cardIn = s.cardIn.drop (received evs).length ∧
    (received evs).take s.cardIn.length = s.cardIn.take (received evs).length

/-- Exchanges that send the given bytes, in order, whatever is received. -/
def Sends (txs : List Byte) (evs : List WireEvent) : Prop :=
  ∃ rxs : List Byte, rxs.length = txs.length ∧ evs = List.zipWith WireEvent.xchg txs rxs

/-- `Deselect` (rule R111): `CS(0)`, then one dummy exchange. -/
def DeselectTrace (cfg : Params) (evs : List WireEvent) : Prop := ∃ rx, evs = [.cs .deasserted, .xchg cfg.dummyTx rx]

/-- `WaitReady` (rule R112) with its result: busy bytes, none of them 0xFF, and then 0xFF on success; at least one poll. -/
def ReadyTrace (cfg : Params) (ok : Bool) (evs : List WireEvent) : Prop :=
  ∃ busy : List Byte, (∀ b ∈ busy, b ≠ 0xFF#8) ∧
    if ok then evs = sending cfg.dummyTx (busy ++ [0xFF#8]) else busy ≠ [] ∧ evs = sending cfg.dummyTx busy

/-- `Select` (rule R113) with its result. -/
def SelectTrace (cfg : Params) (ok : Bool) (evs : List WireEvent) : Prop :=
  ∃ a b polls, evs = [.cs .deasserted, .xchg cfg.dummyTx a, .cs .asserted, .xchg cfg.dummyTx b] ++ polls ∧ ReadyTrace cfg ok polls

/-- The response poll (rule R125) with its result: at most nine bytes with bit 7 set, then `r`, which has bit 7 clear unless it is
the tenth. -/
def PollTrace (cfg : Params) (r : Byte) (evs : List WireEvent) : Prop :=
  ∃ noise : List Byte, (∀ b ∈ noise, 128 ≤ b.toNat) ∧ noise.length ≤ 9 ∧ (r.toNat < 128 ∨ noise.length = 9) ∧
    evs = sending cfg.dummyTx (noise ++ [r])

/-- One command without its prefix round trip, its frame written out, with the byte returned (rules R122 to R125): a select that
timed out and nothing else, returning 0xFF; or a select, the frame and the poll. -/
def BracketTrace (cfg : Params) (frame : List Byte) (r : Byte) (evs : List WireEvent) : Prop :=
  (SelectTrace cfg false evs ∧ r = 0xFF#8) ∨
  ∃ sel fr poll, evs = sel ++ fr ++ poll ∧ SelectTrace cfg true sel ∧ Sends frame fr ∧ PollTrace cfg r poll

/-- The stop command (rules R122, R124): no bracket, the frame, one stuff byte, the poll. -/
def StopTrace (cfg : Params) (r : Byte) (evs : List WireEvent) : Prop :=
  ∃ fr stuff poll, evs = fr ++ [.xchg cfg.dummyTx stuff] ++ poll ∧ Sends (frameBytes cfg cfg.opStopTransmission 0#32) fr ∧
    PollTrace cfg r poll

/-- An application command (rule R121): the `CMD55` round trip alone when it returned more than 1, else that and the target. -/
def AppTrace (cfg : Params) (frame : List Byte) (r : Byte) (evs : List WireEvent) : Prop :=
  (BracketTrace cfg (frameBytes cfg opAppCmd 0#32) r evs ∧ 1 < r.toNat) ∨
  ∃ r55 first target, evs = first ++ target ∧ r55.toNat ≤ 1 ∧
    BracketTrace cfg (frameBytes cfg opAppCmd 0#32) r55 first ∧ BracketTrace cfg frame r target

/-- The token wait (rules R171, R172) with the token it ended on: idle bytes 0xFF, then a byte that is not 0xFF, or only idle bytes. -/
def TokenTrace (cfg : Params) (token : Byte) (evs : List WireEvent) : Prop :=
    ∃ n : Nat, evs = sending cfg.dummyTx (List.replicate n 0xFF#8 ++ [token])

/-- A received packet (rule R171) with its result: `some payload` when 0xFE came, the payload and two more bytes discarded. -/
def RecvTrace (cfg : Params) (payload : Option (List Byte)) (evs : List WireEvent) : Prop :=
  match payload with
  | none => ∃ token, token ≠ 0xFE#8 ∧ TokenTrace cfg token evs
  | some bytes => ∃ toks c1 c2, TokenTrace cfg 0xFE#8 toks ∧ evs = toks ++ sending cfg.fillByte bytes ++ sending cfg.dummyTx [c1, c2]

/-- A transmitted packet (rule R175) with its result: a ready wait that timed out and nothing else; or the ready wait, the token, the
payload, two dummy CRC bytes and the data response, which decides (rule R176). -/
def XmitTrace (cfg : Params) (token : Byte) (payload : List Byte) (ok : Bool) (evs : List WireEvent) : Prop :=
  (ReadyTrace cfg false evs ∧ ok = false) ∨
  ∃ polls body d, evs = polls ++ body ++ [.xchg cfg.dummyTx d] ∧ ReadyTrace cfg true polls ∧
    Sends ([token] ++ payload ++ [cfg.crcPlaceholderTx, cfg.crcPlaceholderTx]) body ∧ ok = (d &&& 0x1F#8 == cfg.acceptVal.setWidth 8)

/-- The stop token (rule R177) with its result: nothing is sent after a ready wait that timed out. -/
def StopTokenTrace (cfg : Params) (ok : Bool) (evs : List WireEvent) : Prop :=
  (ReadyTrace cfg false evs ∧ ok = false) ∨
  ∃ polls rx, evs = polls ++ [.xchg cfg.stopMultiToken rx] ∧ ReadyTrace cfg true polls ∧ ok = true

/-- The bytes of `BUF` from an offset on. -/
def bufBytes (off len : Nat) (s : State) : List Byte := (List.range len).map fun i => bufRead (off + i) s

/-! ### Traces of a command with what follows its response -/

/-- A command, then nothing unless it was accepted (rule R76, `r == 0`), then one received packet (rules R133, R134, R138). -/
def CmdRecvTrace (cfg : Params) (frame : List Byte) (payload : Option (List Byte)) (evs : List WireEvent) : Prop :=
  (∃ r, r ≠ 0x00#8 ∧ BracketTrace cfg frame r evs ∧ payload = none) ∨
  ∃ cmd pkt, evs = cmd ++ pkt ∧ BracketTrace cfg frame 0x00#8 cmd ∧ RecvTrace cfg payload pkt

/-- `ACMD13` (rule R136): accepted, it is followed by the second byte of R2S, discarded, and one received packet. -/
def SdStatusTrace (cfg : Params) (payload : Option (List Byte)) (evs : List WireEvent) : Prop :=
  (∃ r, r ≠ 0x00#8 ∧ AppTrace cfg (frameBytes cfg cfg.opSdStatus 0#32) r evs ∧ payload = none) ∨
  ∃ cmd x pkt, evs = cmd ++ [.xchg cfg.dummyTx x] ++ pkt ∧ AppTrace cfg (frameBytes cfg cfg.opSdStatus 0#32) 0x00#8 cmd ∧
    RecvTrace cfg payload pkt

/-- `ACMD13` for get-block-size (rule R253): the head of 16 bytes received as a packet, and, received, 48 bytes more. -/
def SdStatusHeadTrace (cfg : Params) (head : Option (List Byte)) (evs : List WireEvent) : Prop :=
  (∃ r, r ≠ 0x00#8 ∧ AppTrace cfg (frameBytes cfg cfg.opSdStatus 0#32) r evs ∧ head = none) ∨
  (∃ cmd x pkt, evs = cmd ++ [.xchg cfg.dummyTx x] ++ pkt ∧ AppTrace cfg (frameBytes cfg cfg.opSdStatus 0#32) 0x00#8 cmd ∧
    RecvTrace cfg none pkt ∧ head = none) ∨
  ∃ cmd x pkt bytes purged, evs = cmd ++ [.xchg cfg.dummyTx x] ++ pkt ++ sending cfg.dummyTx purged ∧
    AppTrace cfg (frameBytes cfg cfg.opSdStatus 0#32) 0x00#8 cmd ∧ RecvTrace cfg (some bytes) pkt ∧ purged.length = 48 ∧
    head = some bytes

/-- A command and, where it returned `want`, its four trailing bytes (rules R77, R132, R148). -/
def TrailingTrace (cfg : Params) (frame : List Byte) (want : Byte) (trailing : Option (List Byte)) (evs : List WireEvent) : Prop :=
  (∃ r, r ≠ want ∧ BracketTrace cfg frame r evs ∧ trailing = none) ∨
  ∃ cmd b0 b1 b2 b3, evs = cmd ++ sending cfg.dummyTx [b0, b1, b2, b3] ∧ BracketTrace cfg frame want cmd ∧ trailing = some [b0, b1, b2, b3]

/-- A command and, accepted, one transmitted packet (rule R141). -/
def CmdXmitTrace (cfg : Params) (frame payload : List Byte) (ok : Bool) (evs : List WireEvent) : Prop :=
  (∃ r, r ≠ 0x00#8 ∧ BracketTrace cfg frame r evs ∧ ok = false) ∨
  ∃ cmd pkt, evs = cmd ++ pkt ∧ BracketTrace cfg frame 0x00#8 cmd ∧ XmitTrace cfg 0xFE#8 payload ok pkt

/-- `CMD38` and, accepted, the ready wait in the same bracket (rule R145). -/
def EraseTrace (cfg : Params) (ok : Bool) (evs : List WireEvent) : Prop :=
  (∃ r, r ≠ 0x00#8 ∧ BracketTrace cfg (frameBytes cfg cfg.opErase 0#32) r evs ∧ ok = false) ∨
  ∃ cmd polls, evs = cmd ++ polls ∧ BracketTrace cfg (frameBytes cfg cfg.opErase 0#32) 0x00#8 cmd ∧ ReadyTrace cfg ok polls

/-- The receive loop of rule R223 for at most `n` sectors: one packet for each payload received, and a failed receive where fewer
than `n` came. -/
def RecvSectorsTrace (cfg : Params) : Nat → List (List Byte) → List WireEvent → Prop
  | 0, payloads, evs => payloads = [] ∧ evs = []
  | _ + 1, [], evs => RecvTrace cfg none evs
  | n + 1, p :: rest, evs => ∃ pkt more, evs = pkt ++ more ∧ RecvTrace cfg (some p) pkt ∧ RecvSectorsTrace cfg n rest more

/-- `CMD18` (rules R139, R223): accepted, it is followed by the receive loop and the stop command, whatever the loop's result. -/
def ReadMultiTrace (cfg : Params) (frame : List Byte) (n : Nat) (payloads : List (List Byte)) (evs : List WireEvent) : Prop :=
  (∃ r, r ≠ 0x00#8 ∧ BracketTrace cfg frame r evs ∧ payloads = []) ∨
  ∃ cmd sectors stop r, evs = cmd ++ sectors ++ stop ∧ BracketTrace cfg frame 0x00#8 cmd ∧ RecvSectorsTrace cfg n payloads sectors ∧
    StopTrace cfg r stop

/-- The transmit loop of rule R225 for at most `n` sectors of `s`'s buffer from an offset on: one accepted packet for each of the
`k` sectors counted, and a failed one where `k` is less than `n`. -/
def XmitSectorsTrace (cfg : Params) (s : State) : Nat → Nat → Nat → List WireEvent → Prop
  | 0, _, k, evs => k = 0 ∧ evs = []
  | _ + 1, off, 0, evs => XmitTrace cfg cfg.startMultiToken (bufBytes off 512 s) false evs
  | n + 1, off, k + 1, evs => ∃ pkt more, evs = pkt ++ more ∧ XmitTrace cfg cfg.startMultiToken (bufBytes off 512 s) true pkt ∧
      XmitSectorsTrace cfg s n (off + 512) k more

/-- `CMD25` (rules R142, R225): accepted, it is followed by the transmit loop and the stop token, whatever the loop's result; `ok`
when every packet was accepted and the stop token was sent. -/
def WriteMultiTrace (cfg : Params) (s : State) (frame : List Byte) (n : Nat) (ok : Bool) (evs : List WireEvent) : Prop :=
  (∃ r, r ≠ 0x00#8 ∧ BracketTrace cfg frame r evs ∧ ok = false) ∨
  ∃ cmd sectors stop k stopped, evs = cmd ++ sectors ++ stop ∧ BracketTrace cfg frame 0x00#8 cmd ∧ XmitSectorsTrace cfg s n 0 k sectors ∧
    StopTokenTrace cfg stopped stop ∧ ok = (decide (k = n) && stopped)

/-- The two ends of a range and the erase (rule R254): each command only where the one before was accepted. -/
def EraseRangeTrace (cfg : Params) (first last : Word) (ok : Bool) (evs : List WireEvent) : Prop :=
  (∃ r, r ≠ 0x00#8 ∧ BracketTrace cfg (frameBytes cfg cfg.opEraseWrBlkStart first) r evs ∧ ok = false) ∨
  ∃ a b, evs = a ++ b ∧ BracketTrace cfg (frameBytes cfg cfg.opEraseWrBlkStart first) 0x00#8 a ∧
    ((∃ r, r ≠ 0x00#8 ∧ BracketTrace cfg (frameBytes cfg cfg.opEraseWrBlkEnd last) r b ∧ ok = false) ∨
    ∃ c d, b = c ++ d ∧ BracketTrace cfg (frameBytes cfg cfg.opEraseWrBlkEnd last) 0x00#8 c ∧ EraseTrace cfg ok d)

/-- `trim` up to its final `Deselect` (rule R254) with its result, for a card of type `ty` and a pair of sector numbers: nothing for a
card that is not SD; the CSD; and, erase being enabled, the range at the converted addresses. -/
def TrimTrace (cfg : Params) (ty : CardType) (pair : Word × Word) (ok : Bool) (evs : List WireEvent) : Prop :=
  if ty.sdV1 || ty.sdV2 then
    ∃ csd cmd rest, evs = cmd ++ rest ∧ CmdRecvTrace cfg (frameBytes cfg cfg.opSendCsd 0#32) csd cmd ∧
      match csd with
      | none => rest = [] ∧ ok = false
      | some bytes =>
        bytes.length = 16 ∧
        if eraseEnabled cfg bytes then
          EraseRangeTrace cfg (if ty.blockAddressed then pair.1 else pair.1 * 512#32)
            (if ty.blockAddressed then pair.2 else pair.2 * 512#32) ok rest
        else rest = [] ∧ ok = false
  else evs = [] ∧ ok = false

/-! ### The trace of `initialize(0)` -/

/-- The negotiation loop (rule R197): attempts, each with a response other than 0, and on success one more with response 0. -/
inductive NegotiateTrace (attempt : Byte → List WireEvent → Prop) : Bool → List WireEvent → Prop
  | expired : NegotiateTrace attempt false []
  | accepted {evs : List WireEvent} : attempt 0x00#8 evs → NegotiateTrace attempt true evs
  | again {ok : Bool} {r : Byte} {evs more : List WireEvent} : r ≠ 0x00#8 → attempt r evs → NegotiateTrace attempt ok more →
      NegotiateTrace attempt ok (evs ++ more)

/-- The SDv2 path after a matching echo (rules R197, R198) with the type it ends in. -/
def SdV2Trace (cfg : Params) (ty : CardType) (evs : List WireEvent) : Prop :=
  (NegotiateTrace (AppTrace cfg (frameBytes cfg opSdSendOpCond cfg.hcsArg)) false evs ∧ ty = CardType.unknown) ∨
  ∃ neg ocr trailing, evs = neg ++ ocr ∧
    NegotiateTrace (AppTrace cfg (frameBytes cfg opSdSendOpCond cfg.hcsArg)) true neg ∧
    TrailingTrace cfg (frameBytes cfg opReadOcr 0#32) 0x00#8 trailing ocr ∧
    match trailing with
    | some (b0 :: _) => ty = if b0.getLsbD 6 then CardType.ofSdV2Block else CardType.ofSdV2
    | _ => ty = CardType.unknown

/-- The legacy path after its probe (rules R197, R199), for the family the probe chose. -/
def LegacyTrace (cfg : Params) (attempt : Byte → List WireEvent → Prop) (family ty : CardType) (evs : List WireEvent) : Prop :=
  (NegotiateTrace attempt false evs ∧ ty = CardType.unknown) ∨
  ∃ neg close r, evs = neg ++ close ∧ NegotiateTrace attempt true neg ∧
    BracketTrace cfg (frameBytes cfg opSetBlockLen 512#32) r close ∧ ty = if r = 0x00#8 then family else CardType.unknown

/-- What follows `CMD8` that returned `r` (rules R194 to R196). -/
def ProbeTrace (cfg : Params) (r : Byte) (ty : CardType) (evs : List WireEvent) : Prop :=
  if r = 0x01#8 then
    ∃ b0 b1 b2 b3 rest, evs = sending cfg.dummyTx [b0, b1, b2, b3] ++ rest ∧
      if b2 = 0x01#8 ∧ b3 = 0xAA#8 then SdV2Trace cfg ty rest else rest = [] ∧ ty = CardType.unknown
  else
    ∃ probe rest p, evs = probe ++ rest ∧ AppTrace cfg (frameBytes cfg opSdSendOpCond 0#32) p probe ∧
      if p.toNat ≤ 1 then LegacyTrace cfg (AppTrace cfg (frameBytes cfg opSdSendOpCond 0#32)) CardType.ofSdV1 ty rest
      else LegacyTrace cfg (BracketTrace cfg (frameBytes cfg opSendOpCond 0#32)) CardType.ofMmcV3 ty rest

/-- `initialize(0)` up to its finish (rules R192 to R199, R202) with the type it ends in: ten dummy exchanges, `CMD0`, and, where it
returned 1, `CMD8` and what follows. -/
def InitTrace (cfg : Params) (ty : CardType) (evs : List WireEvent) : Prop :=
  ∃ ten cmd0 rest r0, evs = sending cfg.dummyTx ten ++ cmd0 ++ rest ∧ ten.length = 10 ∧
    BracketTrace cfg (frameBytes cfg opGoIdleState 0#32) r0 cmd0 ∧
    if r0 = 0x01#8 then
      ∃ cmd8 more r8, rest = cmd8 ++ more ∧ BracketTrace cfg (frameBytes cfg opSendIfCond 0x000001AA#32) r8 cmd8 ∧
        ProbeTrace cfg r8 ty more
    else rest = [] ∧ ty = CardType.unknown

/-- Attempts of the negotiation loop with their responses, in order (rule R197). -/
def AttemptsTrace (attempt : Byte → List WireEvent → Prop) : List Byte → List WireEvent → Prop
  | [], evs => evs = []
  | r :: rest, evs => ∃ a more, evs = a ++ more ∧ attempt r a ∧ AttemptsTrace attempt rest more

/-- The bytes of a card that is ready at the first poll and answers a command with `r` at the first poll: one byte for each clock of the
select, 0xFF, one for each byte of the frame, and `r`. What is discarded is `x`. -/
def readyAnswer (x r : Byte) : List Byte := [x, x, 0xFF#8] ++ List.replicate 6 x ++ [r]

/-- The same for an application command: the `CMD55` round trip answered with 1, and the target with `r`. -/
def readyAppAnswer (x r : Byte) : List Byte := readyAnswer x 0x01#8 ++ readyAnswer x r

/-- The nine ioctl codes of rule R88, at the parameters of the instance. -/
def isKnownCode (cfg : Params) (code : Byte) : Prop :=
  code.toNat ∈ [0, 1, 3, 4] ∨
    code ∈ [cfg.rawTypeCode, cfg.rawCsdCode, cfg.rawCidCode, cfg.rawOcrCode, cfg.rawSdStatusCode]

/-! ### Frames -/

/-- The parameters, the session registers, the configuration flag and the environment's moves are the same (rules R9, R37). -/
def SameSession (s t : State) : Prop :=
  t.params = s.params ∧ t.status = s.status ∧ t.type = s.type ∧ t.writeCapable = s.writeCapable ∧ t.agenda = s.agenda

/-- Nothing but the transport and the working registers differs: the session, `SEQ`, the buffer and the reply are the same. -/
def SameButTransport (s t : State) : Prop :=
  SameSession s t ∧ t.seq = s.seq ∧ t.buf = s.buf ∧ t.reply = s.reply

/-- The working registers of rule R30 by name, with `r` and `ok` of rule R12. -/
inductive WorkingRegister where
  | cmd
  | r1
  | nPoll
  | resp4
  | token
  | dResp
  | count
  | addr
  | off
  | ty
  | initCmd
  | dNeg
  | dPoll
  | csdBuf
  | r
  | ok
  deriving DecidableEq, Repr

/-- Every working register but those named is the same. -/
structure SameWorkingBut (named : List WorkingRegister) (s t : State) : Prop where
  cmd : .cmd ∉ named → t.w.cmd = s.w.cmd
  r1 : .r1 ∉ named → t.w.r1 = s.w.r1
  nPoll : .nPoll ∉ named → t.w.nPoll = s.w.nPoll
  resp4 : .resp4 ∉ named → t.w.resp4 = s.w.resp4
  token : .token ∉ named → t.w.token = s.w.token
  dResp : .dResp ∉ named → t.w.dResp = s.w.dResp
  count : .count ∉ named → t.w.count = s.w.count
  addr : .addr ∉ named → t.w.addr = s.w.addr
  off : .off ∉ named → t.w.off = s.w.off
  ty : .ty ∉ named → t.w.ty = s.w.ty
  initCmd : .initCmd ∉ named → t.w.initCmd = s.w.initCmd
  dNeg : .dNeg ∉ named → t.w.dNeg = s.w.dNeg
  dPoll : .dPoll ∉ named → t.w.dPoll = s.w.dPoll
  csdBuf : .csdBuf ∉ named → t.w.csdBuf = s.w.csdBuf
  r : .r ∉ named → t.w.r = s.w.r
  ok : .ok ∉ named → t.w.ok = s.w.ok

/-- What `SendCmd` writes of the working registers (rules R120, R125, R112). -/
def dispatcherRegisters : List WorkingRegister := [.cmd, .r1, .nPoll, .dPoll, .r]

/-- No working register holds a value, as when an operation starts (rule R31). -/
def cleared (s : State) : State := { s with w := Working.empty }

/-- The buffer is the same but for its bytes at `off` to `off + len - 1`. -/
def SameBufBut (off len : Nat) (s t : State) : Prop :=
  t.buf.size = s.buf.size ∧ t.buf.pair = s.buf.pair ∧ ∀ a, a < off ∨ off + len ≤ a → bufRead a t = bufRead a s

/-- The wire, the select level, the settle time, the draws and the working registers are the same: the transport was not touched. -/
def TransportUntouched (s t : State) : Prop :=
  t.wire = s.wire ∧ t.cs = s.cs ∧ t.settleMs = s.settleMs ∧ t.cardIn = s.cardIn ∧ t.cardDraws = s.cardDraws ∧
    t.clockIn = s.clockIn ∧ t.clockDraws = s.clockDraws ∧ t.w = s.w

/-- The engine is between operations (rules R28, R29): idle with the line deasserted. -/
def AtRest (t : State) : Prop := t.seq = .idle ∧ t.cs = .deasserted

/-- The last two events are `CS(0)` and a dummy exchange (rule R332). -/
def EndsDeselected (t : State) : Prop := ∃ rx rest, t.wire = .xchg t.params.dummyTx rx :: .cs .deasserted :: rest

/-- A host operation that passes its first checks can be launched: the engine is idle, the drive initialized, the buffer in
canonical form, and the parameters those of an engine. -/
structure Launchable (s : State) : Prop where
  idle : s.seq = .idle
  initialized : s.status.notInitialized = false
  bufCanonical : Memory.wf s.buf.mem = true
  configured : s.params.wf = true

/-- A host operation ran and ended (rules R226, R261, R332): the wire shows what `P` says and then the final `Deselect`, the engine is
at rest, the session is the same. -/
def Ran (s t : State) (P : List WireEvent → Prop) : Prop :=
  (∃ body des, Appends s t (body ++ des) ∧ P body ∧ DeselectTrace s.params des) ∧ AtRest t ∧ SameSession s t

/-- `OK` or `ERROR` (rules R226, R261). -/
def okOrError (ok : Bool) : Option Reply := some (.result (if ok then .ok else .error))

/-- A record of the `HOST` interface (the port of a row does not depend on the parameters). -/
def isHostRow (i : Instr) : Prop := (encode Params.default i).1 = .host ∨ (encode Params.default i).1 = .ioctlCode

/-- A byte awaited from the card, presented as the card's next byte (assumption 7). -/
def isAwaitedRow (i : Instr) : Prop :=
  (encode Params.default i).1 = .tokenRx ∨ (encode Params.default i).1 = .readyRx ∨ (encode Params.default i).1 = .r1Rx ∨
    (encode Params.default i).1 = .dataResponseRx

/-! ### The invariant -/

/-- The level of the last transition on a wire (newest event first); deasserted before the first (rule R36). -/
def wireLevel : List WireEvent → CsLevel
  | [] => .deasserted
  | .cs level :: _ => level
  | .xchg _ _ :: rest => wireLevel rest

/-- How many transitions a wire holds. -/
def csEvents : List WireEvent → Nat
  | [] => 0
  | .cs _ :: rest => csEvents rest + 1
  | .xchg _ _ :: rest => csEvents rest

/-- How many exchanges a wire holds. -/
def exchanges : List WireEvent → Nat
  | [] => 0
  | .cs _ :: rest => exchanges rest
  | .xchg _ _ :: rest => exchanges rest + 1

/-- On a wire (newest event first): the event right after every transition is an exchange that sends `DUMMY_TX` (rule R324). The second
argument is the byte sent by the event just newer, `none` when there is no such exchange. -/
def csClockedBy (cfg : Params) : Option Byte → List WireEvent → Prop
  | _, [] => True
  | newer, .cs _ :: rest => newer = some cfg.dummyTx ∧ csClockedBy cfg none rest
  | _, .xchg tx _ :: rest => csClockedBy cfg (some tx) rest

/-- The wire agrees with the select line: its last transition set the level (rule R28), every transition took its settle delay (rules
R110, R323) and was followed by a dummy exchange (rule R324), and every draw is an exchange. -/
structure WireOk (cfg : Params) (s : State) : Prop where
  level : s.cs = wireLevel s.wire
  settled : s.settleMs = csEvents s.wire
  clocked : csClockedBy cfg none s.wire
  drawn : s.cardDraws = exchanges s.wire

/-- The invariant: `TYPE` is a legal value (rule R25); it is not 0 while the drive is initialized; the line is deasserted in idle (rule
R28); the buffer is in canonical form; the wire agrees with the line; the parameters are those of an engine. -/
structure Inv (s : State) : Prop where
  typeLegal : s.type.legal = true
  typed : s.status.notInitialized = false → s.type ≠ CardType.unknown
  idleDeselected : s.seq = .idle → s.cs = .deasserted
  bufCanonical : Memory.wf s.buf.mem = true
  wireOk : WireOk s.params s
  configured : s.params.wf = true

end Sys2Proof.Safety
end

