-- ==== Sys2Proof/Certificates/Slice0/Obligations.lean ====
section
/-! DEFINITION. The statements for the provers, one definition each. Bytes and numbers stand here as the spec writes them, traces in
the terms of Safety.lean, and the parameters of rule R9 that are configured (assumption 4) under their names, `cfg` where a
procedure takes them and `s.params` where the state holds them; their defaults are stated of reset. `lun` is 0, a buffer is `given`
and a state `Launchable` where an operation passes its checks; what happens where it does not is stated in the statements on checks
and refusals. A host operation starts with no working register holding a value (rule R31), so what it leaves of them is compared
with `cleared s`; that a value stays after the operation ended is the model's (assumption 13). -/

open Sys2Proof Sys2Proof.Machine Sys2Proof.Safety

/-! ### Encoding -/

/-- Every well-formed instruction is read back from its own record, with every operand, in every configuration of an engine. -/
def Obligations.DecodeOfEncodeIsInstruction : Prop :=
  ∀ (cfg : Params) (i : Instr), cfg.wf = true → i.wellFormed cfg = true → decode cfg (encode cfg i).1 (encode cfg i).2 = .ok i

/-- Every record the decoder accepts is the record of the one instruction it names, and that instruction is well formed: no two
records share an instruction, and no bit of an accepted record is dropped. It holds whatever the parameters. -/
def Obligations.EncodeOfDecodeIsRecord : Prop :=
  ∀ (cfg : Params) (port : Port) (bytes : List Byte) (i : Instr), decode cfg port bytes = .ok i →
    encode cfg i = (port, bytes) ∧ i.wellFormed cfg = true

/-- Rules R72, R73, R74: the six bytes of a frame: the prefix bits with the opcode, the argument most significant byte first, and
the last byte by opcode alone. At the default parameters, as numbers: 0x40 plus the opcode, and 0x95, 0x87 or 0x01. -/
def Obligations.FrameBytesOfAnyCommand : Prop :=
  ∀ (cfg : Params) (op : BitVec 6) (arg : Word), ∃ b0 b1 b2 b3 b4 b5 : Byte, frameBytes cfg op arg = [b0, b1, b2, b3, b4, b5] ∧
    b0 = cfg.cmdPrefixBits ||| op.setWidth 8 ∧
    b1.toNat * 2 ^ 24 + b2.toNat * 2 ^ 16 + b3.toNat * 2 ^ 8 + b4.toNat = arg.toNat ∧
    b5 = (if op.toNat = 0 then cfg.crcCmd0 else if op.toNat = 8 then cfg.crcCmd8 else cfg.crcDummy) ∧
    (cfg = Params.default → b0.toNat = 0x40 + op.toNat ∧
      b5.toNat = if op.toNat = 0 then 0x95 else if op.toNat = 8 then 0x87 else 0x01)

/-- Words of every family, written out from 95_test_vectors.md section 3.1 and 30_encoding.md, decode to their instruction at the
default parameters; with other values of them, other words do. The bytes of a request record after `OP_SEL` and the port chosen for
a one-byte table word are the model's own (assumptions 5 and 6). -/
def Obligations.WordsDecodeToTheirInstruction : Prop :=
  decode Params.default .command [0x40#8, 0x00#8, 0x00#8, 0x00#8, 0x00#8, 0x95#8] = .ok .cmd0 ∧
  decode Params.default .command [0x51#8, 0x00#8, 0x00#8, 0x06#8, 0x00#8, 0x01#8] = .ok (.cmd17 0x600#32) ∧
  decode Params.default .command [0x57#8, 0x00#8, 0x00#8, 0x00#8, 0x80#8, 0x01#8] = .ok (.acmd23 128#8) ∧
  decode Params.default .command [0x48#8, 0x00#8, 0x00#8, 0x01#8, 0xAA#8, 0x01#8] = .error .crcByte ∧
  decode Params.default .tokenTx [0xFC#8] = .ok .tokenStartMulti ∧
  decode Params.default .dataResponseRx [0xE5#8] = .ok (.dataResponseAccepted 7#3) ∧
  decode Params.default .host [0x03#8, 0x00#8, 0x00#8, 0x00#8, 0x00#8, 0x05#8, 0x00#8, 0x01#8, 0x00#8, 0x01#8] =
    .ok (.writeSingle 0#8 .given 5#32) ∧
  decode Params.default .ioctlCode [0x02#8, 0x00#8, 0x01#8] = .ok (.ioctlUnknown 0#8 2#8 .given) ∧
  decode { Params.default with cmdPrefixBits := 0x00#8, opSendCsd := 20#6, crcDummy := 0xFF#8 } .command
    [0x14#8, 0x00#8, 0x00#8, 0x00#8, 0x00#8, 0xFF#8] = .ok .cmd9 ∧
  decodeTableWord 48 0x694000000001 = some (.acmd41 true) ∧
  decodeTableWord 8 0x36 = some (.ioctlRawSdStatus 0#8 .null)

/-! ### The step -/

/-- When the environment's next move presents a record that decodes to an instruction, a step is `exec` of it: a host request on the
state as it stands, a command or token after its issuer's preparation (from idle, no working register holds a value and the
sequencer is issuing; `COUNT` is 1 more than the sectors beyond the first, `OFF` holds the sectors done). A record that is no
instruction is refused by name. The moves and the issuer are the model's own (assumption 7). -/
def Obligations.StepRunsDecodedInstruction : Prop :=
  ∀ (s : State) (port : Port) (bytes : List Byte) (beyond done : Fin 128) (rest : List EnvMove),
    s.agenda = .present port bytes beyond done :: rest →
    (∀ i, decode s.params port bytes = .ok i → port = .host ∨ port = .ioctlCode → step s = exec i { s with agenda := rest }) ∧
    (∀ i, decode s.params port bytes = .ok i → port ≠ .host → port ≠ .ioctlCode → s.seq = .idle →
      step s = exec i { s with
        agenda := rest, seq := .issuing, w := { Working.empty with count := some beyond.succ, off := some done.castSucc } }) ∧
    (∀ i, decode s.params port bytes = .ok i → port ≠ .host → port ≠ .ioctlCode → s.seq ≠ .idle →
      step s = exec i { s with agenda := rest, w := { s.w with count := some beyond.succ, off := some done.castSucc } }) ∧
    (∀ e, decode s.params port bytes = .error e → step s = .refused (.undecodable e))

/-- The instruction of a table word placed by `withFetchWord` is what the very next step runs, in its record for the parameters of
the instance (assumption 6). -/
def Obligations.FetchedWordRunsNext : Prop :=
  ∀ (s : State) (nbits w : Nat) (i : Instr), s.params.wf = true → i.wellFormed s.params = true → decodeTableWord nbits w = some i →
    step (s.withFetchWord nbits w) = exec i (if Port.isHost (encode s.params i).1 then s else issuerPrepares 1 0 s)

/-- Rule R287, in the model's moves (assumption 7): a media event in idle sets the two levels, may set `NOT_INITIALIZED`, never
clears it, and changes nothing else. A buffer fill in idle (rules R51 and R334, decision U2, assumption 19) gives the buffer its
size, its pair and, at every offset, the last cell given for it or 0x00 (assumption 9), in canonical form, and changes nothing else.
While an operation is outstanding there is neither. With no move left, an idle engine stays as it is, and a sequence that is not
idle is closed by one `Deselect`. -/
def Obligations.EnvironmentMovesAndQuietSteps : Prop :=
  (∀ (s : State) (noMedium writeProtected removed : Bool) (rest : List EnvMove),
    s.agenda = .media noMedium writeProtected removed :: rest →
    (s.seq = .idle → step s = .next { s with
      agenda := rest, status := ⟨s.status.notInitialized || removed, noMedium, writeProtected⟩ }) ∧
    (s.seq ≠ .idle → step s = .refused .operationOutstanding)) ∧
  (∀ (s : State) (size : Nat) (cells : List Host.Cell) (pair : Word × Word) (rest : List EnvMove),
    s.agenda = .buffer size cells pair :: rest →
    (s.seq = .idle → ∃ mem : Memory, step s = .next { s with agenda := rest, buf := ⟨size, mem, pair⟩ } ∧ Memory.wf mem = true ∧
      ∀ a : Nat, memRead mem a = (cells.reverse.lookup a).getD 0x00#8) ∧
    (s.seq ≠ .idle → step s = .refused .operationOutstanding)) ∧
  (∀ s : State, s.agenda = [] →
    (s.seq = .idle → step s = .next s) ∧
    (s.seq ≠ .idle → ∃ t, step s = .next t ∧ AtRest t ∧ (∃ evs, Appends s t evs ∧ DeselectTrace s.params evs) ∧ SameSession s t ∧
      t.w = s.w ∧ t.buf = s.buf ∧ t.reply = s.reply))

/-- Reset (rule R36): `NOT_INITIALIZED` is 1, the two media flags are whatever the media input holds, `TYPE` is 0, the line is
deasserted, the sequencer idle, no working register holds a value, the wire trace is empty. The configured parameters (rule R9) are
at their defaults, here as numbers; that the reset state holds them, and those values, are the model's (assumption 4), and so is
`WRITE_CAPABLE`, not stated here (assumption 12). -/
def Obligations.ResetLeavesFailedState : Prop :=
  let p := State.reset.params
  State.reset.status = ⟨true, Config.noMediumAtReset, Config.writeProtectedAtReset⟩ ∧
    State.reset.type = ⟨false, false, false, false, false⟩ ∧
    State.reset.cs = .deasserted ∧ State.reset.seq = .idle ∧ State.reset.w = Working.empty ∧ State.reset.wire = [] ∧
    [p.dummyTx, p.fillByte, p.crcPlaceholderTx, p.cmdPrefixBits, p.crcCmd0, p.crcCmd8, p.crcDummy].map BitVec.toNat =
      [0xFF, 0xFF, 0xFF, 0x40, 0x95, 0x87, 0x01] ∧
    [p.startMultiToken, p.stopMultiToken].map BitVec.toNat = [0xFC, 0xFD] ∧ p.acceptVal.toNat = 0x05 ∧ p.hcsArg.toNat = 0x40000000 ∧
    (opcodes p).map BitVec.toNat = [0, 1, 8, 9, 10, 12, 13, 16, 17, 18, 23, 24, 25, 32, 33, 38, 41, 55, 58] ∧
    (ioctlCodes p).map BitVec.toNat = [0, 1, 3, 4, 50, 51, 52, 53, 54] ∧
    [p.notInitializedMask, p.noMediumMask, p.writeProtectedMask].map BitVec.toNat = [0x01, 0x02, 0x04] ∧
    [p.mmcV3Mask, p.mmcV4Mask, p.sdV1Mask, p.sdV2Mask, p.blockAddressedMask].map BitVec.toNat = [0x01, 0x02, 0x04, 0x08, 0x10] ∧
    [p.okCode, p.errorCode, p.writeProtectedCode, p.notReadyCode, p.paramErrorCode].map BitVec.toNat = [0, 1, 2, 3, 4] ∧
    p.registerFunctions = .specDefault

/-- The invariant holds at reset. -/
def Obligations.ResetMeetsInvariant : Prop := Inv State.reset

/-- Every step keeps the invariant: `TYPE` is legal, and not 0 while the drive is initialized; the line is deasserted in idle; the
buffer is in canonical form; the wire's last transition is the line's level, every transition took its settle delay and was followed
by an exchange that sends `DUMMY_TX`, and every exchange drew one byte; the parameters are those of an engine (assumption 4). -/
def Obligations.StepKeepsInvariant : Prop :=
  ∀ s t : State, Inv s → step s = .next t → Inv t

/-- Rule R37: who may write the session, over every step; and nothing writes the configured parameters (rule R9). -/
def Obligations.SessionWrittenOnlyByItsWriters : Prop :=
  ∀ s t : State, step s = .next t →
    let initializes : Prop := ∃ port bytes beyond done rest, s.agenda = .present port bytes beyond done :: rest ∧
      decode s.params port bytes = .ok (.initDrive 0#8)
    let media : Bool → Prop := fun removed => ∃ noMedium writeProtected rest, s.agenda = .media noMedium writeProtected removed :: rest
    (t.writeCapable = s.writeCapable ∧ t.params = s.params) ∧
    (t.status.noMedium ≠ s.status.noMedium ∨ t.status.writeProtected ≠ s.status.writeProtected → media true ∨ media false) ∧
    (t.type ≠ s.type → initializes) ∧
    (s.status.notInitialized = true → t.status.notInitialized = false → initializes) ∧
    (s.status.notInitialized = false → t.status.notInitialized = true → initializes ∨ media true)

/-- Rules R13, R53: every instruction appends to the wire and draws the card's bytes in order, one for each exchange and none more.
The scripted ones come first (assumption 1). A byte row awaited from the card is taken as the card's next byte (assumption 7): it
draws that byte first and then the script as it stood. -/
def Obligations.EveryInstructionDrawsInOrder : Prop :=
  ∀ (i : Instr) (s t : State), exec i s = .next t →
    (¬ isAwaitedRow i → ∃ evs, Appends s t evs ∧ Drew s t evs) ∧
    (isAwaitedRow i → ∃ b evs, (encode s.params i).2 = [b] ∧ Appends s t evs ∧ (received evs).head? = some b ∧
      Drew (cardAnswers b s) t evs)

/-! ### Checks and refusals of host requests -/

/-- Rule R220: the checks of `read` and `write`, in their order, for every count and either path; a violation gives its reply at
once and changes nothing else. `start_sector` and `NO_MEDIUM` are not tested. -/
def Obligations.ReadWriteChecksInOrder : Prop :=
  ∀ (s : State) (lun : Byte) (buf : Handle) (sector : Word) (count : BitVec 16), s.seq = .idle →
    (s.status.notInitialized = true →
      exec (readOf lun buf sector count) s = .next { s with reply := some (.result .notReady) } ∧
      (s.writeCapable = true → exec (writeOf lun buf sector count) s = .next { s with reply := some (.result .notReady) })) ∧
    (s.status.notInitialized = false → lun.toNat ≠ 0 ∨ buf = .null ∨ count.toNat < 1 ∨ 128 < count.toNat →
      exec (readOf lun buf sector count) s = .next { s with reply := some (.result .paramError) } ∧
      (s.writeCapable = true → exec (writeOf lun buf sector count) s = .next { s with reply := some (.result .paramError) })) ∧
    (s.status.notInitialized = false → lun.toNat = 0 → buf = .given → 1 ≤ count.toNat → count.toNat ≤ 128 →
      s.status.writeProtected = true → s.writeCapable = true →
      exec (writeOf lun buf sector count) s = .next { s with reply := some (.result .writeProtected) })

/-- Rule R250: the checks of `ioctl`, in their order, for every code, whether the request comes with its code as an operand or as
the row of its code; a violation gives its reply at once and changes nothing else. A `trim` that passed them with a null buffer is
refused. -/
def Obligations.IoctlChecksInOrder : Prop :=
  ∀ (s : State) (lun code : Byte) (buf : Handle) (i : Instr), s.seq = .idle → i = .ioctl lun code buf ∨ i = ioctlOf s.params code lun buf →
    (s.status.notInitialized = true → exec i s = .next { s with reply := some (.result .notReady) }) ∧
    (s.status.notInitialized = false →
      lun.toNat ≠ 0 ∨ ¬ isKnownCode s.params code ∨ (buf = .null ∧ code.toNat ≠ 0 ∧ code.toNat ≠ 4) →
      exec i s = .next { s with reply := some (.result .paramError) }) ∧
    (s.status.notInitialized = false → lun.toNat = 0 → code.toNat = 4 → buf = .null → exec i s = .refused .trimNullBuffer)

/-- Rule R260: a code outside the nine replies `PARAM_ERROR` on an initialized drive, with no other effect; code 2 is one. -/
def Obligations.UnknownIoctlCodeIsParamError : Prop :=
  (∀ (s : State) (lun code : Byte) (buf : Handle), s.seq = .idle → s.status.notInitialized = false → ¬ isKnownCode s.params code →
    ioctlOf s.params code lun buf = .ioctlUnknown lun code buf ∧
      exec (.ioctlUnknown lun code buf) s = .next { s with reply := some (.result .paramError) }) ∧
  ∀ (cfg : Params) (lun : Byte) (buf : Handle), cfg.wf = true → ioctlOf cfg 2#8 lun buf = .ioctlUnknown lun 2#8 buf

/-- Rule R91: illegal host requests. `OP_SEL` 5 to 7 is refused; another drive index gives `PARAM_ERROR` for `read`, `write` and
`ioctl`, and the forced status for `initialize` and `status`; a count outside 1 to 128, a missing buffer and an unknown code give
`PARAM_ERROR`. Each reply leaves everything else as it was. The request record, a selector and nine zero bytes, is the model's
(assumption 5). -/
def Obligations.IllegalHostRequests : Prop :=
  (∀ (s : State) (op : Byte) (i : Instr), 5 ≤ op.toNat → op.toNat ≤ 7 →
    decode s.params .host (op :: List.replicate 9 0x00#8) = .ok i → exec i s = .refused .reservedOpSel) ∧
  (∀ (cfg : Params) (op : Byte), 5 ≤ op.toNat → op.toNat ≤ 7 → ∃ i, decode cfg .host (op :: List.replicate 9 0x00#8) = .ok i) ∧
  (∀ (s : State) (lun : Byte), s.seq = .idle → lun.toNat ≠ 0 →
    exec (.initDrive lun) s = .next { s with reply := some (.status { s.status with notInitialized := true }) } ∧
    exec (.driveStatus lun) s = .next { s with reply := some (.status { s.status with notInitialized := true }) }) ∧
  (∀ (s : State) (lun code : Byte) (buf : Handle) (sector : Word) (count : BitVec 16), s.seq = .idle →
    s.status.notInitialized = false → s.writeCapable = true →
    (lun.toNat ≠ 0 ∨ count.toNat < 1 ∨ 128 < count.toNat ∨ buf = .null →
      exec (readOf lun buf sector count) s = .next { s with reply := some (.result .paramError) } ∧
      exec (writeOf lun buf sector count) s = .next { s with reply := some (.result .paramError) }) ∧
    (lun.toNat ≠ 0 ∨ ¬ isKnownCode s.params code ∨ (buf = .null ∧ code.toNat ≠ 0 ∧ code.toNat ≠ 4) →
      exec (.ioctl lun code buf) s = .next { s with reply := some (.result .paramError) }))

/-- The three reserved selectors stop (rule R91). -/
def Obligations.ReservedSelectorsAreRefused : Prop :=
  ∀ s : State, exec .reservedOp5 s = .refused .reservedOpSel ∧ exec .reservedOp6 s = .refused .reservedOpSel ∧
    exec .reservedOp7 s = .refused .reservedOpSel

/-- Rule R178: on a read-only instance there is no `write` and no transmit, while the receive half is there. That a bare `CMD24`,
`CMD25`, token or data response of the transmit half is refused whole is the model's (assumption 18), and so is that it is refused
before its working register is read, whether or not that holds a value (assumption 14). -/
def Obligations.TransmitNeedsWriteCapable : Prop :=
  ∀ s : State, s.writeCapable = false →
    (∀ (lun : Byte) (buf : Handle) (sector : Word) (count : BitVec 16), s.seq = .idle →
      exec (writeOf lun buf sector count) s = .refused .writeNotCapable) ∧
    (∀ addr : Word, exec (.cmd24 addr) s = .refused .writeNotCapable ∧ exec (.cmd25 addr) s = .refused .writeNotCapable) ∧
    exec (.tokenStartBlock .toCard) s = .refused .writeNotCapable ∧
    exec .tokenStartMulti s = .refused .writeNotCapable ∧ exec .tokenStopMulti s = .refused .writeNotCapable ∧
    (∀ high, exec (.dataResponseAccepted high) s = .refused .writeNotCapable) ∧
    (512 ≤ s.buf.size → ∃ t, exec (.tokenStartBlock .fromCard) s = .next t)

/-- Rule R331 (a launch is enabled only in idle) and rule R51 (the model refuses a buffer smaller than the operation moves): when a
host request that is one is refused, by name, and nothing runs. The order of the two refusals among the checks is the model's
(assumption 14). -/
def Obligations.OutstandingAndUndersizedAreRefused : Prop :=
  (∀ (i : Instr) (s : State), isHostRow i → i ≠ .reservedOp5 → i ≠ .reservedOp6 → i ≠ .reservedOp7 → s.seq ≠ .idle →
    exec i s = .refused .operationOutstanding) ∧
  (∀ (s : State) (sector : Word) (count : BitVec 16), Launchable s → 1 ≤ count.toNat → count.toNat ≤ 128 →
    s.buf.size < count.toNat * 512 →
    exec (readOf 0#8 .given sector count) s = .refused .bufferTooSmall ∧
    (s.writeCapable = true → s.status.writeProtected = false →
      exec (writeOf 0#8 .given sector count) s = .refused .bufferTooSmall)) ∧
  (∀ s : State, Launchable s →
    (s.buf.size < 1 → exec (.ioctlRawType 0#8 .given) s = .refused .bufferTooSmall) ∧
    (s.buf.size < 4 → exec (.ioctlRawOcr 0#8 .given) s = .refused .bufferTooSmall) ∧
    (s.buf.size < 16 → exec (.ioctlRawCsd 0#8 .given) s = .refused .bufferTooSmall ∧
      exec (.ioctlRawCid 0#8 .given) s = .refused .bufferTooSmall) ∧
    (s.buf.size < 64 → exec (.ioctlRawSdStatus 0#8 .given) s = .refused .bufferTooSmall))

/-! ### status and initialize -/

/-- Rule R205: `status` replies `STATUS`, with `NOT_INITIALIZED` forced for another drive index, and writes nothing. -/
def Obligations.StatusRepliesAndWritesNothing : Prop :=
  ∀ (s : State) (lun : Byte), s.seq = .idle →
    exec (.driveStatus lun) s =
      .next { s with reply := some (.status (if lun.toNat = 0 then s.status else { s.status with notInitialized := true })) }

/-- Rule R200: `initialize(0)` always completes; the type it ends in is `TY` and `TYPE`, and a legal one; the line is deselected
last; `NOT_INITIALIZED` is 1 exactly when the type is 0; the reply is `STATUS`; the other two flags, the buffer and the
configuration are the same. -/
def Obligations.InitializeFinish : Prop :=
  ∀ s : State, s.seq = .idle → ∃ t, exec (.initDrive 0#8) s = .next t ∧
    t.w.ty = some t.type ∧ t.type.legal = true ∧ AtRest t ∧ EndsDeselected t ∧
    (t.status.notInitialized = true ↔ t.type = ⟨false, false, false, false, false⟩) ∧ t.reply = some (.status t.status) ∧
    t.status.noMedium = s.status.noMedium ∧ t.status.writeProtected = s.status.writeProtected ∧
    t.buf = s.buf ∧ t.writeCapable = s.writeCapable ∧ t.params = s.params ∧ t.agenda = s.agenda ∧
    SameWorkingBut (dispatcherRegisters ++ [.resp4, .ty, .initCmd, .dNeg]) (cleared s) t

/-- The whole of `initialize(0)`: what goes over the wire is a run of the state machine of rules R192 to R199 and R202 that ends in
the type the machine then holds, and then the final `Deselect` of rule R200. Every failure edge ends in type 0. (What ends a
negotiation is stated in NegotiationTestsDeadlineBeforeEachSend and InitializeOutcomesOfReadyCard.) -/
def Obligations.InitializeFollowsItsStateMachine : Prop :=
  ∀ s t : State, s.seq = .idle → s.params.wf = true → exec (.initDrive 0#8) s = .next t →
    ∃ body des, Appends s t (body ++ des) ∧ InitTrace s.params t.type body ∧ DeselectTrace s.params des

/-- Rule R326: the trace of `initialize(0)` begins with ten exchanges that send `DUMMY_TX`, 0xFF by default, before any transition
of the line, and then a transition that deselects; from a state of the invariant the line is deasserted through all ten. -/
def Obligations.InitializeBeginsWithPowerUpClocks : Prop :=
  ∀ s : State, s.seq = .idle → s.params.wf = true → ∃ t ten rest, exec (.initDrive 0#8) s = .next t ∧ ten.length = 10 ∧
    Appends s t (sending s.params.dummyTx ten ++ .cs .deasserted :: rest) ∧
    (s.params = Params.default → Appends s t (sending 0xFF#8 ten ++ .cs .deasserted :: rest)) ∧
    (Inv s → ∀ k ≤ 10, wireLevel ((sending s.params.dummyTx (ten.take k)).reverse ++ s.wire) = .deasserted)

/-! ### Commands presented by themselves (assumptions 7, 18, 24 and 25: each runs what its rule says, in any
state and with any argument, the line left to its issuer) -/

/-- Commands with nothing after their R1, presented by themselves (assumption 7), with any argument where they carry an address
(assumption 24): each completes in every state, puts one bracket with its own frame on the wire, leaves the
byte returned in `r`, and changes nothing but the transport and the dispatcher's working registers. -/
def Obligations.PlainCommandsSendTheirFrame : Prop :=
  ∀ (s : State) (addr : Word), s.params.wf = true →
    let sends : Instr → List Byte → Prop := fun i frame => ∃ t evs r, exec i s = .next t ∧ Appends s t evs ∧
      BracketTrace s.params frame r evs ∧ t.w.r = some r ∧ SameButTransport s t ∧ SameWorkingBut dispatcherRegisters s t
    sends .cmd0 (frameBytes s.params opGoIdleState 0#32) ∧
    sends .cmd1 (frameBytes s.params opSendOpCond 0#32) ∧
    sends .cmd16 (frameBytes s.params opSetBlockLen 512#32) ∧
    sends (.cmd32 addr) (frameBytes s.params s.params.opEraseWrBlkStart addr) ∧
    sends (.cmd33 addr) (frameBytes s.params s.params.opEraseWrBlkEnd addr) ∧
    sends .cmd55 (frameBytes s.params opAppCmd 0#32)

/-- Rule R121, for the bare rows of rules R140 and R146 (assumption 7; any count and either HCS, assumption 24): an application
command is a whole `CMD55` round trip with its own bracket, which alone is sent and whose byte is returned when it exceeds 1; else
the target follows in its own bracket and its byte is returned. -/
def Obligations.ApplicationCommandsSendTheirPrefix : Prop :=
  ∀ (s : State) (count : Byte) (hcs : Bool), s.params.wf = true →
    let sends : Instr → List Byte → Prop := fun i frame => ∃ t evs r, exec i s = .next t ∧ Appends s t evs ∧
      AppTrace s.params frame r evs ∧ t.w.r = some r ∧ SameButTransport s t ∧ SameWorkingBut dispatcherRegisters s t
    sends (.acmd23 count) (frameBytes s.params s.params.opSetWrBlkEraseCount (count.setWidth 32)) ∧
    sends (.acmd41 hcs) (frameBytes s.params opSdSendOpCond (if hcs then s.params.hcsArg else 0#32))

/-- The bare stop command (assumption 7): no bracket, so the line stays as it is (rules R90, R122), and one byte after its frame is
discarded before the poll (rule R124, decision D23). -/
def Obligations.StopCommandSkipsTheBracket : Prop :=
  ∀ s : State, ∃ t evs r, exec .cmd12 s = .next t ∧ Appends s t evs ∧ StopTrace s.params r evs ∧ t.cs = s.cs ∧ t.w.r = some r ∧
    SameButTransport s t ∧ SameWorkingBut dispatcherRegisters s t

/-- `CMD8` and `CMD58` (rules R77 to R79): the four trailing bytes are read when R1 is 1 (`CMD8`) or 0 (`CMD58`), most significant
first, and not otherwise; the echo test passes exactly on 0x01, 0xAA in the last two. That a bare command reads them, and `ok`, are
the model's (assumption 7). -/
def Obligations.TrailingBytesOfIfCondAndOcr : Prop :=
  ∀ s : State, s.params.wf = true →
    (∃ t evs trailing, exec .cmd8 s = .next t ∧ Appends s t evs ∧
      TrailingTrace s.params (frameBytes s.params opSendIfCond 0x1AA#32) 0x01#8 trailing evs ∧
      (∀ b0 b1 b2 b3 : Byte, trailing = some [b0, b1, b2, b3] → t.w.resp4 = some (b0 ++ b1 ++ b2 ++ b3) ∧
        t.w.ok = some (decide (b2.toNat = 0x01 ∧ b3.toNat = 0xAA))) ∧
      (trailing = none → t.w.ok = some false ∧ t.w.resp4 = s.w.resp4) ∧
      SameButTransport s t ∧ SameWorkingBut (dispatcherRegisters ++ [.resp4, .ok]) s t) ∧
    ∃ t evs trailing, exec .cmd58 s = .next t ∧ Appends s t evs ∧
      TrailingTrace s.params (frameBytes s.params opReadOcr 0#32) 0x00#8 trailing evs ∧
      (∀ b0 b1 b2 b3 : Byte, trailing = some [b0, b1, b2, b3] → t.w.resp4 = some (b0 ++ b1 ++ b2 ++ b3) ∧ t.w.ok = some true) ∧
      (trailing = none → t.w.ok = some false ∧ t.w.resp4 = s.w.resp4) ∧
      SameButTransport s t ∧ SameWorkingBut (dispatcherRegisters ++ [.resp4, .ok]) s t

/-- `CMD9` (rule R133): accepted, one packet of 16 bytes is received. That a bare one puts it into `CSDBUF` and leaves `BUF` the
same (assumption 18), and its `ok` (assumption 7), are the model's. -/
def Obligations.CsdCommandFillsCsdBuf : Prop :=
  ∀ s : State, s.params.wf = true → ∃ t evs csd, exec .cmd9 s = .next t ∧ Appends s t evs ∧
    CmdRecvTrace s.params (frameBytes s.params s.params.opSendCsd 0#32) csd evs ∧
    (∀ bytes, csd = some bytes → bytes.length = 16 ∧ t.w.csdBuf = some bytes ∧ t.w.ok = some true) ∧
    (csd = none → t.w.csdBuf = s.w.csdBuf ∧ t.w.ok = some false) ∧
    SameButTransport s t ∧ SameWorkingBut (dispatcherRegisters ++ [.token, .csdBuf, .ok]) s t

/-- `CMD10`, `ACMD13`, `CMD17` (rules R134, R136, R138): accepted, one packet of 16, 64 or 512 bytes is received. That a bare one
puts it at the start of `BUF` (assumption 18), its `ok` (assumption 7) and that `CMD17` carries any argument (assumption 24) are
the model's; without a packet `BUF` is the same; no other byte of `BUF` changes. `ACMD13` has one more byte, discarded, before its
packet. -/
def Obligations.ReceivingCommandsFillBuf : Prop :=
  ∀ (s : State) (addr : Word), Memory.wf s.buf.mem = true → s.params.wf = true →
    let receives : Instr → Nat → (Option (List Byte) → List WireEvent → Prop) → Prop := fun i len trace =>
      ∃ t evs payload, exec i s = .next t ∧ Appends s t evs ∧ trace payload evs ∧
        (∀ bytes, payload = some bytes → bufBytes 0 len t = bytes ∧ t.w.ok = some true ∧ SameBufBut 0 len s t) ∧
        (payload = none → t.buf = s.buf ∧ t.w.ok = some false) ∧
        SameSession s t ∧ t.seq = s.seq ∧ t.reply = s.reply ∧ SameWorkingBut (dispatcherRegisters ++ [.token, .ok]) s t
    (16 ≤ s.buf.size → receives .cmd10 16 (CmdRecvTrace s.params (frameBytes s.params s.params.opSendCid 0#32))) ∧
    (64 ≤ s.buf.size → receives .acmd13 64 (SdStatusTrace s.params)) ∧
    (512 ≤ s.buf.size → receives (.cmd17 addr) 512 (CmdRecvTrace s.params (frameBytes s.params s.params.opReadSingleBlock addr)))

/-- `CMD18` (rules R139, R223) with `COUNT` given by its issuer: at most `COUNT` packets into successive 512-byte offsets of
`BUF`, stopping at the first that fails, then the stop command in the same bracket; `COUNT` holds what is left. The model's: a
bare row and its issuer's `COUNT` (assumption 7), the start of `BUF` (assumption 18), a `COUNT` of 0, which no step gives and
which moves none (assumption 23), any argument (assumption 24), whatever the `STATUS` flags (assumption 25). Where `COUNT` holds
no value it faults exactly where the first sector came, after which rule R223 reads `COUNT` (rule R31); without one it ends as
otherwise, and `COUNT` still holds none. -/
def Obligations.MultipleReadCommandFillsBuf : Prop :=
  ∀ (s : State) (addr : Word), Memory.wf s.buf.mem = true → s.params.wf = true →
    (∀ n : Fin 129, s.w.count = some n → n.val * 512 ≤ s.buf.size → ∃ t evs payloads, exec (.cmd18 addr) s = .next t ∧
      Appends s t evs ∧ ReadMultiTrace s.params (frameBytes s.params s.params.opReadMultipleBlock addr) n.val payloads evs ∧
      payloads.length ≤ n.val ∧ (∀ p ∈ payloads, p.length = 512) ∧
      bufBytes 0 (512 * payloads.length) t = payloads.flatten ∧ SameBufBut 0 (512 * payloads.length) s t ∧
      t.w.count.map Fin.val = some (n.val - payloads.length) ∧
      SameSession s t ∧ t.seq = s.seq ∧ t.reply = s.reply ∧ SameWorkingBut (dispatcherRegisters ++ [.token, .count, .off]) s t) ∧
    (s.w.count = none → 512 ≤ s.buf.size →
      if readReachesCount s.params addr s then exec (.cmd18 addr) s = .fault (.unwrittenRegister .count)
      else ∃ t evs, exec (.cmd18 addr) s = .next t ∧ Appends s t evs ∧
        ReadMultiTrace s.params (frameBytes s.params s.params.opReadMultipleBlock addr) 1 [] evs ∧
        SameButTransport s t ∧ SameWorkingBut (dispatcherRegisters ++ [.token, .off]) s t)

/-- `CMD24`, `CMD25` (rules R141, R142, R225): accepted, one packet from the start of `BUF` with the token 0xFE, or at most
`COUNT` packets from successive 512-byte offsets with `TOKEN_START_MULTI` and then the stop token; `BUF` is the same. From a
`COUNT` of 1 or more it ends 0 exactly when everything was accepted. The model's: a bare row, its `ok` and its issuer's `COUNT`
(assumption 7), `TOKEN` on a ready timeout, which the frame leaves open (assumption 21), a `COUNT` of 0, which no step gives and
which sends none (assumption 23), any argument (assumption 24), whatever the `STATUS` flags (assumption 25). Where `COUNT` holds
no value `CMD25` faults exactly where the first packet was accepted, after which rule R225 reads `COUNT` (rule R31); without that
it ends as otherwise. -/
def Obligations.TransmittingCommandsSendBuf : Prop :=
  ∀ (s : State) (addr : Word), s.writeCapable = true → s.params.wf = true →
    (512 ≤ s.buf.size → ∃ t evs ok, exec (.cmd24 addr) s = .next t ∧ Appends s t evs ∧
      CmdXmitTrace s.params (frameBytes s.params s.params.opWriteBlock addr) (bufBytes 0 512 s) ok evs ∧ t.w.ok = some ok ∧
      SameButTransport s t ∧ SameWorkingBut (dispatcherRegisters ++ [.token, .dResp, .ok]) s t) ∧
    (∀ n : Fin 129, s.w.count = some n → n.val * 512 ≤ s.buf.size → ∃ t evs ok, exec (.cmd25 addr) s = .next t ∧
      Appends s t evs ∧ WriteMultiTrace s.params s (frameBytes s.params s.params.opWriteMultipleBlock addr) n.val ok evs ∧
      (1 ≤ n.val → (t.w.count = some 0 ↔ ok = true)) ∧
      SameButTransport s t ∧ SameWorkingBut (dispatcherRegisters ++ [.token, .dResp, .count, .off]) s t) ∧
    (s.w.count = none → 512 ≤ s.buf.size →
      if writeReachesCount s.params addr s then exec (.cmd25 addr) s = .fault (.unwrittenRegister .count)
      else ∃ t evs, exec (.cmd25 addr) s = .next t ∧ Appends s t evs ∧
        WriteMultiTrace s.params s (frameBytes s.params s.params.opWriteMultipleBlock addr) 1 false evs ∧
        (t.w.count = none ∨ t.w.count = some 1) ∧
        SameButTransport s t ∧ SameWorkingBut (dispatcherRegisters ++ [.token, .dResp, .count, .off]) s t)

/-- `CMD38` (rule R145): accepted, the ready wait follows in the same bracket and gives the result, which a bare one leaves in
`ok` (the model's, assumption 7). -/
def Obligations.EraseCommandWaitsForReady : Prop :=
  ∀ s : State, s.params.wf = true → ∃ t evs ok, exec .cmd38 s = .next t ∧ Appends s t evs ∧ EraseTrace s.params ok evs ∧ t.w.ok = some ok ∧
    SameButTransport s t ∧ SameWorkingBut (dispatcherRegisters ++ [.ok]) s t

/-! ### Tokens and single bytes presented by themselves (assumptions 7 and 25) -/

/-- A start token from the card (rules R171, R173): the next byte received is it, the 512 bytes after it go to the start of `BUF`,
the two after those are discarded, and the 514 are the card's next, the scripted ones first. That a bare token is the card's next
byte (assumption 7) and that its packet is 512 bytes at the start of `BUF` (assumption 18) are the model's. -/
def Obligations.ReceivedStartTokenOpensPacket : Prop :=
  ∀ s : State, Memory.wf s.buf.mem = true → 512 ≤ s.buf.size → ∃ t payload c1 c2, exec (.tokenStartBlock .fromCard) s = .next t ∧
    Appends s t (.xchg s.params.dummyTx 0xFE#8 :: sending s.params.fillByte payload ++ sending s.params.dummyTx [c1, c2]) ∧
    payload = bufBytes 0 512 t ∧
    t.cardIn = s.cardIn.drop 514 ∧ (payload ++ [c1, c2]).take s.cardIn.length = s.cardIn.take 514 ∧
    t.w.token = some 0xFE#8 ∧ t.w.ok = some true ∧ SameBufBut 0 512 s t ∧ SameSession s t ∧ t.seq = s.seq ∧ t.reply = s.reply ∧
    t.cs = s.cs ∧ SameWorkingBut [.dPoll, .token, .ok] s t

/-- A start token to the card: one packet (rule R175), from the start of `BUF` with 0xFE, from offset `OFF`, a multiple of 512
(rule R57), with `TOKEN_START_MULTI`. That a bare token runs a packet and leaves its success in `ok` (assumption 7), that `TOKEN`
holds it on every path, a ready timeout included (assumption 21), and the transmit from an `OFF` of 65536, which rules R14 and R51
give no packet and no issuer gives (assumption 23), are the model's. Without `OFF` the multi-block token faults (rule R31). -/
def Obligations.SentStartTokensOpenPackets : Prop :=
  ∀ s : State, s.writeCapable = true → s.params.wf = true →
    let transmits : Instr → Byte → Nat → Prop := fun i token off => ∃ t evs ok, exec i s = .next t ∧ Appends s t evs ∧
      XmitTrace s.params token (bufBytes off 512 s) ok evs ∧ t.w.token = some token ∧ t.w.ok = some ok ∧ t.cs = s.cs ∧
      SameButTransport s t ∧ SameWorkingBut [.dPoll, .token, .dResp, .ok] s t
    (512 ≤ s.buf.size → transmits (.tokenStartBlock .toCard) 0xFE#8 0) ∧
    (∀ off : Fin 129, s.w.off = some off → off.val * 512 + 512 ≤ s.buf.size →
      transmits .tokenStartMulti s.params.startMultiToken (off.val * 512)) ∧
    (s.w.off = none → exec .tokenStartMulti s = .fault (.unwrittenRegister .off))

/-- The bare stop token (assumption 7, which also gives its `ok`), by rule R177: a ready wait and one exchange of it and nothing
else; a ready timeout is its only failure, and then it is not sent. -/
def Obligations.StopTokenSendsNothingElse : Prop :=
  ∀ s : State, s.writeCapable = true → ∃ t evs ok, exec .tokenStopMulti s = .next t ∧ Appends s t evs ∧ StopTokenTrace s.params ok evs ∧
    t.w.ok = some ok ∧ t.cs = s.cs ∧ SameButTransport s t ∧ SameWorkingBut [.dPoll, .token, .ok] s t

/-- The four single-byte rows (rules R75, R83, R85): one exchange that sends `DUMMY_TX`; a data response with its low five bits
`ACCEPT_VAL` is accepted whatever its high bits; a byte with bit 7 clear ends the response poll at its first; 0xFF ends a ready
wait; a dummy byte changes nothing but the wire. That a bare awaited byte is the card's next, drawn before the script (so `cardIn`
is unchanged), and the `ok` a bare row leaves, are the model's (assumption 7), as is the limit behind `D_POLL` (assumption 22). -/
def Obligations.SingleBytesEndTheirWait : Prop :=
  ∀ (s : State) (high : BitVec 3) (flags : BitVec 7),
    (s.writeCapable = true → ∃ t, exec (.dataResponseAccepted high) s = .next t ∧
      Appends s t [.xchg s.params.dummyTx (high ++ s.params.acceptVal)] ∧ t.w.dResp = some (high ++ s.params.acceptVal) ∧
        t.w.ok = some true ∧
      t.cs = s.cs ∧ t.cardIn = s.cardIn ∧ SameButTransport s t ∧ SameWorkingBut [.dResp, .ok] s t) ∧
    (∃ t, exec (.r1Valid flags) s = .next t ∧ Appends s t [.xchg s.params.dummyTx (0#1 ++ flags)] ∧ t.w.r1 = some (0#1 ++ flags) ∧
      t.w.nPoll = some 9#4 ∧ t.cs = s.cs ∧ t.cardIn = s.cardIn ∧ SameButTransport s t ∧ SameWorkingBut [.r1, .nPoll] s t) ∧
    (∃ t, exec .readyByte s = .next t ∧ Appends s t [.xchg s.params.dummyTx 0xFF#8] ∧ t.w.ok = some true ∧
      t.cs = s.cs ∧ t.cardIn = s.cardIn ∧ SameButTransport s t ∧ SameWorkingBut [.dPoll, .ok] s t) ∧
    ∃ t rx, exec .dummyTx s = .next t ∧ Appends s t [.xchg s.params.dummyTx rx] ∧ (∀ b rest, s.cardIn = b :: rest → rx = b) ∧
      t.cs = s.cs ∧ SameButTransport s t ∧ t.w = s.w

/-! ### The procedures, against a scripted card and clock -/

/-- Rule R125: the response poll stops at the first byte with bit 7 clear and returns it; after ten bytes with bit 7 set it returns
the tenth. It reads no byte more and uses no deadline. -/
def Obligations.ResponsePollReturnsLastByteRead : Prop :=
  ∀ (cfg : Params) (s : State) (noise rest : List Byte) (r : Byte), s.cardIn = noise ++ r :: rest → (∀ b ∈ noise, 128 ≤ b.toNat) →
    (r.toNat < 128 ∧ noise.length ≤ 9) ∨ noise.length = 9 →
    (pollR1 cfg s).1 = r ∧ (pollR1 cfg s).2.w.r1 = some r ∧ (pollR1 cfg s).2.cardIn = rest ∧
      Appends s (pollR1 cfg s).2 (sending cfg.dummyTx (noise ++ [r])) ∧ (pollR1 cfg s).2.clockIn = s.clockIn ∧ (pollR1 cfg s).2.cs = s.cs

/-- Rule R112: the ready wait polls at least once, tests the byte before the deadline, and so succeeds at the first 0xFF even on the
last poll; with `n` false answers of the deadline it makes `n + 1` polls before it fails. Of the registers it writes `D_POLL` only.
-/
def Obligations.ReadyWaitTestsByteBeforeDeadline : Prop :=
  ∀ (cfg : Params) (s : State) (ms n : Nat) (clocks : List Nat) (busy rest : List Byte), s.clockIn = n :: clocks →
    (∀ b ∈ busy, b ≠ 0xFF#8) →
    SameButTransport s (waitReady cfg ms s).2 ∧ SameWorkingBut [.dPoll] s (waitReady cfg ms s).2 ∧
    (busy.length ≤ n → s.cardIn = busy ++ 0xFF#8 :: rest →
      (waitReady cfg ms s).1 = true ∧ (waitReady cfg ms s).2.cardIn = rest ∧
        Appends s (waitReady cfg ms s).2 (sending cfg.dummyTx (busy ++ [0xFF#8])) ∧ (waitReady cfg ms s).2.cs = s.cs) ∧
    (busy.length = n + 1 → s.cardIn = busy ++ rest →
      (waitReady cfg ms s).1 = false ∧ (waitReady cfg ms s).2.cardIn = rest ∧
        Appends s (waitReady cfg ms s).2 (sending cfg.dummyTx busy) ∧ (waitReady cfg ms s).2.cs = s.cs)

/-- Rule R172, with rule R173: the three outcomes of the token wait of a receive. Idle bytes 0xFF and then 0xFE: the payload goes to
`BUF`, whatever the two bytes after it are. Another byte: failure on it, nothing written. Only 0xFF until the deadline: failure,
nothing written. -/
def Obligations.TokenWaitHasThreeOutcomes : Prop :=
  ∀ (cfg : Params) (s : State) (off n k : Nat) (clocks : List Nat) (rest : List Byte), s.clockIn = n :: clocks →
    Memory.wf s.buf.mem = true →
    (∀ (payload : List Byte) (c1 c2 : Byte), k ≤ n →
      s.cardIn = List.replicate k 0xFF#8 ++ 0xFE#8 :: payload ++ [c1, c2] ++ rest →
      (recvDataBlock cfg off payload.length s).1 = true ∧ (recvDataBlock cfg off payload.length s).2.cardIn = rest ∧
        bufBytes off payload.length (recvDataBlock cfg off payload.length s).2 = payload ∧
        SameBufBut off payload.length s (recvDataBlock cfg off payload.length s).2) ∧
    (∀ (len : Nat) (b : Byte), k ≤ n → b ≠ 0xFF#8 → b ≠ 0xFE#8 → s.cardIn = List.replicate k 0xFF#8 ++ b :: rest →
      (recvDataBlock cfg off len s).1 = false ∧ (recvDataBlock cfg off len s).2.cardIn = rest ∧
        (recvDataBlock cfg off len s).2.buf = s.buf) ∧
    (∀ len : Nat, k = n + 1 → s.cardIn = List.replicate k 0xFF#8 ++ rest →
      (recvDataBlock cfg off len s).1 = false ∧ (recvDataBlock cfg off len s).2.cardIn = rest ∧ (recvDataBlock cfg off len s).2.buf = s.buf)

/-- Rule R176: the byte exchanged right after the two dummy CRC bytes decides alone, by its low five bits, for every value; the
bytes received before it do not matter; no further byte is read. -/
def Obligations.DataResponseDecidesTransmit : Prop :=
  ∀ (cfg : Params) (s : State) (off : Nat) (token d : Byte) (discarded rest : List Byte),
    token = 0xFE#8 ∨ token = cfg.startMultiToken → cfg.wf = true →
    discarded.length = 515 → s.cardIn = 0xFF#8 :: discarded ++ d :: rest →
    ((xmitDataBlock cfg off token s).1 = true ↔ d.toNat % 32 = cfg.acceptVal.toNat) ∧ (xmitDataBlock cfg off token s).2.w.dResp = some d ∧
      (xmitDataBlock cfg off token s).2.cardIn = rest ∧ (xmitDataBlock cfg off token s).2.buf = s.buf

/-! ### read and write -/

/-- Rule R222, with rules R60 and R226: a single-sector read sends `CMD17` with the converted address and, accepted, receives one
packet; `OK` exactly when it came, and then `BUF` holds its payload; otherwise `BUF` is the same. -/
def Obligations.ReadSingleDeliversOnePacket : Prop :=
  ∀ (s : State) (sector : Word), Launchable s → 512 ≤ s.buf.size → ∃ t payload, exec (.readSingle 0#8 .given sector) s = .next t ∧
    Ran s t (CmdRecvTrace s.params (frameBytes s.params s.params.opReadSingleBlock
      (if s.type.blockAddressed then sector else sector * 512#32)) payload) ∧
    t.reply = okOrError payload.isSome ∧
    (∀ bytes, payload = some bytes → bufBytes 0 512 t = bytes ∧ SameBufBut 0 512 s t ∧ t.w.count = some 0) ∧
    (payload = none → t.buf = s.buf ∧ t.w.count = some 1) ∧
    t.w.addr = some (if s.type.blockAddressed then sector else sector * 512#32) ∧
    SameWorkingBut (dispatcherRegisters ++ [.token, .count, .addr]) (cleared s) t

/-- Rule R223: a read of 2 to 128 sectors sends `CMD18` and, accepted, receives into successive 512-byte offsets until `COUNT` is 0
or one receive fails, then stops the stream whatever happened; `OK` exactly when all came; what came stays in `BUF`, and nothing
else of it changes. -/
def Obligations.ReadMultiDeliversItsSectors : Prop :=
  ∀ (s : State) (sector : Word) (count : BitVec 16), Launchable s → 2 ≤ count.toNat → count.toNat ≤ 128 →
    count.toNat * 512 ≤ s.buf.size → ∃ t payloads, exec (.readMulti 0#8 .given sector count) s = .next t ∧
    Ran s t (ReadMultiTrace s.params (frameBytes s.params s.params.opReadMultipleBlock
      (if s.type.blockAddressed then sector else sector * 512#32))
      count.toNat payloads) ∧
    payloads.length ≤ count.toNat ∧ (∀ p ∈ payloads, p.length = 512) ∧
    t.reply = okOrError (payloads.length = count.toNat) ∧
    bufBytes 0 (512 * payloads.length) t = payloads.flatten ∧ SameBufBut 0 (512 * payloads.length) s t ∧
    t.w.count.map Fin.val = some (count.toNat - payloads.length) ∧
    t.w.addr = some (if s.type.blockAddressed then sector else sector * 512#32) ∧
    SameWorkingBut (dispatcherRegisters ++ [.token, .count, .addr, .off]) (cleared s) t

/-- Rule R224: a single-sector write sends `CMD24` with the converted address and, accepted, transmits one packet of the first 512
bytes of `BUF`; `OK` exactly when its data response was accepted; `BUF` is the same. -/
def Obligations.WriteSingleSendsOnePacket : Prop :=
  ∀ (s : State) (sector : Word), Launchable s → s.writeCapable = true → s.status.writeProtected = false → 512 ≤ s.buf.size →
    ∃ t ok, exec (.writeSingle 0#8 .given sector) s = .next t ∧
    Ran s t (CmdXmitTrace s.params (frameBytes s.params s.params.opWriteBlock (if s.type.blockAddressed then sector else sector * 512#32))
      (bufBytes 0 512 s) ok) ∧
    t.reply = okOrError ok ∧ t.buf = s.buf ∧ t.w.count = some (if ok then 0 else 1) ∧
    t.w.addr = some (if s.type.blockAddressed then sector else sector * 512#32) ∧
    SameWorkingBut (dispatcherRegisters ++ [.token, .dResp, .count, .addr]) (cleared s) t

/-- Rule R225: a write of 2 to 128 sectors first sends `ACMD23` with the count, for an SD card only, its result ignored; then
`CMD25` and, accepted, packets from successive 512-byte offsets of `BUF` until one fails, then the stop token whatever happened;
`OK` exactly when everything was accepted and the stop token was sent; `BUF` is the same. -/
def Obligations.WriteMultiSendsItsSectors : Prop :=
  ∀ (s : State) (sector : Word) (count : BitVec 16), Launchable s → s.writeCapable = true → s.status.writeProtected = false →
    2 ≤ count.toNat → count.toNat ≤ 128 → count.toNat * 512 ≤ s.buf.size →
    ∃ t ok, exec (.writeMulti 0#8 .given sector count) s = .next t ∧
    Ran s t (fun evs => ∃ hint rest, evs = hint ++ rest ∧
      (if s.type.sdV1 || s.type.sdV2 then
        ∃ r, AppTrace s.params (frameBytes s.params s.params.opSetWrBlkEraseCount (count.setWidth 32)) r hint
      else hint = []) ∧
      WriteMultiTrace s.params s (frameBytes s.params s.params.opWriteMultipleBlock
        (if s.type.blockAddressed then sector else sector * 512#32))
        count.toNat ok rest) ∧
    t.reply = okOrError ok ∧ t.buf = s.buf ∧ t.w.addr = some (if s.type.blockAddressed then sector else sector * 512#32) ∧
    SameWorkingBut (dispatcherRegisters ++ [.token, .dResp, .count, .addr, .off]) (cleared s) t

/-- Rule R341, for one sector: with a card ready at the first poll that answers every command at the first poll, a single read takes
526 exchanges and delivers the payload, a single write 528, and each draws exactly its bytes. -/
def Obligations.ReadyCardMovesOneSector : Prop :=
  ∀ (s : State) (sector : Word) (a b d : Byte) (frame rest : List Byte), Launchable s → 512 ≤ s.buf.size → frame.length = 6 →
    (∀ (payload : List Byte) (c1 c2 : Byte), payload.length = 512 →
      s.cardIn = [a, b, 0xFF#8] ++ frame ++ [0x00#8, 0xFE#8] ++ payload ++ [c1, c2, d] ++ rest →
      ∃ t, exec (.readSingle 0#8 .given sector) s = .next t ∧ t.reply = some (.result .ok) ∧ bufBytes 0 512 t = payload ∧
        exchanges t.wire = exchanges s.wire + 526 ∧ t.cardIn = rest) ∧
    (∀ (discarded : List Byte) (response : Byte), s.writeCapable = true → s.status.writeProtected = false →
      discarded.length = 515 → response.toNat % 32 = s.params.acceptVal.toNat →
      s.cardIn = [a, b, 0xFF#8] ++ frame ++ [0x00#8, 0xFF#8] ++ discarded ++ [response, d] ++ rest →
      ∃ t, exec (.writeSingle 0#8 .given sector) s = .next t ∧ t.reply = some (.result .ok) ∧
        exchanges t.wire = exchanges s.wire + 528 ∧ t.cardIn = rest)

/-! ### ioctl -/

/-- Rule R251: `sync` is one select and nothing else; `OK` exactly when the card was ready; a buffer is not needed. -/
def Obligations.SyncIsOneSelect : Prop :=
  ∀ (s : State) (buf : Handle), Launchable s → ∃ t ok, exec (.ioctlSync 0#8 buf) s = .next t ∧ Ran s t (SelectTrace s.params ok) ∧
    t.reply = okOrError ok ∧ t.buf = s.buf ∧ SameWorkingBut [.dPoll, .ok] (cleared s) t

/-- Rule R252: get-sector-count reads the CSD and answers its capacity, or `ERROR`; the typed value is the model's (assumption 8).
-/
def Obligations.SectorCountReadsCsd : Prop :=
  ∀ s : State, Launchable s → ∃ t csd, exec (.ioctlSectorCount 0#8 .given) s = .next t ∧
    Ran s t (CmdRecvTrace s.params (frameBytes s.params s.params.opSendCsd 0#32) csd) ∧ t.buf = s.buf ∧
    (∀ bytes, csd = some bytes → bytes.length = 16 ∧ t.w.csdBuf = some bytes ∧ t.reply = some (.value (csdCapacity s.params bytes))) ∧
    (csd = none → t.reply = some (.result .error)) ∧
    SameWorkingBut (dispatcherRegisters ++ [.token, .csdBuf, .ok]) (cleared s) t

/-- Get-block-size (rule R253, with the fault of rule R263) reads the head of the SD status on an `SDv2` card and the CSD on any
other, and answers the granularity of the register, or `ERROR`. With the default functions, on an `SDv1` card whose CSD asks for a
shift by -1, it faults. The typed value (assumption 8) and that the fault stops the machine (assumption 15) are the model's. -/
def Obligations.BlockSizeReadsItsRegister : Prop :=
  ∀ s : State, Launchable s →
    let reg := (granularityRegister s.params (beginOperation (.control 0x03#8) s)).1
    (s.params.registerFunctions = .configured ∨ s.type.sdV2 = true ∨ s.type.sdV1 = false ∨
        (∀ bytes, reg = some bytes → 64 ≤ (bytes.getD 13 0x00#8).toNat) →
      ∃ t, exec (.ioctlBlockSize 0#8 .given) s = .next t ∧
        Ran s t (if s.type.sdV2 then SdStatusHeadTrace s.params reg
          else CmdRecvTrace s.params (frameBytes s.params s.params.opSendCsd 0#32) reg) ∧ t.buf = s.buf ∧
        (∀ bytes, reg = some bytes → bytes.length = 16 ∧ t.reply = (eraseGranularity s.params s.type bytes).map Reply.value ∧
          t.reply ≠ none) ∧
        (reg = none → t.reply = some (.result .error)) ∧
        SameWorkingBut (dispatcherRegisters ++ [.token, .csdBuf, .ok]) (cleared s) t) ∧
    (∀ bytes, reg = some bytes → s.params.registerFunctions = .specDefault → s.type.sdV2 = false → s.type.sdV1 = true →
      (bytes.getD 13 0x00#8).toNat < 64 → exec (.ioctlBlockSize 0#8 .given) s = .fault .eraseGranularityShift)

/-- Rule R254: `trim` needs an SD card and an erase-enabled CSD, sends the two ends converted and the erase, each step only if the
one before succeeded, and waits; `OK` exactly when the card was ready at the end; otherwise `ERROR`. The pair is typed (assumption
8). -/
def Obligations.TrimErasesItsRange : Prop :=
  ∀ s : State, Launchable s → ∃ t ok, exec (.ioctlTrim 0#8 .given) s = .next t ∧ Ran s t (TrimTrace s.params s.type s.buf.pair ok) ∧
    t.reply = okOrError ok ∧ t.buf = s.buf ∧
    SameWorkingBut (dispatcherRegisters ++ [.token, .csdBuf, .addr, .ok]) (cleared s) t

/-- Rule R255: the type byte, in its byte form, goes to offset 0 of `BUF`, no command is sent, and the reply is `OK`. The byte has
the mask of each name that is set, by default 1, 2, 4, 8 and 16. -/
def Obligations.RawTypeStoresTypeByte : Prop :=
  ∀ s : State, Launchable s → 1 ≤ s.buf.size → ∃ t, exec (.ioctlRawType 0#8 .given) s = .next t ∧ Ran s t (fun evs => evs = []) ∧
    t.reply = some (.result .ok) ∧ SameBufBut 0 1 s t ∧ SameWorkingBut [.ok] (cleared s) t ∧
    bufRead 0 t = (if s.type.mmcV3 then s.params.mmcV3Mask else 0#8) ||| (if s.type.mmcV4 then s.params.mmcV4Mask else 0#8) |||
      (if s.type.sdV1 then s.params.sdV1Mask else 0#8) ||| (if s.type.sdV2 then s.params.sdV2Mask else 0#8) |||
      (if s.type.blockAddressed then s.params.blockAddressedMask else 0#8) ∧
    (s.params = Params.default → (bufRead 0 t).toNat = (if s.type.mmcV3 then 1 else 0) + (if s.type.mmcV4 then 2 else 0) +
      (if s.type.sdV1 then 4 else 0) + (if s.type.sdV2 then 8 else 0) + (if s.type.blockAddressed then 16 else 0))

/-- Rules R256, R257, R259: the raw queries of CSD, CID and SD status put the packet's bytes at offset 0 of `BUF` in the order
received and reply `OK`, or change no byte of it and reply `ERROR`. -/
def Obligations.RawRegistersStorePackets : Prop :=
  ∀ s : State, Launchable s →
    let queries : Instr → Nat → (Option (List Byte) → List WireEvent → Prop) → Prop := fun i len trace =>
      ∃ t payload, exec i s = .next t ∧ Ran s t (trace payload) ∧ t.reply = okOrError payload.isSome ∧
        (∀ bytes, payload = some bytes → bufBytes 0 len t = bytes ∧ SameBufBut 0 len s t) ∧ (payload = none → t.buf = s.buf) ∧
        SameWorkingBut (dispatcherRegisters ++ [.token, .ok]) (cleared s) t
    (16 ≤ s.buf.size → queries (.ioctlRawCsd 0#8 .given) 16 (CmdRecvTrace s.params (frameBytes s.params s.params.opSendCsd 0#32))) ∧
    (16 ≤ s.buf.size → queries (.ioctlRawCid 0#8 .given) 16 (CmdRecvTrace s.params (frameBytes s.params s.params.opSendCid 0#32))) ∧
    (64 ≤ s.buf.size → queries (.ioctlRawSdStatus 0#8 .given) 64 (SdStatusTrace s.params))

/-- Rule R258: the raw query of the OCR puts the four trailing bytes of R3 at offset 0 of `BUF` in the order received. -/
def Obligations.RawOcrStoresTrailingBytes : Prop :=
  ∀ s : State, Launchable s → 4 ≤ s.buf.size → ∃ t trailing, exec (.ioctlRawOcr 0#8 .given) s = .next t ∧
    Ran s t (TrailingTrace s.params (frameBytes s.params opReadOcr 0#32) 0x00#8 trailing) ∧
    t.reply = okOrError trailing.isSome ∧
    (∀ bytes, trailing = some bytes → bufBytes 0 4 t = bytes ∧ SameBufBut 0 4 s t) ∧ (trailing = none → t.buf = s.buf) ∧
    SameWorkingBut (dispatcherRegisters ++ [.resp4, .ok]) (cleared s) t

/-- Rule R261: every `ioctl` that passed its checks, its code given as an operand, ends with the line deselected, the engine idle, a
reply, and the session the same. It runs as the row of its code does, and it completes where neither the fault of rule R263
(excluded by the type, or by functions of the instance) nor the refusal of a small buffer (excluded by its size) can stop it. -/
def Obligations.IoctlEndsDeselected : Prop :=
  ∀ (s : State) (code : Byte) (buf : Handle), exec (.ioctl 0#8 code buf) s = exec (ioctlOf s.params code 0#8 buf) s ∧
    (Launchable s → isKnownCode s.params code → buf = .given ∨ code.toNat = 0 →
      ioctlBufBytes s.params code ≤ s.buf.size → s.params.registerFunctions = .configured ∨ s.type.sdV2 = true ∨ s.type.sdV1 = false →
      ∃ t, exec (.ioctl 0#8 code buf) s = .next t ∧ Ran s t (fun _ => True) ∧
        ((∃ ok, t.reply = okOrError ok) ∨ ∃ v, t.reply = some (.value v))) ∧
    (Launchable s → isKnownCode s.params code → buf = .given ∨ code.toNat = 0 →
      ∀ t, exec (.ioctl 0#8 code buf) s = .next t → Ran s t (fun _ => True) ∧
        ((∃ ok, t.reply = okOrError ok) ∨ ∃ v, t.reply = some (.value v)))

/-! ### Functions of operands -/

/-- Rule R60: the address of a sector, as numbers. -/
def Obligations.AddressConversionOfSectors : Prop :=
  ∀ (t : CardType) (sector : Word), (convertAddress t sector).toNat =
    if t.blockAddressed then sector.toNat else sector.toNat * 512 % 2 ^ 32

/-- Rule R262 at its default definition (assumption 10), as numbers: capacity of a version-2 CSD, capacity of any other with an
exponent of at least 9 (the value below is free, assumption 11), and the erase-enabled test. -/
def Obligations.CsdFunctionsOfBytes : Prop :=
  ∀ (cfg : Params) (csd : List Byte), cfg.registerFunctions = .specDefault → csd.length = 16 →
    let byte : Nat → Nat := fun k => (csd.getD k 0x00#8).toNat
    let n := byte 5 % 16 + byte 10 / 128 + byte 9 % 4 * 2 + 2
    (byte 0 / 64 = 1 →
      (csdCapacity cfg csd).toNat = (byte 9 + byte 8 * 2 ^ 8 + byte 7 % 64 * 2 ^ 16 + 1) * 2 ^ 10 % 2 ^ 32) ∧
    (byte 0 / 64 ≠ 1 → 9 ≤ n →
      (csdCapacity cfg csd).toNat = (byte 8 / 64 + byte 7 * 4 + byte 6 % 4 * 2 ^ 10 + 1) * 2 ^ (n - 9) % 2 ^ 32) ∧
    (eraseEnabled cfg csd = true ↔ byte 0 / 64 ≠ 0 ∨ byte 10 / 64 % 2 = 1)

/-- Rule R263 at its default definition (assumption 10), as numbers: the allocation unit of `SDv2`, the erase sector of `SDv1` with
its fault where the shift is -1, and the erase group of MMC. -/
def Obligations.EraseGranularityOfBytes : Prop :=
  ∀ (cfg : Params) (t : CardType) (reg : List Byte), cfg.registerFunctions = .specDefault → reg.length = 16 →
    let byte : Nat → Nat := fun k => (reg.getD k 0x00#8).toNat
    (t.sdV2 = true → (eraseGranularity cfg t reg).map BitVec.toNat = some (16 * 2 ^ (byte 10 / 16))) ∧
    (t.sdV2 = false → t.sdV1 = true → byte 13 / 64 = 0 → eraseGranularity cfg t reg = none) ∧
    (t.sdV2 = false → t.sdV1 = true → byte 13 / 64 ≠ 0 → (eraseGranularity cfg t reg).map BitVec.toNat =
      some ((byte 10 % 64 * 2 + byte 11 / 128 + 1) * 2 ^ (byte 13 / 64 - 1))) ∧
    (t.sdV2 = false → t.sdV1 = false → (eraseGranularity cfg t reg).map BitVec.toNat =
      some ((byte 10 / 4 % 32 + 1) * (byte 11 % 4 * 8 + byte 11 / 32 + 1)))

/-! ### The line -/

/-- Rule R332, with rules R28 and R290: after every host request the engine is idle with the line deasserted, and the last two
events of every one that touched the transport are `CS(0)` and an exchange that sends `DUMMY_TX`, 0xFF by default. -/
def Obligations.LineReleasedBeforeEveryReply : Prop :=
  ∀ (i : Instr) (s t : State), isHostRow i → s.seq = .idle → s.cs = .deasserted → exec i s = .next t →
    AtRest t ∧ t.reply ≠ none ∧ (t.wire ≠ s.wire → EndsDeselected t ∧
      (s.params = Params.default → ∃ rx rest, t.wire = .xchg 0xFF#8 rx :: .cs .deasserted :: rest))

/-! ### Bounds -/

/-- Rules R51, R57: no step but a buffer fill by the host changes the size or the pair of `BUF`, or a byte of it beyond offset
65535, whatever its size. (An issuer's `COUNT` and `OFF` are bounded by the move that gives them, assumption 7.) -/
def Obligations.BufBeyondItsSpanIsNeverStored : Prop :=
  ∀ s t : State, step s = .next t → (∃ size cells pair rest, s.agenda = .buffer size cells pair :: rest) ∨
    (t.buf.size = s.buf.size ∧ t.buf.pair = s.buf.pair ∧ ∀ a : Nat, 65536 ≤ a → bufRead a t = bufRead a s)

/-- Rule R197: the negotiation loop with `n` false answers left of `D_NEG`. It tests the deadline before each send, so it sends at
most `n` times and leaves `n` less the sends in `D_NEG`; it stops at the first response 0, and only then succeeds; it fails after
exactly `n` sends that were not accepted, none for `n` = 0. Each send is the init command of the path: `ACMD41` with or without HCS,
or `CMD1`. The number of false answers of a deadline is the model's form of it (assumption 2). -/
def Obligations.NegotiationTestsDeadlineBeforeEachSend : Prop :=
  ∀ (cfg : Params) (n : Nat) (s : State), cfg.wf = true →
    let bounded : Command → (Byte → List WireEvent → Prop) → Prop := fun c attempt => ∃ responses evs,
      Appends s (negotiateLoop cfg c n s).2 evs ∧ AttemptsTrace attempt responses evs ∧ responses.length ≤ n ∧
      (∀ r ∈ responses.dropLast, r ≠ 0x00#8) ∧
      ((negotiateLoop cfg c n s).1 = true ↔ responses.getLast? = some 0x00#8) ∧
      ((negotiateLoop cfg c n s).1 = false → responses.length = n) ∧
      (negotiateLoop cfg c n s).2.w.dNeg = (if responses = [] then s.w.dNeg else some ⟨1000, n - responses.length⟩) ∧
      SameButTransport s (negotiateLoop cfg c n s).2 ∧
      SameWorkingBut (dispatcherRegisters ++ [.dNeg]) s (negotiateLoop cfg c n s).2
    (∀ hcs, bounded (sdSendOpCond cfg hcs) (AppTrace cfg (frameBytes cfg opSdSendOpCond (if hcs then cfg.hcsArg else 0#32)))) ∧
    bounded sendOpCond (BracketTrace cfg (frameBytes cfg opSendOpCond 0#32))

/-- Rule R203: the outcomes of `initialize(0)` with a card that is ready at the first poll and answers each command at the first
poll; `D_NEG`, the second deadline set, answers false `n` times. `CMD8` echoed and `ACMD41` accepted after `k < n` responses 1:
`SDv2`, block addressed as CCS says. `CMD8` rejected and the bare `ACMD41(0)` answered with at most 1: `SDv1`; with more: MMC;
either with its init command accepted after `k < n` responses 1 and `CMD16` accepted. `n` responses 1 and none accepted: type 0, and
`NOT_INITIALIZED` set. Each draws exactly its bytes. The scripts are the model's form of the two oracles (assumptions 1 and 2). -/
def Obligations.InitializeOutcomesOfReadyCard : Prop :=
  ∀ (s : State) (first n k : Nat) (junk r8 probe e0 e1 o0 o1 o2 o3 : Byte) (clocks : List Nat) (rest : List Byte),
    s.seq = .idle → s.params.wf = true → s.clockIn = first :: n :: clocks → r8 ≠ 0x01#8 → r8.toNat < 128 → probe.toNat < 128 →
    let answer := readyAnswer junk
    let start := List.replicate 10 junk ++ answer 0x01#8
    let echoed := start ++ answer 0x01#8 ++ [e0, e1, 0x01#8, 0xAA#8]
    let probed := start ++ answer r8 ++ readyAppAnswer junk probe
    let apps := (List.replicate k (readyAppAnswer junk 0x01#8)).flatten
    let ends : CardType → Prop := fun ty => ∃ t, exec (.initDrive 0#8) s = .next t ∧ t.type = ty ∧
      (t.status.notInitialized = true ↔ ty = CardType.unknown) ∧ t.reply = some (.status t.status) ∧ t.cardIn = rest
    (k < n → s.cardIn = echoed ++ apps ++ readyAppAnswer junk 0x00#8 ++ answer 0x00#8 ++ [o0, o1, o2, o3] ++ [junk] ++ rest →
      ends (if o0.getLsbD 6 then .ofSdV2Block else .ofSdV2)) ∧
    (k < n → probe.toNat ≤ 1 → s.cardIn = probed ++ apps ++ readyAppAnswer junk 0x00#8 ++ answer 0x00#8 ++ [junk] ++ rest →
      ends .ofSdV1) ∧
    (k < n → 1 < probe.toNat → s.cardIn = probed ++ (List.replicate k (answer 0x01#8)).flatten ++ answer 0x00#8 ++ answer 0x00#8 ++
      [junk] ++ rest → ends .ofMmcV3) ∧
    (k = n → s.cardIn = echoed ++ apps ++ [junk] ++ rest → ends .unknown) ∧
    (k = n → probe.toNat ≤ 1 → s.cardIn = probed ++ apps ++ [junk] ++ rest → ends .unknown) ∧
    (k = n → 1 < probe.toNat → s.cardIn = probed ++ (List.replicate k (answer 0x01#8)).flatten ++ [junk] ++ rest → ends .unknown)
end

