-- ==== Sys2Proof/Laws/Config.lean ====
section
/-! SUPPORT. What a legal configuration gives: the prefix leaves the opcode bits clear, and the opcodes, the codes and the bytes sent are
told apart. -/

namespace Sys2Proof.Machine

variable {cfg : Params}

theorem Params.default_wf : Params.default.wf = true := by decide

theorem Params.wf_prefix (h : cfg.wf = true) : cfg.cmdPrefixBits &&& 0x3F#8 = 0x00#8 := by
  unfold Params.wf at h; simp only [Bool.and_eq_true, beq_iff_eq] at h; exact h.1.1.1.1.1.1.1.1

theorem Params.wf_opcodes (h : cfg.wf = true) : (opcodes cfg).Nodup := by
  unfold Params.wf at h; simp only [Bool.and_eq_true, decide_eq_true_eq] at h; exact h.1.1.1.1.1.1.1.2

theorem Params.wf_codes (h : cfg.wf = true) : (ioctlCodes cfg).Nodup := by
  unfold Params.wf at h; simp only [Bool.and_eq_true, decide_eq_true_eq] at h; exact h.1.1.1.1.1.1.2

theorem Params.wf_sent (h : cfg.wf = true) : (sentBytes cfg).Nodup := by
  unfold Params.wf at h; simp only [Bool.and_eq_true, decide_eq_true_eq] at h; exact h.1.1.1.1.2

theorem Params.wf_hcs (h : cfg.wf = true) : cfg.hcsArg ≠ 0#32 := by
  unfold Params.wf at h; simp only [Bool.and_eq_true, bne_iff_ne] at h; exact h.1.1.1.2

/-- The opcodes of the commands before and after the stop command. -/
def opcodesBefore (cfg : Params) : List (BitVec 6) := [opGoIdleState, opSendOpCond, opSendIfCond, cfg.opSendCsd, cfg.opSendCid]
def opcodesAfter (cfg : Params) : List (BitVec 6) :=
  [cfg.opSdStatus, opSetBlockLen,
    cfg.opReadSingleBlock, cfg.opReadMultipleBlock, cfg.opSetWrBlkEraseCount, cfg.opWriteBlock, cfg.opWriteMultipleBlock,
    cfg.opEraseWrBlkStart, cfg.opEraseWrBlkEnd, cfg.opErase, opSdSendOpCond, opAppCmd, opReadOcr]

/-- No other command is the stop command. -/
theorem isStop_other (h : cfg.wf = true) {c : Command} (hc : c.op ∈ opcodesBefore cfg ++ opcodesAfter cfg) : isStop cfg c = false := by
  have hn := List.nodup_middle.1 (show (opcodesBefore cfg ++ cfg.opStopTransmission :: opcodesAfter cfg).Nodup from Params.wf_opcodes h)
  have hne : c.op ≠ cfg.opStopTransmission := fun e => (List.nodup_cons.1 hn).1 (e ▸ hc)
  simpa [isStop] using hne

theorem isStop_goIdleState (h : cfg.wf = true) : isStop cfg goIdleState = false :=
    isStop_other h (by simp [opcodesBefore, opcodesAfter, goIdleState])
theorem isStop_sendOpCond (h : cfg.wf = true) : isStop cfg sendOpCond = false :=
    isStop_other h (by simp [opcodesBefore, opcodesAfter, sendOpCond])
theorem isStop_sendIfCond (h : cfg.wf = true) : isStop cfg sendIfCond = false :=
    isStop_other h (by simp [opcodesBefore, opcodesAfter, sendIfCond])
theorem isStop_sendCsd (h : cfg.wf = true) : isStop cfg (sendCsd cfg) = false :=
    isStop_other h (by simp [opcodesBefore, opcodesAfter, sendCsd])
theorem isStop_sendCid (h : cfg.wf = true) : isStop cfg (sendCid cfg) = false :=
    isStop_other h (by simp [opcodesBefore, opcodesAfter, sendCid])
theorem isStop_sdStatus (h : cfg.wf = true) : isStop cfg (sdStatus cfg) = false :=
    isStop_other h (by simp [opcodesBefore, opcodesAfter, sdStatus])
theorem isStop_setBlockLen (h : cfg.wf = true) : isStop cfg setBlockLen = false :=
    isStop_other h (by simp [opcodesBefore, opcodesAfter, setBlockLen])
theorem isStop_readSingleBlock (h : cfg.wf = true) (addr : Word) : isStop cfg (readSingleBlock cfg addr) = false :=
  isStop_other h (by simp [opcodesBefore, opcodesAfter, readSingleBlock])
theorem isStop_readMultipleBlock (h : cfg.wf = true) (addr : Word) : isStop cfg (readMultipleBlock cfg addr) = false :=
  isStop_other h (by simp [opcodesBefore, opcodesAfter, readMultipleBlock])
theorem isStop_setWrBlkEraseCount (h : cfg.wf = true) (count : Byte) : isStop cfg (setWrBlkEraseCount cfg count) = false :=
  isStop_other h (by simp [opcodesBefore, opcodesAfter, setWrBlkEraseCount])
theorem isStop_writeBlock (h : cfg.wf = true) (addr : Word) : isStop cfg (writeBlock cfg addr) = false :=
  isStop_other h (by simp [opcodesBefore, opcodesAfter, writeBlock])
theorem isStop_writeMultipleBlock (h : cfg.wf = true) (addr : Word) : isStop cfg (writeMultipleBlock cfg addr) = false :=
  isStop_other h (by simp [opcodesBefore, opcodesAfter, writeMultipleBlock])
theorem isStop_eraseWrBlkStart (h : cfg.wf = true) (addr : Word) : isStop cfg (eraseWrBlkStart cfg addr) = false :=
  isStop_other h (by simp [opcodesBefore, opcodesAfter, eraseWrBlkStart])
theorem isStop_eraseWrBlkEnd (h : cfg.wf = true) (addr : Word) : isStop cfg (eraseWrBlkEnd cfg addr) = false :=
  isStop_other h (by simp [opcodesBefore, opcodesAfter, eraseWrBlkEnd])
theorem isStop_eraseExecute (h : cfg.wf = true) : isStop cfg (eraseExecute cfg) = false :=
  isStop_other h (by simp [opcodesBefore, opcodesAfter, eraseExecute])
theorem isStop_sdSendOpCond (h : cfg.wf = true) (hcs : Bool) : isStop cfg (sdSendOpCond cfg hcs) = false :=
  isStop_other h (by simp [opcodesBefore, opcodesAfter, sdSendOpCond])
theorem isStop_appCmd (h : cfg.wf = true) : isStop cfg appCmd = false := isStop_other h (by simp [opcodesBefore, opcodesAfter, appCmd])
theorem isStop_readOcr (h : cfg.wf = true) : isStop cfg readOcr = false := isStop_other h (by simp [opcodesBefore, opcodesAfter, readOcr])
theorem isStop_stopTransmission (cfg : Params) : isStop cfg (stopTransmission cfg) = true := by simp [isStop, stopTransmission]

/-- The two tokens that open a packet are not the stop token. -/
theorem startBlock_ne_stop (h : cfg.wf = true) : startBlockToken ≠ cfg.stopMultiToken := by
  have := Params.wf_sent h
  simp only [sentBytes, List.nodup_cons, List.mem_cons, not_or] at this
  exact this.1.2.1

theorem startMulti_ne_stop (h : cfg.wf = true) : cfg.startMultiToken ≠ cfg.stopMultiToken := by
  have := Params.wf_sent h
  simp only [sentBytes, List.nodup_cons, List.mem_cons, not_or] at this
  exact this.2.1.1

end Sys2Proof.Machine
end

