-- ==== Sys2Proof/Laws/Memory.lean ====
section
/-! SUPPORT. The laws of the host buffer's cells: a read after a write, the canonical form kept by every write, and equal reads
mean equal cells. -/

namespace Sys2Proof.Machine

theorem memRead_memCons (m : Memory) (a : Nat) (b : Byte) (x : Nat) (h : memRead m a = unlistedByte) :
    memRead (memCons a b m) x = if x = a then b else memRead m x := by
  unfold memCons
  by_cases hb : b = unlistedByte
  · by_cases hx : x = a
    · subst hx; simp [hb, h]
    · simp [hb, hx]
  · by_cases hx : x = a
    · subst hx; simp [hb, memRead]
    · simp [hb, hx, memRead, Ne.symm hx]

theorem memWfFrom_mono {low low' : Nat} {m : Memory} (hl : low ≤ low') (h : memWfFrom low' m = true) : memWfFrom low m = true := by
  cases m with
  | nil => rfl
  | cons c rest =>
    simp only [memWfFrom, Bool.and_eq_true, decide_eq_true_eq] at h ⊢
    exact ⟨⟨by omega, h.1.2⟩, h.2⟩

/-- Below the least listed offset every byte is the unlisted one. -/
theorem memRead_below {low : Nat} {m : Memory} (h : memWfFrom low m = true) {x : Nat} (hx : x < low) : memRead m x = unlistedByte := by
  induction m generalizing low with
  | nil => rfl
  | cons c rest ih =>
    simp only [memWfFrom, Bool.and_eq_true, decide_eq_true_eq] at h
    have : c.1 ≠ x := by omega
    simp only [memRead, this, if_false]
    exact ih h.2 (by omega)

/-- A read after a write. -/
theorem memRead_memWrite {low : Nat} {m : Memory} (h : memWfFrom low m = true) (a : Nat) (b : Byte) (x : Nat) :
    memRead (memWrite m a b) x = if x = a then b else memRead m x := by
  induction m generalizing low with
  | nil => exact memRead_memCons [] a b x rfl
  | cons c rest ih =>
    have hw := h
    simp only [memWfFrom, Bool.and_eq_true, decide_eq_true_eq] at hw
    simp only [memWrite]
    split
    · rename_i hlt
      have hlow : memWfFrom c.1 (c :: rest) = true := by
        simp only [memWfFrom, Bool.and_eq_true, decide_eq_true_eq]; exact ⟨⟨Nat.le_refl _, hw.1.2⟩, hw.2⟩
      exact memRead_memCons _ a b x (memRead_below hlow hlt)
    · split
      · rename_i heq
        rw [memRead_memCons _ a b x (memRead_below hw.2 (by omega))]
        by_cases hx : x = a
        · simp [hx]
        · have : c.1 ≠ x := by omega
          simp [hx, memRead, this]
      · rename_i hlt hne
        by_cases hx : x = a
        · subst hx
          have : c.1 ≠ x := fun e => hne e.symm
          simp [memRead, this, ih hw.2]
        · by_cases hk : c.1 = x
          · simp [memRead, hk, hx]
          · simp [memRead, hk, ih hw.2, hx]

theorem memCons_wf {low a : Nat} {b : Byte} {m : Memory} (hl : low ≤ a) (h : memWfFrom (a + 1) m = true) :
    memWfFrom low (memCons a b m) = true := by
  unfold memCons
  split
  · exact memWfFrom_mono (by omega) h
  · rename_i hb
    simp [memWfFrom, hl, hb, h]

theorem memWrite_wfFrom {low : Nat} {m : Memory} (h : memWfFrom low m = true) {a : Nat} (ha : low ≤ a) (b : Byte) :
    memWfFrom low (memWrite m a b) = true := by
  induction m generalizing low with
  | nil => exact memCons_wf ha rfl
  | cons c rest ih =>
    have hw := h
    simp only [memWfFrom, Bool.and_eq_true, decide_eq_true_eq] at hw
    simp only [memWrite]
    split
    · refine memCons_wf ha ?_
      simp only [memWfFrom, Bool.and_eq_true, decide_eq_true_eq]
      exact ⟨⟨by omega, hw.1.2⟩, hw.2⟩
    · split
      · rename_i heq
        exact memCons_wf ha (heq ▸ hw.2)
      · simp only [memWfFrom, Bool.and_eq_true, decide_eq_true_eq]
        exact ⟨hw.1, ih hw.2 (by omega)⟩

/-- Every write keeps the canonical form. -/
theorem memWrite_wf {m : Memory} (h : Memory.wf m = true) (a : Nat) (b : Byte) : Memory.wf (memWrite m a b) = true :=
  memWrite_wfFrom h (Nat.zero_le _) b

/-- The cells the host hands over are put in canonical form. -/
theorem memOfCells_wf (cells : List Host.Cell) : Memory.wf (memOfCells cells) = true := by
  suffices ∀ (l : List Host.Cell) (m : Memory), Memory.wf m = true → Memory.wf (l.foldl (fun m c => memWrite m c.1 c.2) m) = true by
    exact this cells [] rfl
  intro l
  induction l with
  | nil => exact fun _ h => h
  | cons c rest ih => exact fun m h => ih _ (memWrite_wf h _ _)

/-- In canonical form, equal reads at every offset mean equal cells. -/
theorem memory_ext_from {low : Nat} {m n : Memory} (hm : memWfFrom low m = true) (hn : memWfFrom low n = true)
    (h : ∀ a, memRead m a = memRead n a) : m = n := by
  induction m generalizing low n with
  | nil =>
    cases n with
    | nil => rfl
    | cons d rest =>
      simp only [memWfFrom, Bool.and_eq_true, decide_eq_true_eq, bne_iff_ne, ne_eq] at hn
      have := h d.1
      simp only [memRead, if_true] at this
      exact absurd this.symm hn.1.2
  | cons c ms ih =>
    have hm' := hm
    simp only [memWfFrom, Bool.and_eq_true, decide_eq_true_eq, bne_iff_ne, ne_eq] at hm'
    cases n with
    | nil =>
      have := h c.1
      simp only [memRead, if_true] at this
      exact absurd this hm'.1.2
    | cons d ns =>
      have hn' := hn
      simp only [memWfFrom, Bool.and_eq_true, decide_eq_true_eq, bne_iff_ne, ne_eq] at hn'
      have hkey : c.1 = d.1 := by
        rcases Nat.lt_trichotomy c.1 d.1 with hlt | heq | hgt
        · have := h c.1
          have hd : memRead (d :: ns) c.1 = unlistedByte := by
            have : d.1 ≠ c.1 := by omega
            simp only [memRead, this, if_false]
            exact memRead_below hn'.2 (by omega)
          rw [hd] at this
          simp only [memRead, if_true] at this
          exact absurd this hm'.1.2
        · exact heq
        · have := h d.1
          have hc : memRead (c :: ms) d.1 = unlistedByte := by
            have : c.1 ≠ d.1 := by omega
            simp only [memRead, this, if_false]
            exact memRead_below hm'.2 (by omega)
          rw [hc] at this
          simp only [memRead, if_true] at this
          exact absurd this.symm hn'.1.2
      have hval : c.2 = d.2 := by
        have := h c.1
        simpa [memRead, hkey] using this
      have hrest : ms = ns := by
        refine ih hm'.2 (hkey ▸ hn'.2) fun a => ?_
        by_cases ha : a ≤ c.1
        · rw [memRead_below hm'.2 (by omega), memRead_below hn'.2 (by omega)]
        · have := h a
          have h1 : c.1 ≠ a := by omega
          have h2 : d.1 ≠ a := by omega
          simpa [memRead, h1, h2] using this
      rw [hrest, show c = d from Prod.ext hkey hval]

theorem memory_ext {m n : Memory} (hm : Memory.wf m = true) (hn : Memory.wf n = true) (h : ∀ a, memRead m a = memRead n a) : m = n :=
  memory_ext_from hm hn h

end Sys2Proof.Machine
end

