-- ==== Sys2Proof/Laws/State.lean ====
section
/-! SUPPORT. One lemma per field per update of the state, so that no later proof unfolds a record update. -/

namespace Sys2Proof.Machine

/-! ### Working-register updates -/

@[simp] theorem setCmd_params (c : Command) (s : State) : (setCmd c s).params = s.params := rfl
@[simp] theorem setCmd_status (c : Command) (s : State) : (setCmd c s).status = s.status := rfl
@[simp] theorem setCmd_type (c : Command) (s : State) : (setCmd c s).type = s.type := rfl
@[simp] theorem setCmd_writeCapable (c : Command) (s : State) : (setCmd c s).writeCapable = s.writeCapable := rfl
@[simp] theorem setCmd_cs (c : Command) (s : State) : (setCmd c s).cs = s.cs := rfl
@[simp] theorem setCmd_seq (c : Command) (s : State) : (setCmd c s).seq = s.seq := rfl
@[simp] theorem setCmd_buf (c : Command) (s : State) : (setCmd c s).buf = s.buf := rfl
@[simp] theorem setCmd_reply (c : Command) (s : State) : (setCmd c s).reply = s.reply := rfl
@[simp] theorem setCmd_wire (c : Command) (s : State) : (setCmd c s).wire = s.wire := rfl
@[simp] theorem setCmd_settleMs (c : Command) (s : State) : (setCmd c s).settleMs = s.settleMs := rfl
@[simp] theorem setCmd_cardIn (c : Command) (s : State) : (setCmd c s).cardIn = s.cardIn := rfl
@[simp] theorem setCmd_cardDraws (c : Command) (s : State) : (setCmd c s).cardDraws = s.cardDraws := rfl
@[simp] theorem setCmd_clockIn (c : Command) (s : State) : (setCmd c s).clockIn = s.clockIn := rfl
@[simp] theorem setCmd_clockDraws (c : Command) (s : State) : (setCmd c s).clockDraws = s.clockDraws := rfl
@[simp] theorem setCmd_agenda (c : Command) (s : State) : (setCmd c s).agenda = s.agenda := rfl
@[simp] theorem setCmd_w (c : Command) (s : State) : (setCmd c s).w = { s.w with cmd := some c } := rfl

@[simp] theorem setR1_params (v : Byte) (s : State) : (setR1 v s).params = s.params := rfl
@[simp] theorem setR1_status (v : Byte) (s : State) : (setR1 v s).status = s.status := rfl
@[simp] theorem setR1_type (v : Byte) (s : State) : (setR1 v s).type = s.type := rfl
@[simp] theorem setR1_writeCapable (v : Byte) (s : State) : (setR1 v s).writeCapable = s.writeCapable := rfl
@[simp] theorem setR1_cs (v : Byte) (s : State) : (setR1 v s).cs = s.cs := rfl
@[simp] theorem setR1_seq (v : Byte) (s : State) : (setR1 v s).seq = s.seq := rfl
@[simp] theorem setR1_buf (v : Byte) (s : State) : (setR1 v s).buf = s.buf := rfl
@[simp] theorem setR1_reply (v : Byte) (s : State) : (setR1 v s).reply = s.reply := rfl
@[simp] theorem setR1_wire (v : Byte) (s : State) : (setR1 v s).wire = s.wire := rfl
@[simp] theorem setR1_settleMs (v : Byte) (s : State) : (setR1 v s).settleMs = s.settleMs := rfl
@[simp] theorem setR1_cardIn (v : Byte) (s : State) : (setR1 v s).cardIn = s.cardIn := rfl
@[simp] theorem setR1_cardDraws (v : Byte) (s : State) : (setR1 v s).cardDraws = s.cardDraws := rfl
@[simp] theorem setR1_clockIn (v : Byte) (s : State) : (setR1 v s).clockIn = s.clockIn := rfl
@[simp] theorem setR1_clockDraws (v : Byte) (s : State) : (setR1 v s).clockDraws = s.clockDraws := rfl
@[simp] theorem setR1_agenda (v : Byte) (s : State) : (setR1 v s).agenda = s.agenda := rfl
@[simp] theorem setR1_w (v : Byte) (s : State) : (setR1 v s).w = { s.w with r1 := some v } := rfl

@[simp] theorem setNPoll_params (n : Nat) (s : State) : (setNPoll n s).params = s.params := rfl
@[simp] theorem setNPoll_status (n : Nat) (s : State) : (setNPoll n s).status = s.status := rfl
@[simp] theorem setNPoll_type (n : Nat) (s : State) : (setNPoll n s).type = s.type := rfl
@[simp] theorem setNPoll_writeCapable (n : Nat) (s : State) : (setNPoll n s).writeCapable = s.writeCapable := rfl
@[simp] theorem setNPoll_cs (n : Nat) (s : State) : (setNPoll n s).cs = s.cs := rfl
@[simp] theorem setNPoll_seq (n : Nat) (s : State) : (setNPoll n s).seq = s.seq := rfl
@[simp] theorem setNPoll_buf (n : Nat) (s : State) : (setNPoll n s).buf = s.buf := rfl
@[simp] theorem setNPoll_reply (n : Nat) (s : State) : (setNPoll n s).reply = s.reply := rfl
@[simp] theorem setNPoll_wire (n : Nat) (s : State) : (setNPoll n s).wire = s.wire := rfl
@[simp] theorem setNPoll_settleMs (n : Nat) (s : State) : (setNPoll n s).settleMs = s.settleMs := rfl
@[simp] theorem setNPoll_cardIn (n : Nat) (s : State) : (setNPoll n s).cardIn = s.cardIn := rfl
@[simp] theorem setNPoll_cardDraws (n : Nat) (s : State) : (setNPoll n s).cardDraws = s.cardDraws := rfl
@[simp] theorem setNPoll_clockIn (n : Nat) (s : State) : (setNPoll n s).clockIn = s.clockIn := rfl
@[simp] theorem setNPoll_clockDraws (n : Nat) (s : State) : (setNPoll n s).clockDraws = s.clockDraws := rfl
@[simp] theorem setNPoll_agenda (n : Nat) (s : State) : (setNPoll n s).agenda = s.agenda := rfl
@[simp] theorem setNPoll_w (n : Nat) (s : State) : (setNPoll n s).w = { s.w with nPoll := some (BitVec.ofNat 4 n) } := rfl

@[simp] theorem setResp4_params (v : Word) (s : State) : (setResp4 v s).params = s.params := rfl
@[simp] theorem setResp4_status (v : Word) (s : State) : (setResp4 v s).status = s.status := rfl
@[simp] theorem setResp4_type (v : Word) (s : State) : (setResp4 v s).type = s.type := rfl
@[simp] theorem setResp4_writeCapable (v : Word) (s : State) : (setResp4 v s).writeCapable = s.writeCapable := rfl
@[simp] theorem setResp4_cs (v : Word) (s : State) : (setResp4 v s).cs = s.cs := rfl
@[simp] theorem setResp4_seq (v : Word) (s : State) : (setResp4 v s).seq = s.seq := rfl
@[simp] theorem setResp4_buf (v : Word) (s : State) : (setResp4 v s).buf = s.buf := rfl
@[simp] theorem setResp4_reply (v : Word) (s : State) : (setResp4 v s).reply = s.reply := rfl
@[simp] theorem setResp4_wire (v : Word) (s : State) : (setResp4 v s).wire = s.wire := rfl
@[simp] theorem setResp4_settleMs (v : Word) (s : State) : (setResp4 v s).settleMs = s.settleMs := rfl
@[simp] theorem setResp4_cardIn (v : Word) (s : State) : (setResp4 v s).cardIn = s.cardIn := rfl
@[simp] theorem setResp4_cardDraws (v : Word) (s : State) : (setResp4 v s).cardDraws = s.cardDraws := rfl
@[simp] theorem setResp4_clockIn (v : Word) (s : State) : (setResp4 v s).clockIn = s.clockIn := rfl
@[simp] theorem setResp4_clockDraws (v : Word) (s : State) : (setResp4 v s).clockDraws = s.clockDraws := rfl
@[simp] theorem setResp4_agenda (v : Word) (s : State) : (setResp4 v s).agenda = s.agenda := rfl
@[simp] theorem setResp4_w (v : Word) (s : State) : (setResp4 v s).w = { s.w with resp4 := some v } := rfl

@[simp] theorem setToken_params (v : Byte) (s : State) : (setToken v s).params = s.params := rfl
@[simp] theorem setToken_status (v : Byte) (s : State) : (setToken v s).status = s.status := rfl
@[simp] theorem setToken_type (v : Byte) (s : State) : (setToken v s).type = s.type := rfl
@[simp] theorem setToken_writeCapable (v : Byte) (s : State) : (setToken v s).writeCapable = s.writeCapable := rfl
@[simp] theorem setToken_cs (v : Byte) (s : State) : (setToken v s).cs = s.cs := rfl
@[simp] theorem setToken_seq (v : Byte) (s : State) : (setToken v s).seq = s.seq := rfl
@[simp] theorem setToken_buf (v : Byte) (s : State) : (setToken v s).buf = s.buf := rfl
@[simp] theorem setToken_reply (v : Byte) (s : State) : (setToken v s).reply = s.reply := rfl
@[simp] theorem setToken_wire (v : Byte) (s : State) : (setToken v s).wire = s.wire := rfl
@[simp] theorem setToken_settleMs (v : Byte) (s : State) : (setToken v s).settleMs = s.settleMs := rfl
@[simp] theorem setToken_cardIn (v : Byte) (s : State) : (setToken v s).cardIn = s.cardIn := rfl
@[simp] theorem setToken_cardDraws (v : Byte) (s : State) : (setToken v s).cardDraws = s.cardDraws := rfl
@[simp] theorem setToken_clockIn (v : Byte) (s : State) : (setToken v s).clockIn = s.clockIn := rfl
@[simp] theorem setToken_clockDraws (v : Byte) (s : State) : (setToken v s).clockDraws = s.clockDraws := rfl
@[simp] theorem setToken_agenda (v : Byte) (s : State) : (setToken v s).agenda = s.agenda := rfl
@[simp] theorem setToken_w (v : Byte) (s : State) : (setToken v s).w = { s.w with token := some v } := rfl

@[simp] theorem setDResp_params (v : Byte) (s : State) : (setDResp v s).params = s.params := rfl
@[simp] theorem setDResp_status (v : Byte) (s : State) : (setDResp v s).status = s.status := rfl
@[simp] theorem setDResp_type (v : Byte) (s : State) : (setDResp v s).type = s.type := rfl
@[simp] theorem setDResp_writeCapable (v : Byte) (s : State) : (setDResp v s).writeCapable = s.writeCapable := rfl
@[simp] theorem setDResp_cs (v : Byte) (s : State) : (setDResp v s).cs = s.cs := rfl
@[simp] theorem setDResp_seq (v : Byte) (s : State) : (setDResp v s).seq = s.seq := rfl
@[simp] theorem setDResp_buf (v : Byte) (s : State) : (setDResp v s).buf = s.buf := rfl
@[simp] theorem setDResp_reply (v : Byte) (s : State) : (setDResp v s).reply = s.reply := rfl
@[simp] theorem setDResp_wire (v : Byte) (s : State) : (setDResp v s).wire = s.wire := rfl
@[simp] theorem setDResp_settleMs (v : Byte) (s : State) : (setDResp v s).settleMs = s.settleMs := rfl
@[simp] theorem setDResp_cardIn (v : Byte) (s : State) : (setDResp v s).cardIn = s.cardIn := rfl
@[simp] theorem setDResp_cardDraws (v : Byte) (s : State) : (setDResp v s).cardDraws = s.cardDraws := rfl
@[simp] theorem setDResp_clockIn (v : Byte) (s : State) : (setDResp v s).clockIn = s.clockIn := rfl
@[simp] theorem setDResp_clockDraws (v : Byte) (s : State) : (setDResp v s).clockDraws = s.clockDraws := rfl
@[simp] theorem setDResp_agenda (v : Byte) (s : State) : (setDResp v s).agenda = s.agenda := rfl
@[simp] theorem setDResp_w (v : Byte) (s : State) : (setDResp v s).w = { s.w with dResp := some v } := rfl

@[simp] theorem setCount_params (n : Nat) (s : State) : (setCount n s).params = s.params := rfl
@[simp] theorem setCount_status (n : Nat) (s : State) : (setCount n s).status = s.status := rfl
@[simp] theorem setCount_type (n : Nat) (s : State) : (setCount n s).type = s.type := rfl
@[simp] theorem setCount_writeCapable (n : Nat) (s : State) : (setCount n s).writeCapable = s.writeCapable := rfl
@[simp] theorem setCount_cs (n : Nat) (s : State) : (setCount n s).cs = s.cs := rfl
@[simp] theorem setCount_seq (n : Nat) (s : State) : (setCount n s).seq = s.seq := rfl
@[simp] theorem setCount_buf (n : Nat) (s : State) : (setCount n s).buf = s.buf := rfl
@[simp] theorem setCount_reply (n : Nat) (s : State) : (setCount n s).reply = s.reply := rfl
@[simp] theorem setCount_wire (n : Nat) (s : State) : (setCount n s).wire = s.wire := rfl
@[simp] theorem setCount_settleMs (n : Nat) (s : State) : (setCount n s).settleMs = s.settleMs := rfl
@[simp] theorem setCount_cardIn (n : Nat) (s : State) : (setCount n s).cardIn = s.cardIn := rfl
@[simp] theorem setCount_cardDraws (n : Nat) (s : State) : (setCount n s).cardDraws = s.cardDraws := rfl
@[simp] theorem setCount_clockIn (n : Nat) (s : State) : (setCount n s).clockIn = s.clockIn := rfl
@[simp] theorem setCount_clockDraws (n : Nat) (s : State) : (setCount n s).clockDraws = s.clockDraws := rfl
@[simp] theorem setCount_agenda (n : Nat) (s : State) : (setCount n s).agenda = s.agenda := rfl
@[simp] theorem setCount_w (n : Nat) (s : State) : (setCount n s).w = { s.w with count := some (Fin.ofNat 129 n) } := rfl

@[simp] theorem setAddr_params (v : Word) (s : State) : (setAddr v s).params = s.params := rfl
@[simp] theorem setAddr_status (v : Word) (s : State) : (setAddr v s).status = s.status := rfl
@[simp] theorem setAddr_type (v : Word) (s : State) : (setAddr v s).type = s.type := rfl
@[simp] theorem setAddr_writeCapable (v : Word) (s : State) : (setAddr v s).writeCapable = s.writeCapable := rfl
@[simp] theorem setAddr_cs (v : Word) (s : State) : (setAddr v s).cs = s.cs := rfl
@[simp] theorem setAddr_seq (v : Word) (s : State) : (setAddr v s).seq = s.seq := rfl
@[simp] theorem setAddr_buf (v : Word) (s : State) : (setAddr v s).buf = s.buf := rfl
@[simp] theorem setAddr_reply (v : Word) (s : State) : (setAddr v s).reply = s.reply := rfl
@[simp] theorem setAddr_wire (v : Word) (s : State) : (setAddr v s).wire = s.wire := rfl
@[simp] theorem setAddr_settleMs (v : Word) (s : State) : (setAddr v s).settleMs = s.settleMs := rfl
@[simp] theorem setAddr_cardIn (v : Word) (s : State) : (setAddr v s).cardIn = s.cardIn := rfl
@[simp] theorem setAddr_cardDraws (v : Word) (s : State) : (setAddr v s).cardDraws = s.cardDraws := rfl
@[simp] theorem setAddr_clockIn (v : Word) (s : State) : (setAddr v s).clockIn = s.clockIn := rfl
@[simp] theorem setAddr_clockDraws (v : Word) (s : State) : (setAddr v s).clockDraws = s.clockDraws := rfl
@[simp] theorem setAddr_agenda (v : Word) (s : State) : (setAddr v s).agenda = s.agenda := rfl
@[simp] theorem setAddr_w (v : Word) (s : State) : (setAddr v s).w = { s.w with addr := some v } := rfl

@[simp] theorem setOff_params (n : Nat) (s : State) : (setOff n s).params = s.params := rfl
@[simp] theorem setOff_status (n : Nat) (s : State) : (setOff n s).status = s.status := rfl
@[simp] theorem setOff_type (n : Nat) (s : State) : (setOff n s).type = s.type := rfl
@[simp] theorem setOff_writeCapable (n : Nat) (s : State) : (setOff n s).writeCapable = s.writeCapable := rfl
@[simp] theorem setOff_cs (n : Nat) (s : State) : (setOff n s).cs = s.cs := rfl
@[simp] theorem setOff_seq (n : Nat) (s : State) : (setOff n s).seq = s.seq := rfl
@[simp] theorem setOff_buf (n : Nat) (s : State) : (setOff n s).buf = s.buf := rfl
@[simp] theorem setOff_reply (n : Nat) (s : State) : (setOff n s).reply = s.reply := rfl
@[simp] theorem setOff_wire (n : Nat) (s : State) : (setOff n s).wire = s.wire := rfl
@[simp] theorem setOff_settleMs (n : Nat) (s : State) : (setOff n s).settleMs = s.settleMs := rfl
@[simp] theorem setOff_cardIn (n : Nat) (s : State) : (setOff n s).cardIn = s.cardIn := rfl
@[simp] theorem setOff_cardDraws (n : Nat) (s : State) : (setOff n s).cardDraws = s.cardDraws := rfl
@[simp] theorem setOff_clockIn (n : Nat) (s : State) : (setOff n s).clockIn = s.clockIn := rfl
@[simp] theorem setOff_clockDraws (n : Nat) (s : State) : (setOff n s).clockDraws = s.clockDraws := rfl
@[simp] theorem setOff_agenda (n : Nat) (s : State) : (setOff n s).agenda = s.agenda := rfl
@[simp] theorem setOff_w (n : Nat) (s : State) : (setOff n s).w = { s.w with off := some (Fin.ofNat 129 (n / sectorSize)) } := rfl

@[simp] theorem setTy_params (t : CardType) (s : State) : (setTy t s).params = s.params := rfl
@[simp] theorem setTy_status (t : CardType) (s : State) : (setTy t s).status = s.status := rfl
@[simp] theorem setTy_type (t : CardType) (s : State) : (setTy t s).type = s.type := rfl
@[simp] theorem setTy_writeCapable (t : CardType) (s : State) : (setTy t s).writeCapable = s.writeCapable := rfl
@[simp] theorem setTy_cs (t : CardType) (s : State) : (setTy t s).cs = s.cs := rfl
@[simp] theorem setTy_seq (t : CardType) (s : State) : (setTy t s).seq = s.seq := rfl
@[simp] theorem setTy_buf (t : CardType) (s : State) : (setTy t s).buf = s.buf := rfl
@[simp] theorem setTy_reply (t : CardType) (s : State) : (setTy t s).reply = s.reply := rfl
@[simp] theorem setTy_wire (t : CardType) (s : State) : (setTy t s).wire = s.wire := rfl
@[simp] theorem setTy_settleMs (t : CardType) (s : State) : (setTy t s).settleMs = s.settleMs := rfl
@[simp] theorem setTy_cardIn (t : CardType) (s : State) : (setTy t s).cardIn = s.cardIn := rfl
@[simp] theorem setTy_cardDraws (t : CardType) (s : State) : (setTy t s).cardDraws = s.cardDraws := rfl
@[simp] theorem setTy_clockIn (t : CardType) (s : State) : (setTy t s).clockIn = s.clockIn := rfl
@[simp] theorem setTy_clockDraws (t : CardType) (s : State) : (setTy t s).clockDraws = s.clockDraws := rfl
@[simp] theorem setTy_agenda (t : CardType) (s : State) : (setTy t s).agenda = s.agenda := rfl
@[simp] theorem setTy_w (t : CardType) (s : State) : (setTy t s).w = { s.w with ty := some t } := rfl

@[simp] theorem setInitCmd_params (op : BitVec 6) (a : Bool) (s : State) : (setInitCmd op a s).params = s.params := rfl
@[simp] theorem setInitCmd_status (op : BitVec 6) (a : Bool) (s : State) : (setInitCmd op a s).status = s.status := rfl
@[simp] theorem setInitCmd_type (op : BitVec 6) (a : Bool) (s : State) : (setInitCmd op a s).type = s.type := rfl
@[simp] theorem setInitCmd_writeCapable (op : BitVec 6) (a : Bool) (s : State) : (setInitCmd op a s).writeCapable = s.writeCapable := rfl
@[simp] theorem setInitCmd_cs (op : BitVec 6) (a : Bool) (s : State) : (setInitCmd op a s).cs = s.cs := rfl
@[simp] theorem setInitCmd_seq (op : BitVec 6) (a : Bool) (s : State) : (setInitCmd op a s).seq = s.seq := rfl
@[simp] theorem setInitCmd_buf (op : BitVec 6) (a : Bool) (s : State) : (setInitCmd op a s).buf = s.buf := rfl
@[simp] theorem setInitCmd_reply (op : BitVec 6) (a : Bool) (s : State) : (setInitCmd op a s).reply = s.reply := rfl
@[simp] theorem setInitCmd_wire (op : BitVec 6) (a : Bool) (s : State) : (setInitCmd op a s).wire = s.wire := rfl
@[simp] theorem setInitCmd_settleMs (op : BitVec 6) (a : Bool) (s : State) : (setInitCmd op a s).settleMs = s.settleMs := rfl
@[simp] theorem setInitCmd_cardIn (op : BitVec 6) (a : Bool) (s : State) : (setInitCmd op a s).cardIn = s.cardIn := rfl
@[simp] theorem setInitCmd_cardDraws (op : BitVec 6) (a : Bool) (s : State) : (setInitCmd op a s).cardDraws = s.cardDraws := rfl
@[simp] theorem setInitCmd_clockIn (op : BitVec 6) (a : Bool) (s : State) : (setInitCmd op a s).clockIn = s.clockIn := rfl
@[simp] theorem setInitCmd_clockDraws (op : BitVec 6) (a : Bool) (s : State) : (setInitCmd op a s).clockDraws = s.clockDraws := rfl
@[simp] theorem setInitCmd_agenda (op : BitVec 6) (a : Bool) (s : State) : (setInitCmd op a s).agenda = s.agenda := rfl
@[simp] theorem setInitCmd_w (op : BitVec 6) (a : Bool) (s : State) : (setInitCmd op a s).w = { s.w with initCmd := some (op, a) } := rfl

@[simp] theorem setDNeg_params (d : Deadline) (s : State) : (setDNeg d s).params = s.params := rfl
@[simp] theorem setDNeg_status (d : Deadline) (s : State) : (setDNeg d s).status = s.status := rfl
@[simp] theorem setDNeg_type (d : Deadline) (s : State) : (setDNeg d s).type = s.type := rfl
@[simp] theorem setDNeg_writeCapable (d : Deadline) (s : State) : (setDNeg d s).writeCapable = s.writeCapable := rfl
@[simp] theorem setDNeg_cs (d : Deadline) (s : State) : (setDNeg d s).cs = s.cs := rfl
@[simp] theorem setDNeg_seq (d : Deadline) (s : State) : (setDNeg d s).seq = s.seq := rfl
@[simp] theorem setDNeg_buf (d : Deadline) (s : State) : (setDNeg d s).buf = s.buf := rfl
@[simp] theorem setDNeg_reply (d : Deadline) (s : State) : (setDNeg d s).reply = s.reply := rfl
@[simp] theorem setDNeg_wire (d : Deadline) (s : State) : (setDNeg d s).wire = s.wire := rfl
@[simp] theorem setDNeg_settleMs (d : Deadline) (s : State) : (setDNeg d s).settleMs = s.settleMs := rfl
@[simp] theorem setDNeg_cardIn (d : Deadline) (s : State) : (setDNeg d s).cardIn = s.cardIn := rfl
@[simp] theorem setDNeg_cardDraws (d : Deadline) (s : State) : (setDNeg d s).cardDraws = s.cardDraws := rfl
@[simp] theorem setDNeg_clockIn (d : Deadline) (s : State) : (setDNeg d s).clockIn = s.clockIn := rfl
@[simp] theorem setDNeg_clockDraws (d : Deadline) (s : State) : (setDNeg d s).clockDraws = s.clockDraws := rfl
@[simp] theorem setDNeg_agenda (d : Deadline) (s : State) : (setDNeg d s).agenda = s.agenda := rfl
@[simp] theorem setDNeg_w (d : Deadline) (s : State) : (setDNeg d s).w = { s.w with dNeg := some d } := rfl

@[simp] theorem setDPoll_params (d : Deadline) (s : State) : (setDPoll d s).params = s.params := rfl
@[simp] theorem setDPoll_status (d : Deadline) (s : State) : (setDPoll d s).status = s.status := rfl
@[simp] theorem setDPoll_type (d : Deadline) (s : State) : (setDPoll d s).type = s.type := rfl
@[simp] theorem setDPoll_writeCapable (d : Deadline) (s : State) : (setDPoll d s).writeCapable = s.writeCapable := rfl
@[simp] theorem setDPoll_cs (d : Deadline) (s : State) : (setDPoll d s).cs = s.cs := rfl
@[simp] theorem setDPoll_seq (d : Deadline) (s : State) : (setDPoll d s).seq = s.seq := rfl
@[simp] theorem setDPoll_buf (d : Deadline) (s : State) : (setDPoll d s).buf = s.buf := rfl
@[simp] theorem setDPoll_reply (d : Deadline) (s : State) : (setDPoll d s).reply = s.reply := rfl
@[simp] theorem setDPoll_wire (d : Deadline) (s : State) : (setDPoll d s).wire = s.wire := rfl
@[simp] theorem setDPoll_settleMs (d : Deadline) (s : State) : (setDPoll d s).settleMs = s.settleMs := rfl
@[simp] theorem setDPoll_cardIn (d : Deadline) (s : State) : (setDPoll d s).cardIn = s.cardIn := rfl
@[simp] theorem setDPoll_cardDraws (d : Deadline) (s : State) : (setDPoll d s).cardDraws = s.cardDraws := rfl
@[simp] theorem setDPoll_clockIn (d : Deadline) (s : State) : (setDPoll d s).clockIn = s.clockIn := rfl
@[simp] theorem setDPoll_clockDraws (d : Deadline) (s : State) : (setDPoll d s).clockDraws = s.clockDraws := rfl
@[simp] theorem setDPoll_agenda (d : Deadline) (s : State) : (setDPoll d s).agenda = s.agenda := rfl
@[simp] theorem setDPoll_w (d : Deadline) (s : State) : (setDPoll d s).w = { s.w with dPoll := some d } := rfl

@[simp] theorem setCsdBuf_params (l : List Byte) (s : State) : (setCsdBuf l s).params = s.params := rfl
@[simp] theorem setCsdBuf_status (l : List Byte) (s : State) : (setCsdBuf l s).status = s.status := rfl
@[simp] theorem setCsdBuf_type (l : List Byte) (s : State) : (setCsdBuf l s).type = s.type := rfl
@[simp] theorem setCsdBuf_writeCapable (l : List Byte) (s : State) : (setCsdBuf l s).writeCapable = s.writeCapable := rfl
@[simp] theorem setCsdBuf_cs (l : List Byte) (s : State) : (setCsdBuf l s).cs = s.cs := rfl
@[simp] theorem setCsdBuf_seq (l : List Byte) (s : State) : (setCsdBuf l s).seq = s.seq := rfl
@[simp] theorem setCsdBuf_buf (l : List Byte) (s : State) : (setCsdBuf l s).buf = s.buf := rfl
@[simp] theorem setCsdBuf_reply (l : List Byte) (s : State) : (setCsdBuf l s).reply = s.reply := rfl
@[simp] theorem setCsdBuf_wire (l : List Byte) (s : State) : (setCsdBuf l s).wire = s.wire := rfl
@[simp] theorem setCsdBuf_settleMs (l : List Byte) (s : State) : (setCsdBuf l s).settleMs = s.settleMs := rfl
@[simp] theorem setCsdBuf_cardIn (l : List Byte) (s : State) : (setCsdBuf l s).cardIn = s.cardIn := rfl
@[simp] theorem setCsdBuf_cardDraws (l : List Byte) (s : State) : (setCsdBuf l s).cardDraws = s.cardDraws := rfl
@[simp] theorem setCsdBuf_clockIn (l : List Byte) (s : State) : (setCsdBuf l s).clockIn = s.clockIn := rfl
@[simp] theorem setCsdBuf_clockDraws (l : List Byte) (s : State) : (setCsdBuf l s).clockDraws = s.clockDraws := rfl
@[simp] theorem setCsdBuf_agenda (l : List Byte) (s : State) : (setCsdBuf l s).agenda = s.agenda := rfl
@[simp] theorem setCsdBuf_w (l : List Byte) (s : State) : (setCsdBuf l s).w = { s.w with csdBuf := some l } := rfl

@[simp] theorem setR_params (v : Byte) (s : State) : (setR v s).params = s.params := rfl
@[simp] theorem setR_status (v : Byte) (s : State) : (setR v s).status = s.status := rfl
@[simp] theorem setR_type (v : Byte) (s : State) : (setR v s).type = s.type := rfl
@[simp] theorem setR_writeCapable (v : Byte) (s : State) : (setR v s).writeCapable = s.writeCapable := rfl
@[simp] theorem setR_cs (v : Byte) (s : State) : (setR v s).cs = s.cs := rfl
@[simp] theorem setR_seq (v : Byte) (s : State) : (setR v s).seq = s.seq := rfl
@[simp] theorem setR_buf (v : Byte) (s : State) : (setR v s).buf = s.buf := rfl
@[simp] theorem setR_reply (v : Byte) (s : State) : (setR v s).reply = s.reply := rfl
@[simp] theorem setR_wire (v : Byte) (s : State) : (setR v s).wire = s.wire := rfl
@[simp] theorem setR_settleMs (v : Byte) (s : State) : (setR v s).settleMs = s.settleMs := rfl
@[simp] theorem setR_cardIn (v : Byte) (s : State) : (setR v s).cardIn = s.cardIn := rfl
@[simp] theorem setR_cardDraws (v : Byte) (s : State) : (setR v s).cardDraws = s.cardDraws := rfl
@[simp] theorem setR_clockIn (v : Byte) (s : State) : (setR v s).clockIn = s.clockIn := rfl
@[simp] theorem setR_clockDraws (v : Byte) (s : State) : (setR v s).clockDraws = s.clockDraws := rfl
@[simp] theorem setR_agenda (v : Byte) (s : State) : (setR v s).agenda = s.agenda := rfl
@[simp] theorem setR_w (v : Byte) (s : State) : (setR v s).w = { s.w with r := some v } := rfl

@[simp] theorem setOk_params (v : Bool) (s : State) : (setOk v s).params = s.params := rfl
@[simp] theorem setOk_status (v : Bool) (s : State) : (setOk v s).status = s.status := rfl
@[simp] theorem setOk_type (v : Bool) (s : State) : (setOk v s).type = s.type := rfl
@[simp] theorem setOk_writeCapable (v : Bool) (s : State) : (setOk v s).writeCapable = s.writeCapable := rfl
@[simp] theorem setOk_cs (v : Bool) (s : State) : (setOk v s).cs = s.cs := rfl
@[simp] theorem setOk_seq (v : Bool) (s : State) : (setOk v s).seq = s.seq := rfl
@[simp] theorem setOk_buf (v : Bool) (s : State) : (setOk v s).buf = s.buf := rfl
@[simp] theorem setOk_reply (v : Bool) (s : State) : (setOk v s).reply = s.reply := rfl
@[simp] theorem setOk_wire (v : Bool) (s : State) : (setOk v s).wire = s.wire := rfl
@[simp] theorem setOk_settleMs (v : Bool) (s : State) : (setOk v s).settleMs = s.settleMs := rfl
@[simp] theorem setOk_cardIn (v : Bool) (s : State) : (setOk v s).cardIn = s.cardIn := rfl
@[simp] theorem setOk_cardDraws (v : Bool) (s : State) : (setOk v s).cardDraws = s.cardDraws := rfl
@[simp] theorem setOk_clockIn (v : Bool) (s : State) : (setOk v s).clockIn = s.clockIn := rfl
@[simp] theorem setOk_clockDraws (v : Bool) (s : State) : (setOk v s).clockDraws = s.clockDraws := rfl
@[simp] theorem setOk_agenda (v : Bool) (s : State) : (setOk v s).agenda = s.agenda := rfl
@[simp] theorem setOk_w (v : Bool) (s : State) : (setOk v s).w = { s.w with ok := some v } := rfl

/-! ### The sequencer, the buffer, the primitives -/

@[simp] theorem setSeq_params (q : Seq) (s : State) : (setSeq q s).params = s.params := rfl
@[simp] theorem setSeq_status (q : Seq) (s : State) : (setSeq q s).status = s.status := rfl
@[simp] theorem setSeq_type (q : Seq) (s : State) : (setSeq q s).type = s.type := rfl
@[simp] theorem setSeq_writeCapable (q : Seq) (s : State) : (setSeq q s).writeCapable = s.writeCapable := rfl
@[simp] theorem setSeq_cs (q : Seq) (s : State) : (setSeq q s).cs = s.cs := rfl
@[simp] theorem setSeq_seq (q : Seq) (s : State) : (setSeq q s).seq = q := rfl
@[simp] theorem setSeq_buf (q : Seq) (s : State) : (setSeq q s).buf = s.buf := rfl
@[simp] theorem setSeq_reply (q : Seq) (s : State) : (setSeq q s).reply = s.reply := rfl
@[simp] theorem setSeq_wire (q : Seq) (s : State) : (setSeq q s).wire = s.wire := rfl
@[simp] theorem setSeq_settleMs (q : Seq) (s : State) : (setSeq q s).settleMs = s.settleMs := rfl
@[simp] theorem setSeq_cardIn (q : Seq) (s : State) : (setSeq q s).cardIn = s.cardIn := rfl
@[simp] theorem setSeq_cardDraws (q : Seq) (s : State) : (setSeq q s).cardDraws = s.cardDraws := rfl
@[simp] theorem setSeq_clockIn (q : Seq) (s : State) : (setSeq q s).clockIn = s.clockIn := rfl
@[simp] theorem setSeq_clockDraws (q : Seq) (s : State) : (setSeq q s).clockDraws = s.clockDraws := rfl
@[simp] theorem setSeq_agenda (q : Seq) (s : State) : (setSeq q s).agenda = s.agenda := rfl
@[simp] theorem setSeq_w (q : Seq) (s : State) : (setSeq q s).w = s.w := rfl

@[simp] theorem bufWrite_params (a : Nat) (b : Byte) (s : State) : (bufWrite a b s).params = s.params := rfl
@[simp] theorem bufWrite_status (a : Nat) (b : Byte) (s : State) : (bufWrite a b s).status = s.status := rfl
@[simp] theorem bufWrite_type (a : Nat) (b : Byte) (s : State) : (bufWrite a b s).type = s.type := rfl
@[simp] theorem bufWrite_writeCapable (a : Nat) (b : Byte) (s : State) : (bufWrite a b s).writeCapable = s.writeCapable := rfl
@[simp] theorem bufWrite_cs (a : Nat) (b : Byte) (s : State) : (bufWrite a b s).cs = s.cs := rfl
@[simp] theorem bufWrite_seq (a : Nat) (b : Byte) (s : State) : (bufWrite a b s).seq = s.seq := rfl
@[simp] theorem bufWrite_buf (a : Nat) (b : Byte) (s : State) : (bufWrite a b s).buf = { s.buf with mem := memWrite s.buf.mem a b } := rfl
@[simp] theorem bufWrite_reply (a : Nat) (b : Byte) (s : State) : (bufWrite a b s).reply = s.reply := rfl
@[simp] theorem bufWrite_wire (a : Nat) (b : Byte) (s : State) : (bufWrite a b s).wire = s.wire := rfl
@[simp] theorem bufWrite_settleMs (a : Nat) (b : Byte) (s : State) : (bufWrite a b s).settleMs = s.settleMs := rfl
@[simp] theorem bufWrite_cardIn (a : Nat) (b : Byte) (s : State) : (bufWrite a b s).cardIn = s.cardIn := rfl
@[simp] theorem bufWrite_cardDraws (a : Nat) (b : Byte) (s : State) : (bufWrite a b s).cardDraws = s.cardDraws := rfl
@[simp] theorem bufWrite_clockIn (a : Nat) (b : Byte) (s : State) : (bufWrite a b s).clockIn = s.clockIn := rfl
@[simp] theorem bufWrite_clockDraws (a : Nat) (b : Byte) (s : State) : (bufWrite a b s).clockDraws = s.clockDraws := rfl
@[simp] theorem bufWrite_agenda (a : Nat) (b : Byte) (s : State) : (bufWrite a b s).agenda = s.agenda := rfl
@[simp] theorem bufWrite_w (a : Nat) (b : Byte) (s : State) : (bufWrite a b s).w = s.w := rfl

@[simp] theorem csOn_params (s : State) : (csOn s).params = s.params := rfl
@[simp] theorem csOn_status (s : State) : (csOn s).status = s.status := rfl
@[simp] theorem csOn_type (s : State) : (csOn s).type = s.type := rfl
@[simp] theorem csOn_writeCapable (s : State) : (csOn s).writeCapable = s.writeCapable := rfl
@[simp] theorem csOn_cs (s : State) : (csOn s).cs = .asserted := rfl
@[simp] theorem csOn_seq (s : State) : (csOn s).seq = s.seq := rfl
@[simp] theorem csOn_buf (s : State) : (csOn s).buf = s.buf := rfl
@[simp] theorem csOn_reply (s : State) : (csOn s).reply = s.reply := rfl
@[simp] theorem csOn_wire (s : State) : (csOn s).wire = .cs .asserted :: s.wire := rfl
@[simp] theorem csOn_settleMs (s : State) : (csOn s).settleMs = s.settleMs + tSettleMs := rfl
@[simp] theorem csOn_cardIn (s : State) : (csOn s).cardIn = s.cardIn := rfl
@[simp] theorem csOn_cardDraws (s : State) : (csOn s).cardDraws = s.cardDraws := rfl
@[simp] theorem csOn_clockIn (s : State) : (csOn s).clockIn = s.clockIn := rfl
@[simp] theorem csOn_clockDraws (s : State) : (csOn s).clockDraws = s.clockDraws := rfl
@[simp] theorem csOn_agenda (s : State) : (csOn s).agenda = s.agenda := rfl
@[simp] theorem csOn_w (s : State) : (csOn s).w = s.w := rfl

@[simp] theorem csOff_params (s : State) : (csOff s).params = s.params := rfl
@[simp] theorem csOff_status (s : State) : (csOff s).status = s.status := rfl
@[simp] theorem csOff_type (s : State) : (csOff s).type = s.type := rfl
@[simp] theorem csOff_writeCapable (s : State) : (csOff s).writeCapable = s.writeCapable := rfl
@[simp] theorem csOff_cs (s : State) : (csOff s).cs = .deasserted := rfl
@[simp] theorem csOff_seq (s : State) : (csOff s).seq = s.seq := rfl
@[simp] theorem csOff_buf (s : State) : (csOff s).buf = s.buf := rfl
@[simp] theorem csOff_reply (s : State) : (csOff s).reply = s.reply := rfl
@[simp] theorem csOff_wire (s : State) : (csOff s).wire = .cs .deasserted :: s.wire := rfl
@[simp] theorem csOff_settleMs (s : State) : (csOff s).settleMs = s.settleMs + tSettleMs := rfl
@[simp] theorem csOff_cardIn (s : State) : (csOff s).cardIn = s.cardIn := rfl
@[simp] theorem csOff_cardDraws (s : State) : (csOff s).cardDraws = s.cardDraws := rfl
@[simp] theorem csOff_clockIn (s : State) : (csOff s).clockIn = s.clockIn := rfl
@[simp] theorem csOff_clockDraws (s : State) : (csOff s).clockDraws = s.clockDraws := rfl
@[simp] theorem csOff_agenda (s : State) : (csOff s).agenda = s.agenda := rfl
@[simp] theorem csOff_w (s : State) : (csOff s).w = s.w := rfl

@[simp] theorem send_params (tx : Byte) (s : State) : (send tx s).params = s.params := rfl
@[simp] theorem send_status (tx : Byte) (s : State) : (send tx s).status = s.status := rfl
@[simp] theorem send_type (tx : Byte) (s : State) : (send tx s).type = s.type := rfl
@[simp] theorem send_writeCapable (tx : Byte) (s : State) : (send tx s).writeCapable = s.writeCapable := rfl
@[simp] theorem send_cs (tx : Byte) (s : State) : (send tx s).cs = s.cs := rfl
@[simp] theorem send_seq (tx : Byte) (s : State) : (send tx s).seq = s.seq := rfl
@[simp] theorem send_buf (tx : Byte) (s : State) : (send tx s).buf = s.buf := rfl
@[simp] theorem send_reply (tx : Byte) (s : State) : (send tx s).reply = s.reply := rfl
@[simp] theorem send_wire (tx : Byte) (s : State) : (send tx s).wire = .xchg tx (nextRx tx s) :: s.wire := rfl
@[simp] theorem send_settleMs (tx : Byte) (s : State) : (send tx s).settleMs = s.settleMs := rfl
@[simp] theorem send_cardIn (tx : Byte) (s : State) : (send tx s).cardIn = s.cardIn.tail := rfl
@[simp] theorem send_cardDraws (tx : Byte) (s : State) : (send tx s).cardDraws = s.cardDraws + 1 := rfl
@[simp] theorem send_clockIn (tx : Byte) (s : State) : (send tx s).clockIn = s.clockIn := rfl
@[simp] theorem send_clockDraws (tx : Byte) (s : State) : (send tx s).clockDraws = s.clockDraws := rfl
@[simp] theorem send_agenda (tx : Byte) (s : State) : (send tx s).agenda = s.agenda := rfl
@[simp] theorem send_w (tx : Byte) (s : State) : (send tx s).w = s.w := rfl

@[simp] theorem xchg_fst (tx : Byte) (s : State) : (xchg tx s).1 = nextRx tx s := rfl
@[simp] theorem xchg_snd (tx : Byte) (s : State) : (xchg tx s).2 = send tx s := rfl

@[simp] theorem setDeadline_snd_params (ms : Nat) (s : State) : ((setDeadline ms s).2).params = s.params := rfl
@[simp] theorem setDeadline_snd_status (ms : Nat) (s : State) : ((setDeadline ms s).2).status = s.status := rfl
@[simp] theorem setDeadline_snd_type (ms : Nat) (s : State) : ((setDeadline ms s).2).type = s.type := rfl
@[simp] theorem setDeadline_snd_writeCapable (ms : Nat) (s : State) : ((setDeadline ms s).2).writeCapable = s.writeCapable := rfl
@[simp] theorem setDeadline_snd_cs (ms : Nat) (s : State) : ((setDeadline ms s).2).cs = s.cs := rfl
@[simp] theorem setDeadline_snd_seq (ms : Nat) (s : State) : ((setDeadline ms s).2).seq = s.seq := rfl
@[simp] theorem setDeadline_snd_buf (ms : Nat) (s : State) : ((setDeadline ms s).2).buf = s.buf := rfl
@[simp] theorem setDeadline_snd_reply (ms : Nat) (s : State) : ((setDeadline ms s).2).reply = s.reply := rfl
@[simp] theorem setDeadline_snd_wire (ms : Nat) (s : State) : ((setDeadline ms s).2).wire = s.wire := rfl
@[simp] theorem setDeadline_snd_settleMs (ms : Nat) (s : State) : ((setDeadline ms s).2).settleMs = s.settleMs := rfl
@[simp] theorem setDeadline_snd_cardIn (ms : Nat) (s : State) : ((setDeadline ms s).2).cardIn = s.cardIn := rfl
@[simp] theorem setDeadline_snd_cardDraws (ms : Nat) (s : State) : ((setDeadline ms s).2).cardDraws = s.cardDraws := rfl
@[simp] theorem setDeadline_snd_clockIn (ms : Nat) (s : State) : ((setDeadline ms s).2).clockIn = s.clockIn.tail := rfl
@[simp] theorem setDeadline_snd_clockDraws (ms : Nat) (s : State) : ((setDeadline ms s).2).clockDraws = s.clockDraws + 1 := rfl
@[simp] theorem setDeadline_snd_agenda (ms : Nat) (s : State) : ((setDeadline ms s).2).agenda = s.agenda := rfl
@[simp] theorem setDeadline_snd_w (ms : Nat) (s : State) : ((setDeadline ms s).2).w = s.w := rfl

@[simp] theorem setDeadline_ms (ms : Nat) (s : State) : (setDeadline ms s).1.ms = ms := rfl
@[simp] theorem setDeadline_left (ms : Nat) (s : State) : (setDeadline ms s).1.left = nextExpiry ms s := rfl

@[simp] theorem deselect_params (cfg : Params) (s : State) : (deselect cfg s).params = s.params := rfl
@[simp] theorem deselect_status (cfg : Params) (s : State) : (deselect cfg s).status = s.status := rfl
@[simp] theorem deselect_type (cfg : Params) (s : State) : (deselect cfg s).type = s.type := rfl
@[simp] theorem deselect_writeCapable (cfg : Params) (s : State) : (deselect cfg s).writeCapable = s.writeCapable := rfl
@[simp] theorem deselect_cs (cfg : Params) (s : State) : (deselect cfg s).cs = .deasserted := rfl
@[simp] theorem deselect_seq (cfg : Params) (s : State) : (deselect cfg s).seq = s.seq := rfl
@[simp] theorem deselect_buf (cfg : Params) (s : State) : (deselect cfg s).buf = s.buf := rfl
@[simp] theorem deselect_reply (cfg : Params) (s : State) : (deselect cfg s).reply = s.reply := rfl
@[simp] theorem deselect_wire (cfg : Params) (s : State) : (deselect cfg s).wire = .xchg cfg.dummyTx (nextRx cfg.dummyTx
  (csOff s)) :: .cs .deasserted :: s.wire := rfl
@[simp] theorem deselect_settleMs (cfg : Params) (s : State) : (deselect cfg s).settleMs = s.settleMs + tSettleMs := rfl
@[simp] theorem deselect_cardIn (cfg : Params) (s : State) : (deselect cfg s).cardIn = s.cardIn.tail := rfl
@[simp] theorem deselect_cardDraws (cfg : Params) (s : State) : (deselect cfg s).cardDraws = s.cardDraws + 1 := rfl
@[simp] theorem deselect_clockIn (cfg : Params) (s : State) : (deselect cfg s).clockIn = s.clockIn := rfl
@[simp] theorem deselect_clockDraws (cfg : Params) (s : State) : (deselect cfg s).clockDraws = s.clockDraws := rfl
@[simp] theorem deselect_agenda (cfg : Params) (s : State) : (deselect cfg s).agenda = s.agenda := rfl
@[simp] theorem deselect_w (cfg : Params) (s : State) : (deselect cfg s).w = s.w := rfl

@[simp] theorem cardAnswers_params (b : Byte) (s : State) : (cardAnswers b s).params = s.params := rfl
@[simp] theorem cardAnswers_status (b : Byte) (s : State) : (cardAnswers b s).status = s.status := rfl
@[simp] theorem cardAnswers_type (b : Byte) (s : State) : (cardAnswers b s).type = s.type := rfl
@[simp] theorem cardAnswers_writeCapable (b : Byte) (s : State) : (cardAnswers b s).writeCapable = s.writeCapable := rfl
@[simp] theorem cardAnswers_cs (b : Byte) (s : State) : (cardAnswers b s).cs = s.cs := rfl
@[simp] theorem cardAnswers_seq (b : Byte) (s : State) : (cardAnswers b s).seq = s.seq := rfl
@[simp] theorem cardAnswers_buf (b : Byte) (s : State) : (cardAnswers b s).buf = s.buf := rfl
@[simp] theorem cardAnswers_reply (b : Byte) (s : State) : (cardAnswers b s).reply = s.reply := rfl
@[simp] theorem cardAnswers_wire (b : Byte) (s : State) : (cardAnswers b s).wire = s.wire := rfl
@[simp] theorem cardAnswers_settleMs (b : Byte) (s : State) : (cardAnswers b s).settleMs = s.settleMs := rfl
@[simp] theorem cardAnswers_cardIn (b : Byte) (s : State) : (cardAnswers b s).cardIn = b :: s.cardIn := rfl
@[simp] theorem cardAnswers_cardDraws (b : Byte) (s : State) : (cardAnswers b s).cardDraws = s.cardDraws := rfl
@[simp] theorem cardAnswers_clockIn (b : Byte) (s : State) : (cardAnswers b s).clockIn = s.clockIn := rfl
@[simp] theorem cardAnswers_clockDraws (b : Byte) (s : State) : (cardAnswers b s).clockDraws = s.clockDraws := rfl
@[simp] theorem cardAnswers_agenda (b : Byte) (s : State) : (cardAnswers b s).agenda = s.agenda := rfl
@[simp] theorem cardAnswers_w (b : Byte) (s : State) : (cardAnswers b s).w = s.w := rfl

@[simp] theorem replyAtOnce_params (r : Reply) (s : State) : (replyAtOnce r s).params = s.params := rfl
@[simp] theorem replyAtOnce_status (r : Reply) (s : State) : (replyAtOnce r s).status = s.status := rfl
@[simp] theorem replyAtOnce_type (r : Reply) (s : State) : (replyAtOnce r s).type = s.type := rfl
@[simp] theorem replyAtOnce_writeCapable (r : Reply) (s : State) : (replyAtOnce r s).writeCapable = s.writeCapable := rfl
@[simp] theorem replyAtOnce_cs (r : Reply) (s : State) : (replyAtOnce r s).cs = s.cs := rfl
@[simp] theorem replyAtOnce_seq (r : Reply) (s : State) : (replyAtOnce r s).seq = s.seq := rfl
@[simp] theorem replyAtOnce_buf (r : Reply) (s : State) : (replyAtOnce r s).buf = s.buf := rfl
@[simp] theorem replyAtOnce_reply (r : Reply) (s : State) : (replyAtOnce r s).reply = some r := rfl
@[simp] theorem replyAtOnce_wire (r : Reply) (s : State) : (replyAtOnce r s).wire = s.wire := rfl
@[simp] theorem replyAtOnce_settleMs (r : Reply) (s : State) : (replyAtOnce r s).settleMs = s.settleMs := rfl
@[simp] theorem replyAtOnce_cardIn (r : Reply) (s : State) : (replyAtOnce r s).cardIn = s.cardIn := rfl
@[simp] theorem replyAtOnce_cardDraws (r : Reply) (s : State) : (replyAtOnce r s).cardDraws = s.cardDraws := rfl
@[simp] theorem replyAtOnce_clockIn (r : Reply) (s : State) : (replyAtOnce r s).clockIn = s.clockIn := rfl
@[simp] theorem replyAtOnce_clockDraws (r : Reply) (s : State) : (replyAtOnce r s).clockDraws = s.clockDraws := rfl
@[simp] theorem replyAtOnce_agenda (r : Reply) (s : State) : (replyAtOnce r s).agenda = s.agenda := rfl
@[simp] theorem replyAtOnce_w (r : Reply) (s : State) : (replyAtOnce r s).w = s.w := rfl

@[simp] theorem finishOperation_params (cfg : Params) (r : Reply) (s : State) : (finishOperation cfg r s).params = s.params := rfl
@[simp] theorem finishOperation_status (cfg : Params) (r : Reply) (s : State) : (finishOperation cfg r s).status = s.status := rfl
@[simp] theorem finishOperation_type (cfg : Params) (r : Reply) (s : State) : (finishOperation cfg r s).type = s.type := rfl
@[simp] theorem finishOperation_writeCapable (cfg : Params) (r : Reply) (s : State) :
  (finishOperation cfg r s).writeCapable = s.writeCapable := rfl
@[simp] theorem finishOperation_cs (cfg : Params) (r : Reply) (s : State) : (finishOperation cfg r s).cs = .deasserted := rfl
@[simp] theorem finishOperation_seq (cfg : Params) (r : Reply) (s : State) : (finishOperation cfg r s).seq = .idle := rfl
@[simp] theorem finishOperation_buf (cfg : Params) (r : Reply) (s : State) : (finishOperation cfg r s).buf = s.buf := rfl
@[simp] theorem finishOperation_reply (cfg : Params) (r : Reply) (s : State) : (finishOperation cfg r s).reply = some r := rfl
@[simp] theorem finishOperation_wire (cfg : Params) (r : Reply) (s : State) : (finishOperation cfg r s).wire = .xchg cfg.dummyTx
  (nextRx cfg.dummyTx (csOff s)) :: .cs .deasserted :: s.wire := rfl
@[simp] theorem finishOperation_settleMs (cfg : Params) (r : Reply) (s : State) :
  (finishOperation cfg r s).settleMs = s.settleMs + tSettleMs := rfl
@[simp] theorem finishOperation_cardIn (cfg : Params) (r : Reply) (s : State) : (finishOperation cfg r s).cardIn = s.cardIn.tail := rfl
@[simp] theorem finishOperation_cardDraws (cfg : Params) (r : Reply) (s : State) :
  (finishOperation cfg r s).cardDraws = s.cardDraws + 1 := rfl
@[simp] theorem finishOperation_clockIn (cfg : Params) (r : Reply) (s : State) : (finishOperation cfg r s).clockIn = s.clockIn := rfl
@[simp] theorem finishOperation_clockDraws (cfg : Params) (r : Reply) (s : State) :
  (finishOperation cfg r s).clockDraws = s.clockDraws := rfl
@[simp] theorem finishOperation_agenda (cfg : Params) (r : Reply) (s : State) : (finishOperation cfg r s).agenda = s.agenda := rfl
@[simp] theorem finishOperation_w (cfg : Params) (r : Reply) (s : State) : (finishOperation cfg r s).w = s.w := rfl

@[simp] theorem beginOperation_params (q : Seq) (s : State) : (beginOperation q s).params = s.params := rfl
@[simp] theorem beginOperation_status (q : Seq) (s : State) : (beginOperation q s).status = s.status := rfl
@[simp] theorem beginOperation_type (q : Seq) (s : State) : (beginOperation q s).type = s.type := rfl
@[simp] theorem beginOperation_writeCapable (q : Seq) (s : State) : (beginOperation q s).writeCapable = s.writeCapable := rfl
@[simp] theorem beginOperation_cs (q : Seq) (s : State) : (beginOperation q s).cs = s.cs := rfl
@[simp] theorem beginOperation_seq (q : Seq) (s : State) : (beginOperation q s).seq = q := rfl
@[simp] theorem beginOperation_buf (q : Seq) (s : State) : (beginOperation q s).buf = s.buf := rfl
@[simp] theorem beginOperation_reply (q : Seq) (s : State) : (beginOperation q s).reply = none := rfl
@[simp] theorem beginOperation_wire (q : Seq) (s : State) : (beginOperation q s).wire = s.wire := rfl
@[simp] theorem beginOperation_settleMs (q : Seq) (s : State) : (beginOperation q s).settleMs = s.settleMs := rfl
@[simp] theorem beginOperation_cardIn (q : Seq) (s : State) : (beginOperation q s).cardIn = s.cardIn := rfl
@[simp] theorem beginOperation_cardDraws (q : Seq) (s : State) : (beginOperation q s).cardDraws = s.cardDraws := rfl
@[simp] theorem beginOperation_clockIn (q : Seq) (s : State) : (beginOperation q s).clockIn = s.clockIn := rfl
@[simp] theorem beginOperation_clockDraws (q : Seq) (s : State) : (beginOperation q s).clockDraws = s.clockDraws := rfl
@[simp] theorem beginOperation_agenda (q : Seq) (s : State) : (beginOperation q s).agenda = s.agenda := rfl
@[simp] theorem beginOperation_w (q : Seq) (s : State) : (beginOperation q s).w = Working.empty := rfl

@[simp] theorem nextRx_cons (tx b : Byte) (rest : List Byte) (s : State) (h : s.cardIn = b :: rest) : nextRx tx s = b := by
  simp [nextRx, h]

@[simp] theorem nextExpiry_cons (ms n : Nat) (rest : List Nat) (s : State) (h : s.clockIn = n :: rest) : nextExpiry ms s = n := by
  simp [nextExpiry, h]

end Sys2Proof.Machine
end

