-- ==== Sys2Proof/Laws/Runs.lean ====
section
/-! SUPPORT. Everything a procedure can do, said once: it exchanges bytes, deselects, asserts the line and clocks it, sets
deadlines, writes working registers, and stores to `BUF` at offsets it is allowed. Each named operation is such a run, and what
every primitive keeps, every operation keeps. -/

namespace Sys2Proof.Machine

open Sys2Proof.Safety

variable {cfg : Params}

/-- `t` is reached from `s` by primitives that store to `BUF` only at the offsets allowed. -/
inductive Runs (cfg : Params) (stores : Nat → Prop) (s : State) : State → Prop where
  | refl : Runs cfg stores s s
  | xchg {t : State} (tx : Byte) : Runs cfg stores s t → Runs cfg stores s (send tx t)
  | deselect {t : State} : Runs cfg stores s t → Runs cfg stores s (deselect cfg t)
  | assertLine {t : State} : Runs cfg stores s t → Runs cfg stores s (send cfg.dummyTx (csOn t))
  | deadline {t : State} (ms : Nat) : Runs cfg stores s t → Runs cfg stores s (setDeadline ms t).2
  | registers {t : State} (w : Working) : Runs cfg stores s t → Runs cfg stores s { t with w := w }
  | store {t : State} (a : Nat) (b : Byte) : stores a → Runs cfg stores s t → Runs cfg stores s (bufWrite a b t)

/-- No store at all. -/
abbrev noStore : Nat → Prop := fun _ => False

/-- Stores at `off` to `off + len - 1` only. -/
abbrev storesIn (off len : Nat) : Nat → Prop := fun a => off ≤ a ∧ a < off + len

theorem Runs.trans {p : Nat → Prop} {s t u : State} (h : Runs cfg p s t) (g : Runs cfg p t u) : Runs cfg p s u := by
  induction g with
  | refl => exact h
  | xchg tx _ ih => exact .xchg tx ih
  | deselect _ ih => exact .deselect ih
  | assertLine _ ih => exact .assertLine ih
  | deadline ms _ ih => exact .deadline ms ih
  | registers w _ ih => exact .registers w ih
  | store a b ha _ ih => exact .store a b ha ih

theorem Runs.mono {p q : Nat → Prop} (hpq : ∀ a, p a → q a) {s t : State} (h : Runs cfg p s t) : Runs cfg q s t := by
  induction h with
  | refl => exact .refl
  | xchg tx _ ih => exact .xchg tx ih
  | deselect _ ih => exact .deselect ih
  | assertLine _ ih => exact .assertLine ih
  | deadline ms _ ih => exact .deadline ms ih
  | registers w _ ih => exact .registers w ih
  | store a b ha _ ih => exact .store a b (hpq a ha) ih

theorem Runs.ofNone {p : Nat → Prop} {s t : State} (h : Runs cfg noStore s t) : Runs cfg p s t := h.mono fun _ => False.elim

/-! ### What every run keeps -/

theorem Runs.sameSession {p : Nat → Prop} {s t : State} (h : Runs cfg p s t) : SameSession s t ∧ t.seq = s.seq ∧ t.reply = s.reply := by
  induction h with
  | refl => exact ⟨⟨rfl, rfl, rfl, rfl, rfl⟩, rfl, rfl⟩
  | xchg _ _ ih => exact ih
  | deselect _ ih => exact ih
  | assertLine _ ih => exact ih
  | deadline _ _ ih => exact ih
  | registers _ _ ih => exact ih
  | store _ _ _ _ ih => exact ih

theorem Runs.sameBuf {s t : State} (h : Runs cfg noStore s t) : t.buf = s.buf := by
  induction h with
  | refl => rfl
  | xchg _ _ ih => exact ih
  | deselect _ ih => exact ih
  | assertLine _ ih => exact ih
  | deadline _ _ ih => exact ih
  | registers _ _ ih => exact ih
  | store _ _ ha _ _ => exact ha.elim

theorem Runs.sameButTransport {s t : State} (h : Runs cfg noStore s t) : SameButTransport s t :=
  ⟨h.sameSession.1, h.sameSession.2.1, h.sameBuf, h.sameSession.2.2⟩

theorem Runs.bufShape {p : Nat → Prop} {s t : State} (h : Runs cfg p s t) : t.buf.size = s.buf.size ∧ t.buf.pair = s.buf.pair := by
  induction h with
  | refl => exact ⟨rfl, rfl⟩
  | xchg _ _ ih => exact ih
  | deselect _ ih => exact ih
  | assertLine _ ih => exact ih
  | deadline _ _ ih => exact ih
  | registers _ _ ih => exact ih
  | store _ _ _ _ ih => exact ih

theorem Runs.bufWf {p : Nat → Prop} {s t : State} (h : Runs cfg p s t) (hw : Memory.wf s.buf.mem = true) : Memory.wf t.buf.mem = true := by
  induction h with
  | refl => exact hw
  | xchg _ _ ih => exact ih
  | deselect _ ih => exact ih
  | assertLine _ ih => exact ih
  | deadline _ _ ih => exact ih
  | registers _ _ ih => exact ih
  | store a b _ _ ih => exact memWrite_wf ih a b

theorem bufRead_bufWrite (s : State) (hw : Memory.wf s.buf.mem = true) (a : Nat) (b : Byte) (x : Nat) :
    bufRead x (bufWrite a b s) = if x = a then b else bufRead x s := memRead_memWrite hw a b x

/-- A write at one offset leaves every other offset, whatever the form of the cells. -/
theorem memRead_memWrite_ne (m : Memory) (a : Nat) (b : Byte) (x : Nat) (hx : x ≠ a) : memRead (memWrite m a b) x = memRead m x := by
  have cons : ∀ n : Memory, memRead (memCons a b n) x = memRead n x := by
    intro n; unfold memCons; split
    · rfl
    · simp [memRead, Ne.symm hx]
  induction m with
  | nil => exact cons []
  | cons c rest ih =>
    simp only [memWrite]
    split
    · exact cons _
    · split
      · rename_i heq
        rw [cons]
        have : c.1 ≠ x := by omega
        simp [memRead, this]
      · simp only [memRead]; split
        · rfl
        · exact ih

theorem Runs.bufOutside {p : Nat → Prop} {s t : State} (h : Runs cfg p s t) {a : Nat} (ha : ¬ p a) : bufRead a t = bufRead a s := by
  induction h with
  | refl => rfl
  | xchg _ _ ih => exact ih
  | deselect _ ih => exact ih
  | assertLine _ ih => exact ih
  | deadline _ _ ih => exact ih
  | registers _ _ ih => exact ih
  | @store t x b hx _ ih =>
    rw [← ih]
    exact memRead_memWrite_ne _ x b a fun e => ha (e ▸ hx)

theorem Runs.sameBufBut {off len : Nat} {s t : State} (h : Runs cfg (storesIn off len) s t) : SameBufBut off len s t :=
  ⟨h.bufShape.1, h.bufShape.2, fun a ha => h.bufOutside (by rintro ⟨h1, h2⟩; omega)⟩

theorem csClockedBy_weaken {b : Byte} {l : List WireEvent} (h : csClockedBy cfg none l) : csClockedBy cfg (some b) l := by
  cases l with
  | nil => trivial
  | cons e rest =>
    cases e with
    | xchg tx rx => exact h
    | cs level => exact absurd h.1 (by simp)

theorem wireOk_send {s : State} (h : WireOk cfg s) (tx : Byte) : WireOk cfg (send tx s) where
  level := by simpa [wireLevel] using h.level
  settled := by simpa [csEvents] using h.settled
  clocked := by simpa [csClockedBy] using csClockedBy_weaken h.clocked
  drawn := by simpa [exchanges] using h.drawn

theorem wireOk_deselect {s : State} (h : WireOk cfg s) : WireOk cfg (deselect cfg s) where
  level := by simp [wireLevel]
  settled := by simpa [csEvents, tSettleMs] using h.settled
  clocked := by simp [csClockedBy, h.clocked]
  drawn := by simpa [exchanges] using h.drawn

theorem wireOk_assertLine {s : State} (h : WireOk cfg s) : WireOk cfg (send cfg.dummyTx (csOn s)) where
  level := by simp [wireLevel]
  settled := by simpa [csEvents, tSettleMs] using h.settled
  clocked := by simp [csClockedBy, h.clocked]
  drawn := by simpa [exchanges] using h.drawn

theorem wireOk_congr {s t : State} (h : WireOk cfg s) (h1 : t.cs = s.cs) (h2 : t.settleMs = s.settleMs) (h3 : t.wire = s.wire)
    (h4 : t.cardDraws = s.cardDraws) : WireOk cfg t where
  level := by rw [h1, h3]; exact h.level
  settled := by rw [h2, h3]; exact h.settled
  clocked := by rw [h3]; exact h.clocked
  drawn := by rw [h4, h3]; exact h.drawn

/-- Every run keeps the wire and the line in agreement. -/
theorem Runs.wireOk {p : Nat → Prop} {s t : State} (h : Runs cfg p s t) (hw : WireOk cfg s) : WireOk cfg t := by
  induction h with
  | refl => exact hw
  | xchg tx _ ih => exact wireOk_send ih tx
  | deselect _ ih => exact wireOk_deselect ih
  | assertLine _ ih => exact wireOk_assertLine ih
  | deadline _ _ ih => exact wireOk_congr ih rfl rfl rfl rfl
  | registers _ _ ih => exact wireOk_congr ih rfl rfl rfl rfl
  | store _ _ _ _ ih => exact wireOk_congr ih rfl rfl rfl rfl

/-- A run only appends to the wire. -/
theorem Runs.appends {p : Nat → Prop} {s t : State} (h : Runs cfg p s t) : ∃ evs, Appends s t evs := by
  induction h with
  | refl => exact ⟨[], rfl⟩
  | @xchg t tx _ ih => obtain ⟨e, he⟩ := ih; exact ⟨e ++ [.xchg tx (nextRx tx t)], by unfold Appends at *; simp [he]⟩
  | @deselect t _ ih => obtain ⟨e, he⟩ := ih; exact ⟨e ++
    [.cs .deasserted, .xchg cfg.dummyTx (nextRx cfg.dummyTx (csOff t))], by unfold Appends at *; simp [he]⟩
  | @assertLine t _ ih => obtain ⟨e, he⟩ := ih; exact ⟨e ++
    [.cs .asserted, .xchg cfg.dummyTx (nextRx cfg.dummyTx (csOn t))], by unfold Appends at *; simp [he]⟩
  | deadline _ _ ih => exact ih
  | registers _ _ ih => exact ih
  | store _ _ _ _ ih => exact ih

theorem received_append (a b : List WireEvent) : received (a ++ b) = received a ++ received b := by
  induction a with
  | nil => rfl
  | cons e rest ih => cases e <;> simp [received, ih]

theorem Drew_trans {s t u : State} {a b : List WireEvent} (h : Drew s t a) (g : Drew t u b) : Drew s u (a ++ b) := by
  unfold Drew at *
  rw [received_append]
  refine ⟨by rw [g.1, h.1, List.drop_drop, List.length_append], ?_⟩
  have hg := g.2
  rw [h.1, List.length_drop] at hg
  rw [List.take_append, List.length_append, List.take_add, h.2, hg]

theorem Drew_of_cardIn {s t u : State} {a : List WireEvent} (h : Drew s t a) (e : u.cardIn = t.cardIn) : Drew s u a :=
  ⟨e.trans h.1, h.2⟩

theorem Drew_xchg (tx : Byte) (s : State) : Drew s (send tx s) [.xchg tx (nextRx tx s)] := by
  unfold Drew
  simp only [received, List.length_cons, List.length_nil, send, xchg, nextRx]
  cases h : s.cardIn <;> simp

theorem Drew_cs (s t : State) (level : CsLevel) (h : t.cardIn = s.cardIn) : Drew s t [.cs level] := by
  unfold Drew; simp [received, h]

/-- A run draws the scripted bytes in order. -/
theorem Runs.drew {p : Nat → Prop} {s t : State} (h : Runs cfg p s t) : ∃ evs, Appends s t evs ∧ Drew s t evs := by
  induction h with
  | refl => exact ⟨[], rfl, by simp [Drew, received]⟩
  | @xchg t tx _ ih =>
    obtain ⟨e, he, hd⟩ := ih
    exact ⟨e ++ [.xchg tx (nextRx tx t)], by unfold Appends at *; simp [he], Drew_trans hd (Drew_xchg tx t)⟩
  | @deselect t _ ih =>
    obtain ⟨e, he, hd⟩ := ih
    refine ⟨e ++ ([.cs .deasserted] ++ [.xchg cfg.dummyTx (nextRx cfg.dummyTx (csOff t))]), by unfold Appends at *; simp [he], ?_⟩
    exact Drew_trans hd (Drew_trans (Drew_cs t (csOff t) .deasserted rfl) (Drew_xchg cfg.dummyTx (csOff t)))
  | @assertLine t _ ih =>
    obtain ⟨e, he, hd⟩ := ih
    refine ⟨e ++ ([.cs .asserted] ++ [.xchg cfg.dummyTx (nextRx cfg.dummyTx (csOn t))]), by unfold Appends at *; simp [he], ?_⟩
    exact Drew_trans hd (Drew_trans (Drew_cs t (csOn t) .asserted rfl) (Drew_xchg cfg.dummyTx (csOn t)))
  | deadline _ _ ih => exact ih
  | registers _ _ ih => exact ih
  | store _ _ _ _ ih => exact ih

/-! ### The named operations are runs -/

section
variable {p : Nat → Prop} {s t : State}

theorem Runs.sendAll (bytes : List Byte) (h : Runs cfg p s t) : Runs cfg p s (Machine.sendAll bytes t) := by
  induction bytes generalizing t with
  | nil => exact h
  | cons b rest ih => exact ih (h.xchg b)

theorem Runs.sendDummies (n : Nat) (h : Runs cfg p s t) : Runs cfg p s (Machine.sendDummies cfg n t) := h.sendAll _

theorem Runs.waitReadyLoop (ms k : Nat) (h : Runs cfg p s t) : Runs cfg p s (Machine.waitReadyLoop cfg ms k t).2 := by
  induction k generalizing t with
  | zero => exact h.xchg _
  | succ k ih =>
    unfold Machine.waitReadyLoop
    split
    · exact h.xchg _
    · exact ih ((h.xchg _).registers _)

theorem Runs.waitReady (ms : Nat) (h : Runs cfg p s t) : Runs cfg p s (Machine.waitReady cfg ms t).2 :=
  ((h.deadline ms).registers _).waitReadyLoop _ _

theorem Runs.select (h : Runs cfg p s t) : Runs cfg p s (Machine.select cfg t).2 := h.deselect.assertLine.waitReady _

theorem Runs.pollR1Loop (n : Nat) (h : Runs cfg p s t) : Runs cfg p s (Machine.pollR1Loop cfg n t).2 := by
  induction n generalizing t with
  | zero => exact ((h.xchg _).registers _).registers _
  | succ n ih =>
    unfold Machine.pollR1Loop
    split
    · exact ((h.xchg _).registers _).registers _
    · exact ih (((h.xchg _).registers _).registers _)

theorem Runs.pollR1 (h : Runs cfg p s t) : Runs cfg p s (Machine.pollR1 cfg t).2 := (h.registers _).pollR1Loop _

theorem Runs.sendFrame (c : Command) (h : Runs cfg p s t) : Runs cfg p s (Machine.sendFrame cfg c t) := h.sendAll _

theorem Runs.sendOne (c : Command) (h : Runs cfg p s t) : Runs cfg p s (Machine.sendOne cfg c t).2 := by
  unfold Machine.sendOne
  split
  · exact (((h.registers _).sendFrame c).xchg _).pollR1
  · split
    · exact ((h.registers _).select.sendFrame c).pollR1
    · exact (h.registers _).select

theorem Runs.sendApp (c : Command) (h : Runs cfg p s t) : Runs cfg p s (Machine.sendApp cfg c t).2 := by
  unfold Machine.sendApp
  split
  · exact h.sendOne _
  · exact (h.sendOne _).sendOne _

theorem Runs.sendCmd (c : Command) (h : Runs cfg p s t) : Runs cfg p s (Machine.sendCmd cfg c t).2 := by
  unfold Machine.sendCmd
  split
  · exact (h.sendApp c).registers _
  · exact (h.sendOne c).registers _

theorem Runs.readTrailing (h : Runs cfg p s t) : Runs cfg p s (Machine.readTrailing cfg t).2 :=
  ((((h.xchg _).xchg _).xchg _).xchg _).registers _

theorem Runs.tokenWaitLoop (ms k : Nat) (h : Runs cfg p s t) : Runs cfg p s (Machine.tokenWaitLoop cfg ms k t).2 := by
  induction k generalizing t with
  | zero => exact (h.xchg _).registers _
  | succ k ih =>
    unfold Machine.tokenWaitLoop
    split
    · exact ih (((h.xchg _).registers _).registers _)
    · exact (h.xchg _).registers _

theorem Runs.tokenWait (h : Runs cfg p s t) : Runs cfg p s (Machine.tokenWait cfg t).2 := ((h.deadline _).registers _).tokenWaitLoop _ _

theorem Runs.recvBlock (off len : Nat) (hp : ∀ a, off ≤ a → a < off + len → p a) (h : Runs cfg p s t) :
    Runs cfg p s (Machine.recvBlock cfg off len t) := by
  induction len generalizing off t with
  | zero => exact h
  | succ n ih =>
    exact ih (off + 1) (fun a h1 h2 => hp a (by omega) (by omega)) ((h.xchg _).store off _ (hp off (Nat.le_refl _) (by omega)))

theorem Runs.recvDataBlock (off len : Nat) (hp : ∀ a, off ≤ a → a < off + len → p a) (h : Runs cfg p s t) :
    Runs cfg p s (Machine.recvDataBlock cfg off len t).2 := by
  unfold Machine.recvDataBlock
  split
  · exact (h.tokenWait.recvBlock off len hp).sendDummies _
  · exact h.tokenWait

theorem Runs.recvBytes (n : Nat) (h : Runs cfg p s t) : Runs cfg p s (Machine.recvBytes cfg n t).2 := by
  induction n generalizing t with
  | zero => exact h
  | succ n ih => exact ih (h.xchg _)

theorem Runs.recvRegister (h : Runs cfg p s t) : Runs cfg p s (Machine.recvRegister cfg t).2 := by
  unfold Machine.recvRegister
  split
  · exact ((h.tokenWait.recvBytes _).registers _).sendDummies _
  · exact h.tokenWait

theorem Runs.xmitBlock (off len : Nat) (h : Runs cfg p s t) : Runs cfg p s (Machine.xmitBlock off len t) := by
  induction len generalizing off t with
  | zero => exact h
  | succ n ih => exact ih (off + 1) (h.xchg _)

theorem Runs.dataResponse (h : Runs cfg p s t) : Runs cfg p s (Machine.dataResponse cfg t).2 := (h.xchg _).registers _

theorem Runs.xmitPayload (off : Nat) (h : Runs cfg p s t) : Runs cfg p s (Machine.xmitPayload cfg off t).2 :=
  ((h.xmitBlock off _).sendAll _).dataResponse

theorem Runs.xmitDataBlock (off : Nat) (token : Byte) (h : Runs cfg p s t) : Runs cfg p s (Machine.xmitDataBlock cfg off token t).2 := by
  unfold Machine.xmitDataBlock
  dsimp only
  split
  · split
    · exact ((h.registers _).waitReady _).xchg _
    · exact (((h.registers _).waitReady _).xchg _).xmitPayload _
  · exact (h.registers _).waitReady _

/-! ### The transactions are runs -/

theorem Runs.ifCondTransaction (h : Runs cfg p s t) : Runs cfg p s (Machine.ifCondTransaction cfg t).2 := by
  unfold Machine.ifCondTransaction
  split
  · exact (h.sendCmd _).readTrailing
  · exact h.sendCmd _

theorem Runs.ocrTransaction (h : Runs cfg p s t) : Runs cfg p s (Machine.ocrTransaction cfg t).2 := by
  unfold Machine.ocrTransaction
  split
  · exact (h.sendCmd _).readTrailing
  · exact h.sendCmd _

theorem Runs.csdTransaction (h : Runs cfg p s t) : Runs cfg p s (Machine.csdTransaction cfg t).2 := by
  unfold Machine.csdTransaction
  split
  · exact (h.sendCmd _).recvRegister
  · exact h.sendCmd _

theorem Runs.recvTransaction (c : Command) (len : Nat) (hp : ∀ a, a < len → p a) (h : Runs cfg p s t) :
    Runs cfg p s (Machine.recvTransaction cfg c len t).2 := by
  unfold Machine.recvTransaction
  split
  · exact (h.sendCmd c).recvDataBlock 0 len fun a _ h2 => hp a (by omega)
  · exact h.sendCmd c

theorem Runs.sdStatusTransaction (hp : ∀ a, a < sdStatusLength → p a) (h : Runs cfg p s t) :
    Runs cfg p s (Machine.sdStatusTransaction cfg t).2 := by
  unfold Machine.sdStatusTransaction
  split
  · exact ((h.sendCmd _).xchg _).recvDataBlock 0 _ fun a _ h2 => hp a (by omega)
  · exact h.sendCmd _

theorem Runs.sdStatusHeadTransaction (h : Runs cfg p s t) : Runs cfg p s (Machine.sdStatusHeadTransaction cfg t).2 := by
  unfold Machine.sdStatusHeadTransaction
  split
  · dsimp only
    split
    · exact ((h.sendCmd _).xchg _).recvRegister.sendDummies _
    · exact ((h.sendCmd _).xchg _).recvRegister
  · exact h.sendCmd _

theorem Runs.recvSectors (n off : Nat) (hp : ∀ a, off ≤ a → a < off + n * sectorSize → p a) (h : Runs cfg p s t) :
    Runs cfg p s (Machine.recvSectors cfg n off t) := by
  induction n generalizing off t with
  | zero => exact h
  | succ n ih =>
    have hr : Runs cfg p s (Machine.recvDataBlock cfg off sectorSize t).2 :=
      h.recvDataBlock off sectorSize fun a h1 h2 => hp a h1 (by simp only [Nat.succ_mul]; omega)
    unfold Machine.recvSectors
    split
    · exact ih _ (fun a h1 h2 => hp a (by omega) (by simp only [Nat.succ_mul]; omega)) ((hr.registers _).registers _)
    · exact hr

theorem Runs.readMultiTransaction (addr : Word) (count : Nat) (hp : ∀ a, a < count * sectorSize → p a) (h : Runs cfg p s t) :
    Runs cfg p s (Machine.readMultiTransaction cfg addr count t) := by
  unfold Machine.readMultiTransaction
  split
  · exact (((h.sendCmd _).registers _).recvSectors count 0 fun a _ h2 => hp a (by omega)).sendCmd _
  · exact h.sendCmd _

theorem Runs.writeSingleTransaction (addr : Word) (h : Runs cfg p s t) : Runs cfg p s (Machine.writeSingleTransaction cfg addr t).2 := by
  unfold Machine.writeSingleTransaction
  split
  · exact (h.sendCmd _).xmitDataBlock _ _
  · exact h.sendCmd _

theorem Runs.xmitSectors (n off : Nat) (h : Runs cfg p s t) : Runs cfg p s (Machine.xmitSectors cfg n off t) := by
  induction n generalizing off t with
  | zero => exact h
  | succ n ih =>
    unfold Machine.xmitSectors
    split
    · exact ih _ (((h.xmitDataBlock _ _).registers _).registers _)
    · exact h.xmitDataBlock _ _

theorem Runs.closeWriteStream (h : Runs cfg p s t) : Runs cfg p s (Machine.closeWriteStream cfg t) := by
  unfold Machine.closeWriteStream
  split
  · exact h.xmitDataBlock _ _
  · exact (h.xmitDataBlock _ _).registers _

theorem Runs.writeMultiTransaction (addr : Word) (count : Nat) (h : Runs cfg p s t) :
    Runs cfg p s (Machine.writeMultiTransaction cfg addr count t) := by
  unfold Machine.writeMultiTransaction
  split
  · exact (((h.sendCmd _).registers _).xmitSectors _ _).closeWriteStream
  · exact h.sendCmd _

theorem Runs.eraseTransaction (h : Runs cfg p s t) : Runs cfg p s (Machine.eraseTransaction cfg t).2 := by
  unfold Machine.eraseTransaction
  split
  · exact (h.sendCmd _).waitReady _
  · exact h.sendCmd _

theorem Runs.eraseRange (first last : Word) (h : Runs cfg p s t) : Runs cfg p s (Machine.eraseRange cfg first last t).2 := by
  have h0 := (h.registers (Machine.setAddr first t).w).registers (Machine.setAddr last (Machine.setAddr first t)).w
  unfold Machine.eraseRange
  dsimp only
  split
  · split
    · exact ((h0.sendCmd _).sendCmd _).eraseTransaction
    · exact (h0.sendCmd _).sendCmd _
  · exact h0.sendCmd _

theorem Runs.trimSequence (pair : Word × Word) (h : Runs cfg p s t) : Runs cfg p s (Machine.trimSequence cfg pair t).2 := by
  unfold Machine.trimSequence
  split
  · split
    · split
      · exact h.csdTransaction.eraseRange _ _
      · exact h.csdTransaction
    · exact h.csdTransaction
  · exact h

theorem Runs.granularityRegister (h : Runs cfg p s t) : Runs cfg p s (Machine.granularityRegister cfg t).2 := by
  unfold Machine.granularityRegister
  split
  · exact h.sdStatusHeadTransaction
  · exact h.csdTransaction

theorem Runs.negotiateLoop (c : Command) (k : Nat) (h : Runs cfg p s t) : Runs cfg p s (Machine.negotiateLoop cfg c k t).2 := by
  induction k generalizing t with
  | zero => exact h
  | succ k ih =>
    unfold Machine.negotiateLoop
    split
    · exact (h.registers _).sendCmd _
    · exact ih ((h.registers _).sendCmd _)

end

end Sys2Proof.Machine
end

