-- ==== Sys2Proof/Laws/Trace.lean ====
section
/-! SUPPORT. The trace law of every shared operation: which events it appends to the wire, and with which result. -/

namespace Sys2Proof.Machine

open Sys2Proof.Safety

variable (cfg : Params)

theorem appends_refl (s : State) : Appends s s [] := rfl

theorem Appends_trans {s t u : State} {a b : List WireEvent} (h : Appends s t a) (g : Appends t u b) : Appends s u (a ++ b) := by
  unfold Appends at *; simp [g, h]

theorem appends_send (tx : Byte) (s : State) : Appends s (send tx s) [.xchg tx (nextRx tx s)] := by simp [Appends]

theorem appends_of_wire {s t u : State} {evs : List WireEvent} (h : Appends s t evs) (hw : u.wire = t.wire) : Appends s u evs := by
  unfold Appends at *; rw [hw, h]

theorem appends_from_wire {s t u : State} {evs : List WireEvent} (h : Appends t u evs) (hw : t.wire = s.wire) : Appends s u evs := by
  unfold Appends at *; rw [h, hw]

@[simp] theorem sending_nil (tx : Byte) : sending tx [] = [] := rfl
@[simp] theorem sending_cons (tx b : Byte) (l : List Byte) : sending tx (b :: l) = .xchg tx b :: sending tx l := rfl
@[simp] theorem sending_append (tx : Byte) (l m : List Byte) : sending tx (l ++ m) = sending tx l ++ sending tx m := by
  simp [sending]

theorem sends_append {a b : List Byte} {x y : List WireEvent} (h : Sends a x) (g : Sends b y) : Sends (a ++ b) (x ++ y) := by
  obtain ⟨ra, hla, rfl⟩ := h
  obtain ⟨rb, hlb, rfl⟩ := g
  exact ⟨ra ++ rb, by simp [hla, hlb], by rw [List.zipWith_append hla.symm]⟩

theorem sends_one (tx rx : Byte) : Sends [tx] [.xchg tx rx] := ⟨[rx], rfl, rfl⟩

theorem sendAll_trace (bytes : List Byte) (s : State) : ∃ evs, Appends s (sendAll bytes s) evs ∧ Sends bytes evs := by
  induction bytes generalizing s with
  | nil => exact ⟨[], rfl, [], rfl, rfl⟩
  | cons b rest ih =>
    obtain ⟨evs, ha, hs⟩ := ih (send b s)
    exact ⟨_, Appends_trans (appends_send b s) ha, sends_append (sends_one b _) hs⟩

theorem sendDummies_trace (n : Nat) (s : State) : ∃ rxs : List Byte, rxs.length = n ∧
    Appends s (sendDummies cfg n s) (sending cfg.dummyTx rxs) := by
  obtain ⟨evs, ha, rxs, hl, rfl⟩ := sendAll_trace (List.replicate n cfg.dummyTx) s
  refine ⟨rxs, by simpa using hl, ?_⟩
  have : List.zipWith WireEvent.xchg (List.replicate n cfg.dummyTx) rxs = sending cfg.dummyTx rxs := by
    have hn : n = rxs.length := by simpa using hl.symm
    subst hn
    clear ha hl
    induction rxs with
    | nil => rfl
    | cons r rs ih => simpa [List.replicate_succ, sending] using ih
  rw [← this]; exact ha

theorem deselect_trace (s : State) : ∃ evs, Appends s (deselect cfg s) evs ∧ DeselectTrace cfg evs :=
  ⟨[.cs .deasserted, .xchg cfg.dummyTx (nextRx cfg.dummyTx (csOff s))], by simp [Appends], _, rfl⟩

theorem waitReadyLoop_trace (ms k : Nat) (s : State) :
    ∃ evs, Appends s (waitReadyLoop cfg ms k s).2 evs ∧ ReadyTrace cfg (waitReadyLoop cfg ms k s).1 evs := by
  induction k generalizing s with
  | zero =>
    refine ⟨_, appends_send cfg.dummyTx s, ?_⟩
    show ReadyTrace cfg (isReady (nextRx cfg.dummyTx s)) _
    cases h : isReady (nextRx cfg.dummyTx s) with
    | true =>
      have : nextRx cfg.dummyTx s = 0xFF#8 := by simpa [isReady, readyByteValue] using h
      exact ⟨[], by simp, by rw [this]; simp⟩
    | false =>
      have : nextRx cfg.dummyTx s ≠ 0xFF#8 := by simpa [isReady, readyByteValue] using h
      exact ⟨[nextRx cfg.dummyTx s], by simpa using this, by simp⟩
  | succ k ih =>
    unfold waitReadyLoop
    cases h : isReady (xchg cfg.dummyTx s).1 with
    | true =>
      refine ⟨_, appends_send cfg.dummyTx s, ?_⟩
      have : nextRx cfg.dummyTx s = 0xFF#8 := by simpa [isReady, readyByteValue] using h
      exact ⟨[], by simp, by rw [this]; simp⟩
    | false =>
      have hne : nextRx cfg.dummyTx s ≠ 0xFF#8 := by simpa [isReady, readyByteValue] using h
      obtain ⟨evs, ha, busy, hb, hr⟩ := ih (setDPoll ⟨ms, k⟩ (xchg cfg.dummyTx s).2)
      simp only [Bool.false_eq_true, if_false]
      refine ⟨_, Appends_trans (appends_send cfg.dummyTx s) (appends_from_wire ha rfl), nextRx cfg.dummyTx s :: busy, ?_, ?_⟩
      · intro b hmem
        rcases List.mem_cons.1 hmem with rfl | hmem
        · exact hne
        · exact hb b hmem
      · revert hr
        split
        · rintro rfl; simp
        · rintro ⟨_, rfl⟩; simp

theorem waitReady_trace (ms : Nat) (s : State) : ∃ evs, Appends s (waitReady cfg ms s).2 evs ∧
    ReadyTrace cfg (waitReady cfg ms s).1 evs := by
  obtain ⟨evs, ha, hr⟩ := waitReadyLoop_trace cfg ms (setDeadline ms s).1.left (setDPoll (setDeadline ms s).1 (setDeadline ms s).2)
  exact ⟨evs, appends_from_wire ha rfl, hr⟩

theorem select_trace (s : State) : ∃ evs, Appends s (select cfg s).2 evs ∧ SelectTrace cfg (select cfg s).1 evs := by
  obtain ⟨polls, ha, hr⟩ := waitReady_trace cfg tReadyMs (send cfg.dummyTx (csOn (deselect cfg s)))
  refine ⟨_, Appends_trans (t := send cfg.dummyTx (csOn (deselect cfg s))) (a :=
    [.cs .deasserted, .xchg cfg.dummyTx (nextRx cfg.dummyTx (csOff s)), .cs .asserted,
      .xchg cfg.dummyTx (nextRx cfg.dummyTx (csOn (deselect cfg s)))])
    ?_ ha, ?_⟩
  · simp [Appends]
  · exact ⟨_, _, polls, rfl, hr⟩

theorem select_cs (s : State) : (select cfg s).2.cs = .asserted := by
  have key : ∀ (ms k : Nat) (t : State), (waitReadyLoop cfg ms k t).2.cs = t.cs := by
    intro ms k
    induction k with
    | zero => intro t; rfl
    | succ k ih =>
      intro t
      unfold waitReadyLoop
      split
      · rfl
      · rw [ih]; rfl
  show (waitReadyLoop cfg _ _ _).2.cs = _
  rw [key]; rfl

theorem r1Arrived_iff (r : Byte) : r1Arrived r = true ↔ r.toNat < 128 := by
  unfold r1Arrived
  rw [beq_iff_eq]
  constructor
  · intro h
    have := congrArg BitVec.toNat h
    simp [BitVec.extractLsb'_toNat] at this
    have hr := r.isLt
    omega
  · intro h
    apply BitVec.eq_of_toNat_eq
    simp [BitVec.extractLsb'_toNat]
    omega

theorem pollR1Loop_trace (n : Nat) (s : State) :
    ∃ noise : List Byte, (∀ b ∈ noise, 128 ≤ b.toNat) ∧ noise.length ≤ n ∧
      ((pollR1Loop cfg n s).1.toNat < 128 ∨ noise.length = n) ∧
      Appends s (pollR1Loop cfg n s).2 (sending cfg.dummyTx (noise ++ [(pollR1Loop cfg n s).1])) ∧
      (pollR1Loop cfg n s).2.w.r1 = some (pollR1Loop cfg n s).1 ∧
      (pollR1Loop cfg n s).2.w.nPoll = some (BitVec.ofNat 4 (n - noise.length)) := by
  induction n generalizing s with
  | zero => exact ⟨[], by simp, by simp, .inr rfl, appends_of_wire (appends_send cfg.dummyTx s) rfl, rfl, rfl⟩
  | succ n ih =>
    unfold pollR1Loop
    split
    · rename_i h
      have := (r1Arrived_iff _).1 h
      exact ⟨[], by simp, by simp, .inl this, appends_of_wire (appends_send cfg.dummyTx s) rfl, rfl, rfl⟩
    · rename_i h
      obtain ⟨noise, h1, h2, h3, h4, h5, h6⟩ := ih (setNPoll (n + 1) (setR1 (xchg cfg.dummyTx s).1 (xchg cfg.dummyTx s).2))
      refine ⟨(xchg cfg.dummyTx s).1 :: noise, ?_, by simpa using h2, by simpa using h3, ?_, h5, by simpa using h6⟩
      · intro b hb
        rcases List.mem_cons.1 hb with rfl | hb
        · have := (r1Arrived_iff (xchg cfg.dummyTx s).1).not.1 h; omega
        · exact h1 b hb
      · have := Appends_trans (appends_send cfg.dummyTx s) (appends_from_wire h4 rfl)
        simpa using this

theorem pollR1_trace (s : State) : ∃ evs, Appends s (pollR1 cfg s).2 evs ∧ PollTrace cfg (pollR1 cfg s).1 evs := by
  obtain ⟨noise, h1, h2, h3, h4, _⟩ := pollR1Loop_trace cfg 9 (setNPoll nR1Poll s)
  exact ⟨_, appends_from_wire h4 rfl, noise, h1, h2, h3, rfl⟩

theorem pollR1_r1 (s : State) : (pollR1 cfg s).2.w.r1 = some (pollR1 cfg s).1 := by
  obtain ⟨_, _, _, _, _, h, _⟩ := pollR1Loop_trace cfg 9 (setNPoll nR1Poll s)
  exact h

theorem sendFrame_trace (c : Command) (s : State) : ∃ evs, Appends s (sendFrame cfg c s) evs ∧ Sends (frameBytes cfg c.op c.arg) evs :=
  sendAll_trace _ s

/-- A command other than the stop command, without its prefix round trip. -/
theorem sendOne_trace (c : Command) (hc : isStop cfg c = false) (s : State) :
    ∃ evs, Appends s (sendOne cfg c s).2 evs ∧ BracketTrace cfg (frameBytes cfg c.op c.arg) (sendOne cfg c s).1 evs := by
  unfold sendOne
  rw [hc]
  obtain ⟨sel, hsel, hst⟩ := select_trace cfg (setCmd c s)
  simp only [Bool.false_eq_true, if_false]
  split
  · rename_i hok
    obtain ⟨fr, hfr, hfs⟩ := sendFrame_trace cfg c (select cfg (setCmd c s)).2
    obtain ⟨poll, hp, hpt⟩ := pollR1_trace cfg (sendFrame cfg c (select cfg (setCmd c s)).2)
    exact ⟨_, Appends_trans (Appends_trans (appends_from_wire hsel rfl) hfr) hp, .inr ⟨sel, fr, poll, rfl, hok ▸ hst, hfs, hpt⟩⟩
  · rename_i hno
    have hno' : (select cfg (setCmd c s)).1 = false := by simpa using hno
    exact ⟨sel, appends_from_wire hsel rfl, .inl ⟨hno' ▸ hst, rfl⟩⟩

theorem sendOne_stop_trace (s : State) : ∃ evs, Appends s (sendOne cfg (stopTransmission cfg) s).2 evs ∧
    StopTrace cfg (sendOne cfg (stopTransmission cfg) s).1 evs := by
  obtain ⟨fr, hfr, hfs⟩ := sendFrame_trace cfg (stopTransmission cfg) (setCmd (stopTransmission cfg) s)
  obtain ⟨poll, hp, hpt⟩ := pollR1_trace cfg (send cfg.dummyTx (sendFrame cfg (stopTransmission cfg) (setCmd (stopTransmission cfg) s)))
  unfold sendOne
  rw [isStop_stopTransmission, if_pos rfl]
  exact ⟨_, Appends_trans (Appends_trans (appends_from_wire hfr rfl) (appends_send cfg.dummyTx _)) hp, fr, _, poll, rfl, hfs, hpt⟩

theorem sendCmd_r (c : Command) (s : State) : (sendCmd cfg c s).2.w.r = some (sendCmd cfg c s).1 := by
  unfold sendCmd; split <;> rfl

theorem sendCmd_plain (c : Command) (h : c.acmd = false) (s : State) :
    (sendCmd cfg c s).1 = (sendOne cfg c s).1 ∧ (sendCmd cfg c s).2 = setR (sendOne cfg c s).1 (sendOne cfg c s).2 := by
  simp [sendCmd, h]

/-- `SendCmd` of a command that is neither an application command nor the stop command. -/
theorem sendCmd_trace (c : Command) (hc : isStop cfg c = false) (ha : c.acmd = false) (s : State) :
    ∃ evs, Appends s (sendCmd cfg c s).2 evs ∧ BracketTrace cfg (frameBytes cfg c.op c.arg) (sendCmd cfg c s).1 evs := by
  obtain ⟨evs, h, ht⟩ := sendOne_trace cfg c hc s
  rw [(sendCmd_plain cfg c ha s).1, (sendCmd_plain cfg c ha s).2]
  exact ⟨evs, appends_of_wire h rfl, ht⟩

theorem sendCmd_stop_trace (s : State) : ∃ evs, Appends s (sendCmd cfg (stopTransmission cfg) s).2 evs ∧
    StopTrace cfg (sendCmd cfg (stopTransmission cfg) s).1 evs := by
  obtain ⟨evs, h, ht⟩ := sendOne_stop_trace cfg s
  rw [(sendCmd_plain cfg _ rfl s).1, (sendCmd_plain cfg _ rfl s).2]
  exact ⟨evs, appends_of_wire h rfl, ht⟩

/-- `SendCmd` of an application command. -/
theorem sendCmd_app_trace (hcfg : cfg.wf = true) (c : Command) (hc : isStop cfg c = false) (ha : c.acmd = true) (s : State) :
    ∃ evs, Appends s (sendCmd cfg c s).2 evs ∧ AppTrace cfg (frameBytes cfg c.op c.arg) (sendCmd cfg c s).1 evs := by
  obtain ⟨first, h1, ht1⟩ := sendOne_trace cfg appCmd (isStop_appCmd hcfg) s
  have hf : frameBytes cfg appCmd.op appCmd.arg = (frameBytes cfg opAppCmd 0#32) := rfl
  rw [hf] at ht1
  unfold sendCmd sendApp
  simp only [ha, if_true]
  by_cases hr : r1HardFailure (sendOne cfg appCmd s).1
  · simp only [hr, if_true]
    exact ⟨first, appends_of_wire h1 rfl, .inl ⟨ht1, by simpa [r1HardFailure] using hr⟩⟩
  · obtain ⟨target, h2, ht2⟩ := sendOne_trace cfg c hc (sendOne cfg appCmd s).2
    simp only [hr]
    exact ⟨_, appends_of_wire (Appends_trans h1 h2) rfl, .inr ⟨_, first, target, rfl, by simpa [r1HardFailure] using hr, ht1, ht2⟩⟩

theorem readTrailing_trace (s : State) : ∃ b0 b1 b2 b3 : Byte, (readTrailing cfg s).1 = bytesWord b0 b1 b2 b3 ∧
    (readTrailing cfg s).2.w.resp4 = some (bytesWord b0 b1 b2 b3) ∧
      Appends s (readTrailing cfg s).2 (sending cfg.dummyTx [b0, b1, b2, b3]) :=
  ⟨_, _, _, _, rfl, rfl, by simp [readTrailing, Appends]⟩

theorem tokenWaitLoop_trace (ms k : Nat) (s : State) :
    ∃ evs, Appends s (tokenWaitLoop cfg ms k s).2 evs ∧ TokenTrace cfg (tokenWaitLoop cfg ms k s).1 evs ∧
      (tokenWaitLoop cfg ms k s).2.w.token = some (tokenWaitLoop cfg ms k s).1 := by
  induction k generalizing s with
  | zero => exact ⟨_, appends_send cfg.dummyTx s, ⟨0, rfl⟩, rfl⟩
  | succ k ih =>
    unfold tokenWaitLoop
    split
    · rename_i h
      have hff : nextRx cfg.dummyTx s = 0xFF#8 := by simpa [isNotYetToken, idleLineByte] using h
      obtain ⟨evs, ha, ⟨n, hn⟩, ht⟩ := ih (setDPoll ⟨ms, k⟩ (setToken (xchg cfg.dummyTx s).1 (xchg cfg.dummyTx s).2))
      refine ⟨_, Appends_trans (appends_send cfg.dummyTx s) (appends_from_wire ha rfl), ⟨n + 1, ?_⟩, ht⟩
      rw [hn, hff]; simp [List.replicate_succ]
    · exact ⟨_, appends_send cfg.dummyTx s, ⟨0, rfl⟩, rfl⟩

theorem tokenWait_trace (s : State) : ∃ evs, Appends s (tokenWait cfg s).2 evs ∧ TokenTrace cfg (tokenWait cfg s).1 evs := by
  obtain ⟨evs, ha, ht, _⟩ := tokenWaitLoop_trace cfg tTokenMs (setDeadline tTokenMs s).1.left
    (setDPoll (setDeadline tTokenMs s).1 (setDeadline tTokenMs s).2)
  exact ⟨evs, appends_from_wire ha rfl, ht⟩

theorem bufBytes_succ (off n : Nat) (s : State) : bufBytes off (n + 1) s = bufRead off s :: bufBytes (off + 1) n s := by
  simp only [bufBytes, List.range_succ_eq_map, List.map_cons, List.map_map, Nat.add_zero]
  congr 1
  apply List.map_congr_left
  intro a _
  simp [Function.comp, Nat.add_comm, Nat.add_left_comm]

theorem bufBytes_of_buf {s t : State} (off n : Nat) (h : t.buf = s.buf) : bufBytes off n t = bufBytes off n s := by
  simp [bufBytes, bufRead, h]

theorem recvBlock_trace (off len : Nat) (s : State) (hw : Memory.wf s.buf.mem = true) :
    Appends s (recvBlock cfg off len s) (sending cfg.fillByte (bufBytes off len (recvBlock cfg off len s))) := by
  induction len generalizing off s with
  | zero => simp [recvBlock, bufBytes, Appends]
  | succ n ih =>
    unfold recvBlock
    have hw' : Memory.wf (bufWrite off (xchg cfg.fillByte s).1 (xchg cfg.fillByte s).2).buf.mem = true := memWrite_wf hw _ _
    have := ih (off + 1) _ hw'
    rw [bufBytes_succ, sending_cons]
    have hout : bufRead off (recvBlock cfg (off + 1) n (bufWrite off (xchg cfg.fillByte s).1 (xchg cfg.fillByte s).2)) =
      (xchg cfg.fillByte s).1 := by
      rw [(Runs.recvBlock (p := storesIn (off + 1) n) (off + 1) n (fun a h1 h2 => ⟨h1, h2⟩) .refl).bufOutside (by rintro ⟨h1, _⟩; omega)]
      rw [bufRead_bufWrite]
      · simp
      · exact hw
    rw [hout]
    exact Appends_trans (a := [_]) (t := bufWrite off (xchg cfg.fillByte s).1 (xchg cfg.fillByte s).2) (by simp [Appends]) this

/-- A received packet: the token test decides; on success the buffer holds the payload the wire carried. -/
theorem recvDataBlock_trace (off len : Nat) (s : State) (hw : Memory.wf s.buf.mem = true) :
    ∃ evs, Appends s (recvDataBlock cfg off len s).2 evs ∧
      RecvTrace cfg (if (recvDataBlock cfg off len s).1 then some (bufBytes off len (recvDataBlock cfg off len s).2) else none) evs := by
  obtain ⟨toks, ha, ht⟩ := tokenWait_trace cfg s
  unfold recvDataBlock
  split
  · rename_i h
    have hfe : (tokenWait cfg s).1 = 0xFE#8 := by simpa [isStartBlock, startBlockToken] using h
    have hbw : Memory.wf (tokenWait cfg s).2.buf.mem = true := (Runs.tokenWait (p := noStore) .refl).bufWf hw
    obtain ⟨crc, hl, hc⟩ := sendDummies_trace cfg 2 (recvBlock cfg off len (tokenWait cfg s).2)
    match crc, hl with
    | [c1, c2], _ =>
      refine ⟨_, Appends_trans (Appends_trans ha (recvBlock_trace cfg off len _ hbw)) hc, ?_⟩
      simp only [if_true, RecvTrace]
      refine ⟨toks, c1, c2, hfe ▸ ht, ?_⟩
      rw [bufBytes_of_buf off len (s := recvBlock cfg off len (tokenWait cfg s).2) (Runs.sendDummies (p := noStore) 2 .refl).sameBuf]
  · rename_i h
    have hne : (tokenWait cfg s).1 ≠ 0xFE#8 := by simpa [isStartBlock, startBlockToken] using h
    exact ⟨toks, ha, by simpa [RecvTrace] using ⟨_, hne, ht⟩⟩

theorem recvBytes_trace (n : Nat) (s : State) :
    (recvBytes cfg n s).1.length = n ∧ Appends s (recvBytes cfg n s).2 (sending cfg.fillByte (recvBytes cfg n s).1) := by
  induction n generalizing s with
  | zero => exact ⟨rfl, rfl⟩
  | succ n ih =>
    obtain ⟨h1, h2⟩ := ih (xchg cfg.fillByte s).2
    exact ⟨by simp only [recvBytes, List.length_cons, h1], Appends_trans (a := [_]) (appends_send cfg.fillByte s) h2⟩

/-- A register received into `CSDBUF`: 16 bytes, those the wire carried. -/
theorem recvRegister_trace (s : State) :
    ∃ evs, Appends s (recvRegister cfg s).2 evs ∧ RecvTrace cfg (recvRegister cfg s).1 evs ∧
      (∀ reg, (recvRegister cfg s).1 = some reg → reg.length = 16 ∧ (recvRegister cfg s).2.w.csdBuf = some reg) := by
  obtain ⟨toks, ha, ht⟩ := tokenWait_trace cfg s
  unfold recvRegister
  split
  · rename_i h
    have hfe : (tokenWait cfg s).1 = 0xFE#8 := by simpa [isStartBlock, startBlockToken] using h
    obtain ⟨hl, hb⟩ := recvBytes_trace cfg registerLength (tokenWait cfg s).2
    obtain ⟨crc, hcl, hc⟩ := sendDummies_trace cfg 2 (setCsdBuf (recvBytes cfg registerLength (tokenWait cfg s).2).1
      (recvBytes cfg registerLength (tokenWait cfg s).2).2)
    match crc, hcl with
    | [c1, c2], _ =>
      refine ⟨_, Appends_trans (Appends_trans ha (appends_of_wire hb rfl)) hc, ⟨toks, c1, c2, hfe ▸ ht, by simp⟩, ?_⟩
      intro reg hreg
      cases hreg
      exact ⟨hl, rfl⟩
  · rename_i h
    have hne : (tokenWait cfg s).1 ≠ 0xFE#8 := by simpa [isStartBlock, startBlockToken] using h
    exact ⟨toks, ha, ⟨_, hne, ht⟩, by simp⟩

theorem xmitBlock_trace (off len : Nat) (s : State) :
    ∃ evs, Appends s (xmitBlock off len s) evs ∧ Sends (bufBytes off len s) evs := by
  induction len generalizing off s with
  | zero => exact ⟨[], rfl, [], rfl, rfl⟩
  | succ n ih =>
    obtain ⟨evs, ha, hs⟩ := ih (off + 1) (send (bufRead off s) s)
    refine ⟨_, Appends_trans (appends_send (bufRead off s) s) ha, ?_⟩
    rw [bufBytes_succ]
    exact sends_append (sends_one _ _) (by rwa [bufBytes_of_buf (off + 1) n (s := s) (t := send (bufRead off s) s) rfl] at hs)

theorem dataResponse_trace (s : State) : ∃ d, Appends s (dataResponse cfg s).2 [.xchg cfg.dummyTx d] ∧
    (dataResponse cfg s).1 = (d &&& 0x1F#8 == cfg.acceptVal.setWidth 8) ∧ (dataResponse cfg s).2.w.dResp = some d :=
  ⟨nextRx cfg.dummyTx s, appends_of_wire (appends_send cfg.dummyTx s) rfl, rfl, rfl⟩

theorem xmitPayload_trace (off : Nat) (s : State) :
    ∃ body d, Appends s (xmitPayload cfg off s).2 (body ++ [.xchg cfg.dummyTx d]) ∧
      Sends (bufBytes off 512 s ++ [cfg.crcPlaceholderTx, cfg.crcPlaceholderTx]) body ∧
        (xmitPayload cfg off s).1 = (d &&& 0x1F#8 == cfg.acceptVal.setWidth 8) ∧
      (xmitPayload cfg off s).2.w.dResp = some d := by
  unfold xmitPayload
  obtain ⟨e1, h1, s1⟩ := xmitBlock_trace off sectorSize s
  obtain ⟨e2, h2, s2⟩ := sendAll_trace [cfg.crcPlaceholderTx, cfg.crcPlaceholderTx] (xmitBlock off sectorSize s)
  generalize sendAll [cfg.crcPlaceholderTx, cfg.crcPlaceholderTx] (xmitBlock off sectorSize s) = t at h2 ⊢
  obtain ⟨d, h3, hd, hr⟩ := dataResponse_trace cfg t
  exact ⟨e1 ++ e2, d, Appends_trans (Appends_trans h1 h2) h3, sends_append s1 s2, hd, hr⟩

/-- A transmitted packet. -/
theorem xmitDataBlock_trace (off : Nat) (token : Byte) (ht : token ≠ cfg.stopMultiToken) (s : State) :
    ∃ evs, Appends s (xmitDataBlock cfg off token s).2 evs ∧
      XmitTrace cfg token (bufBytes off 512 s) (xmitDataBlock cfg off token s).1 evs := by
  obtain ⟨polls, hp, hr⟩ := waitReady_trace cfg tReadyMs (setToken token s)
  have hbuf : (waitReady cfg tReadyMs (setToken token s)).2.buf = s.buf := (Runs.waitReady (p := noStore) _ .refl).sameBuf
  unfold xmitDataBlock
  dsimp only
  cases hok : (waitReady cfg tReadyMs (setToken token s)).1 with
  | true =>
    simp only [if_true, ht, if_false]
    obtain ⟨body, d, hb, hs, hres, _⟩ := xmitPayload_trace cfg off (send token (waitReady cfg tReadyMs (setToken token s)).2)
    refine ⟨_, Appends_trans (Appends_trans (appends_from_wire hp rfl) (appends_send token _)) hb,
      .inr ⟨polls, [.xchg token (nextRx token (waitReady cfg tReadyMs (setToken token s)).2)] ++ body, d, by simp, hok ▸ hr, ?_, hres⟩⟩
    rw [bufBytes_of_buf off 512 ((send_buf token _).trans hbuf)] at hs
    have := sends_append (sends_one token (nextRx token (waitReady cfg tReadyMs (setToken token s)).2)) hs
    rwa [← List.append_assoc] at this
  | false =>
    simp only [Bool.false_eq_true, if_false]
    exact ⟨polls, appends_from_wire hp rfl, .inl ⟨hok ▸ hr, rfl⟩⟩

/-- The stop token. -/
theorem stopToken_trace (off : Nat) (s : State) :
    ∃ evs, Appends s (xmitDataBlock cfg off cfg.stopMultiToken s).2 evs ∧
      StopTokenTrace cfg (xmitDataBlock cfg off cfg.stopMultiToken s).1 evs := by
  obtain ⟨polls, hp, hr⟩ := waitReady_trace cfg tReadyMs (setToken cfg.stopMultiToken s)
  unfold xmitDataBlock
  dsimp only
  cases hok : (waitReady cfg tReadyMs (setToken cfg.stopMultiToken s)).1 with
  | true =>
    simp only [if_true]
    exact ⟨_, Appends_trans (appends_from_wire hp rfl) (appends_send cfg.stopMultiToken _), .inr ⟨polls, _, rfl, hok ▸ hr, rfl⟩⟩
  | false =>
    simp only [Bool.false_eq_true, if_false]
    exact ⟨polls, appends_from_wire hp rfl, .inl ⟨hok ▸ hr, rfl⟩⟩

end Sys2Proof.Machine
end

