-- ==== Sys2Proof/Laws/Transactions.lean ====
section
/-! SUPPORT. The trace law of every transaction of a command with what follows its response, and of the stages of `initialize`. -/

namespace Sys2Proof.Machine

open Sys2Proof.Safety

variable (cfg : Params)

theorem accepted_iff (r : Byte) : r1Accepted r = true ↔ r = 0x00#8 := by simp [r1Accepted]
theorem idle_iff (r : Byte) : r1Idle r = true ↔ r = 0x01#8 := by simp [r1Idle]

theorem recvTransaction_trace (c : Command) (len : Nat) (hc : isStop cfg c = false) (ha : c.acmd = false) (s : State)
    (hw : Memory.wf s.buf.mem = true) :
    ∃ evs, Appends s (recvTransaction cfg c len s).2 evs ∧
      CmdRecvTrace cfg (frameBytes cfg c.op c.arg)
        (if (recvTransaction cfg c len s).1 then some (bufBytes 0 len (recvTransaction cfg c len s).2) else none) evs := by
  obtain ⟨cmd, h1, t1⟩ := sendCmd_trace cfg c hc ha s
  unfold recvTransaction
  by_cases h : r1Accepted (sendCmd cfg c s).1
  · simp only [h, if_true]
    obtain ⟨pkt, h2, t2⟩ := recvDataBlock_trace cfg 0 len (sendCmd cfg c s).2 ((Runs.sendCmd (p := noStore) c .refl).bufWf hw)
    exact ⟨_, Appends_trans h1 h2, .inr ⟨cmd, pkt, rfl, (accepted_iff _).1 h ▸ t1, t2⟩⟩
  · simp only [h]
    exact ⟨cmd, h1, .inl ⟨_, fun e => h ((accepted_iff _).2 e), t1, rfl⟩⟩

theorem csdTransaction_trace (hcfg : cfg.wf = true) (s : State) :
    ∃ evs, Appends s (csdTransaction cfg s).2 evs ∧
      CmdRecvTrace cfg (frameBytes cfg cfg.opSendCsd 0#32) (csdTransaction cfg s).1 evs ∧
      ∀ reg, (csdTransaction cfg s).1 = some reg → reg.length = 16 ∧ (csdTransaction cfg s).2.w.csdBuf = some reg := by
  obtain ⟨cmd, h1, t1⟩ := sendCmd_trace cfg (sendCsd cfg) (isStop_sendCsd hcfg) rfl s
  have hf : frameBytes cfg (sendCsd cfg).op (sendCsd cfg).arg = (frameBytes cfg cfg.opSendCsd 0#32) := rfl
  rw [hf] at t1
  unfold csdTransaction
  by_cases h : r1Accepted (sendCmd cfg (sendCsd cfg) s).1
  · simp only [h, if_true]
    obtain ⟨pkt, h2, t2, hl⟩ := recvRegister_trace cfg (sendCmd cfg (sendCsd cfg) s).2
    exact ⟨_, Appends_trans h1 h2, .inr ⟨cmd, pkt, rfl, (accepted_iff _).1 h ▸ t1, t2⟩, hl⟩
  · simp only [h]
    exact ⟨cmd, h1, .inl ⟨_, fun e => h ((accepted_iff _).2 e), t1, rfl⟩, by simp⟩

theorem sdStatusTransaction_trace (hcfg : cfg.wf = true) (s : State) (hw : Memory.wf s.buf.mem = true) :
    ∃ evs, Appends s (sdStatusTransaction cfg s).2 evs ∧
      SdStatusTrace cfg (if (sdStatusTransaction cfg s).1 then some (bufBytes 0 64 (sdStatusTransaction cfg s).2) else none) evs := by
  obtain ⟨cmd, h1, t1⟩ := sendCmd_app_trace cfg hcfg (sdStatus cfg) (isStop_sdStatus hcfg) rfl s
  have hf : frameBytes cfg (sdStatus cfg).op (sdStatus cfg).arg = (frameBytes cfg cfg.opSdStatus 0#32) := rfl
  rw [hf] at t1
  unfold sdStatusTransaction
  by_cases h : r1Accepted (sendCmd cfg (sdStatus cfg) s).1
  · simp only [h, if_true]
    obtain ⟨pkt, h2, t2⟩ := recvDataBlock_trace cfg 0 sdStatusLength (send cfg.dummyTx (sendCmd cfg (sdStatus cfg) s).2)
      (((Runs.sendCmd (p := noStore) (sdStatus cfg) .refl).xchg _).bufWf hw)
    exact ⟨_, Appends_trans (Appends_trans h1 (appends_send cfg.dummyTx _)) h2,
      .inr ⟨cmd, _, pkt, rfl, (accepted_iff _).1 h ▸ t1, t2⟩⟩
  · simp only [h]
    exact ⟨cmd, h1, .inl ⟨_, fun e => h ((accepted_iff _).2 e), t1, rfl⟩⟩

/-- The head of the SD status into `CSDBUF` and the purge of the rest. -/
theorem sdStatusHeadTransaction_trace (hcfg : cfg.wf = true) (s : State) :
    ∃ evs, Appends s (sdStatusHeadTransaction cfg s).2 evs ∧
      SdStatusHeadTrace cfg (sdStatusHeadTransaction cfg s).1 evs ∧
      ∀ reg, (sdStatusHeadTransaction cfg s).1 = some reg → reg.length = 16 ∧ (sdStatusHeadTransaction cfg s).2.w.csdBuf = some reg := by
  obtain ⟨cmd, h1, t1⟩ := sendCmd_app_trace cfg hcfg (sdStatus cfg) (isStop_sdStatus hcfg) rfl s
  have hf : frameBytes cfg (sdStatus cfg).op (sdStatus cfg).arg = (frameBytes cfg cfg.opSdStatus 0#32) := rfl
  rw [hf] at t1
  unfold sdStatusHeadTransaction
  by_cases h : r1Accepted (sendCmd cfg (sdStatus cfg) s).1
  · simp only [h, if_true]
    obtain ⟨pkt, h2, t2, hl⟩ := recvRegister_trace cfg (send cfg.dummyTx (sendCmd cfg (sdStatus cfg) s).2)
    have h12 := Appends_trans (Appends_trans h1 (appends_send cfg.dummyTx _)) h2
    cases hr : (recvRegister cfg (send cfg.dummyTx (sendCmd cfg (sdStatus cfg) s).2)).1 with
    | none =>
      exact ⟨_, h12, .inr (.inl ⟨cmd, _, pkt, rfl, (accepted_iff _).1 h ▸ t1, hr ▸ t2, rfl⟩), by simp⟩
    | some reg =>
      obtain ⟨rxs, hlen, hp⟩ := sendDummies_trace cfg sdStatusPurge (recvRegister cfg (send cfg.dummyTx (sendCmd cfg (sdStatus cfg) s).2)).2
      refine ⟨_, Appends_trans h12 hp, .inr (.inr ⟨cmd, _, pkt, reg, rxs, rfl, (accepted_iff _).1 h ▸ t1, hr ▸ t2, hlen, rfl⟩), ?_⟩
      intro reg' hreg
      cases hreg
      refine ⟨(hl reg hr).1, ?_⟩
      have hw : ∀ (l : List Byte) (t : State), (sendAll l t).w = t.w := by
        intro l; induction l with
        | nil => exact fun _ => rfl
        | cons b rest ih => intro t; exact ih (send b t)
      exact (congrArg Working.csdBuf (hw _ _)).trans (hl reg hr).2
  · simp only [h]
    exact ⟨cmd, h1, .inl ⟨_, fun e => h ((accepted_iff _).2 e), t1, rfl⟩, by simp⟩

theorem trailing_of_word (s : State) : ∃ b0 b1 b2 b3 : Byte, (readTrailing cfg s).1 = bytesWord b0 b1 b2 b3 ∧
    Appends s (readTrailing cfg s).2 (sending cfg.dummyTx [b0, b1, b2, b3]) :=
  let ⟨b0, b1, b2, b3, h, _, ha⟩ := readTrailing_trace cfg s
  ⟨b0, b1, b2, b3, h, ha⟩

theorem ocrTransaction_trace (hcfg : cfg.wf = true) (s : State) :
    ∃ evs trailing, Appends s (ocrTransaction cfg s).2 evs ∧
      TrailingTrace cfg (frameBytes cfg opReadOcr 0#32) 0x00#8 trailing evs ∧
      match trailing with
      | some [b0, b1, b2, b3] => (ocrTransaction cfg s).1 = some (bytesWord b0 b1 b2 b3)
      | _ => trailing = none ∧ (ocrTransaction cfg s).1 = none := by
  obtain ⟨cmd, h1, t1⟩ := sendCmd_trace cfg readOcr (isStop_readOcr hcfg) rfl s
  have hf : frameBytes cfg readOcr.op readOcr.arg = (frameBytes cfg opReadOcr 0#32) := rfl
  rw [hf] at t1
  unfold ocrTransaction
  by_cases h : r1Accepted (sendCmd cfg readOcr s).1
  · simp only [h, if_true]
    obtain ⟨b0, b1, b2, b3, hw, ha⟩ := trailing_of_word cfg (sendCmd cfg readOcr s).2
    exact ⟨_, some [b0, b1, b2, b3], Appends_trans h1 ha,
      .inr ⟨cmd, b0, b1, b2, b3, rfl, (accepted_iff _).1 h ▸ t1, rfl⟩, congrArg some hw⟩
  · simp only [h]
    exact ⟨cmd, none, h1, .inl ⟨_, fun e => h ((accepted_iff _).2 e), t1, rfl⟩, rfl, rfl⟩

theorem writeSingleTransaction_trace (hcfg : cfg.wf = true) (addr : Word) (s : State) :
    ∃ evs, Appends s (writeSingleTransaction cfg addr s).2 evs ∧
      CmdXmitTrace cfg (frameBytes cfg cfg.opWriteBlock addr) (bufBytes 0 512 s) (writeSingleTransaction cfg addr s).1 evs := by
  obtain ⟨cmd, h1, t1⟩ := sendCmd_trace cfg (writeBlock cfg addr) (isStop_writeBlock hcfg _) rfl s
  unfold writeSingleTransaction
  by_cases h : r1Accepted (sendCmd cfg (writeBlock cfg addr) s).1
  · simp only [h, if_true]
    obtain ⟨pkt, h2, t2⟩ := xmitDataBlock_trace cfg 0 startBlockToken (startBlock_ne_stop hcfg) (sendCmd cfg (writeBlock cfg addr) s).2
    rw [bufBytes_of_buf 0 512 (Runs.sendCmd (p := noStore) (writeBlock cfg addr) .refl).sameBuf] at t2
    exact ⟨_, Appends_trans h1 h2, .inr ⟨cmd, pkt, rfl, (accepted_iff _).1 h ▸ t1, t2⟩⟩
  · simp only [h]
    exact ⟨cmd, h1, .inl ⟨_, fun e => h ((accepted_iff _).2 e), t1, rfl⟩⟩

theorem eraseTransaction_trace (hcfg : cfg.wf = true) (s : State) :
    ∃ evs, Appends s (eraseTransaction cfg s).2 evs ∧ EraseTrace cfg (eraseTransaction cfg s).1 evs := by
  obtain ⟨cmd, h1, t1⟩ := sendCmd_trace cfg (eraseExecute cfg) (isStop_eraseExecute hcfg) rfl s
  have hf : frameBytes cfg (eraseExecute cfg).op (eraseExecute cfg).arg = (frameBytes cfg cfg.opErase 0#32) := rfl
  rw [hf] at t1
  unfold eraseTransaction
  by_cases h : r1Accepted (sendCmd cfg (eraseExecute cfg) s).1
  · simp only [h, if_true]
    obtain ⟨polls, h2, t2⟩ := waitReady_trace cfg tEraseMs (sendCmd cfg (eraseExecute cfg) s).2
    exact ⟨_, Appends_trans h1 h2, .inr ⟨cmd, polls, rfl, (accepted_iff _).1 h ▸ t1, t2⟩⟩
  · simp only [h]
    exact ⟨cmd, h1, .inl ⟨_, fun e => h ((accepted_iff _).2 e), t1, rfl⟩⟩

/-! ### The sector loops -/

theorem bufBytes_length (off len : Nat) (s : State) : (bufBytes off len s).length = len := by simp [bufBytes]

theorem bufBytes_add (off a b : Nat) (s : State) : bufBytes off (a + b) s = bufBytes off a s ++ bufBytes (off + a) b s := by
  induction a generalizing off with
  | zero => simp [bufBytes]
  | succ a ih =>
    rw [Nat.succ_add, bufBytes_succ, bufBytes_succ, ih (off + 1)]
    simp [Nat.add_assoc, Nat.add_comm 1 a]

theorem bufBytes_congr (off len : Nat) {s t : State} (h : ∀ a, off ≤ a → a < off + len → bufRead a t = bufRead a s) :
    bufBytes off len t = bufBytes off len s := by
  simp only [bufBytes]
  apply List.map_congr_left
  intro i hi
  have := List.mem_range.1 hi
  exact h _ (by omega) (by omega)

theorem waitReadyLoop_count (ms k : Nat) (s : State) : (waitReadyLoop cfg ms k s).2.w.count = s.w.count := by
  induction k generalizing s with
  | zero => rfl
  | succ k ih => unfold waitReadyLoop; split; · rfl
                 · rw [ih]; rfl

theorem waitReady_count (ms : Nat) (s : State) : (waitReady cfg ms s).2.w.count = s.w.count := waitReadyLoop_count cfg _ _ _

theorem tokenWaitLoop_count (ms k : Nat) (s : State) : (tokenWaitLoop cfg ms k s).2.w.count = s.w.count := by
  induction k generalizing s with
  | zero => rfl
  | succ k ih => unfold tokenWaitLoop; split; · rw [ih]; rfl
                 · rfl

theorem sendAll_w (bytes : List Byte) (s : State) : (sendAll bytes s).w = s.w := by
  induction bytes generalizing s with
  | nil => rfl
  | cons b rest ih => exact ih (send b s)

theorem recvBlock_w (off n : Nat) (s : State) : (recvBlock cfg off n s).w = s.w := by
  induction n generalizing off s with
  | zero => rfl
  | succ n ih => exact ih (off + 1) _

theorem xmitBlock_w (off n : Nat) (s : State) : (xmitBlock off n s).w = s.w := by
  induction n generalizing off s with
  | zero => rfl
  | succ n ih => exact ih (off + 1) _

theorem recvDataBlock_count (off len : Nat) (s : State) : (recvDataBlock cfg off len s).2.w.count = s.w.count := by
  have ht : (tokenWait cfg s).2.w.count = s.w.count := tokenWaitLoop_count cfg _ _ _
  unfold recvDataBlock
  split
  · rw [show ((true, sendDummies cfg 2 (recvBlock cfg off len (tokenWait cfg s).2)) : Bool × State).2.w = (tokenWait cfg s).2.w from
      (sendAll_w _ _).trans (recvBlock_w cfg _ _ _)]
    exact ht
  · exact ht

/-- The receive loop: the payloads it received stand in `BUF` one after the other, and `COUNT` holds what is left. -/
theorem recvSectors_trace (n off : Nat) (s : State) (hw : Memory.wf s.buf.mem = true) (hn : s.w.count = some (Fin.ofNat 129 n)) :
    ∃ evs payloads, Appends s (recvSectors cfg n off s) evs ∧ RecvSectorsTrace cfg n payloads evs ∧
      payloads.length ≤ n ∧ (∀ p ∈ payloads, p.length = 512) ∧
      bufBytes off (512 * payloads.length) (recvSectors cfg n off s) = payloads.flatten ∧
      Runs cfg (storesIn off (512 * payloads.length)) s (recvSectors cfg n off s) ∧
      (recvSectors cfg n off s).w.count = some (Fin.ofNat 129 (n - payloads.length)) := by
  induction n generalizing off s with
  | zero => exact ⟨[], [], rfl, ⟨rfl, rfl⟩, by simp, by simp, by simp [bufBytes], .refl, hn⟩
  | succ n ih =>
    obtain ⟨pkt, h1, t1⟩ := recvDataBlock_trace cfg off sectorSize s hw
    unfold recvSectors
    by_cases h : (recvDataBlock cfg off sectorSize s).1
    · simp only [h, if_true] at t1 ⊢
      have hr : Runs cfg (storesIn off sectorSize) s (recvDataBlock cfg off sectorSize s).2 :=
        Runs.recvDataBlock off sectorSize (fun a h1 h2 => ⟨h1, h2⟩) .refl
      set u := setCount n (setOff (off + sectorSize) (recvDataBlock cfg off sectorSize s).2) with hu
      have hru : Runs cfg (storesIn off sectorSize) s u := (hr.registers _).registers _
      obtain ⟨more, payloads, h2, t2, hl, hp, hb, hrun, hc⟩ := ih (off + sectorSize) u (hru.bufWf hw) rfl
      have hpay : bufBytes off sectorSize (recvSectors cfg n (off + sectorSize) u) = bufBytes off sectorSize
        (recvDataBlock cfg off sectorSize s).2 := by
        have h0 : bufBytes off sectorSize u = bufBytes off sectorSize (recvDataBlock cfg off sectorSize s).2 := bufBytes_of_buf _ _ rfl
        rw [← h0]
        exact bufBytes_congr off sectorSize fun a h3 h4 => hrun.bufOutside (by rintro ⟨h5, _⟩; omega)
      have hlen : (bufBytes off sectorSize (recvDataBlock cfg off sectorSize s).2).length = sectorSize := bufBytes_length _ _ _
      generalize bufBytes off sectorSize (recvDataBlock cfg off sectorSize s).2 = pay at t1 hpay hlen
      have hcount : 512 * (pay :: payloads).length = sectorSize + 512 * payloads.length := by
        rw [List.length_cons, Nat.mul_succ, Nat.add_comm]; rfl
      refine ⟨pkt ++ more, pay :: payloads,
        Appends_trans h1 (appends_from_wire h2 rfl), ⟨pkt, more, rfl, t1, t2⟩, by simpa using hl, ?_, ?_, ?_, by simpa using hc⟩
      · intro p hmem
        rcases List.mem_cons.1 hmem with rfl | hmem
        · exact hlen
        · exact hp p hmem
      · rw [hcount, bufBytes_add, hpay, List.flatten_cons, hb]
      · rw [hcount]
        exact Runs.trans (hru.mono fun a ha => ⟨ha.1, by have := ha.2; omega⟩)
          (hrun.mono fun a ha => ⟨by have := ha.1; omega, by have := ha.2; omega⟩)
    · have h' : (recvDataBlock cfg off sectorSize s).1 = false := by simpa using h
      rw [h'] at t1 ⊢
      simp only [Bool.false_eq_true, if_false] at t1 ⊢
      refine ⟨pkt, [], h1, t1, by simp, by simp, by simp [bufBytes], ?_, ?_⟩
      · have : (recvDataBlock cfg off sectorSize s).2 = (tokenWait cfg s).2 := by
          unfold recvDataBlock at h' ⊢; split at h' <;> simp_all
        rw [this]; exact Runs.tokenWait .refl
      · rw [recvDataBlock_count cfg]; simpa using hn

theorem sendOne_count (c : Command) (s : State) : (sendOne cfg c s).2.w.count = s.w.count := by
  have hp : ∀ (n : Nat) (t : State), (pollR1Loop cfg n t).2.w.count = t.w.count := by
    intro n
    induction n with
    | zero => intro t; rfl
    | succ n ih => intro t; unfold pollR1Loop; split; · rfl
                   · rw [ih]; rfl
  have hpoll : ∀ t : State, (pollR1 cfg t).2.w.count = t.w.count := fun t => hp _ _
  have hframe : ∀ t : State, (sendFrame cfg c t).w.count = t.w.count := fun t => congrArg Working.count (sendAll_w _ t)
  have hsel : ∀ t : State, (select cfg t).2.w.count = t.w.count := fun t => waitReady_count cfg _ _
  unfold sendOne
  split
  · rw [hpoll]; exact hframe _
  · split
    · rw [hpoll, hframe, hsel]; rfl
    · exact hsel _

theorem sendCmd_count (c : Command) (s : State) : (sendCmd cfg c s).2.w.count = s.w.count := by
  have happ : (sendApp cfg c s).2.w.count = s.w.count := by
    unfold sendApp
    split
    · exact sendOne_count cfg _ _
    · exact (sendOne_count cfg _ _).trans (sendOne_count cfg _ _)
  unfold sendCmd
  split
  · exact happ
  · exact sendOne_count cfg _ _

/-- `CMD18` with its loop and its stop command. `COUNT` ends 0 exactly when every sector came (`count` of 1 to 128). -/
theorem readMultiTransaction_trace (hcfg : cfg.wf = true) (addr : Word) (n : Nat) (s : State) (hw : Memory.wf s.buf.mem = true)
    (hn : s.w.count = some (Fin.ofNat 129 n)) :
    ∃ evs payloads, Appends s (readMultiTransaction cfg addr n s) evs ∧
      ReadMultiTrace cfg (frameBytes cfg cfg.opReadMultipleBlock addr) n payloads evs ∧
      payloads.length ≤ n ∧ (∀ p ∈ payloads, p.length = 512) ∧
      bufBytes 0 (512 * payloads.length) (readMultiTransaction cfg addr n s) = payloads.flatten ∧
      Runs cfg (storesIn 0 (512 * payloads.length)) s (readMultiTransaction cfg addr n s) ∧
      (readMultiTransaction cfg addr n s).w.count = some (Fin.ofNat 129 (n - payloads.length)) := by
  obtain ⟨cmd, h1, t1⟩ := sendCmd_trace cfg (readMultipleBlock cfg addr) (isStop_readMultipleBlock hcfg _) rfl s
  have hr1 : Runs cfg noStore s (sendCmd cfg (readMultipleBlock cfg addr) s).2 := Runs.sendCmd _ .refl
  unfold readMultiTransaction
  by_cases h : r1Accepted (sendCmd cfg (readMultipleBlock cfg addr) s).1
  · simp only [h, if_true]
    have hc0 : (setOff 0 (sendCmd cfg (readMultipleBlock cfg addr) s).2).w.count = some (Fin.ofNat 129 n) :=
      (sendCmd_count cfg _ _).trans hn
    obtain ⟨sectors, payloads, h2, t2, hl, hp, hb, hrun, hc⟩ :=
      recvSectors_trace cfg n 0 (setOff 0 (sendCmd cfg (readMultipleBlock cfg addr) s).2) (hr1.bufWf hw) hc0
    obtain ⟨stop, h3, t3⟩ := sendCmd_stop_trace cfg (recvSectors cfg n 0 (setOff 0 (sendCmd cfg (readMultipleBlock cfg addr) s).2))
    refine ⟨_, payloads, Appends_trans (Appends_trans h1 (appends_from_wire h2 rfl)) h3,
      .inr ⟨cmd, sectors, stop, _, rfl, (accepted_iff _).1 h ▸ t1, t2, t3⟩, hl, hp, ?_, ?_, ?_⟩
    · rw [bufBytes_of_buf _ _ (Runs.sendCmd (p := noStore) (stopTransmission cfg) .refl).sameBuf]; exact hb
    · exact ((hr1.ofNone.registers _).trans hrun).sendCmd _
    · rw [sendCmd_count cfg]; exact hc
  · simp only [h]
    refine ⟨cmd, [], h1, .inl ⟨_, fun e => h ((accepted_iff _).2 e), t1, rfl⟩, by simp, by simp, by simp [bufBytes], hr1.ofNone, ?_⟩
    simpa using (sendCmd_count cfg (readMultipleBlock cfg addr) s).trans hn

theorem xmitPayload_count (off : Nat) (s : State) : (xmitPayload cfg off s).2.w.count = s.w.count := by
  have h : (xmitPayload cfg off s).2.w.count = (sendAll [cfg.crcPlaceholderTx,
    cfg.crcPlaceholderTx] (xmitBlock off sectorSize s)).w.count := by
    unfold xmitPayload
    generalize sendAll [cfg.crcPlaceholderTx, cfg.crcPlaceholderTx] (xmitBlock off sectorSize s) = t
    rfl
  rw [h, sendAll_w, xmitBlock_w]

theorem xmitDataBlock_count (off : Nat) (token : Byte) (s : State) : (xmitDataBlock cfg off token s).2.w.count = s.w.count := by
  have hr : (waitReady cfg tReadyMs (setToken token s)).2.w.count = s.w.count := waitReady_count cfg _ _
  unfold xmitDataBlock
  dsimp only
  split
  · split
    · exact hr
    · exact (xmitPayload_count cfg _ _).trans hr
  · exact hr

theorem XmitSectorsTrace_congr {s u : State} (h : u.buf = s.buf) (n off k : Nat) (evs : List WireEvent)
    (g : XmitSectorsTrace cfg u n off k evs) : XmitSectorsTrace cfg s n off k evs := by
  induction n generalizing off k evs with
  | zero => exact g
  | succ n ih =>
    cases k with
    | zero => simp only [XmitSectorsTrace] at g ⊢; rwa [bufBytes_of_buf off 512 h] at g
    | succ k =>
      simp only [XmitSectorsTrace] at g ⊢
      obtain ⟨pkt, more, he, hx, hm⟩ := g
      rw [bufBytes_of_buf off 512 h] at hx
      exact ⟨pkt, more, he, hx, ih _ _ _ hm⟩

/-- The transmit loop: `COUNT` holds the sectors not accepted. -/
theorem xmitSectors_trace (hcfg : cfg.wf = true) (n off : Nat) (s : State) (hn : s.w.count = some (Fin.ofNat 129 n)) :
    ∃ evs k, Appends s (xmitSectors cfg n off s) evs ∧ XmitSectorsTrace cfg s n off k evs ∧ k ≤ n ∧
      (xmitSectors cfg n off s).w.count = some (Fin.ofNat 129 (n - k)) := by
  induction n generalizing off s with
  | zero => exact ⟨[], 0, rfl, ⟨rfl, rfl⟩, by simp, hn⟩
  | succ n ih =>
    obtain ⟨pkt, h1, t1⟩ := xmitDataBlock_trace cfg off cfg.startMultiToken (startMulti_ne_stop hcfg) s
    unfold xmitSectors
    by_cases h : (xmitDataBlock cfg off cfg.startMultiToken s).1
    · simp only [h, if_true] at t1 ⊢
      have hb : (xmitDataBlock cfg off cfg.startMultiToken s).2.buf = s.buf := (Runs.xmitDataBlock (p := noStore) _ _ .refl).sameBuf
      set u := setCount n (setOff (off + sectorSize) (xmitDataBlock cfg off cfg.startMultiToken s).2) with hu
      obtain ⟨more, k, h2, t2, hk, hc⟩ := ih (off + sectorSize) u rfl
      refine ⟨pkt ++ more, k + 1, Appends_trans h1 (appends_from_wire h2 rfl), ?_, by omega, ?_⟩
      · rw [XmitSectorsTrace]
        exact ⟨pkt, more, rfl, t1, XmitSectorsTrace_congr cfg (u := u) hb _ _ _ _ t2⟩
      · rw [hc]; congr 2; omega
    · have h' : (xmitDataBlock cfg off cfg.startMultiToken s).1 = false := by simpa using h
      rw [h'] at t1 ⊢
      simp only [Bool.false_eq_true, if_false]
      refine ⟨pkt, 0, h1, ?_, by simp, ?_⟩
      · rw [XmitSectorsTrace]; exact t1
      · rw [xmitDataBlock_count cfg]; simpa using hn

/-- `CMD25` with its loop and its stop token. `COUNT` ends 0 exactly on success (`count` of 1 to 128). -/
theorem writeMultiTransaction_trace (hcfg : cfg.wf = true) (addr : Word) (n : Nat) (s : State) (hn : s.w.count = some (Fin.ofNat 129 n))
    (hn128 : n ≤ 128) :
    ∃ evs ok, Appends s (writeMultiTransaction cfg addr n s) evs ∧
      WriteMultiTrace cfg s (frameBytes cfg cfg.opWriteMultipleBlock addr) n ok evs ∧
      (1 ≤ n → ((writeMultiTransaction cfg addr n s).w.count = some 0 ↔ ok = true)) := by
  have hne : ∀ m : Nat, 1 ≤ m → m ≤ 128 → Fin.ofNat 129 m ≠ 0 := by
    intro m h1 h2 h
    have := congrArg Fin.val h
    simp only [Fin.val_ofNat, Fin.val_zero] at this; omega
  obtain ⟨cmd, h1, t1⟩ := sendCmd_trace cfg (writeMultipleBlock cfg addr) (isStop_writeMultipleBlock hcfg _) rfl s
  unfold writeMultiTransaction
  by_cases h : r1Accepted (sendCmd cfg (writeMultipleBlock cfg addr) s).1
  · simp only [h, if_true]
    have hc0 : (setOff 0 (sendCmd cfg (writeMultipleBlock cfg addr) s).2).w.count = some (Fin.ofNat 129 n) :=
      (sendCmd_count cfg _ _).trans hn
    obtain ⟨sectors, k, h2, t2, hk, hc⟩ := xmitSectors_trace cfg hcfg n 0 (setOff 0 (sendCmd cfg (writeMultipleBlock cfg addr) s).2) hc0
    have hb : (setOff 0 (sendCmd cfg (writeMultipleBlock cfg addr) s).2).buf = s.buf := (Runs.sendCmd (p := noStore) _ .refl).sameBuf
    obtain ⟨stop, h3, t3⟩ := stopToken_trace cfg 0 (xmitSectors cfg n 0 (setOff 0 (sendCmd cfg (writeMultipleBlock cfg addr) s).2))
    have h12 := Appends_trans h1 (appends_from_wire h2 rfl)
    have hcx := (xmitDataBlock_count cfg 0 cfg.stopMultiToken (xmitSectors cfg n 0 (setOff 0 (sendCmd cfg
      (writeMultipleBlock cfg addr) s).2))).trans hc
    unfold closeWriteStream
    cases hs : (xmitDataBlock cfg 0 cfg.stopMultiToken (xmitSectors cfg n 0 (setOff 0 (sendCmd cfg
      (writeMultipleBlock cfg addr) s).2))).1 with
    | true =>
      simp only [if_true]
      refine ⟨_, decide (k = n) && true, Appends_trans h12 h3, .inr ⟨cmd, sectors, stop, k, true, rfl, (accepted_iff _).1 h ▸ t1,
        XmitSectorsTrace_congr cfg hb _ _ _ _ t2, hs ▸ t3, rfl⟩, ?_⟩
      intro _
      rw [hcx]
      by_cases hkn : k = n
      · simp [hkn]
      · simpa [hkn] using hne (n - k) (by omega) (by omega)
    | false =>
      simp only [Bool.false_eq_true, if_false]
      refine ⟨_, decide (k = n) && false, Appends_trans h12 (appends_of_wire h3 rfl), .inr ⟨cmd, sectors, stop, k, false, rfl,
        (accepted_iff _).1 h ▸ t1,
        XmitSectorsTrace_congr cfg hb _ _ _ _ t2, hs ▸ t3, rfl⟩, ?_⟩
      intro _
      simp [setCount]
  · simp only [h]
    refine ⟨cmd, false, h1, .inl ⟨_, fun e => h ((accepted_iff _).2 e), t1, rfl⟩, ?_⟩
    intro h1n
    simp only [Bool.false_eq_true, if_false, iff_false]
    rw [sendCmd_count cfg, hn]
    exact fun e => hne n h1n hn128 (Option.some.inj e)

theorem eraseRange_trace (hcfg : cfg.wf = true) (first last : Word) (s : State) :
    ∃ evs, Appends s (eraseRange cfg first last s).2 evs ∧ EraseRangeTrace cfg first last (eraseRange cfg first last s).1 evs := by
  obtain ⟨a, h1, t1⟩ := sendCmd_trace cfg (eraseWrBlkStart cfg first) (isStop_eraseWrBlkStart hcfg _) rfl (setAddr last (setAddr first s))
  have h1' := appends_from_wire (s := s) h1 rfl
  unfold eraseRange
  dsimp only
  by_cases h : r1Accepted (sendCmd cfg (eraseWrBlkStart cfg first) (setAddr last (setAddr first s))).1
  · simp only [h, if_true]
    obtain ⟨c, h2, t2⟩ := sendCmd_trace cfg (eraseWrBlkEnd cfg last) (isStop_eraseWrBlkEnd hcfg _) rfl (sendCmd cfg
      (eraseWrBlkStart cfg first) (setAddr last (setAddr first s))).2
    by_cases g : r1Accepted (sendCmd cfg (eraseWrBlkEnd cfg last) (sendCmd cfg (eraseWrBlkStart cfg first) (setAddr last
      (setAddr first s))).2).1
    · simp only [g, if_true]
      obtain ⟨d, h3, t3⟩ := eraseTransaction_trace cfg hcfg (sendCmd cfg (eraseWrBlkEnd cfg last) (sendCmd cfg
        (eraseWrBlkStart cfg first) (setAddr last (setAddr first s))).2).2
      exact ⟨_, Appends_trans h1' (Appends_trans h2 h3), .inr ⟨a, _, rfl, (accepted_iff _).1 h ▸ t1,
        .inr ⟨c, d, rfl, (accepted_iff _).1 g ▸ t2, t3⟩⟩⟩
    · simp only [g]
      exact ⟨_, Appends_trans h1' h2, .inr ⟨a, c, rfl, (accepted_iff _).1 h ▸ t1,
        .inl ⟨_, fun e => g ((accepted_iff _).2 e), t2, rfl⟩⟩⟩
  · simp only [h]
    exact ⟨a, h1', .inl ⟨_, fun e => h ((accepted_iff _).2 e), t1, rfl⟩⟩

theorem trimSequence_trace (hcfg : cfg.wf = true) (pair : Word × Word) (s : State) :
    ∃ evs, Appends s (trimSequence cfg pair s).2 evs ∧ TrimTrace cfg s.type pair (trimSequence cfg pair s).1 evs := by
  unfold trimSequence TrimTrace CardType.isSdc
  by_cases h : (s.type.sdV1 || s.type.sdV2) = true
  · simp only [h, if_true]
    obtain ⟨cmd, h1, t1, hl⟩ := csdTransaction_trace cfg hcfg s
    cases hc : (csdTransaction cfg s).1 with
    | none => exact ⟨cmd, h1, none, cmd, [], by simp, hc ▸ t1, rfl, rfl⟩
    | some csd =>
      by_cases he : eraseEnabled cfg csd = true
      · simp only [he, if_true]
        obtain ⟨rest, h2, t2⟩ := eraseRange_trace cfg hcfg (convertAddress s.type pair.1) (convertAddress s.type pair.2)
          (csdTransaction cfg s).2
        refine ⟨_, Appends_trans h1 h2, some csd, cmd, rest, rfl, hc ▸ t1, (hl csd hc).1, ?_⟩
        simp only [he, if_true]
        exact t2
      · simp only [he]
        exact ⟨cmd, h1, some csd, cmd, [], by simp, hc ▸ t1, (hl csd hc).1, by simp [he]⟩
  · simp only [h]
    exact ⟨[], rfl, rfl, rfl⟩

end Sys2Proof.Machine
end

