-- ==== Sys2Proof/Laws/Working.lean ====
section
/-! SUPPORT. Which working registers each shared operation writes. -/

namespace Sys2Proof.Safety

open Sys2Proof.Machine

namespace SameWorkingBut

theorem ofEq {named : List WorkingRegister} {s t : State} (h : t.w = s.w) : SameWorkingBut named s t := by
  constructor <;> intro _ <;> rw [h]

theorem trans {named : List WorkingRegister} {s t u : State} (h : SameWorkingBut named s t) (g : SameWorkingBut named t u) :
    SameWorkingBut named s u where
  cmd m := (g.cmd m).trans (h.cmd m)
  r1 m := (g.r1 m).trans (h.r1 m)
  nPoll m := (g.nPoll m).trans (h.nPoll m)
  resp4 m := (g.resp4 m).trans (h.resp4 m)
  token m := (g.token m).trans (h.token m)
  dResp m := (g.dResp m).trans (h.dResp m)
  count m := (g.count m).trans (h.count m)
  addr m := (g.addr m).trans (h.addr m)
  off m := (g.off m).trans (h.off m)
  ty m := (g.ty m).trans (h.ty m)
  initCmd m := (g.initCmd m).trans (h.initCmd m)
  dNeg m := (g.dNeg m).trans (h.dNeg m)
  dPoll m := (g.dPoll m).trans (h.dPoll m)
  csdBuf m := (g.csdBuf m).trans (h.csdBuf m)
  r m := (g.r m).trans (h.r m)
  ok m := (g.ok m).trans (h.ok m)

theorem mono {named more : List WorkingRegister} {s t : State} (h : SameWorkingBut named s t) (sub : named ⊆ more) :
    SameWorkingBut more s t where
  cmd m := h.cmd fun e => m (sub e)
  r1 m := h.r1 fun e => m (sub e)
  nPoll m := h.nPoll fun e => m (sub e)
  resp4 m := h.resp4 fun e => m (sub e)
  token m := h.token fun e => m (sub e)
  dResp m := h.dResp fun e => m (sub e)
  count m := h.count fun e => m (sub e)
  addr m := h.addr fun e => m (sub e)
  off m := h.off fun e => m (sub e)
  ty m := h.ty fun e => m (sub e)
  initCmd m := h.initCmd fun e => m (sub e)
  dNeg m := h.dNeg fun e => m (sub e)
  dPoll m := h.dPoll fun e => m (sub e)
  csdBuf m := h.csdBuf fun e => m (sub e)
  r m := h.r fun e => m (sub e)
  ok m := h.ok fun e => m (sub e)

end SameWorkingBut

end Sys2Proof.Safety

namespace Sys2Proof.Machine

open Sys2Proof.Safety

variable (cfg : Params)

theorem setCmd_working {named : List WorkingRegister} (v : Command) (s : State) (h : .cmd ∈ named) : SameWorkingBut named s
    (setCmd v s) := by
  constructor <;> intro m <;> first | rfl | exact absurd h m

theorem setR1_working {named : List WorkingRegister} (v : Byte) (s : State) (h : .r1 ∈ named) : SameWorkingBut named s (setR1 v s) := by
  constructor <;> intro m <;> first | rfl | exact absurd h m

theorem setNPoll_working {named : List WorkingRegister} (v : Nat) (s : State) (h : .nPoll ∈ named) : SameWorkingBut named s
    (setNPoll v s) := by
  constructor <;> intro m <;> first | rfl | exact absurd h m

theorem setResp4_working {named : List WorkingRegister} (v : Word) (s : State) (h : .resp4 ∈ named) : SameWorkingBut named s
    (setResp4 v s) := by
  constructor <;> intro m <;> first | rfl | exact absurd h m

theorem setToken_working {named : List WorkingRegister} (v : Byte) (s : State) (h : .token ∈ named) : SameWorkingBut named s
    (setToken v s) := by
  constructor <;> intro m <;> first | rfl | exact absurd h m

theorem setDResp_working {named : List WorkingRegister} (v : Byte) (s : State) (h : .dResp ∈ named) : SameWorkingBut named s
    (setDResp v s) := by
  constructor <;> intro m <;> first | rfl | exact absurd h m

theorem setCount_working {named : List WorkingRegister} (v : Nat) (s : State) (h : .count ∈ named) : SameWorkingBut named s
    (setCount v s) := by
  constructor <;> intro m <;> first | rfl | exact absurd h m

theorem setAddr_working {named : List WorkingRegister} (v : Word) (s : State) (h : .addr ∈ named) : SameWorkingBut named s
    (setAddr v s) := by
  constructor <;> intro m <;> first | rfl | exact absurd h m

theorem setOff_working {named : List WorkingRegister} (v : Nat) (s : State) (h : .off ∈ named) : SameWorkingBut named s (setOff v s) := by
  constructor <;> intro m <;> first | rfl | exact absurd h m

theorem setDPoll_working {named : List WorkingRegister} (v : Deadline) (s : State) (h : .dPoll ∈ named) : SameWorkingBut named s
    (setDPoll v s) := by
  constructor <;> intro m <;> first | rfl | exact absurd h m

theorem setCsdBuf_working {named : List WorkingRegister} (v : List Byte) (s : State) (h : .csdBuf ∈ named) : SameWorkingBut named s
    (setCsdBuf v s) := by
  constructor <;> intro m <;> first | rfl | exact absurd h m

theorem setR_working {named : List WorkingRegister} (v : Byte) (s : State) (h : .r ∈ named) : SameWorkingBut named s (setR v s) := by
  constructor <;> intro m <;> first | rfl | exact absurd h m

theorem setOk_working {named : List WorkingRegister} (v : Bool) (s : State) (h : .ok ∈ named) : SameWorkingBut named s (setOk v s) := by
  constructor <;> intro m <;> first | rfl | exact absurd h m

theorem send_working {named : List WorkingRegister} (tx : Byte) (s : State) : SameWorkingBut named s (send tx s) := .ofEq rfl

theorem xchg_working {named : List WorkingRegister} (tx : Byte) (s : State) : SameWorkingBut named s (xchg tx s).2 := .ofEq rfl

theorem setDeadline_working {named : List WorkingRegister} (ms : Nat) (s : State) : SameWorkingBut named s (setDeadline ms s).2 :=
  .ofEq rfl

theorem dataResponse_working {named : List WorkingRegister} (s : State) (h : .dResp ∈ named) :
    SameWorkingBut named s (dataResponse cfg s).2 :=
  (xchg_working cfg.dummyTx s).trans (setDResp_working _ _ h)

theorem waitReady_working {named : List WorkingRegister} (ms : Nat) (s : State) (h : .dPoll ∈ named) :
    SameWorkingBut named s (waitReady cfg ms s).2 := by
  have loop : ∀ (k : Nat) (t : State), SameWorkingBut named t (waitReadyLoop cfg ms k t).2 := by
    intro k
    induction k with
    | zero => intro t; exact .ofEq rfl
    | succ k ih =>
      intro t
      unfold waitReadyLoop
      split
      · exact .ofEq rfl
      · exact ((xchg_working cfg.dummyTx t).trans (setDPoll_working _ _ h)).trans (ih _)
  exact ((setDeadline_working ms s).trans (setDPoll_working _ _ h)).trans (loop _ _)

theorem select_working {named : List WorkingRegister} (s : State) (h : .dPoll ∈ named) : SameWorkingBut named s (select cfg s).2 :=
  SameWorkingBut.trans (t := send cfg.dummyTx (csOn (deselect cfg s))) (.ofEq rfl) (waitReady_working cfg _ _ h)

theorem pollR1_working {named : List WorkingRegister} (s : State) (h1 : .r1 ∈ named) (h2 : .nPoll ∈ named) :
    SameWorkingBut named s (pollR1 cfg s).2 := by
  have one : ∀ (n : Nat) (t : State), SameWorkingBut named t (setNPoll n (setR1 (xchg cfg.dummyTx t).1 (xchg cfg.dummyTx t).2)) :=
    fun n t => ((xchg_working cfg.dummyTx t).trans (setR1_working _ _ h1)).trans (setNPoll_working _ _ h2)
  have loop : ∀ (n : Nat) (t : State), SameWorkingBut named t (pollR1Loop cfg n t).2 := by
    intro n
    induction n with
    | zero => intro t; exact one _ t
    | succ n ih =>
      intro t
      unfold pollR1Loop
      split
      · exact one _ t
      · exact (one _ t).trans (ih _)
  exact (setNPoll_working _ _ h2).trans (loop _ _)

theorem sendOne_working {named : List WorkingRegister} (c : Command) (s : State) (h : dispatcherRegisters ⊆ named) :
    SameWorkingBut named s (sendOne cfg c s).2 := by
  have hc : SameWorkingBut named s (setCmd c s) := setCmd_working _ _ (h (by simp [dispatcherRegisters]))
  have poll : ∀ t, SameWorkingBut named t (pollR1 cfg t).2 :=
    fun t => pollR1_working cfg t (h (by simp [dispatcherRegisters])) (h (by simp [dispatcherRegisters]))
  have frame : ∀ t, SameWorkingBut named t (sendFrame cfg c t) := fun t => .ofEq (sendAll_w _ _)
  have sel : ∀ t, SameWorkingBut named t (select cfg t).2 := fun t => select_working cfg t (h (by simp [dispatcherRegisters]))
  unfold sendOne
  split
  · exact ((hc.trans (frame _)).trans (send_working cfg.dummyTx _)).trans (poll _)
  · split
    · exact ((hc.trans (sel _)).trans (frame _)).trans (poll _)
    · exact hc.trans (sel _)

theorem sendCmd_working {named : List WorkingRegister} (c : Command) (s : State) (h : dispatcherRegisters ⊆ named) :
    SameWorkingBut named s (sendCmd cfg c s).2 := by
  have hr : ∀ v t, SameWorkingBut named t (setR v t) := fun v t => setR_working v t (h (by simp [dispatcherRegisters]))
  unfold sendCmd
  split
  · refine SameWorkingBut.trans ?_ (hr _ _)
    unfold sendApp
    split
    · exact sendOne_working cfg _ _ h
    · exact (sendOne_working cfg _ _ h).trans (sendOne_working cfg _ _ h)
  · exact (sendOne_working cfg _ _ h).trans (hr _ _)

theorem readTrailing_working {named : List WorkingRegister} (s : State) (h : .resp4 ∈ named) :
    SameWorkingBut named s (readTrailing cfg s).2 := by
  constructor <;> intro m <;> first | rfl | exact absurd h m

theorem tokenWait_working {named : List WorkingRegister} (s : State) (h1 : .dPoll ∈ named) (h2 : .token ∈ named) :
    SameWorkingBut named s (tokenWait cfg s).2 := by
  have one : ∀ t : State, SameWorkingBut named t (setToken (xchg cfg.dummyTx t).1 (xchg cfg.dummyTx t).2) :=
    fun t => (xchg_working cfg.dummyTx t).trans (setToken_working _ _ h2)
  have loop : ∀ (ms k : Nat) (t : State), SameWorkingBut named t (tokenWaitLoop cfg ms k t).2 := by
    intro ms k
    induction k with
    | zero => intro t; exact one t
    | succ k ih =>
      intro t
      unfold tokenWaitLoop
      split
      · exact ((one t).trans (setDPoll_working _ _ h1)).trans (ih _)
      · exact one t
  exact ((setDeadline_working tTokenMs s).trans (setDPoll_working _ _ h1)).trans (loop _ _ _)

theorem recvDataBlock_working {named : List WorkingRegister} (off len : Nat) (s : State) (h1 : .dPoll ∈ named) (h2 : .token ∈ named) :
    SameWorkingBut named s (recvDataBlock cfg off len s).2 := by
  unfold recvDataBlock
  split
  · exact (tokenWait_working cfg s h1 h2).trans (.ofEq ((sendAll_w _ _).trans (recvBlock_w cfg _ _ _)))
  · exact tokenWait_working cfg s h1 h2

theorem recvBytes_w (n : Nat) (s : State) : (recvBytes cfg n s).2.w = s.w := by
  induction n generalizing s with
  | zero => rfl
  | succ n ih => exact ih _

theorem recvRegister_working {named : List WorkingRegister} (s : State) (h1 : .dPoll ∈ named) (h2 : .token ∈ named)
    (h3 : .csdBuf ∈ named) : SameWorkingBut named s (recvRegister cfg s).2 := by
  unfold recvRegister
  split
  · exact (((tokenWait_working cfg s h1 h2).trans (.ofEq (recvBytes_w cfg _ _))).trans (setCsdBuf_working _ _ h3)).trans (.ofEq
    (sendAll_w _ _))
  · exact tokenWait_working cfg s h1 h2

theorem xmitPayload_working {named : List WorkingRegister} (off : Nat) (s : State) (h : .dResp ∈ named) :
    SameWorkingBut named s (xmitPayload cfg off s).2 := by
  have hw : (sendAll [cfg.crcPlaceholderTx, cfg.crcPlaceholderTx] (xmitBlock off sectorSize s)).w = s.w :=
    (sendAll_w _ _).trans (xmitBlock_w _ _ _)
  unfold xmitPayload
  exact (SameWorkingBut.ofEq hw).trans (dataResponse_working cfg _ h)

theorem xmitDataBlock_working {named : List WorkingRegister} (off : Nat) (token : Byte) (s : State) (h1 : .dPoll ∈ named)
    (h2 : .token ∈ named) (h3 : .dResp ∈ named) : SameWorkingBut named s (xmitDataBlock cfg off token s).2 := by
  have hr : SameWorkingBut named s (waitReady cfg tReadyMs (setToken token s)).2 :=
    (setToken_working _ _ h2).trans (waitReady_working cfg _ _ h1)
  unfold xmitDataBlock
  dsimp only
  split
  · split
    · exact hr.trans (send_working token _)
    · exact (hr.trans (send_working token _)).trans
        (xmitPayload_working cfg _ _ h3)
  · exact hr

end Sys2Proof.Machine
end

