-- ==== Sys2Proof/Laws/Init.lean ====
section
/-! SUPPORT. What every stage of `initialize` keeps, its trace with the type it ends in, and which working registers it writes. -/

namespace Sys2Proof.Machine

open Sys2Proof.Safety

variable {cfg : Params}

/-- What a stage of `initialize` keeps: the session, the buffer, the reply, and the agreement of wire and line. -/
structure StageKeeps (cfg : Params) (s t : State) : Prop where
  session : SameSession s t
  buf : t.buf = s.buf
  reply : t.reply = s.reply
  wireOk : WireOk cfg s → WireOk cfg t
  drew : ∃ evs, Appends s t evs ∧ Drew s t evs

theorem StageKeeps.trans {s t u : State} (h : StageKeeps cfg s t) (g : StageKeeps cfg t u) : StageKeeps cfg s u where
  session := ⟨g.session.1.trans h.session.1, g.session.2.1.trans h.session.2.1, g.session.2.2.1.trans h.session.2.2.1,
    g.session.2.2.2.1.trans h.session.2.2.2.1, g.session.2.2.2.2.trans h.session.2.2.2.2⟩
  buf := g.buf.trans h.buf
  reply := g.reply.trans h.reply
  wireOk w := g.wireOk (h.wireOk w)
  drew := let ⟨_, a1, d1⟩ := h.drew; let ⟨_, a2, d2⟩ := g.drew; ⟨_, Appends_trans a1 a2, Drew_trans d1 d2⟩

theorem StageKeeps.ofRuns {s t : State} (h : Runs cfg noStore s t) : StageKeeps cfg s t where
  session := h.sameSession.1
  buf := h.sameBuf
  reply := h.sameSession.2.2
  wireOk w := h.wireOk w
  drew := h.drew

theorem StageKeeps.seq (q : Seq) (s : State) : StageKeeps cfg s (setSeq q s) where
  session := ⟨rfl, rfl, rfl, rfl, rfl⟩
  buf := rfl
  reply := rfl
  wireOk w := wireOk_congr w rfl rfl rfl rfl
  drew := ⟨[], rfl, by simp [Drew, received, setSeq]⟩

theorem StageKeeps.registers (w : Working) (s : State) : StageKeeps cfg s { s with w := w } where
  session := ⟨rfl, rfl, rfl, rfl, rfl⟩
  buf := rfl
  reply := rfl
  wireOk h := wireOk_congr h rfl rfl rfl rfl
  drew := ⟨[], rfl, by simp [Drew, received]⟩

/-- A stage's law: it keeps what a stage keeps, leaves the type it answers in `TY`, and appends a trace of its kind. -/
def StageLaw (cfg : Params) (Trace : CardType → List WireEvent → Prop) (s : State) (p : CardType × State) : Prop :=
  StageKeeps cfg s p.2 ∧ p.2.w.ty = some p.1 ∧ ∃ evs, Appends s p.2 evs ∧ Trace p.1 evs

theorem initFailedStage_law (s : State) : StageLaw cfg (fun ty evs => evs = [] ∧ ty = CardType.unknown) s (initFailedStage s) :=
  ⟨(StageKeeps.registers _ s).trans (.seq _ _), rfl, [], rfl, rfl, rfl⟩

theorem initReadyStage_law (ty : CardType) (s : State) : StageLaw cfg (fun t evs => evs = [] ∧ t = ty) s (initReadyStage ty s) :=
  ⟨(StageKeeps.registers _ s).trans (.seq _ _), rfl, [], rfl, rfl, rfl⟩

/-- A stage after a part that keeps what a stage keeps and appends its own trace. -/
theorem StageLaw.after {Trace Trace' : CardType → List WireEvent → Prop} {s t : State} {p : CardType × State} {first : List WireEvent}
    (hk : StageKeeps cfg s t) (ha : Appends s t first) (h : StageLaw cfg Trace t p)
    (hT : ∀ evs, Trace p.1 evs → Trace' p.1 (first ++ evs)) : StageLaw cfg Trace' s p := by
  obtain ⟨k, ty, evs, he, ht⟩ := h
  exact ⟨hk.trans k, ty, _, Appends_trans ha he, hT evs ht⟩

variable (cfg)

theorem negotiateLoop_law (c : Command) (attempt : Byte → List WireEvent → Prop)
    (hatt : ∀ s, ∃ evs, Appends s (sendCmd cfg c s).2 evs ∧ attempt (sendCmd cfg c s).1 evs) (k : Nat) (s : State) :
    ∃ evs, Appends s (negotiateLoop cfg c k s).2 evs ∧ NegotiateTrace attempt (negotiateLoop cfg c k s).1 evs ∧
      Runs cfg noStore s (negotiateLoop cfg c k s).2 := by
  induction k generalizing s with
  | zero => exact ⟨[], rfl, .expired, .refl⟩
  | succ k ih =>
    obtain ⟨e1, h1, t1⟩ := hatt (setDNeg ⟨tNegotiateMs, k⟩ s)
    have h1' := appends_from_wire (s := s) h1 rfl
    have hr : Runs cfg noStore s (sendCmd cfg c (setDNeg ⟨tNegotiateMs, k⟩ s)).2 := (Runs.refl.registers _).sendCmd c
    unfold negotiateLoop
    by_cases h : r1Accepted (sendCmd cfg c (setDNeg ⟨tNegotiateMs, k⟩ s)).1
    · simp only [h, if_true]
      exact ⟨e1, h1', .accepted ((accepted_iff _).1 h ▸ t1), hr⟩
    · simp only [h]
      obtain ⟨e2, h2, t2, hr2⟩ := ih (sendCmd cfg c (setDNeg ⟨tNegotiateMs, k⟩ s)).2
      exact ⟨_, Appends_trans h1' h2, .again (fun e => h ((accepted_iff _).2 e)) t1 t2, hr.trans hr2⟩

theorem ccsSet_bytesWord (b0 b1 b2 b3 : Byte) : ccsSet (bytesWord b0 b1 b2 b3) = b0.getLsbD 6 := by
  have h : respByte (bytesWord b0 b1 b2 b3) 0 = b0 := by
    apply BitVec.eq_of_getLsbD_eq
    intro i hi
    unfold respByte
    rw [BitVec.getLsbD_extractLsb']
    simp only [hi, decide_true, Bool.true_and]
    show (b0 ++ b1 ++ b2 ++ b3).getLsbD (24 - 8 * 0 + i) = _
    rw [BitVec.getLsbD_append, BitVec.getLsbD_append, BitVec.getLsbD_append]
    have h1 : ¬ 24 - 8 * 0 + i < 8 := by omega
    have h2 : ¬ 24 - 8 * 0 + i - 8 < 8 := by omega
    have h3 : ¬ 24 - 8 * 0 + i - 8 - 8 < 8 := by omega
    rw [if_neg h1, if_neg h2, if_neg h3]
    congr 1
    omega
  unfold ccsSet
  rw [h]
  clear h
  revert b0; decide

theorem echoMatches_bytesWord (b0 b1 b2 b3 : Byte) :
    echoMatches (bytesWord b0 b1 b2 b3) = true ↔ b2 = 0x01#8 ∧ b3 = 0xAA#8 := by
  have h2 : respByte (bytesWord b0 b1 b2 b3) 2 = b2 := by
    apply BitVec.eq_of_getLsbD_eq
    intro i hi
    unfold respByte
    rw [BitVec.getLsbD_extractLsb']
    simp only [hi, decide_true, Bool.true_and]
    show (b0 ++ b1 ++ b2 ++ b3).getLsbD (24 - 8 * 2 + i) = _
    rw [BitVec.getLsbD_append, BitVec.getLsbD_append]
    have h1 : ¬ 24 - 8 * 2 + i < 8 := by omega
    have h2 : 24 - 8 * 2 + i - 8 < 8 := by omega
    rw [if_neg h1, if_pos h2]
    congr 1
    omega
  have h3 : respByte (bytesWord b0 b1 b2 b3) 3 = b3 := by
    apply BitVec.eq_of_getLsbD_eq
    intro i hi
    unfold respByte
    rw [BitVec.getLsbD_extractLsb']
    simp only [hi, decide_true, Bool.true_and]
    show (b0 ++ b1 ++ b2 ++ b3).getLsbD (24 - 8 * 3 + i) = _
    rw [BitVec.getLsbD_append]
    have h1 : 24 - 8 * 3 + i < 8 := by omega
    rw [if_pos h1]
    congr 1
    omega
  unfold echoMatches
  rw [h2, h3]
  simp [ifCondEchoHigh, ifCondEchoLow]

theorem negotiateSdV2_law (hcfg : cfg.wf = true) (d : Deadline) (s : State) : StageLaw cfg (SdV2Trace cfg) s (negotiateSdV2 cfg d s) := by
  have hf : frameBytes cfg (sdSendOpCond cfg true).op (sdSendOpCond cfg true).arg = (frameBytes cfg opSdSendOpCond cfg.hcsArg) := rfl
  obtain ⟨neg, h1, t1, r1⟩ := negotiateLoop_law cfg (sdSendOpCond cfg true) (AppTrace cfg (frameBytes cfg opSdSendOpCond cfg.hcsArg))
    (fun u => hf ▸ sendCmd_app_trace cfg hcfg (sdSendOpCond cfg true) (isStop_sdSendOpCond hcfg _) rfl u) d.left (setSeq .negotiating s)
  unfold negotiateSdV2
  dsimp only
  generalize negotiateLoop cfg (sdSendOpCond cfg true) d.left (setSeq .negotiating s) = p at h1 t1 r1 ⊢
  have k1 : StageKeeps cfg s p.2 := (StageKeeps.seq _ s).trans (.ofRuns r1)
  have h1' := appends_from_wire (s := s) h1 rfl
  cases hp : p.1 with
  | false =>
    refine StageLaw.after k1 h1' (initFailedStage_law p.2) fun evs h => .inl ?_
    rw [h.1, List.append_nil]
    exact ⟨hp ▸ t1, h.2⟩
  | true =>
    obtain ⟨ocr, tr, h2, t2, hv⟩ := ocrTransaction_trace cfg hcfg p.2
    have k2 : StageKeeps cfg p.2 (ocrTransaction cfg p.2).2 := .ofRuns (Runs.ocrTransaction .refl)
    simp only [if_true]
    rw [hp] at t1
    match tr, hv with
    | some [b0, b1, b2, b3], hv =>
      rw [hv]
      refine StageLaw.after (k1.trans k2) (Appends_trans h1' h2) (initReadyStage_law _ _) fun evs h => .inr ?_
      rw [h.1, List.append_nil]
      refine ⟨neg, ocr, _, rfl, t1, t2, ?_⟩
      simp only
      rw [ccsSet_bytesWord]
      rfl
    | none, hv =>
      rw [hv.2]
      refine StageLaw.after (k1.trans k2) (Appends_trans h1' h2) (initFailedStage_law _) fun evs h => .inr ?_
      rw [h.1, List.append_nil]
      exact ⟨neg, ocr, none, rfl, t1, t2, h.2⟩

theorem negotiateLegacy_law (hcfg : cfg.wf = true) (c : Command) (attempt : Byte → List WireEvent → Prop)
    (hatt : ∀ s, ∃ evs, Appends s (sendCmd cfg c s).2 evs ∧ attempt (sendCmd cfg c s).1 evs) (ty : CardType) (d : Deadline) (s : State) :
    StageLaw cfg (LegacyTrace cfg attempt ty) s (negotiateLegacy cfg c ty d s) := by
  have hf : frameBytes cfg setBlockLen.op setBlockLen.arg = (frameBytes cfg opSetBlockLen 512#32) := rfl
  obtain ⟨neg, h1, t1, r1⟩ := negotiateLoop_law cfg c attempt hatt d.left (setSeq .negotiating (setInitCmd c.op c.acmd (setTy ty s)))
  unfold negotiateLegacy
  dsimp only
  generalize negotiateLoop cfg c d.left (setSeq .negotiating (setInitCmd c.op c.acmd (setTy ty s))) = p at h1 t1 r1 ⊢
  have k0 : StageKeeps cfg s (setSeq .negotiating (setInitCmd c.op c.acmd (setTy ty s))) :=
    ((StageKeeps.registers _ s).trans (.registers _ _)).trans (.seq _ _)
  have k1 : StageKeeps cfg s p.2 := k0.trans (.ofRuns r1)
  have h1' := appends_from_wire (s := s) h1 rfl
  cases hp : p.1 with
  | false =>
    refine StageLaw.after k1 h1' (initFailedStage_law p.2) fun evs h => .inl ?_
    rw [h.1, List.append_nil]
    exact ⟨hp ▸ t1, h.2⟩
  | true =>
    obtain ⟨close, h2, t2⟩ := sendCmd_trace cfg setBlockLen (isStop_setBlockLen hcfg) rfl p.2
    rw [hf] at t2
    have k2 : StageKeeps cfg p.2 (sendCmd cfg setBlockLen p.2).2 := .ofRuns (Runs.sendCmd _ .refl)
    rw [hp] at t1
    simp only [if_true]
    by_cases h : r1Accepted (sendCmd cfg setBlockLen p.2).1
    · simp only [h, if_true]
      refine StageLaw.after (k1.trans k2) (Appends_trans h1' h2) (initReadyStage_law ty _) fun evs g => .inr ?_
      rw [g.1, List.append_nil]
      exact ⟨neg, close, _, rfl, t1, t2, by rw [if_pos ((accepted_iff _).1 h)]; exact g.2⟩
    · simp only [h]
      refine StageLaw.after (k1.trans k2) (Appends_trans h1' h2) (initFailedStage_law _) fun evs g => .inr ?_
      rw [g.1, List.append_nil]
      exact ⟨neg, close, _, rfl, t1, t2, by rw [if_neg fun e => h ((accepted_iff _).2 e)]; exact g.2⟩

/-- What follows `CMD8`, on either path. -/
theorem initProbe_law (hcfg : cfg.wf = true) (r : Byte) (d : Deadline) (s : State) :
    StageLaw cfg (ProbeTrace cfg r) s (if r1Idle r then initSdV2Probe cfg d s else initLegacyProbe cfg d s) := by
  by_cases h : r1Idle r
  · have hr := (idle_iff r).1 h
    simp only [h, if_true]
    obtain ⟨b0, b1, b2, b3, hv, ha⟩ := trailing_of_word cfg (setSeq .sdv2Probe s)
    have k1 : StageKeeps cfg s (readTrailing cfg (setSeq .sdv2Probe s)).2 := (StageKeeps.seq _ s).trans (.ofRuns (Runs.readTrailing .refl))
    have ha' := appends_from_wire (s := s) ha rfl
    unfold initSdV2Probe
    dsimp only
    rw [hv]
    by_cases g : echoMatches (bytesWord b0 b1 b2 b3)
    · simp only [g, if_true]
      refine StageLaw.after k1 ha' (negotiateSdV2_law cfg hcfg d _) fun evs ht => ?_
      rw [ProbeTrace, if_pos hr]
      exact ⟨b0, b1, b2, b3, evs, rfl, by rw [if_pos ((echoMatches_bytesWord ..).1 g)]; exact ht⟩
    · simp only [g]
      refine StageLaw.after k1 ha' (initFailedStage_law _) fun evs ht => ?_
      rw [ProbeTrace, if_pos hr]
      exact ⟨b0, b1, b2, b3, evs, rfl, by rw [if_neg fun e => g ((echoMatches_bytesWord ..).2 e)]; exact ht⟩
  · have hr : ¬ r = 0x01#8 := fun e => h ((idle_iff r).2 e)
    simp only [h]
    have hf : frameBytes cfg (sdSendOpCond cfg false).op (sdSendOpCond cfg false).arg = (frameBytes cfg opSdSendOpCond 0#32) := rfl
    have hf1 : frameBytes cfg sendOpCond.op sendOpCond.arg = (frameBytes cfg opSendOpCond 0#32) := rfl
    obtain ⟨probe, h1, t1⟩ := sendCmd_app_trace cfg hcfg (sdSendOpCond cfg false) (isStop_sdSendOpCond hcfg _) rfl (setSeq .legacyProbe s)
    rw [hf] at t1
    have k1 : StageKeeps cfg s (sendCmd cfg (sdSendOpCond cfg false) (setSeq .legacyProbe s)).2 :=
      (StageKeeps.seq _ s).trans (.ofRuns (Runs.sendCmd _ .refl))
    have h1' := appends_from_wire (s := s) h1 rfl
    unfold initLegacyProbe
    dsimp only
    by_cases g : r1Understood (sendCmd cfg (sdSendOpCond cfg false) (setSeq .legacyProbe s)).1
    · have hle : (sendCmd cfg (sdSendOpCond cfg false) (setSeq .legacyProbe s)).1.toNat ≤ 1 := by simpa [r1Understood] using g
      simp only [g, if_true]
      refine StageLaw.after k1 h1' (negotiateLegacy_law cfg hcfg (sdSendOpCond cfg false) _
        (fun u => hf ▸ sendCmd_app_trace cfg hcfg (sdSendOpCond cfg false) (isStop_sdSendOpCond hcfg _) rfl u) _ d _) fun evs ht => ?_
      rw [ProbeTrace, if_neg hr]
      exact ⟨probe, evs, _, rfl, t1, by rw [if_pos hle]; exact ht⟩
    · have hle : ¬ (sendCmd cfg (sdSendOpCond cfg false) (setSeq .legacyProbe s)).1.toNat ≤ 1 := by simpa [r1Understood] using g
      simp only [g]
      refine StageLaw.after k1 h1' (negotiateLegacy_law cfg hcfg sendOpCond _
        (fun u => hf1 ▸ sendCmd_trace cfg sendOpCond (isStop_sendOpCond hcfg) rfl u) _ d _) fun evs ht => ?_
      rw [ProbeTrace, if_neg hr]
      exact ⟨probe, evs, _, rfl, t1, by rw [if_neg hle]; exact ht⟩

/-- The whole run up to the finish. -/
theorem initResetStage_law (hcfg : cfg.wf = true) (s : State) : StageLaw cfg (InitTrace cfg) s (initResetStage cfg s) := by
  have hf0 : frameBytes cfg goIdleState.op goIdleState.arg = (frameBytes cfg opGoIdleState 0#32) := rfl
  have hf8 : frameBytes cfg sendIfCond.op sendIfCond.arg = (frameBytes cfg opSendIfCond 0x000001AA#32) := rfl
  obtain ⟨ten, hl, ha⟩ := sendDummies_trace cfg nPowerUpDummy s
  obtain ⟨cmd0, h1, t1⟩ := sendCmd_trace cfg goIdleState (isStop_goIdleState hcfg) rfl (setTy CardType.unknown
    (sendDummies cfg nPowerUpDummy s))
  rw [hf0] at t1
  have k1 : StageKeeps cfg s (sendCmd cfg goIdleState (setTy CardType.unknown (sendDummies cfg nPowerUpDummy s))).2 :=
    .ofRuns (((Runs.refl.sendDummies _).registers _).sendCmd _)
  have h1' := Appends_trans ha (appends_from_wire h1 rfl)
  unfold initResetStage
  dsimp only
  generalize sendCmd cfg goIdleState (setTy CardType.unknown (sendDummies cfg nPowerUpDummy s)) = p at h1 t1 k1 h1' ⊢
  by_cases h : r1Idle p.1
  · have hr := (idle_iff _).1 h
    simp only [h, if_true]
    unfold initIdleSent
    dsimp only
    obtain ⟨cmd8, h2, t2⟩ := sendCmd_trace cfg sendIfCond (isStop_sendIfCond hcfg) rfl
      (setDNeg (setDeadline tNegotiateMs (setSeq .idleSent p.2)).1 (setDeadline tNegotiateMs (setSeq .idleSent p.2)).2)
    rw [hf8] at t2
    have k2 : StageKeeps cfg p.2 (sendCmd cfg sendIfCond
        (setDNeg (setDeadline tNegotiateMs (setSeq .idleSent p.2)).1 (setDeadline tNegotiateMs (setSeq .idleSent p.2)).2)).2 :=
      (StageKeeps.seq _ p.2).trans (.ofRuns (((Runs.refl.deadline _).registers _).sendCmd _))
    have h2' := appends_from_wire (s := p.2) h2 rfl
    refine StageLaw.after (k1.trans k2) (Appends_trans h1' h2') (initProbe_law cfg hcfg _ _ _) fun evs ht => ?_
    exact ⟨ten, cmd0, cmd8 ++ evs, p.1, by simp, hl, t1, by rw [if_pos hr]; exact ⟨cmd8, evs, _, rfl, t2, ht⟩⟩
  · have hr : ¬ p.1 = 0x01#8 := fun e => h ((idle_iff _).2 e)
    simp only [h]
    refine StageLaw.after k1 h1' (initFailedStage_law _) fun evs ht => ?_
    exact ⟨ten, cmd0, [], p.1, by simp [ht.1], hl, t1, by rw [if_neg hr]; exact ⟨rfl, ht.2⟩⟩

/-- The type a run ends in is legal. -/
theorem InitTrace_legal {ty : CardType} {evs : List WireEvent} (h : InitTrace cfg ty evs) : ty.legal = true := by
  have hu : CardType.unknown.legal = true := by decide
  obtain ⟨_, _, rest, r0, _, _, _, h⟩ := h
  split at h
  · obtain ⟨_, more, r8, _, _, hp⟩ := h
    unfold ProbeTrace at hp
    split at hp
    · obtain ⟨_, _, _, _, _, _, hp⟩ := hp
      split at hp
      · rcases hp with ⟨_, rfl⟩ | ⟨_, _, tr, _, _, _, hp⟩
        · exact hu
        · split at hp
          · subst hp; split <;> decide
          · subst hp; exact hu
      · rw [hp.2]; exact hu
    · have legacy : ∀ {att family evs}, family.legal = true → LegacyTrace cfg att family ty evs → ty.legal = true := by
        rintro att family evs hf (⟨_, rfl⟩ | ⟨_, _, _, _, _, _, rfl⟩)
        · exact hu
        · split
          · exact hf
          · exact hu
      obtain ⟨_, _, _, _, _, hp⟩ := hp
      split at hp
      · exact legacy (by decide) hp
      · exact legacy (by decide) hp
  · rw [h.2]; exact hu

/-! ### The working registers of `initialize` -/

theorem working_from {named : List WorkingRegister} {s u t : State} (h : SameWorkingBut named u t) (e : u.w = s.w) :
    SameWorkingBut named s t := SameWorkingBut.trans (.ofEq e) h

/-- What `initialize` writes of the working registers (rules R192 to R199). -/
abbrev initRegisters : List WorkingRegister := dispatcherRegisters ++ [.resp4, .ty, .initCmd, .dNeg]

theorem setTy_init (v : CardType) (s : State) : SameWorkingBut initRegisters s (setTy v s) := by
  constructor <;> intro m <;> first | rfl | exact absurd (by decide) m

theorem setInitCmd_init (op : BitVec 6) (a : Bool) (s : State) : SameWorkingBut initRegisters s (setInitCmd op a s) := by
  constructor <;> intro m <;> first | rfl | exact absurd (by decide) m

theorem setDNeg_init (d : Deadline) (s : State) : SameWorkingBut initRegisters s (setDNeg d s) := by
  constructor <;> intro m <;> first | rfl | exact absurd (by decide) m

theorem sendCmd_init (c : Command) (s : State) : SameWorkingBut initRegisters s (sendCmd cfg c s).2 :=
  sendCmd_working cfg c s (by decide)

theorem negotiateLoop_init (c : Command) (k : Nat) (s : State) : SameWorkingBut initRegisters s (negotiateLoop cfg c k s).2 := by
  induction k generalizing s with
  | zero => exact .ofEq rfl
  | succ k ih =>
    have h := (setDNeg_init ⟨tNegotiateMs, k⟩ s).trans (sendCmd_init cfg c _)
    unfold negotiateLoop
    split
    · exact h
    · exact h.trans (ih _)

theorem failed_init (s : State) : SameWorkingBut initRegisters s (initFailedStage s).2 := (setTy_init _ s).trans (.ofEq rfl)
theorem ready_init (ty : CardType) (s : State) : SameWorkingBut initRegisters s (initReadyStage ty s).2 :=
    (setTy_init _ s).trans (.ofEq rfl)

theorem ocr_init (s : State) : SameWorkingBut initRegisters s (ocrTransaction cfg s).2 := by
  unfold ocrTransaction
  split
  · exact (sendCmd_init cfg _ s).trans (readTrailing_working cfg _ (by decide))
  · exact sendCmd_init cfg _ s

theorem sdV2_init (d : Deadline) (s : State) : SameWorkingBut initRegisters s (negotiateSdV2 cfg d s).2 := by
  have h : SameWorkingBut initRegisters s _ :=
    working_from (negotiateLoop_init cfg (sdSendOpCond cfg true) d.left (setSeq .negotiating s)) rfl
  unfold negotiateSdV2
  dsimp only
  split
  · split
    · exact (h.trans (ocr_init cfg _)).trans (ready_init _ _)
    · exact (h.trans (ocr_init cfg _)).trans (failed_init _)
  · exact h.trans (failed_init _)

theorem legacy_init (c : Command) (ty : CardType) (d : Deadline) (s : State) : SameWorkingBut initRegisters s
    (negotiateLegacy cfg c ty d s).2 := by
  have h : SameWorkingBut initRegisters s _ := (setTy_init ty s).trans ((setInitCmd_init c.op c.acmd _).trans
    (working_from (negotiateLoop_init cfg c d.left (setSeq .negotiating (setInitCmd c.op c.acmd (setTy ty s)))) rfl))
  unfold negotiateLegacy
  dsimp only
  split
  · split
    · exact (h.trans (sendCmd_init cfg _ _)).trans (ready_init _ _)
    · exact (h.trans (sendCmd_init cfg _ _)).trans (failed_init _)
  · exact h.trans (failed_init _)

theorem resetStage_init (s : State) : SameWorkingBut initRegisters s (initResetStage cfg s).2 := by
  have h0 : SameWorkingBut initRegisters s (sendDummies cfg nPowerUpDummy s) := .ofEq (sendAll_w _ s)
  have h : SameWorkingBut initRegisters s _ := (h0.trans (setTy_init CardType.unknown _)).trans (sendCmd_init cfg goIdleState _)
  unfold initResetStage initIdleSent initSdV2Probe initLegacyProbe
  dsimp only
  split
  · generalize (sendCmd cfg goIdleState (setTy CardType.unknown (sendDummies cfg nPowerUpDummy s))).2 = u at *
    have h2 : SameWorkingBut initRegisters s _ := h.trans (SameWorkingBut.trans (SameWorkingBut.ofEq (t :=
      (setDeadline tNegotiateMs (setSeq .idleSent u)).2) rfl)
      ((setDNeg_init (setDeadline tNegotiateMs (setSeq .idleSent u)).1 _).trans (sendCmd_init cfg sendIfCond _)))
    generalize sendCmd cfg sendIfCond _ = q at h2 ⊢
    split
    · have h3 : SameWorkingBut initRegisters s _ := h2.trans (working_from (readTrailing_working cfg (named :=
      initRegisters) (setSeq .sdv2Probe q.2) (by decide)) rfl)
      split
      · exact h3.trans (sdV2_init cfg _ _)
      · exact h3.trans (failed_init _)
    · have h3 : SameWorkingBut initRegisters s _ :=
      h2.trans (working_from (sendCmd_init cfg (sdSendOpCond cfg false) (setSeq .legacyProbe q.2)) rfl)
      split
      · exact h3.trans (legacy_init cfg _ _ _ _)
      · exact h3.trans (legacy_init cfg _ _ _ _)
  · exact h.trans (failed_init _)

theorem initializeDrive_working (s : State) : SameWorkingBut initRegisters (cleared s) (initializeDrive cfg s) := by
  have h : SameWorkingBut initRegisters (cleared s) (initResetStage cfg (beginOperation .reset s)).2 :=
    working_from (resetStage_init cfg (beginOperation .reset s)) rfl
  unfold initializeDrive raiseError
  dsimp only
  split <;> exact h.trans ((setTy_init _ _).trans (.ofEq rfl))

end Sys2Proof.Machine
end

