-- ==== Sys2Proof/Laws/HostOps.lean ====
section
/-! SUPPORT. The shared ends and the shared checks of the host operations. -/

namespace Sys2Proof.Machine

open Sys2Proof.Safety

variable (cfg : Params)

/-! ### The ends -/

theorem finishOperation_ran {s u : State} {P : List WireEvent → Prop} {body : List WireEvent} (r : Reply) (hs : SameSession s u)
    (ha : Appends s u body) (hP : P body) : Ran s (finishOperation s.params r u) P := by
  obtain ⟨des, h1, h2⟩ := deselect_trace s.params u
  exact ⟨⟨body, des, Appends_trans ha (appends_of_wire h1 rfl), hP, h2⟩, ⟨rfl, rfl⟩, hs⟩

theorem finishOperation_ends {cfg : Params} (r : Reply) {s : State} (h : s.params = cfg) :
    AtRest (finishOperation cfg r s) ∧ EndsDeselected (finishOperation cfg r s) :=
  ⟨⟨rfl, rfl⟩, nextRx cfg.dummyTx (csOff s), s.wire, by subst h; rfl⟩

theorem endControl_eq (ok : Bool) (s : State) :
    endControl cfg ok s = finishOperation cfg (.result (if ok then .ok else .error)) (setOk ok s) := by cases ok <;> rfl

theorem endControl_ran {s u : State} {P : List WireEvent → Prop} {body : List WireEvent} (ok : Bool) (hs : SameSession s u)
    (ha : Appends s u body) (hP : P body) :
    Ran s (endControl s.params ok u) P ∧ (endControl s.params ok u).reply = okOrError ok ∧ (endControl s.params ok u).buf = u.buf := by
  rw [endControl_eq]
  exact ⟨finishOperation_ran (u := setOk ok u) _ hs ha hP, rfl, rfl⟩

theorem endTransfer_eq (s : State) :
    endTransfer cfg s = finishOperation cfg (.result (if s.w.count = some 0 then .ok else .error)) s := by
  unfold endTransfer; split <;> rfl

theorem endTransfer_ran {s u : State} {P : List WireEvent → Prop} {body : List WireEvent} (ok : Bool) (hs : SameSession s u)
    (ha : Appends s u body) (hP : P body) (hc : u.w.count = some 0 ↔ ok = true) :
    Ran s (endTransfer s.params u) P ∧ (endTransfer s.params u).reply = okOrError ok ∧ (endTransfer s.params u).buf = u.buf ∧
      (endTransfer s.params u).w = u.w := by
  rw [endTransfer_eq]
  refine ⟨finishOperation_ran _ hs ha hP, ?_, rfl, rfl⟩
  cases ok <;> simp_all [okOrError]

/-! ### The checks -/

/-- A `read` that passes its checks runs. -/
theorem readRequest_runs {s : State} (h : Launchable s) (count : Nat) (h1 : 1 ≤ count) (h2 : count ≤ 128)
    (hf : count * 512 ≤ s.buf.size) (run : State) : readRequest cfg 0#8 .given count run s = .next run := by
  have hp : ioPreconditions false 0#8 .given count s.status = none := by
    simp [ioPreconditions, h.initialized, lunIndex, countLegal, countMin, countMax, h1, h2]
  unfold readRequest
  rw [if_pos h.idle, hp]
  dsimp only
  rw [if_pos (by unfold bufFits; exact decide_eq_true hf)]

/-- A `write` that passes its checks runs. -/
theorem writeRequest_runs {s : State} (h : Launchable s) (hw : s.writeCapable = true) (hp : s.status.writeProtected = false)
    (count : Nat) (h1 : 1 ≤ count) (h2 : count ≤ 128) (hf : count * 512 ≤ s.buf.size) (run : State) :
    writeRequest cfg 0#8 .given count run s = .next run := by
  have hp : ioPreconditions true 0#8 .given count s.status = none := by
    simp [ioPreconditions, h.initialized, lunIndex, countLegal, countMin, countMax, h1, h2, hp]
  unfold writeRequest
  rw [if_pos h.idle, if_pos hw, hp]
  dsimp only
  rw [if_pos (by unfold bufFits; exact decide_eq_true hf)]

/-- An `ioctl` that passes its checks runs the body of its code. -/
theorem ioctlRequest_runs {s : State} (h : Launchable s) (code : Byte) (buf : Handle) (hc : code ∈ ioctlCodes cfg)
    (hb : buf = .given ∨ code = syncCode) (hf : ioctlBufBytes cfg code ≤ s.buf.size) :
    ioctlRequest cfg 0#8 code buf s = ioctlBody cfg code (beginOperation (.control code) s) := by
  have hp : ioctlPreconditions cfg 0#8 code buf s.status = none := by
    unfold ioctlPreconditions
    rw [if_neg (by simp [h.initialized]), if_neg (by simp [lunIndex]), if_neg (by simpa using hc), if_neg]
    rintro ⟨h1, h2⟩
    rcases hb with hb | hb
    · simp [hb] at h1
    · simp [hb, ioctlNeedsBuf] at h2
  unfold ioctlRequest
  rw [if_pos h.idle, hp]
  dsimp only
  rw [if_neg, if_pos (by unfold bufFits; exact decide_eq_true hf)]
  rintro ⟨h1, h2⟩
  rcases hb with hb | hb
  · simp [hb] at h1
  · rw [hb] at h2; exact absurd h2 (by decide)

/-- A transfer starts without touching the transport, the session or the buffer. -/
theorem startTransfer_same (q : Seq) (sector : Word) (count : Nat) (s : State) :
    SameSession s (startTransfer q sector count s) ∧ (startTransfer q sector count s).buf = s.buf ∧
      (startTransfer q sector count s).wire = s.wire ∧ (startTransfer q sector count s).cardIn = s.cardIn ∧
      (startTransfer q sector count s).type = s.type ∧
      (startTransfer q sector count s).w.count = some (Fin.ofNat 129 count) ∧
      (startTransfer q sector count s).w.addr = some (convertAddress s.type sector) :=
  ⟨⟨rfl, rfl, rfl, rfl, rfl⟩, rfl, rfl, rfl, rfl, rfl, rfl⟩

/-! ### What a failed receive leaves -/

theorem recvDataBlock_false {off len : Nat} {s : State} (h : (recvDataBlock cfg off len s).1 = false) :
    (recvDataBlock cfg off len s).2 = (tokenWait cfg s).2 := by
  unfold recvDataBlock at h ⊢
  split at h
  · cases h
  · rename_i g; rw [if_neg g]

theorem recvTransaction_false {c : Command} {len : Nat} {s : State} (h : (recvTransaction cfg c len s).1 = false) :
    (recvTransaction cfg c len s).2.buf = s.buf := by
  have hc : (sendCmd cfg c s).2.buf = s.buf := (Runs.sendCmd (p := noStore) c .refl).sameBuf
  unfold recvTransaction at h ⊢
  split at h
  · rename_i g
    rw [if_pos g]
    rw [recvDataBlock_false cfg h]
    exact (Runs.tokenWait (p := noStore) .refl).sameBuf.trans hc
  · rename_i g; rw [if_neg g]; exact hc

theorem sdStatusTransaction_false {s : State} (h : (sdStatusTransaction cfg s).1 = false) : (sdStatusTransaction cfg s).2.buf = s.buf := by
  have hc : (sendCmd cfg (sdStatus cfg) s).2.buf = s.buf := (Runs.sendCmd (p := noStore) (sdStatus cfg) .refl).sameBuf
  unfold sdStatusTransaction at h ⊢
  split at h
  · rename_i g
    rw [if_pos g]
    rw [recvDataBlock_false cfg h]
    exact (Runs.tokenWait (p := noStore) .refl).sameBuf.trans hc
  · rename_i g; rw [if_neg g]; exact hc

theorem recvTransaction_working {named : List WorkingRegister} (c : Command) (len : Nat) (s : State) (h : dispatcherRegisters ⊆ named)
    (ht : .token ∈ named) : SameWorkingBut named s (recvTransaction cfg c len s).2 := by
  unfold recvTransaction
  split
  · exact (sendCmd_working cfg c s h).trans (recvDataBlock_working cfg _ _ _ (h (by simp [dispatcherRegisters])) ht)
  · exact sendCmd_working cfg c s h

theorem writeSingleTransaction_working {named : List WorkingRegister} (addr : Word) (s : State) (h : dispatcherRegisters ⊆ named)
    (ht : .token ∈ named) (hd : .dResp ∈ named) : SameWorkingBut named s (writeSingleTransaction cfg addr s).2 := by
  unfold writeSingleTransaction
  split
  · exact (sendCmd_working cfg _ s h).trans (xmitDataBlock_working cfg _ _ _ (h (by simp [dispatcherRegisters])) ht hd)
  · exact sendCmd_working cfg _ s h

theorem recvSectors_working {named : List WorkingRegister} (n off : Nat) (s : State) (hp : .dPoll ∈ named) (ht : .token ∈ named)
    (hc : .count ∈ named) (ho : .off ∈ named) : SameWorkingBut named s (recvSectors cfg n off s) := by
  induction n generalizing off s with
  | zero => exact .ofEq rfl
  | succ n ih =>
    have hr : SameWorkingBut named s (recvDataBlock cfg off sectorSize s).2 := recvDataBlock_working cfg _ _ _ hp ht
    unfold recvSectors
    split
    · exact ((hr.trans (setOff_working _ _ ho)).trans (setCount_working _ _ hc)).trans (ih _ _)
    · exact hr

theorem readMultiTransaction_working {named : List WorkingRegister} (addr : Word) (n : Nat) (s : State) (h : dispatcherRegisters ⊆ named)
    (ht : .token ∈ named) (hc : .count ∈ named) (ho : .off ∈ named) : SameWorkingBut named s (readMultiTransaction cfg addr n s) := by
  unfold readMultiTransaction
  split
  · exact (((sendCmd_working cfg _ s h).trans (setOff_working _ _ ho)).trans
      (recvSectors_working cfg _ _ _ (h (by simp [dispatcherRegisters])) ht hc ho)).trans (sendCmd_working cfg _ _ h)
  · exact sendCmd_working cfg _ s h

theorem xmitSectors_working {named : List WorkingRegister} (n off : Nat) (s : State) (hp : .dPoll ∈ named) (ht : .token ∈ named)
    (hd : .dResp ∈ named) (hc : .count ∈ named) (ho : .off ∈ named) : SameWorkingBut named s (xmitSectors cfg n off s) := by
  induction n generalizing off s with
  | zero => exact .ofEq rfl
  | succ n ih =>
    have hr : SameWorkingBut named s (xmitDataBlock cfg off cfg.startMultiToken s).2 := xmitDataBlock_working cfg _ _ _ hp ht hd
    unfold xmitSectors
    split
    · exact ((hr.trans (setOff_working _ _ ho)).trans (setCount_working _ _ hc)).trans (ih _ _)
    · exact hr

theorem writeMultiTransaction_working {named : List WorkingRegister} (addr : Word) (n : Nat) (s : State) (h : dispatcherRegisters ⊆ named)
    (ht : .token ∈ named) (hd : .dResp ∈ named) (hc : .count ∈ named) (ho : .off ∈ named) :
    SameWorkingBut named s (writeMultiTransaction cfg addr n s) := by
  have hp : WorkingRegister.dPoll ∈ named := h (by simp [dispatcherRegisters])
  have close : ∀ t, SameWorkingBut named t (closeWriteStream cfg t) := by
    intro t
    unfold closeWriteStream
    split
    · exact xmitDataBlock_working cfg _ _ _ hp ht hd
    · exact (xmitDataBlock_working cfg _ _ _ hp ht hd).trans (setCount_working _ _ hc)
  unfold writeMultiTransaction
  split
  · exact (((sendCmd_working cfg _ s h).trans (setOff_working _ _ ho)).trans (xmitSectors_working cfg _ _ _ hp ht hd hc ho)).trans (close _)
  · exact sendCmd_working cfg _ s h

/-! ### Multi-sector commands that never come to `COUNT` -/

/-- `CMD18` that does not come to `COUNT`: rejected, or accepted with no first sector and its stop command. -/
theorem readMultiTransaction_uncounted (hcfg : cfg.wf = true) (addr : Word) (s : State) (hw : Memory.wf s.buf.mem = true)
    (h : readReachesCount cfg addr s = false) :
    ∃ evs, Appends s (readMultiTransaction cfg addr 1 s) evs ∧
      ReadMultiTrace cfg (frameBytes cfg cfg.opReadMultipleBlock addr) 1 [] evs ∧
      Runs cfg noStore s (readMultiTransaction cfg addr 1 s) ∧
      SameWorkingBut (dispatcherRegisters ++ [.token, .off]) s (readMultiTransaction cfg addr 1 s) := by
  obtain ⟨cmd, h1, t1⟩ := sendCmd_trace cfg (readMultipleBlock cfg addr) (isStop_readMultipleBlock hcfg _) rfl s
  have hr1 : Runs cfg noStore s (sendCmd cfg (readMultipleBlock cfg addr) s).2 := Runs.sendCmd _ .refl
  have hw1 : SameWorkingBut (dispatcherRegisters ++ [.token, .off]) s (sendCmd cfg (readMultipleBlock cfg addr) s).2 :=
    sendCmd_working cfg _ s (by simp)
  unfold readMultiTransaction
  unfold readReachesCount at h
  by_cases ha : r1Accepted (sendCmd cfg (readMultipleBlock cfg addr) s).1
  · simp only [ha, if_true, Bool.true_and] at h ⊢
    have hr2 : Runs cfg noStore s (setOff 0 (sendCmd cfg (readMultipleBlock cfg addr) s).2) := hr1.registers _
    have hw2 := hw1.trans (setOff_working 0 (sendCmd cfg (readMultipleBlock cfg addr) s).2 (by simp))
    replace h1 := appends_of_wire (t := setOff 0 (sendCmd cfg (readMultipleBlock cfg addr) s).2) h1 rfl
    generalize setOff 0 (sendCmd cfg (readMultipleBlock cfg addr) s).2 = u at h h1 hr2 hw2 ⊢
    obtain ⟨pkt, h2, t2⟩ := recvDataBlock_trace cfg 0 sectorSize u (hr2.bufWf hw)
    rw [h] at t2
    have hrecv : recvSectors cfg 1 0 u = (recvDataBlock cfg 0 sectorSize u).2 := by simp [recvSectors, h]
    obtain ⟨stop, h3, t3⟩ := sendCmd_stop_trace cfg (recvDataBlock cfg 0 sectorSize u).2
    rw [hrecv]
    refine ⟨_, Appends_trans (Appends_trans h1 h2) h3, .inr ⟨cmd, pkt, stop, _, rfl, (accepted_iff _).1 ha ▸ t1, t2, t3⟩, ?_,
      (hw2.trans (recvDataBlock_working cfg _ _ _ (by simp [dispatcherRegisters]) (by simp))).trans (sendCmd_working cfg _ _ (by simp))⟩
    rw [recvDataBlock_false cfg h]
    exact hr2.tokenWait.sendCmd _
  · simp only [ha]
    exact ⟨cmd, h1, .inl ⟨_, fun e => ha ((accepted_iff _).2 e), t1, rfl⟩, hr1, hw1⟩

/-- `CMD25` that does not come to `COUNT`: rejected, or accepted with its first packet refused and its stop token. -/
theorem writeMultiTransaction_uncounted (hcfg : cfg.wf = true) (addr : Word) (s : State) (h : writeReachesCount cfg addr s = false) :
    ∃ evs, Appends s (writeMultiTransaction cfg addr 1 s) evs ∧
      WriteMultiTrace cfg s (frameBytes cfg cfg.opWriteMultipleBlock addr) 1 false evs ∧
      ((writeMultiTransaction cfg addr 1 s).w.count = s.w.count ∨ (writeMultiTransaction cfg addr 1 s).w.count = some 1) := by
  obtain ⟨cmd, h1, t1⟩ := sendCmd_trace cfg (writeMultipleBlock cfg addr) (isStop_writeMultipleBlock hcfg _) rfl s
  have hc1 := sendCmd_count cfg (writeMultipleBlock cfg addr) s
  unfold writeMultiTransaction
  unfold writeReachesCount at h
  by_cases ha : r1Accepted (sendCmd cfg (writeMultipleBlock cfg addr) s).1
  · simp only [ha, if_true, Bool.true_and] at h ⊢
    have hb : (setOff 0 (sendCmd cfg (writeMultipleBlock cfg addr) s).2).buf = s.buf := (Runs.sendCmd (p := noStore) _ .refl).sameBuf
    have hc2 : (setOff 0 (sendCmd cfg (writeMultipleBlock cfg addr) s).2).w.count = s.w.count := hc1
    replace h1 := appends_of_wire (t := setOff 0 (sendCmd cfg (writeMultipleBlock cfg addr) s).2) h1 rfl
    generalize setOff 0 (sendCmd cfg (writeMultipleBlock cfg addr) s).2 = u at h h1 hb hc2 ⊢
    obtain ⟨pkt, h2, t2⟩ := xmitDataBlock_trace cfg 0 cfg.startMultiToken (startMulti_ne_stop hcfg) u
    rw [h, bufBytes_of_buf 0 512 hb] at t2
    have hxmit : xmitSectors cfg 1 0 u = (xmitDataBlock cfg 0 cfg.startMultiToken u).2 := by simp [xmitSectors, h]
    have hc3 := (xmitDataBlock_count cfg 0 cfg.startMultiToken u).trans hc2
    rw [hxmit]
    generalize (xmitDataBlock cfg 0 cfg.startMultiToken u).2 = v at h2 hc3 ⊢
    obtain ⟨stop, h3, t3⟩ := stopToken_trace cfg 0 v
    have tr : WriteMultiTrace cfg s (frameBytes cfg cfg.opWriteMultipleBlock addr) 1 false (cmd ++ pkt ++ stop) :=
      .inr ⟨cmd, pkt, stop, 0, _, rfl, (accepted_iff _).1 ha ▸ t1, t2, t3, rfl⟩
    have hc4 := (xmitDataBlock_count cfg 0 cfg.stopMultiToken v).trans hc3
    unfold closeWriteStream
    split
    · exact ⟨_, Appends_trans (Appends_trans h1 h2) h3, tr, .inl hc4⟩
    · exact ⟨_, Appends_trans (Appends_trans h1 h2) (appends_of_wire h3 rfl), tr, .inr rfl⟩
  · simp only [ha]
    exact ⟨cmd, h1, .inl ⟨_, fun e => ha ((accepted_iff _).2 e), t1, rfl⟩, .inl hc1⟩
end Sys2Proof.Machine
end

