-- ==== Sys2Proof/Laws/Exec.lean ====
section
/-! SUPPORT. What every instruction but `initialize(0)` does, said once: the session is the same, the wire and the line still agree, the
buffer keeps its form, the card's bytes are drawn in order, and sequencer and line are where they were or the engine is at rest. -/

namespace Sys2Proof.Machine

open Sys2Proof.Safety

/-- The offsets an operation may store to (rules R51, R57): 0 to 65535. -/
abbrev bufSpan : Nat → Prop := fun a => a < 65536

structure Effect (s t : State) : Prop where
  session : SameSession s t
  bufWf : Memory.wf s.buf.mem = true → Memory.wf t.buf.mem = true
  bufTail : ∀ a, 65536 ≤ a → bufRead a t = bufRead a s
  wireOk : WireOk s.params s → WireOk s.params t
  drew : ∃ evs, Appends s t evs ∧ Drew s t evs
  rest : t.seq = s.seq ∧ t.cs = s.cs ∨ AtRest t

namespace Effect

theorem reply (r : Reply) (s : State) : Effect s (replyAtOnce r s) :=
  ⟨⟨rfl, rfl, rfl, rfl, rfl⟩, id, fun _ _ => rfl, fun h => wireOk_congr h rfl rfl rfl rfl, ⟨[], rfl, by simp [Drew, received,
    replyAtOnce]⟩, .inl ⟨rfl, rfl⟩⟩

/-- Launched: the session, the buffer and the transport are the same. -/
structure Launched (s u : State) : Prop where
  session : SameSession s u
  buf : u.buf = s.buf
  wire : u.wire = s.wire
  cs : u.cs = s.cs
  settleMs : u.settleMs = s.settleMs
  cardIn : u.cardIn = s.cardIn
  cardDraws : u.cardDraws = s.cardDraws

/-- A host operation: it is launched, runs, and finishes. -/
theorem operation {s v u : State} (l : Launched s v) (h : Runs s.params bufSpan v u) (r : Reply) :
    Effect s (finishOperation s.params r u) := by
  obtain ⟨e, a, d⟩ := h.drew
  have hd : Runs s.params noStore u (deselect s.params u) := .deselect .refl
  obtain ⟨e2, a2, d2⟩ := hd.drew
  have ds : Drew s u e := ⟨d.1.trans (by rw [l.cardIn]), by rw [← l.cardIn]; exact d.2⟩
  refine ⟨?_, fun w => h.bufWf (by rw [l.buf]; exact w), fun a ha => ?_, fun w => ?_, ⟨e ++ e2, ?_, Drew_trans ds d2⟩, .inr ⟨rfl, rfl⟩⟩
  · have g := h.sameSession.1
    exact ⟨g.1.trans l.session.1, g.2.1.trans l.session.2.1, g.2.2.1.trans l.session.2.2.1, g.2.2.2.1.trans l.session.2.2.2.1,
      g.2.2.2.2.trans l.session.2.2.2.2⟩
  · have := h.bufOutside (a := a) (by unfold bufSpan; omega)
    unfold bufRead at *
    rw [← l.buf]
    exact this
  · exact wireOk_congr (wireOk_deselect (h.wireOk (wireOk_congr w l.cs l.settleMs l.wire l.cardDraws))) rfl rfl rfl rfl
  · exact Appends_trans (appends_from_wire a l.wire) (appends_of_wire a2 rfl)

end Effect

/-- The errors a check raises are the replies given at once. -/
theorem ioPreconditions_reply {cfg : Params} {isWrite : Bool} {lun : Byte} {buf : Handle} {n : Nat} {v : Status} {e : SdError}
    (h : ioPreconditions isWrite lun buf n v = some e) (s : State) : ∃ r, raiseError cfg e s = replyAtOnce (.result r) s := by
  unfold ioPreconditions at h
  split at h
  · cases h; exact ⟨_, rfl⟩
  · split at h
    · cases h; exact ⟨_, rfl⟩
    · split at h
      · cases h; exact ⟨_, rfl⟩
      · cases h

theorem ioctlPreconditions_reply {cfg : Params} {lun code : Byte} {buf : Handle} {v : Status} {e : SdError}
    (h : ioctlPreconditions cfg lun code buf v = some e) (s : State) : ∃ r, raiseError cfg e s = replyAtOnce (.result r) s := by
  unfold ioctlPreconditions at h
  split at h
  · cases h; exact ⟨_, rfl⟩
  · split at h
    · cases h; exact ⟨_, rfl⟩
    · split at h
      · cases h; exact ⟨_, rfl⟩
      · split at h
        · cases h; exact ⟨_, rfl⟩
        · cases h

/-- A count that passed its check is at most 128. -/
theorem ioPreconditions_count {isWrite : Bool} {lun : Byte} {buf : Handle} {n : Nat} {v : Status}
    (h : ioPreconditions isWrite lun buf n v = none) : n ≤ 128 := by
  unfold ioPreconditions at h
  split at h
  · cases h
  · split at h
    · cases h
    · rename_i hc
      have : countLegal n = true := by
        cases hl : countLegal n
        · exact absurd (.inr (.inr hl)) hc
        · rfl
      unfold countLegal countMax at this
      simp only [Bool.and_eq_true, decide_eq_true_eq] at this
      exact this.2

/-- What a request answers: a reply at once, or its run, from idle. -/
theorem readRequest_next {cfg : Params} {lun : Byte} {buf : Handle} {n : Nat} {run s t : State}
    (h : readRequest cfg lun buf n run s = .next t) :
    s.seq = .idle ∧ ((∃ r, t = replyAtOnce (.result r) s) ∨ n ≤ 128 ∧ t = run) := by
  unfold readRequest at h
  split at h
  · rename_i hs
    refine ⟨hs, ?_⟩
    split at h
    · rename_i e he
      obtain ⟨r, hr⟩ := ioPreconditions_reply he s
      cases h; exact .inl ⟨r, hr⟩
    · rename_i hn
      split at h
      · cases h; exact .inr ⟨ioPreconditions_count hn, rfl⟩
      · cases h
  · cases h

theorem writeRequest_next {cfg : Params} {lun : Byte} {buf : Handle} {n : Nat} {run s t : State}
    (h : writeRequest cfg lun buf n run s = .next t) :
    s.seq = .idle ∧ ((∃ r, t = replyAtOnce (.result r) s) ∨ n ≤ 128 ∧ t = run) := by
  unfold writeRequest at h
  split at h
  · rename_i hs
    refine ⟨hs, ?_⟩
    split at h
    · split at h
      · rename_i e he
        obtain ⟨r, hr⟩ := ioPreconditions_reply he s
        cases h; exact .inl ⟨r, hr⟩
      · rename_i hn
        split at h
        · cases h; exact .inr ⟨ioPreconditions_count hn, rfl⟩
        · cases h
    · cases h
  · cases h

theorem endWithValue_eq (cfg : Params) (v : Option Word) (s : State) :
    endWithValue cfg v s = finishOperation cfg (match v with | some n => .value n | none => .result .error) (setOk v.isSome s) := by
  cases v <;> rfl

theorem ioctlBody_next {cfg : Params} {code : Byte} {s t : State} (hc : code ∈ ioctlCodes cfg)
    (h : ioctlBody cfg code (beginOperation (.control code) s) = .next t) :
    ∃ u r, Runs cfg bufSpan (beginOperation (.control code) s) u ∧ t = finishOperation cfg r u := by
  have span {a len : Nat} (h : a < len) (hl : len ≤ 65536) : bufSpan a := Nat.lt_of_lt_of_le h hl
  unfold ioctlBody at h
  split at h
  · cases h
    exact ⟨_, _, .registers _ (Runs.refl.select), endControl_eq _ _ _⟩
  split at h
  · cases h
    exact ⟨_, _, .registers _ (Runs.refl.csdTransaction), endWithValue_eq _ _ _⟩
  split at h
  · unfold blockSizeBody at h
    have hr : Runs cfg bufSpan (beginOperation (.control code) s) (granularityRegister cfg (beginOperation (.control code) s)).2 := by
      unfold granularityRegister; split
      · exact Runs.refl.sdStatusHeadTransaction
      · exact Runs.refl.csdTransaction
    split at h
    · cases h; exact ⟨_, _, .registers _ hr, endControl_eq _ _ _⟩
    · split at h
      · cases h; exact ⟨_, _, .registers _ hr, endWithValue_eq _ _ _⟩
      · cases h
  split at h
  · cases h
    exact ⟨_, _, .registers _ (Runs.refl.trimSequence _), endControl_eq _ _ _⟩
  split at h
  · cases h
    exact ⟨_, _, .registers _ (Runs.refl.store _ _ (by unfold bufSpan; omega)), endControl_eq _ _ _⟩
  split at h
  · cases h
    exact ⟨_, _, .registers _ (Runs.refl.recvTransaction _ _ fun a ha => span ha (by decide)), endControl_eq _ _ _⟩
  split at h
  · cases h
    exact ⟨_, _, .registers _ (Runs.refl.recvTransaction _ _ fun a ha => span ha (by decide)), endControl_eq _ _ _⟩
  split at h
  · unfold rawOcrBody at h
    split at h
    · cases h
      exact ⟨_, _, .registers _ ((((Runs.refl.ocrTransaction.store _ _ (by unfold bufSpan; omega)).store _ _
        (by unfold bufSpan; omega)).store _ _ (by unfold bufSpan; omega)).store _ _ (by unfold bufSpan; omega)),
        endControl_eq _ _ _⟩
    · cases h
      exact ⟨_, _, .registers _ Runs.refl.ocrTransaction, endControl_eq _ _ _⟩
  split at h
  · cases h
    exact ⟨_, _, .registers _ (Runs.refl.sdStatusTransaction fun a ha => span ha (by decide)), endControl_eq _ _ _⟩
  simp_all [ioctlCodes]

theorem ioctlRequest_next {cfg : Params} {lun code : Byte} {buf : Handle} {s t : State} (h : ioctlRequest cfg lun code buf s = .next t) :
    s.seq = .idle ∧ ((∃ r, t = replyAtOnce (.result r) s) ∨
      ∃ u r, Runs cfg bufSpan (beginOperation (.control code) s) u ∧ t = finishOperation cfg r u) := by
  unfold ioctlRequest at h
  split at h
  · rename_i hs
    refine ⟨hs, ?_⟩
    split at h
    · rename_i e he
      obtain ⟨r, hr⟩ := ioctlPreconditions_reply he s
      cases h; exact .inl ⟨r, hr⟩
    · rename_i hn
      have hc : code ∈ ioctlCodes cfg := by
        unfold ioctlPreconditions at hn
        by_contra hc
        simp [hc] at hn
        split at hn <;> simp_all
      split at h
      · cases h
      · split at h
        · exact .inr (ioctlBody_next hc h)
        · cases h
  · cases h

/-! ### Every instruction -/

theorem bareResult_next {q : Bool × State} {t : State} (h : bareResult q = .next t) : t = setOk q.1 q.2 := by
  cases h; rfl

theorem transmitToken_next {cfg : Params} {off : Nat} {token : Byte} {s t : State} (h : transmitToken cfg off token s = .next t) :
    Runs cfg bufSpan s t := by
  unfold transmitToken at h
  split at h
  · split at h
    · cases h; exact .registers _ (Runs.refl.xmitDataBlock _ _)
    · cases h
  · cases h

/-- A command or a token is a run, from the state it is presented in, or from that state with the awaited byte as the card's next. -/
theorem exec_commandRow {i : Instr} {s t : State} (hi : ¬ isHostRow i) (h : exec i s = .next t) :
    Runs s.params bufSpan s t ∨
      isAwaitedRow i ∧ ∃ b, (encode s.params i).2 = [b] ∧ Runs s.params bufSpan (cardAnswers b s) t := by
  have span {a len : Nat} (h : a < len) (hl : len ≤ 65536) : bufSpan a := Nat.lt_of_lt_of_le h hl
  have command (c : Command) (h : bareCommand s.params c s = .next t) : Runs s.params bufSpan s t := by
    cases h; exact Runs.refl.sendCmd c
  have result {q : Bool × State} (hq : Runs s.params bufSpan s q.2) (h : bareResult q = .next t) : Runs s.params bufSpan s t := by
    cases h; exact .registers _ hq
  have whenFits {n : Nat} {q : Bool × State} (hq : Runs s.params bufSpan s q.2)
      (h : (if bufFits n s then bareResult q else .refused .bufferTooSmall) = .next t) : Runs s.params bufSpan s t := by
    split at h
    · exact result hq h
    · cases h
  cases i with
  | cmd0 => exact .inl (command _ h)
  | cmd1 => exact .inl (command _ h)
  | cmd8 => exact .inl (result Runs.refl.ifCondTransaction h)
  | cmd9 => exact .inl (result Runs.refl.csdTransaction h)
  | cmd10 => exact .inl (whenFits (Runs.refl.recvTransaction _ _ fun _ ha => span ha (by decide)) h)
  | cmd12 => exact .inl (command _ h)
  | acmd13 => exact .inl (whenFits (Runs.refl.sdStatusTransaction fun _ ha => span ha (by decide)) h)
  | cmd16 => exact .inl (command _ h)
  | cmd17 addr => exact .inl (whenFits (Runs.refl.recvTransaction _ _ fun _ ha => span ha (by decide)) h)
  | cmd18 addr =>
    left
    change execCmd18 addr s = _ at h
    unfold execCmd18 at h
    split at h
    · split at h
      · split at h
        · cases h
        · cases h; exact Runs.refl.readMultiTransaction _ _ fun _ ha => span ha (by decide)
      · cases h
    · split at h
      · cases h
        rename_i n _ _
        exact Runs.refl.readMultiTransaction _ _ fun _ ha => span ha (by have := n.isLt; unfold sectorSize; omega)
      · cases h
  | acmd23 count => exact .inl (command _ h)
  | cmd24 addr =>
    left
    change execCmd24 addr s = _ at h
    unfold execCmd24 at h
    split at h
    · exact whenFits (Runs.refl.writeSingleTransaction _) h
    · cases h
  | cmd25 addr =>
    left
    change execCmd25 addr s = _ at h
    unfold execCmd25 at h
    split at h
    · split at h
      · split at h
        · split at h
          · cases h
          · cases h; exact Runs.refl.writeMultiTransaction _ _
        · cases h
      · split at h
        · cases h; exact Runs.refl.writeMultiTransaction _ _
        · cases h
    · cases h
  | cmd32 addr => exact .inl (command _ h)
  | cmd33 addr => exact .inl (command _ h)
  | cmd38 => exact .inl (result Runs.refl.eraseTransaction h)
  | acmd41 hcs => exact .inl (command _ h)
  | cmd55 => exact .inl (command _ h)
  | cmd58 => exact .inl (result Runs.refl.ocrTransaction h)
  | tokenStartBlock dir =>
    cases dir with
    | toCard => exact .inl (transmitToken_next h)
    | fromCard =>
      refine .inr ⟨.inl rfl, startBlockToken, rfl, ?_⟩
      change execTokenStartBlock .fromCard s = _ at h
      unfold execTokenStartBlock at h
      dsimp only at h
      split at h
      · cases h; exact .registers _ (Runs.refl.recvDataBlock _ _ fun _ _ ha => span ha (by decide))
      · cases h
  | tokenStartMulti =>
    left
    change execTokenStartMulti s = _ at h
    unfold execTokenStartMulti at h
    split at h
    · split at h
      · cases h
      · exact transmitToken_next h
    · cases h
  | tokenStopMulti =>
    left
    change execTokenStopMulti s = _ at h
    unfold execTokenStopMulti at h
    split at h
    · cases h; exact .registers _ (Runs.refl.xmitDataBlock _ _)
    · cases h
  | dataResponseAccepted high =>
    refine .inr ⟨.inr (.inr (.inr rfl)), high ++ s.params.acceptVal, rfl, ?_⟩
    change execDataResponseAccepted high s = _ at h
    unfold execDataResponseAccepted at h
    split at h
    · cases h; exact .registers _ Runs.refl.dataResponse
    · cases h
  | r1Valid flags =>
    refine .inr ⟨.inr (.inr (.inl rfl)), 0#1 ++ flags, rfl, ?_⟩
    cases h; exact Runs.refl.pollR1
  | readyByte =>
    refine .inr ⟨.inr (.inl rfl), readyByteValue, rfl, ?_⟩
    cases h; exact .registers _ (Runs.refl.waitReady _)
  | dummyTx => cases h; exact .inl (.xchg _ .refl)
  | initDrive | driveStatus | readSingle | readMulti | writeSingle | writeMulti | ioctl | reservedOp5 | reservedOp6 | reservedOp7 =>
    exact absurd (.inl rfl) hi
  | ioctlSync | ioctlSectorCount | ioctlBlockSize | ioctlTrim | ioctlRawType | ioctlRawCsd | ioctlRawCid | ioctlRawOcr
  | ioctlRawSdStatus | ioctlUnknown => exact absurd (.inr rfl) hi

/-- A host request other than `initialize(0)` answers at once, or runs from its launch and finishes. -/
inductive Serves (s t : State) : Prop
  | atOnce (r : Reply) : t = replyAtOnce r s → Serves s t
  | operated {u v : State} (r : Reply) : Effect.Launched s v → Runs s.params bufSpan v u → t = finishOperation s.params r u →
      Serves s t

theorem Serves.effect {s t : State} (h : Serves s t) : Effect s t := by
  cases h with
  | atOnce r e => subst e; exact .reply r s
  | operated r l h e => subst e; exact .operation l h r

theorem ioctlRequest_serves {lun code : Byte} {buf : Handle} {s t : State} (h : ioctlRequest s.params lun code buf s = .next t) :
    s.seq = .idle ∧ Serves s t := by
  obtain ⟨hs, ⟨r, hr⟩ | ⟨u, r, hu, ht⟩⟩ := ioctlRequest_next h
  · exact ⟨hs, .atOnce _ hr⟩
  · exact ⟨hs, .operated (v := beginOperation (.control code) s) r ⟨⟨rfl, rfl, rfl, rfl, rfl⟩, rfl, rfl, rfl, rfl, rfl, rfl⟩ hu ht⟩

theorem transfer_serves {s u : State} {q : Seq} {sector : Word} {n : Nat} (h : Runs s.params bufSpan (startTransfer q sector n s) u) :
    Serves s (endTransfer s.params u) :=
  .operated (v := startTransfer q sector n s) _ ⟨⟨rfl, rfl, rfl, rfl, rfl⟩, rfl, rfl, rfl, rfl, rfl, rfl⟩ h (endTransfer_eq s.params u)

/-- A host row that answers was presented in idle; it is served, or it is `initialize(0)`. -/
theorem exec_hostRow {i : Instr} {s t : State} (hi : isHostRow i) (h : exec i s = .next t) :
    s.seq = .idle ∧ (Serves s t ∨ i = .initDrive lunIndex ∧ t = initializeDrive s.params s) := by
  have reads {lun : Byte} {buf : Handle} {n : Nat} {run : State} (hrun : n ≤ 128 → Serves s run)
      (h : readRequest s.params lun buf n run s = .next t) : s.seq = .idle ∧ Serves s t := by
    obtain ⟨hs, ⟨r, hr⟩ | ⟨hn, hr⟩⟩ := readRequest_next h
    · exact ⟨hs, .atOnce _ hr⟩
    · exact ⟨hs, hr ▸ hrun hn⟩
  have writes {lun : Byte} {buf : Handle} {n : Nat} {run : State} (hrun : n ≤ 128 → Serves s run)
      (h : writeRequest s.params lun buf n run s = .next t) : s.seq = .idle ∧ Serves s t := by
    obtain ⟨hs, ⟨r, hr⟩ | ⟨hn, hr⟩⟩ := writeRequest_next h
    · exact ⟨hs, .atOnce _ hr⟩
    · exact ⟨hs, hr ▸ hrun hn⟩
  have counted {u v : State} (b : Bool) (hv : Runs s.params bufSpan u v) : Runs s.params bufSpan u (if b then setCount 0 v else v) := by
    cases b
    · exact hv
    · exact .registers _ hv
  have served (g : s.seq = .idle ∧ Serves s t) : s.seq = .idle ∧ (Serves s t ∨ i = .initDrive lunIndex ∧ t = initializeDrive s.params s) :=
    ⟨g.1, .inl g.2⟩
  cases i with
  | initDrive lun =>
    change execInitDrive lun s = _ at h
    unfold execInitDrive at h
    split at h
    · rename_i hs
      split at h
      · rename_i hl
        cases h; exact ⟨hs, .inr ⟨by rw [hl], rfl⟩⟩
      · cases h; exact ⟨hs, .inl (.atOnce _ rfl)⟩
    · cases h
  | driveStatus lun =>
    change execDriveStatus lun s = _ at h
    unfold execDriveStatus at h
    split at h
    · rename_i hs
      split at h <;> cases h <;> exact ⟨hs, .inl (.atOnce _ rfl)⟩
    · cases h
  | readSingle lun buf sector =>
    exact served (reads (fun _ => transfer_serves (counted _ (Runs.refl.recvTransaction  _ _ fun _ ha => Nat.lt_of_lt_of_le ha
      (by decide)))) h)
  | readMulti lun buf sector count =>
    exact served (reads (fun hn => transfer_serves (Runs.refl.readMultiTransaction  _ _ fun a ha => Nat.lt_of_lt_of_le ha
      (by unfold sectorSize; omega))) h)
  | writeSingle lun buf sector =>
    exact served (writes (fun _ => transfer_serves (counted _ (Runs.refl.writeSingleTransaction _))) h)
  | writeMulti lun buf sector count =>
    refine served (writes (fun _ => transfer_serves (q := .writing) (sector := sector) (n := count.toNat) ?_) h)
    refine Runs.writeMultiTransaction _ _ ?_
    unfold predefineEraseCount
    split
    · exact Runs.refl.sendCmd _
    · exact .refl
  | ioctl lun code buf => exact served (ioctlRequest_serves h)
  | reservedOp5 | reservedOp6 | reservedOp7 => cases h
  | ioctlSync lun buf | ioctlSectorCount lun buf | ioctlBlockSize lun buf | ioctlTrim lun buf | ioctlRawType lun buf
  | ioctlRawCsd lun buf | ioctlRawCid lun buf | ioctlRawOcr lun buf | ioctlRawSdStatus lun buf | ioctlUnknown lun code buf =>
    exact served (ioctlRequest_serves h)
  | tokenStartBlock dir => cases dir <;> rcases hi with hi | hi <;> cases hi
  | _ => rcases hi with hi | hi <;> cases hi

end Sys2Proof.Machine
end

