-- ==== Sys2Proof/Laws/PerInstr.lean ====
section
/-! SUPPORT. The per-instruction family RoundTrip: decoding the encoding of a well-formed instruction gives it back, whatever the
parameters, one lemma per constructor. -/

namespace Sys2Proof

open Sys2Proof.Machine

theorem append_extract (n m k : Nat) (w : BitVec k) (hk : n + m = k) (i : Nat) (hi : i < k) :
    (w.extractLsb' m n ++ w.extractLsb' 0 m).getLsbD i = w.getLsbD i := by
  rw [BitVec.getLsbD_append, BitVec.getLsbD_extractLsb', BitVec.getLsbD_extractLsb']
  by_cases h : i < m
  · simp [h]
  · have h1 : i - m < n := by omega
    have h2 : m + (i - m) = i := by omega
    simp [h, h1, h2]

theorem append_extract_four {n : Nat} (w : BitVec n) (i : Nat) (hi : i < 32) :
    (w.extractLsb' 24 8 ++ w.extractLsb' 16 8 ++ w.extractLsb' 8 8 ++ w.extractLsb' 0 8).getLsbD i = w.getLsbD i := by
  rw [BitVec.getLsbD_append, BitVec.getLsbD_append, BitVec.getLsbD_append, BitVec.getLsbD_extractLsb',
    BitVec.getLsbD_extractLsb', BitVec.getLsbD_extractLsb', BitVec.getLsbD_extractLsb']
  have h1 : ¬ i < 8 → 8 + (i - 8) = i := by omega
  have h2 : ¬ i - 8 < 8 → 16 + (i - 8 - 8) = i := by omega
  have h3 : ¬ i - 8 - 8 < 8 → 24 + (i - 8 - 8 - 8) = i := by omega
  have h4 : i - 8 - 8 - 8 < 8 := by omega
  by_cases a : i < 8
  · simp [a]
  by_cases b : i - 8 < 8
  · simp [a, b, h1 a]
  by_cases c : i - 8 - 8 < 8
  · simp [a, b, c, h2 b]
  · simp [a, b, c, h4, h3 c]

theorem bytesWord_wordBytes (w : Word) :
    bytesWord (w.extractLsb' 24 8) (w.extractLsb' 16 8) (w.extractLsb' 8 8) (w.extractLsb' 0 8) = w :=
  BitVec.eq_of_getLsbD_eq fun i hi => append_extract_four w i hi

theorem countBytes_append (c : BitVec 16) : c.extractLsb' 8 8 ++ c.extractLsb' 0 8 = c :=
  BitVec.eq_of_getLsbD_eq fun i hi => append_extract 8 8 16 c rfl i hi

/-- A prefix that leaves the opcode bits clear. -/
theorem prefix_cases (p : Byte) (h : p &&& 0x3F#8 = 0x00#8) : p = 0x00#8 ∨ p = 0x40#8 ∨ p = 0x80#8 ∨ p = 0xC0#8 := by
  revert p; decide

theorem frameByte0_start {cfg : Params} (h : cfg.wf = true) (op : BitVec 6) : frameByte0 cfg op &&& 0xC0#8 = cfg.cmdPrefixBits := by
  unfold frameByte0
  rcases prefix_cases _ (Params.wf_prefix h) with e | e | e | e <;> rw [e] <;> revert op <;> decide

theorem frameByte0_op {cfg : Params} (h : cfg.wf = true) (op : BitVec 6) : (frameByte0 cfg op).extractLsb' 0 6 = op := by
  unfold frameByte0
  rcases prefix_cases _ (Params.wf_prefix h) with e | e | e | e <;> rw [e] <;> revert op <;> decide

/-- The decoder reads a frame's opcode and argument back. -/
theorem decodeCommand_frame {cfg : Params} (h : cfg.wf = true) (op : BitVec 6) (arg : Word) :
    decodeCommand cfg (frameBytes cfg op arg) = commandOf cfg op arg := by
  show (if frameByte0 cfg op &&& 0xC0#8 ≠ cfg.cmdPrefixBits then _
    else if crcByte cfg op ≠ crcByte cfg ((frameByte0 cfg op).extractLsb' 0 6) then _
    else commandOf cfg ((frameByte0 cfg op).extractLsb' 0 6) (bytesWord _ _ _ _)) = _
  rw [frameByte0_start h, frameByte0_op h, bytesWord_wordBytes]
  simp

/-- What the decoder makes of each of the 19 opcodes. -/
structure CommandTable (cfg : Params) (arg : Word) : Prop where
  goIdleState : commandOf cfg opGoIdleState arg = fixedArg arg 0#32 .cmd0
  sendOpCond : commandOf cfg opSendOpCond arg = fixedArg arg 0#32 .cmd1
  sendIfCond : commandOf cfg opSendIfCond arg = fixedArg arg ifCondArg .cmd8
  sendCsd : commandOf cfg cfg.opSendCsd arg = fixedArg arg 0#32 .cmd9
  sendCid : commandOf cfg cfg.opSendCid arg = fixedArg arg 0#32 .cmd10
  stopTransmission : commandOf cfg cfg.opStopTransmission arg = fixedArg arg 0#32 .cmd12
  sdStatus : commandOf cfg cfg.opSdStatus arg = fixedArg arg 0#32 .acmd13
  setBlockLen : commandOf cfg opSetBlockLen arg = fixedArg arg blockLenArg .cmd16
  readSingleBlock : commandOf cfg cfg.opReadSingleBlock arg = .ok (.cmd17 arg)
  readMultipleBlock : commandOf cfg cfg.opReadMultipleBlock arg = .ok (.cmd18 arg)
  setWrBlkEraseCount : commandOf cfg cfg.opSetWrBlkEraseCount arg = decodeAcmd23 arg
  writeBlock : commandOf cfg cfg.opWriteBlock arg = .ok (.cmd24 arg)
  writeMultipleBlock : commandOf cfg cfg.opWriteMultipleBlock arg = .ok (.cmd25 arg)
  eraseWrBlkStart : commandOf cfg cfg.opEraseWrBlkStart arg = .ok (.cmd32 arg)
  eraseWrBlkEnd : commandOf cfg cfg.opEraseWrBlkEnd arg = .ok (.cmd33 arg)
  eraseExecute : commandOf cfg cfg.opErase arg = fixedArg arg 0#32 .cmd38
  sdSendOpCond : commandOf cfg opSdSendOpCond arg = decodeAcmd41 cfg arg
  appCmd : commandOf cfg opAppCmd arg = fixedArg arg 0#32 .cmd55
  readOcr : commandOf cfg opReadOcr arg = fixedArg arg 0#32 .cmd58

/-- No two commands share an opcode, so each is read as itself. -/
theorem commandTable {cfg : Params} (h : cfg.wf = true) (arg : Word) : CommandTable cfg arg := by
  have hn := List.nodup_reverse.2 (Params.wf_opcodes h)
  simp only [opcodes, List.reverse_cons, List.reverse_nil, List.nil_append, List.cons_append, List.nodup_cons, List.mem_cons,
    not_or] at hn
  constructor <;> simp [commandOf, hn]

/-- What the decoder makes of the bytes sent as tokens or dummies. -/
theorem tokenTable {cfg : Params} (h : cfg.wf = true) :
    decodeTokenTx cfg [startBlockToken] = .ok (.tokenStartBlock .toCard) ∧
    decodeTokenTx cfg [cfg.startMultiToken] = .ok .tokenStartMulti ∧
    decodeTokenTx cfg [cfg.stopMultiToken] = .ok .tokenStopMulti ∧ decodeTokenTx cfg [cfg.dummyTx] = .ok .dummyTx := by
  have hn := List.nodup_reverse.2 (Params.wf_sent h)
  simp only [sentBytes, List.reverse_cons, List.reverse_nil, List.nil_append, List.cons_append, List.nodup_cons, List.mem_cons,
    not_or] at hn
  refine ⟨?_, ?_, ?_, ?_⟩ <;> simp [decodeTokenTx, hn]

/-- What the decoder makes of each of the nine ioctl codes. -/
structure IoctlTable (cfg : Params) (lun : Byte) (buf : Handle) : Prop where
  sync : ioctlOf cfg syncCode lun buf = .ioctlSync lun buf
  sectorCount : ioctlOf cfg sectorCountCode lun buf = .ioctlSectorCount lun buf
  blockSize : ioctlOf cfg blockSizeCode lun buf = .ioctlBlockSize lun buf
  trim : ioctlOf cfg trimCode lun buf = .ioctlTrim lun buf
  rawType : ioctlOf cfg cfg.rawTypeCode lun buf = .ioctlRawType lun buf
  rawCsd : ioctlOf cfg cfg.rawCsdCode lun buf = .ioctlRawCsd lun buf
  rawCid : ioctlOf cfg cfg.rawCidCode lun buf = .ioctlRawCid lun buf
  rawOcr : ioctlOf cfg cfg.rawOcrCode lun buf = .ioctlRawOcr lun buf
  rawSdStatus : ioctlOf cfg cfg.rawSdStatusCode lun buf = .ioctlRawSdStatus lun buf

theorem ioctlTable {cfg : Params} (h : cfg.wf = true) (lun : Byte) (buf : Handle) : IoctlTable cfg lun buf := by
  have hn := List.nodup_reverse.2 (Params.wf_codes h)
  simp only [ioctlCodes, List.reverse_cons, List.reverse_nil, List.nil_append, List.cons_append, List.nodup_cons, List.mem_cons,
    not_or] at hn
  constructor <;> simp [ioctlOf, hn]

/-- A record by its code byte is read with its handle. -/
theorem decodeIoctlCode_handle (cfg : Params) (code lun : Byte) (buf : Handle) :
    decodeIoctlCode cfg [code, lun, handleByte buf] = .ok (ioctlOf cfg code lun buf) := by cases buf <;> rfl

theorem countByte_read (c : Byte) : (c.setWidth 32).extractLsb' 8 24 = 0#24 ∧ (c.setWidth 32).extractLsb' 0 8 = c := by revert c; decide

theorem dataResponse_read (x : BitVec 3) (v : BitVec 5) :
    (x ++ v) &&& acceptMask = v.setWidth 8 ∧ (x ++ v).extractLsb' 5 3 = x := by revert x v; decide

theorem r1_read (x : BitVec 7) : decodeR1Rx [0#1 ++ x] = .ok (.r1Valid x) := by revert x; decide

theorem decodeHandle_handleByte (h : Handle) : decodeHandle (handleByte h) = .ok h := by cases h <;> rfl

end Sys2Proof

namespace Sys2Proof.Laws.RoundTrip

open Sys2Proof.Machine

/-- A well-formed instruction is read back from its encoding, in every configuration of an engine. -/
def Statement (i : Instr) : Prop :=
  ∀ cfg : Params, cfg.wf = true → i.wellFormed cfg = true → decode cfg (encode cfg i).1 (encode cfg i).2 = .ok i

theorem cmd0 : Statement .cmd0 := fun _ h _ => (decodeCommand_frame h _ _).trans ((commandTable h _).goIdleState.trans (if_pos rfl))

theorem cmd1 : Statement .cmd1 := fun _ h _ => (decodeCommand_frame h _ _).trans ((commandTable h _).sendOpCond.trans (if_pos rfl))

theorem cmd8 : Statement .cmd8 := fun _ h _ => (decodeCommand_frame h _ _).trans ((commandTable h _).sendIfCond.trans (if_pos rfl))

theorem cmd9 : Statement .cmd9 := fun _ h _ => (decodeCommand_frame h _ _).trans ((commandTable h _).sendCsd.trans (if_pos rfl))

theorem cmd10 : Statement .cmd10 := fun _ h _ => (decodeCommand_frame h _ _).trans ((commandTable h _).sendCid.trans (if_pos rfl))

theorem cmd12 : Statement .cmd12 := fun _ h _ => (decodeCommand_frame h _ _).trans ((commandTable h _).stopTransmission.trans (if_pos rfl))

theorem acmd13 : Statement .acmd13 := fun _ h _ => (decodeCommand_frame h _ _).trans ((commandTable h _).sdStatus.trans (if_pos rfl))

theorem cmd16 : Statement .cmd16 := fun _ h _ => (decodeCommand_frame h _ _).trans ((commandTable h _).setBlockLen.trans (if_pos rfl))

theorem cmd17 (a : Word) : Statement (.cmd17 a) := fun _ h _ => (decodeCommand_frame h _ _).trans (commandTable h _).readSingleBlock

theorem cmd18 (a : Word) : Statement (.cmd18 a) := fun _ h _ => (decodeCommand_frame h _ _).trans (commandTable h _).readMultipleBlock

theorem acmd23 (c : Byte) : Statement (.acmd23 c) := by
  intro cfg h _
  refine (decodeCommand_frame h _ _).trans ((commandTable h _).setWrBlkEraseCount.trans ?_)
  simp [decodeAcmd23, countByte_read]

theorem cmd24 (a : Word) : Statement (.cmd24 a) := fun _ h _ => (decodeCommand_frame h _ _).trans (commandTable h _).writeBlock

theorem cmd25 (a : Word) : Statement (.cmd25 a) := fun _ h _ => (decodeCommand_frame h _ _).trans (commandTable h _).writeMultipleBlock

theorem cmd32 (a : Word) : Statement (.cmd32 a) := fun _ h _ => (decodeCommand_frame h _ _).trans (commandTable h _).eraseWrBlkStart

theorem cmd33 (a : Word) : Statement (.cmd33 a) := fun _ h _ => (decodeCommand_frame h _ _).trans (commandTable h _).eraseWrBlkEnd

theorem cmd38 : Statement .cmd38 := fun _ h _ => (decodeCommand_frame h _ _).trans ((commandTable h _).eraseExecute.trans (if_pos rfl))

theorem acmd41 (b : Bool) : Statement (.acmd41 b) := by
  intro cfg h _
  refine (decodeCommand_frame h _ _).trans ((commandTable h _).sdSendOpCond.trans ?_)
  cases b
  · rfl
  · simp [decodeAcmd41, Params.wf_hcs h]

theorem cmd55 : Statement .cmd55 := fun _ h _ => (decodeCommand_frame h _ _).trans ((commandTable h _).appCmd.trans (if_pos rfl))

theorem cmd58 : Statement .cmd58 := fun _ h _ => (decodeCommand_frame h _ _).trans ((commandTable h _).readOcr.trans (if_pos rfl))

theorem tokenStartBlock (d : TokenDir) : Statement (.tokenStartBlock d) := by
  intro _ h _
  cases d
  · exact (tokenTable h).1
  · rfl

theorem tokenStartMulti : Statement .tokenStartMulti := fun _ h _ => (tokenTable h).2.1

theorem tokenStopMulti : Statement .tokenStopMulti := fun _ h _ => (tokenTable h).2.2.1

theorem dataResponseAccepted (x : BitVec 3) : Statement (.dataResponseAccepted x) := by
  intro cfg _ _
  show decodeDataResponseRx cfg [x ++ cfg.acceptVal] = _
  simp [decodeDataResponseRx, dataResponse_read]

theorem r1Valid (x : BitVec 7) : Statement (.r1Valid x) := fun _ _ _ => r1_read x

theorem readyByte : Statement .readyByte := fun _ _ _ => rfl

theorem dummyTx : Statement .dummyTx := fun _ h _ => (tokenTable h).2.2.2

theorem initDrive (l : Byte) : Statement (.initDrive l) := fun _ _ _ => rfl

theorem driveStatus (l : Byte) : Statement (.driveStatus l) := fun _ _ _ => rfl

theorem readSingle (l : Byte) (h : Handle) (s : Word) : Statement (.readSingle l h s) := by
  intro _ _ _
  show (decodeHandle (handleByte h)).map (fun b => readOf l b (bytesWord _ _ _ _) (_ ++ _)) = _
  rw [decodeHandle_handleByte, bytesWord_wordBytes]
  rfl

theorem readMulti (l : Byte) (h : Handle) (s : Word) (c : BitVec 16) : Statement (.readMulti l h s c) := by
  intro cfg _ hw
  show (decodeHandle (handleByte h)).map (fun b => readOf l b (bytesWord _ _ _ _) (_ ++ _)) = _
  rw [decodeHandle_handleByte, bytesWord_wordBytes, countBytes_append]
  have : c ≠ 1#16 := by simpa [Instr.wellFormed] using hw
  simp [Except.map, readOf, this]

theorem writeSingle (l : Byte) (h : Handle) (s : Word) : Statement (.writeSingle l h s) := by
  intro _ _ _
  show (decodeHandle (handleByte h)).map (fun b => writeOf l b (bytesWord _ _ _ _) (_ ++ _)) = _
  rw [decodeHandle_handleByte, bytesWord_wordBytes]
  rfl

theorem writeMulti (l : Byte) (h : Handle) (s : Word) (c : BitVec 16) : Statement (.writeMulti l h s c) := by
  intro cfg _ hw
  show (decodeHandle (handleByte h)).map (fun b => writeOf l b (bytesWord _ _ _ _) (_ ++ _)) = _
  rw [decodeHandle_handleByte, bytesWord_wordBytes, countBytes_append]
  have : c ≠ 1#16 := by simpa [Instr.wellFormed] using hw
  simp [Except.map, writeOf, this]

theorem ioctl (l c : Byte) (h : Handle) : Statement (.ioctl l c h) := by
  intro _ _ _
  show (decodeHandle (handleByte h)).map (fun b => Instr.ioctl l c b) = _
  rw [decodeHandle_handleByte]; rfl

theorem reservedOp5 : Statement .reservedOp5 := fun _ _ _ => rfl

theorem reservedOp6 : Statement .reservedOp6 := fun _ _ _ => rfl

theorem reservedOp7 : Statement .reservedOp7 := fun _ _ _ => rfl

theorem ioctlSync (l : Byte) (h : Handle) : Statement (.ioctlSync l h) := fun _ hc _ =>
  (decodeIoctlCode_handle _ _ _ _).trans (congrArg _ (ioctlTable hc l h).sync)

theorem ioctlSectorCount (l : Byte) (h : Handle) : Statement (.ioctlSectorCount l h) := fun _ hc _ =>
  (decodeIoctlCode_handle _ _ _ _).trans (congrArg _ (ioctlTable hc l h).sectorCount)

theorem ioctlBlockSize (l : Byte) (h : Handle) : Statement (.ioctlBlockSize l h) := fun _ hc _ =>
  (decodeIoctlCode_handle _ _ _ _).trans (congrArg _ (ioctlTable hc l h).blockSize)

theorem ioctlTrim (l : Byte) (h : Handle) : Statement (.ioctlTrim l h) := fun _ hc _ =>
  (decodeIoctlCode_handle _ _ _ _).trans (congrArg _ (ioctlTable hc l h).trim)

theorem ioctlRawType (l : Byte) (h : Handle) : Statement (.ioctlRawType l h) := fun _ hc _ =>
  (decodeIoctlCode_handle _ _ _ _).trans (congrArg _ (ioctlTable hc l h).rawType)

theorem ioctlRawCsd (l : Byte) (h : Handle) : Statement (.ioctlRawCsd l h) := fun _ hc _ =>
  (decodeIoctlCode_handle _ _ _ _).trans (congrArg _ (ioctlTable hc l h).rawCsd)

theorem ioctlRawCid (l : Byte) (h : Handle) : Statement (.ioctlRawCid l h) := fun _ hc _ =>
  (decodeIoctlCode_handle _ _ _ _).trans (congrArg _ (ioctlTable hc l h).rawCid)

theorem ioctlRawOcr (l : Byte) (h : Handle) : Statement (.ioctlRawOcr l h) := fun _ hc _ =>
  (decodeIoctlCode_handle _ _ _ _).trans (congrArg _ (ioctlTable hc l h).rawOcr)

theorem ioctlRawSdStatus (l : Byte) (h : Handle) : Statement (.ioctlRawSdStatus l h) := fun _ hc _ =>
  (decodeIoctlCode_handle _ _ _ _).trans (congrArg _ (ioctlTable hc l h).rawSdStatus)

theorem ioctlUnknown (l c : Byte) (h : Handle) : Statement (.ioctlUnknown l c h) := by
  intro cfg _ hw
  refine (decodeIoctlCode_handle _ _ _ _).trans (congrArg _ ?_)
  simp only [Instr.wellFormed, ioctlCodes, Bool.not_eq_true', List.contains_eq_mem, List.mem_cons, List.not_mem_nil, or_false,
    decide_eq_false_iff_not, not_or] at hw
  simp [ioctlOf, hw]

end Sys2Proof.Laws.RoundTrip
end

