-- ==== Sys2Proof/Laws/Script.lean ====
section
/-! SUPPORT. What the primitives draw from a scripted card, and a command from one that answers it at once. -/

namespace Sys2Proof.Machine

open Sys2Proof.Safety

variable (cfg : Params)

theorem nextRx_scripted {s : State} {b : Byte} {rest : List Byte} (tx : Byte) (h : s.cardIn = b :: rest) : nextRx tx s = b := by
  simp [nextRx, h]

theorem xchg_scripted {s : State} {b : Byte} {rest : List Byte} (tx : Byte) (h : s.cardIn = b :: rest) :
    (xchg tx s).1 = b ∧ (xchg tx s).2.cardIn = rest ∧ Appends s (xchg tx s).2 [.xchg tx b] := by
  refine ⟨nextRx_scripted tx h, by simp [xchg, h], ?_⟩
  have := appends_send tx s
  rwa [nextRx_scripted tx h] at this

theorem sendAll_scripted (bytes : List Byte) (s : State) (drawn rest : List Byte) (hl : drawn.length = bytes.length)
    (h : s.cardIn = drawn ++ rest) : (sendAll bytes s).cardIn = rest := by
  induction bytes generalizing s drawn with
  | nil => have : drawn = [] := by simpa using hl
           subst this; exact h
  | cons b bytes ih =>
    match drawn, hl with
    | x :: drawn, hl => exact ih (send b s) drawn (by simpa using hl) (xchg_scripted b (s := s) (b := x) h).2.1

theorem xmitBlock_scripted (n off : Nat) (s : State) (drawn rest : List Byte) (hl : drawn.length = n)
    (h : s.cardIn = drawn ++ rest) : (xmitBlock off n s).cardIn = rest := by
  induction n generalizing off s drawn with
  | zero => have : drawn = [] := by simpa using hl
            subst this; exact h
  | succ n ih =>
    match drawn, hl with
    | x :: drawn, hl => exact ih (off + 1) _ drawn (by simpa using hl) (xchg_scripted _ (s := s) (b := x) h).2.1

theorem recvBlock_scripted (payload : List Byte) (off : Nat) (s : State) (rest : List Byte) (hw : Memory.wf s.buf.mem = true)
    (h : s.cardIn = payload ++ rest) :
    (recvBlock cfg off payload.length s).cardIn = rest ∧ bufBytes off payload.length (recvBlock cfg off payload.length s) = payload := by
  induction payload generalizing off s with
  | nil => exact ⟨h, rfl⟩
  | cons b p ih =>
    have hc := xchg_scripted cfg.fillByte (s := s) (b := b) (rest := p ++ rest) h
    obtain ⟨h1, h2⟩ := ih (off + 1) (bufWrite off (xchg cfg.fillByte s).1 (xchg cfg.fillByte s).2) (memWrite_wf hw _ _) hc.2.1
    refine ⟨h1, ?_⟩
    rw [List.length_cons, bufBytes_succ]
    congr 1
    show bufRead off (recvBlock cfg (off + 1) p.length _) = b
    rw [(Runs.recvBlock (p := storesIn (off + 1) p.length) (off + 1) p.length (fun a h1 h2 => ⟨h1, h2⟩) .refl).bufOutside
      (by rintro ⟨h1, _⟩; omega)]
    have := bufRead_bufWrite (xchg cfg.fillByte s).2 hw off (xchg cfg.fillByte s).1 off
    rw [this, if_pos rfl, hc.1]

/-- A ready card is met at the first poll, whatever the clock. -/
theorem waitReady_scripted (ms : Nat) (s : State) (rest : List Byte) (h : s.cardIn = 0xFF#8 :: rest) :
    (waitReady cfg ms s).1 = true ∧ (waitReady cfg ms s).2.cardIn = rest ∧ Appends s (waitReady cfg ms s).2 [.xchg cfg.dummyTx 0xFF#8] := by
  have key : ∀ k (t : State), t.cardIn = 0xFF#8 :: rest → (waitReadyLoop cfg ms k t).1 = true ∧ (waitReadyLoop cfg ms k t).2.cardIn = rest ∧
      Appends t (waitReadyLoop cfg ms k t).2 [.xchg cfg.dummyTx 0xFF#8] := by
    intro k t ht
    have hc := xchg_scripted cfg.dummyTx ht
    cases k with
    | zero => exact ⟨by show isReady _ = true; rw [hc.1]; rfl, hc.2⟩
    | succ k => unfold waitReadyLoop; rw [hc.1, if_pos (by rfl)]; exact ⟨rfl, hc.2⟩
  obtain ⟨h1, h2, h3⟩ := key _ (setDPoll (setDeadline ms s).1 (setDeadline ms s).2) h
  exact ⟨h1, h2, appends_from_wire h3 rfl⟩

/-! ### A card that is ready and answers at the first poll -/

theorem sendAll_clock (bytes : List Byte) (s : State) : (sendAll bytes s).clockIn = s.clockIn := by
  induction bytes generalizing s with
  | nil => rfl
  | cons b rest ih => exact ih (send b s)

/-- A response at the first poll is returned. -/
theorem pollR1_answered (s : State) (r : Byte) (rest : List Byte) (hr : r.toNat < 128) (h : s.cardIn = r :: rest) :
    (pollR1 cfg s).1 = r ∧ (pollR1 cfg s).2.cardIn = rest ∧ (pollR1 cfg s).2.clockIn = s.clockIn := by
  obtain ⟨p1, p2, _⟩ := xchg_scripted cfg.dummyTx (s := setNPoll nR1Poll s) h
  have ha : r1Arrived (xchg cfg.dummyTx (setNPoll nR1Poll s)).1 = true := by rw [p1]; exact (r1Arrived_iff r).2 hr
  have e : pollR1 cfg s = ((xchg cfg.dummyTx (setNPoll nR1Poll s)).1,
      setNPoll 9 (setR1 (xchg cfg.dummyTx (setNPoll nR1Poll s)).1 (xchg cfg.dummyTx (setNPoll nR1Poll s)).2)) := if_pos ha
  rw [e]
  exact ⟨p1, p2, rfl⟩

/-- A ready card that answers at the first poll is met by the select, draws its six bytes under the frame, and is heard at once. -/
theorem sendOne_answered (c : Command) (hc : isStop cfg c = false) (s : State) (junk r : Byte) (rest : List Byte) (hr : r.toNat < 128)
    (h : s.cardIn = readyAnswer junk r ++ rest) :
    (sendOne cfg c s).1 = r ∧ (sendOne cfg c s).2.cardIn = rest ∧ (sendOne cfg c s).2.clockIn = s.clockIn.tail := by
  have h0 : (deselect cfg (setCmd c s)).cardIn = junk :: 0xFF#8 :: (List.replicate 6 junk ++ [r]) ++ rest :=
    (xchg_scripted cfg.dummyTx (s := csOff (setCmd c s)) h).2.1
  have h1 : (send cfg.dummyTx (csOn (deselect cfg (setCmd c s)))).cardIn = 0xFF#8 :: (List.replicate 6 junk ++ ([r] ++ rest)) := by
    have := (xchg_scripted cfg.dummyTx (s := csOn (deselect cfg (setCmd c s))) h0).2.1
    simpa using this
  obtain ⟨w1, w2, _⟩ := waitReady_scripted cfg tReadyMs _ _ h1
  have wc : (select cfg (setCmd c s)).2.clockIn = s.clockIn.tail := by
    have key : ∀ k (t : State), t.cardIn = 0xFF#8 :: (List.replicate 6 junk ++ ([r] ++ rest)) →
        (waitReadyLoop cfg tReadyMs k t).2.clockIn = t.clockIn := by
      intro k t ht
      have hx := xchg_scripted cfg.dummyTx ht
      cases k with
      | zero => rfl
      | succ k => unfold waitReadyLoop; rw [hx.1, if_pos (by rfl)]; rfl
    exact key _ (setDPoll _ (setDeadline tReadyMs _).2) h1
  have h2 := sendAll_scripted (frameBytes cfg c.op c.arg) (select cfg (setCmd c s)).2 (List.replicate 6 junk) (r :: rest) rfl w2
  unfold sendOne
  rw [if_neg (by simp [hc]), if_pos (show (select cfg (setCmd c s)).1 = true from w1)]
  obtain ⟨p1, p2, p3⟩ := pollR1_answered cfg (sendFrame cfg c (select cfg (setCmd c s)).2) r rest hr h2
  exact ⟨p1, p2, p3.trans ((sendAll_clock _ _).trans wc)⟩

/-- The same for a whole command, and for an application command whose prefix is answered with 1. -/
theorem sendCmd_answered (c : Command) (hc : isStop cfg c = false) (ha : c.acmd = false) (s : State) (junk r : Byte) (rest : List Byte)
    (hr : r.toNat < 128) (h : s.cardIn = readyAnswer junk r ++ rest) :
    (sendCmd cfg c s).1 = r ∧ (sendCmd cfg c s).2.cardIn = rest ∧ (sendCmd cfg c s).2.clockIn = s.clockIn.tail := by
  unfold sendCmd
  rw [if_neg (by simp [ha])]
  exact sendOne_answered cfg c hc s junk r rest hr h

theorem sendCmd_app_answered (hcfg : cfg.wf = true) (c : Command) (hc : isStop cfg c = false) (ha : c.acmd = true) (s : State)
    (junk r : Byte)
    (rest : List Byte) (hr : r.toNat < 128) (h : s.cardIn = readyAppAnswer junk r ++ rest) :
    (sendCmd cfg c s).1 = r ∧ (sendCmd cfg c s).2.cardIn = rest ∧ (sendCmd cfg c s).2.clockIn = s.clockIn.tail.tail := by
  obtain ⟨a1, a2, a3⟩ := sendOne_answered cfg appCmd (isStop_appCmd hcfg) s junk 0x01#8 (readyAnswer junk r ++ rest) (by decide)
    (by rw [h]; unfold readyAppAnswer; rw [List.append_assoc])
  obtain ⟨b1, b2, b3⟩ := sendOne_answered cfg c hc _ junk r rest hr a2
  unfold sendCmd sendApp
  rw [if_pos ha, a1, if_neg (by decide)]
  exact ⟨b1, b2, b3.trans (by rw [a3])⟩

end Sys2Proof.Machine
end

