-- ==== Sys2Proof/Tests/Slice0.lean ====
section
/-! SUPPORT. The model's own tests. Well-formedness refuses an ill-formed term for each check; every constructor's record, written
out from the spec's encodings, decodes to it; one step gives the values of 95_test_vectors.md; and for every statement with
hypotheses a concrete state meets them, at boundary values. -/

namespace Sys2Proof.Tests

open Sys2Proof.Machine Sys2Proof.Safety

set_option maxRecDepth 20000

/-! ### WellFormed -/

theorem test_wf_refuses_readMulti_of_one : (Instr.readMulti 0#8 .given 0#32 1#16).wellFormed Params.default = false := by decide
theorem test_wf_refuses_writeMulti_of_one : (Instr.writeMulti 0#8 .given 0#32 1#16).wellFormed Params.default = false := by decide
/-- A code is refused as unknown where the instance names it, and only there. -/
theorem test_wf_follows_the_configuration :
    (Instr.ioctlUnknown 0#8 60#8 .given).wellFormed { Params.default with rawTypeCode := 60#8 } = false ∧
    (Instr.ioctlUnknown 0#8 50#8 .given).wellFormed { Params.default with rawTypeCode := 60#8 } = true := by decide

/-- Configurations that are none of an engine: opcode bits in the prefix; two commands, two codes, two tokens, two masks or two result
codes that are the same; a raw query below 50; a mask of two bits; an HCS argument of 0. -/
theorem test_wf_refuses_confused_configurations :
    Params.default.wf = true ∧ { Params.default with cmdPrefixBits := 0x41#8 }.wf = false ∧
    { Params.default with opSendCsd := 8#6 }.wf = false ∧ { Params.default with rawCsdCode := 50#8 }.wf = false ∧
    { Params.default with rawCsdCode := 49#8 }.wf = false ∧ { Params.default with startMultiToken := 0xFE#8 }.wf = false ∧
    { Params.default with noMediumMask := 0x01#8 }.wf = false ∧ { Params.default with sdV1Mask := 0x60#8 }.wf = false ∧
    { Params.default with errorCode := 0#8 }.wf = false ∧ { Params.default with hcsArg := 0#32 }.wf = false := by decide

theorem test_wf_refuses_known_code : (Instr.ioctlUnknown 0#8 54#8 .given).wellFormed Params.default = false := by decide

/-! ### Decode: a record for every constructor. Frames from 95_test_vectors.md section 3.1; bytes from rules R82 to R85; selectors and
codes from rules R86 and R88. -/

theorem test_decode_plain_frames :
    decode Params.default .command [0x40#8, 0x00#8, 0x00#8, 0x00#8, 0x00#8, 0x95#8] = .ok .cmd0 ∧
    decode Params.default .command [0x41#8, 0x00#8, 0x00#8, 0x00#8, 0x00#8, 0x01#8] = .ok .cmd1 ∧
    decode Params.default .command [0x48#8, 0x00#8, 0x00#8, 0x01#8, 0xAA#8, 0x87#8] = .ok .cmd8 ∧
    decode Params.default .command [0x49#8, 0x00#8, 0x00#8, 0x00#8, 0x00#8, 0x01#8] = .ok .cmd9 ∧
    decode Params.default .command [0x4A#8, 0x00#8, 0x00#8, 0x00#8, 0x00#8, 0x01#8] = .ok .cmd10 ∧
    decode Params.default .command [0x4C#8, 0x00#8, 0x00#8, 0x00#8, 0x00#8, 0x01#8] = .ok .cmd12 ∧
    decode Params.default .command [0x4D#8, 0x00#8, 0x00#8, 0x00#8, 0x00#8, 0x01#8] = .ok .acmd13 ∧
    decode Params.default .command [0x50#8, 0x00#8, 0x00#8, 0x02#8, 0x00#8, 0x01#8] = .ok .cmd16 ∧
    decode Params.default .command [0x66#8, 0x00#8, 0x00#8, 0x00#8, 0x00#8, 0x01#8] = .ok .cmd38 ∧
    decode Params.default .command [0x77#8, 0x00#8, 0x00#8, 0x00#8, 0x00#8, 0x01#8] = .ok .cmd55 ∧
    decode Params.default .command [0x7A#8, 0x00#8, 0x00#8, 0x00#8, 0x00#8, 0x01#8] = .ok .cmd58 := by and_intros <;> rfl

theorem test_decode_frames_with_operands :
    decode Params.default .command [0x51#8, 0xFF#8, 0xFF#8, 0xFE#8, 0x00#8, 0x01#8] = .ok (.cmd17 0xFFFFFE00#32) ∧
    decode Params.default .command [0x52#8, 0x00#8, 0x00#8, 0x00#8, 0x08#8, 0x01#8] = .ok (.cmd18 8#32) ∧
    decode Params.default .command [0x57#8, 0x00#8, 0x00#8, 0x00#8, 0x02#8, 0x01#8] = .ok (.acmd23 2#8) ∧
    decode Params.default .command [0x58#8, 0x00#8, 0x00#8, 0x00#8, 0x05#8, 0x01#8] = .ok (.cmd24 5#32) ∧
    decode Params.default .command [0x59#8, 0x00#8, 0x00#8, 0x10#8, 0x00#8, 0x01#8] = .ok (.cmd25 0x1000#32) ∧
    decode Params.default .command [0x60#8, 0x00#8, 0x00#8, 0x01#8, 0x00#8, 0x01#8] = .ok (.cmd32 0x100#32) ∧
    decode Params.default .command [0x61#8, 0x00#8, 0x00#8, 0x01#8, 0xFF#8, 0x01#8] = .ok (.cmd33 0x1FF#32) ∧
    decode Params.default .command [0x69#8, 0x40#8, 0x00#8, 0x00#8, 0x00#8, 0x01#8] = .ok (.acmd41 true) ∧
    decode Params.default .command [0x69#8, 0x00#8, 0x00#8, 0x00#8, 0x00#8, 0x01#8] = .ok (.acmd41 false) := by and_intros <;> rfl

theorem test_decode_single_bytes :
    decode Params.default .tokenTx [0xFE#8] = .ok (.tokenStartBlock .toCard) ∧
      decode Params.default .tokenRx [0xFE#8] = .ok (.tokenStartBlock .fromCard) ∧
    decode Params.default .tokenTx [0xFC#8] = .ok .tokenStartMulti ∧ decode Params.default .tokenTx [0xFD#8] = .ok .tokenStopMulti ∧
    decode Params.default .tokenTx [0xFF#8] = .ok .dummyTx ∧ decode Params.default .readyRx [0xFF#8] = .ok .readyByte ∧
    decode Params.default .dataResponseRx [0x25#8] = .ok (.dataResponseAccepted 1#3) ∧
      decode Params.default .r1Rx [0x7F#8] = .ok (.r1Valid 0x7F#7) := by and_intros <;> rfl

theorem test_decode_host_selectors :
    decode Params.default .host [0x00#8, 0x00#8, 0x00#8, 0x00#8, 0x00#8, 0x00#8, 0x00#8, 0x00#8, 0x00#8, 0x00#8] = .ok (.initDrive 0#8) ∧
    decode Params.default .host [0x01#8, 0x03#8, 0x00#8, 0x00#8, 0x00#8, 0x00#8, 0x00#8, 0x00#8, 0x00#8, 0x00#8] = .ok (.driveStatus 3#8) ∧
    decode Params.default .host [0x02#8, 0x00#8, 0x00#8, 0x00#8, 0x00#8, 0x03#8, 0x00#8, 0x01#8, 0x00#8,
      0x01#8] = .ok (.readSingle 0#8 .given 3#32) ∧
    decode Params.default .host [0x02#8, 0x00#8, 0x00#8, 0x00#8, 0x00#8, 0x08#8, 0x00#8, 0x80#8, 0x00#8, 0x01#8] =
      .ok (.readMulti 0#8 .given 8#32 128#16) ∧
    decode Params.default .host [0x03#8, 0x00#8, 0x00#8, 0x00#8, 0x00#8, 0x05#8, 0x00#8, 0x01#8, 0x00#8,
      0x00#8] = .ok (.writeSingle 0#8 .null 5#32) ∧
    decode Params.default .host [0x03#8, 0x00#8, 0x00#8, 0x00#8, 0x10#8, 0x00#8, 0x00#8, 0x02#8, 0x00#8, 0x01#8] =
      .ok (.writeMulti 0#8 .given 0x1000#32 2#16) ∧
    decode Params.default .host [0x04#8, 0x00#8, 0x00#8, 0x00#8, 0x00#8, 0x00#8, 0x00#8, 0x00#8, 0x32#8,
      0x01#8] = .ok (.ioctl 0#8 50#8 .given) ∧
    decode Params.default .host [0x05#8, 0x00#8, 0x00#8, 0x00#8, 0x00#8, 0x00#8, 0x00#8, 0x00#8, 0x00#8, 0x00#8] = .ok .reservedOp5 ∧
    decode Params.default .host [0x06#8, 0x00#8, 0x00#8, 0x00#8, 0x00#8, 0x00#8, 0x00#8, 0x00#8, 0x00#8, 0x00#8] = .ok .reservedOp6 ∧
    decode Params.default .host [0x07#8, 0x00#8, 0x00#8, 0x00#8, 0x00#8, 0x00#8, 0x00#8, 0x00#8, 0x00#8,
      0x00#8] = .ok .reservedOp7 := by and_intros <;> rfl

theorem test_decode_ioctl_codes :
    decode Params.default .ioctlCode [0#8, 0x00#8, 0x00#8] = .ok (.ioctlSync 0#8 .null) ∧
    decode Params.default .ioctlCode [1#8, 0x00#8, 0x01#8] = .ok (.ioctlSectorCount 0#8 .given) ∧
    decode Params.default .ioctlCode [3#8, 0x00#8, 0x01#8] = .ok (.ioctlBlockSize 0#8 .given) ∧
    decode Params.default .ioctlCode [4#8, 0x00#8, 0x01#8] = .ok (.ioctlTrim 0#8 .given) ∧
    decode Params.default .ioctlCode [50#8, 0x00#8, 0x01#8] = .ok (.ioctlRawType 0#8 .given) ∧
    decode Params.default .ioctlCode [51#8, 0x00#8, 0x01#8] = .ok (.ioctlRawCsd 0#8 .given) ∧
    decode Params.default .ioctlCode [52#8, 0x00#8, 0x01#8] = .ok (.ioctlRawCid 0#8 .given) ∧
    decode Params.default .ioctlCode [53#8, 0x00#8, 0x01#8] = .ok (.ioctlRawOcr 0#8 .given) ∧
    decode Params.default .ioctlCode [54#8, 0x00#8, 0x01#8] = .ok (.ioctlRawSdStatus 0#8 .given) ∧
    decode Params.default .ioctlCode [2#8, 0x00#8, 0x01#8] = .ok (.ioctlUnknown 0#8 2#8 .given) := by and_intros <;> rfl

theorem test_decode_rejects_by_name :
    decode Params.default .command [0x42#8, 0x00#8, 0x00#8, 0x00#8, 0x00#8, 0x01#8] = .error .opcode ∧
    decode Params.default .command [0xC0#8, 0x00#8, 0x00#8, 0x00#8, 0x00#8, 0x95#8] = .error .startBits ∧
    decode Params.default .command [0x40#8, 0x00#8, 0x00#8, 0x00#8, 0x00#8, 0x01#8] = .error .crcByte ∧
    decode Params.default .command [0x50#8, 0x00#8, 0x00#8, 0x04#8, 0x00#8, 0x01#8] = .error .argument ∧
    decode Params.default .command [0x50#8] = .error .length ∧ decode Params.default .r1Rx [0x80#8] = .error .byteValue ∧
    decode Params.default .host [0x08#8, 0x00#8, 0x00#8, 0x00#8, 0x00#8, 0x00#8, 0x00#8, 0x00#8, 0x00#8, 0x00#8] = .error .absentField ∧
    decode Params.default .ioctlCode [0#8, 0x00#8, 0x02#8] = .error .handle := by and_intros <;> rfl

/-! ### Small states -/

/-- The state an outcome goes on with. -/
def after : Host.Outcome State Fault Refusal → State
  | .next t => t
  | .fault _ => State.reset
  | .refused _ => State.reset

/-- Whether an outcome is a next state. -/
def answers : Host.Outcome State Fault Refusal → Bool
  | .next _ => true
  | .fault _ => false
  | .refused _ => false

theorem answers_next {o : Host.Outcome State Fault Refusal} (h : answers o = true) : ∃ t, o = .next t := by
  cases o with
  | next t => exact ⟨t, rfl⟩
  | fault => cases h
  | refused => cases h

/-- An initialized drive of a card type, with a script of the card's bytes; deadlines answer false twice. -/
def drive (ty : CardType) (card : List Byte) : State :=
  { State.reset with status := ⟨false, false, false⟩, type := ty, cardIn := card, clockIn := List.replicate 8 2 }

/-- A drive that is not initialized. -/
def failedDrive (card : List Byte) : State :=
  { State.reset with status := ⟨true, false, false⟩, cardIn := card, clockIn := List.replicate 8 2 }

/-- A drive with a buffer of a size. -/
def sized (n : Nat) (s : State) : State := { s with buf := { s.buf with size := n } }

/-- `n` bytes 0xFF. -/
def ff (n : Nat) : List Byte := List.replicate n 0xFF#8

/-- A card ready at the first poll that answers a command on its second poll: 3 bytes of the select, 6 of the frame, 2 polls. -/
def bracket (r : Byte) : List Byte := ff 10 ++ [r]

/-- The CSD of 95_test_vectors.md section 3.8. -/
def csdV2 : List Byte :=
  [0x40#8, 0x0E#8, 0x00#8, 0x32#8, 0x5B#8, 0x59#8, 0x00#8, 0x00#8, 0x3B#8, 0x37#8, 0x7F#8, 0x80#8, 0x0A#8, 0x40#8, 0x00#8, 0x01#8]

/-! ### One step, against 95_test_vectors.md -/

/-- P1: type 0x18, reply `STATUS` 0, 96 exchanges, 15 transitions. -/
theorem test_initialize_high_capacity :
    let t := after (exec (.initDrive 0#8) (failedDrive (ff 10 ++ bracket 0x01#8 ++ bracket 0x01#8 ++ [0x00#8, 0x00#8, 0x01#8, 0xAA#8] ++
      bracket 0x01#8 ++ bracket 0x01#8 ++ bracket 0x01#8 ++ bracket 0x00#8 ++ bracket 0x00#8 ++ [0xC0#8, 0xFF#8, 0x80#8, 0x00#8] ++ ff 1)))
    t.type.toByte Params.default = 0x18#8 ∧ t.reply = some (.status ⟨false, false, false⟩) ∧ exchanges t.wire = 96 ∧
      csEvents t.wire = 15 := by decide

/-- P2: type 0x01, 77 exchanges; the `CMD41` frame is never sent. -/
theorem test_initialize_mmc :
    let t := after (exec (.initDrive 0#8) (failedDrive (ff 10 ++ bracket 0x01#8 ++ bracket 0x05#8 ++ bracket 0x05#8 ++ bracket 0x01#8 ++
      bracket 0x00#8 ++ bracket 0x00#8 ++ ff 1)))
    t.type.toByte Params.default = 0x01#8 ∧ exchanges t.wire = 77 ∧ t.cardIn = [] := by decide

/-- Section 3.9: `status(3)` with `STATUS` 0x04 replies 0x05. -/
theorem test_status_other_drive :
    (after (exec (.driveStatus 3#8) { drive .ofSdV1 [] with status := ⟨false, false, true⟩ })).reply =
      some (.status ⟨true, false, true⟩) := by decide

/-- P3: byte address 0x600, the token on the third poll; the 529 bytes of the script are drawn. -/
theorem test_read_one_sector :
    let t := after (exec (.readSingle 0#8 .given 3#32) (drive .ofSdV1 (bracket 0x00#8 ++ [0xFF#8, 0xFF#8, 0xFE#8] ++
      (List.range 512).map (fun i => BitVec.ofNat 8 (7 * i + 3)) ++ [0x12#8, 0x34#8, 0xFF#8])))
    t.reply = some (.result .ok) ∧ bufRead 1 t = 0x0A#8 ∧ t.cardIn = [] := by decide +kernel

/-- Section 3.10: the card stays busy, no frame byte is sent, 6 exchanges. -/
theorem test_read_busy_card :
    let t := after (exec (.readSingle 0#8 .given 0#32) (drive .ofSdV1 [0xFF#8, 0xFF#8, 0x00#8, 0x00#8, 0x00#8, 0xFF#8]))
    t.reply = some (.result .error) ∧ exchanges t.wire = 6 := by decide

/-- Section 3.10: `CMD18` rejected, no `CMD12`, 12 exchanges. -/
theorem test_read_multi_rejected :
    let t := after (exec (.readMulti 0#8 .given 8#32 2#16) (drive .ofSdV2Block (bracket 0x04#8 ++ ff 1)))
    t.reply = some (.result .error) ∧ exchanges t.wire = 12 ∧ t.cardIn = [] := by decide

/-- Section 3.10: one sector written; the 529 bytes of the script are drawn. -/
theorem test_write_one_sector :
    let t := after (exec (.writeSingle 0#8 .given 5#32) (drive .ofSdV2Block (bracket 0x00#8 ++ ff 516 ++ [0xE5#8, 0xFF#8])))
    t.reply = some (.result .ok) ∧ t.cardIn = [] := by decide +kernel

/-- Section 3.9: a bad parameter beats write protection. -/
theorem test_write_bad_count_beats_protection :
    (after (exec (.writeMulti 0#8 .given 0#32 129#16) { drive .ofSdV1 [] with status := ⟨false, false, true⟩ })).reply =
      some (.result .paramError) := by decide

/-- Section 3.10: `CMD25` rejected after the hint to an SD card: 11 + 11 + 11 + 1 exchanges. -/
theorem test_write_multi_rejected :
    let t := after (exec (.writeMulti 0#8 .given 2#32 2#16) (drive .ofSdV1 (bracket 0x00#8 ++ bracket 0x05#8 ++ bracket 0x04#8 ++ ff 1)))
    t.reply = some (.result .error) ∧ exchanges t.wire = 34 := by decide

/-- Section 3.8: sync of a ready card, 4 exchanges; of a busy one, `ERROR` after 6. -/
theorem test_sync :
    (let t := after (exec (.ioctlSync 0#8 .null) (drive .ofMmcV3 (ff 4)));
      t.reply = some (.result .ok) ∧ exchanges t.wire = 4) ∧
    (let t := after (exec (.ioctl 0#8 0#8 .null) (drive .ofMmcV3 [0xFF#8, 0xFF#8, 0x00#8, 0x00#8, 0x00#8, 0xFF#8]));
      t.reply = some (.result .error) ∧ exchanges t.wire = 6) := by decide

/-- Section 3.8: 15523840 sectors, 32 exchanges. -/
theorem test_sector_count :
    let t := after (exec (.ioctlSectorCount 0#8 .given)
      (drive .ofSdV2Block (bracket 0x00#8 ++ [0xFF#8, 0xFE#8] ++ csdV2 ++ [0xAA#8, 0xBB#8, 0xFF#8])))
    t.reply = some (.value 15523840#32) ∧ exchanges t.wire = 32 := by decide

/-- Section 3.8: an `SDv1` card, 128 sectors, 31 exchanges. -/
theorem test_block_size_sdv1 :
    let t := after (exec (.ioctlBlockSize 0#8 .given) (drive .ofSdV1 (bracket 0x00#8 ++ [0xFE#8] ++ List.replicate 10 0x00#8 ++
      [0x3F#8, 0x80#8, 0x00#8, 0x40#8, 0x00#8, 0x00#8, 0xAA#8, 0xBB#8, 0xFF#8])))
    t.reply = some (.value 128#32) ∧ exchanges t.wire = 31 := by decide

/-- Section 3.8: an `SDv2` card, 8192 sectors, 91 exchanges. -/
theorem test_block_size_sdv2 :
    let t := after (exec (.ioctlBlockSize 0#8 .given) (drive .ofSdV2Block (bracket 0x00#8 ++ bracket 0x00#8 ++ [0x00#8, 0xFE#8] ++
      List.replicate 10 0x00#8 ++ [0x90#8] ++ ff 56)))
    t.reply = some (.value 8192#32) ∧ exchanges t.wire = 91 := by decide

/-- P9: 67 exchanges, `OK`. -/
theorem test_trim :
    let s := drive .ofSdV2Block (bracket 0x00#8 ++ [0xFE#8] ++ csdV2 ++ [0xAA#8, 0xBB#8] ++ bracket 0x00#8 ++ bracket 0x00#8 ++
      bracket 0x00#8 ++ [0x00#8, 0x00#8, 0xFF#8, 0xFF#8])
    let t := after (exec (.ioctlTrim 0#8 .given) { s with buf := { s.buf with pair := (0x100#32, 0x1FF#32) } })
    t.reply = some (.result .ok) ∧ exchanges t.wire = 67 ∧ t.w.csdBuf = some csdV2 ∧ t.w.addr = some 0x1FF#32 := by decide

/-- Section 3.8: the type byte, the OCR, and the SD status of an MMC card. -/
theorem test_raw_queries :
    (let t := after (exec (.ioctlRawType 0#8 .given) (drive .ofSdV2Block (ff 1)));
      t.reply = some (.result .ok) ∧ bufRead 0 t = 0x18#8 ∧ exchanges t.wire = 1) ∧
    (let t := after (exec (.ioctlRawOcr 0#8 .given) (drive .ofSdV1 (bracket 0x00#8 ++ [0xC0#8, 0xFF#8, 0x80#8, 0x00#8, 0xFF#8])));
      t.reply = some (.result .ok) ∧ bufBytes 0 5 t = [0xC0#8, 0xFF#8, 0x80#8, 0x00#8, 0x00#8] ∧ exchanges t.wire = 16) ∧
    (let t := after (exec (.ioctlRawSdStatus 0#8 .given) (drive .ofMmcV3 (bracket 0x05#8 ++ ff 1)));
      t.reply = some (.result .error) ∧ exchanges t.wire = 12) := by decide

/-- Section 3.8: the CSD and the CID go to the buffer in the order received. -/
theorem test_raw_registers :
    (let t := after (exec (.ioctlRawCsd 0#8 .given) (drive .ofSdV1 (bracket 0x00#8 ++ [0xFE#8] ++ csdV2 ++ ff 3)));
      t.reply = some (.result .ok) ∧ bufBytes 0 16 t = csdV2) ∧
    (let t := after (exec (.ioctlRawCid 0#8 .given) (drive .ofSdV1 (bracket 0x00#8 ++ [0xFE#8] ++ csdV2 ++ ff 3)));
      t.reply = some (.result .ok) ∧ bufBytes 0 16 t = csdV2) := by decide

/-- Section 3.9: code 2 on an initialized drive. -/
theorem test_unknown_code : (after (exec (.ioctlUnknown 0#8 2#8 .given) (drive .ofSdV1 []))).reply = some (.result .paramError) := by
  decide

/-- Section 3.2: the poll returns the first byte with bit 7 clear, or the tenth. -/
theorem test_response_poll :
    (pollR1 Params.default (drive .ofSdV1 [0x80#8, 0xC1#8, 0x7F#8])).1 = 0x7F#8 ∧
    (pollR1 Params.default (drive .ofSdV1 (ff 9 ++ [0x80#8, 0x00#8]))).1 = 0x80#8 ∧
    (pollR1 Params.default (drive .ofSdV1 (ff 11))).2.cardIn = ff 1 := by decide

/-- Section 3.2: the prefix that returned 5 is returned, the target is not sent; the one that returned 1 lets it go. -/
theorem test_application_prefix :
    (let t := after (exec (.acmd41 false) (drive .ofSdV1 (bracket 0x05#8))); t.w.r = some 0x05#8 ∧ exchanges t.wire = 11) ∧
    (let t := after (exec (.acmd23 2#8) (drive .ofSdV1 (bracket 0x01#8 ++ bracket 0x00#8))); t.w.r = some 0x00#8 ∧ t.cardIn = []) := by
  decide

/-- Rule R78: an echo of 01 AB does not match; rule R90: the stop command has no transition and one stuff byte. -/
theorem test_if_cond_and_stop :
    (after (exec .cmd8 (drive .ofSdV1 (bracket 0x01#8 ++ [0x00#8, 0x00#8, 0x01#8, 0xAB#8])))).w.ok = some false ∧
    (let t := after (exec .cmd12 (drive .ofSdV1 (ff 7 ++ [0x00#8]))); t.w.r = some 0x00#8 ∧ csEvents t.wire = 0 ∧ t.cardIn = []) := by
  decide

/-- Section 3.5: the low five bits decide. -/
theorem test_data_response :
    [0xE5#8, 0x05#8, 0x25#8, 0xEB#8, 0xED#8, 0xFF#8, 0x00#8, 0x04#8].map (dataAccepted Params.default) =
      [true, true, true, false, false, false, false, false] := by decide

/-- Section 3.5: a stop token after a busy card; none after a timeout. -/
theorem test_stop_token :
    (let t := after (exec .tokenStopMulti (drive .ofSdV1 [0x00#8, 0x00#8, 0xFF#8, 0xFF#8])); t.w.ok = some true ∧ exchanges t.wire = 4) ∧
    (let t := after (exec .tokenStopMulti { drive .ofSdV1 [0x00#8, 0x00#8] with clockIn := [1] });
      t.w.ok = some false ∧ exchanges t.wire = 2) := by decide

/-- Section 3.6: the conversion wraps on a byte-addressed card and is the identity on a block-addressed one. -/
theorem test_address_conversion :
    convertAddress .ofSdV1 3#32 = 0x600#32 ∧ convertAddress .ofSdV2 0x800003#32 = 0x600#32 ∧
    convertAddress .ofSdV2Block 0xFFFFFFFF#32 = 0xFFFFFFFF#32 := by decide

/-- Section 3.8: the corner cases of the capacity and of the erase-enabled test. -/
theorem test_csd_corners :
    csdCapacity Params.default (List.replicate 5 0x00#8 ++ [0x59#8, 0x03#8, 0xFF#8, 0xC0#8, 0x03#8, 0x80#8] ++
      List.replicate 5 0x00#8) = 2097152#32 ∧
    csdCapacity Params.default (0x40#8 :: List.replicate 6 0x00#8 ++ [0xFF#8, 0xFF#8, 0xFF#8] ++ List.replicate 6 0x00#8) = 0#32 ∧
    eraseEnabled Params.default (List.replicate 10 0x00#8 ++ [0x80#8] ++ List.replicate 5 0x00#8) = false ∧
    eraseEnabled Params.default (List.replicate 10 0x00#8 ++ [0xC0#8] ++ List.replicate 5 0x00#8) = true := by decide

/-- A table word placed by `withFetchWord` runs in the very next step from reset. -/
theorem test_fetched_words_run :
    answers (step (State.reset.withFetchWord 48 0x520000000001)) = true ∧ answers (step (State.reset.withFetchWord 8 0xFC)) = true ∧
    answers (step (State.reset.withFetchWord 8 0x01)) = true ∧ answers (step (State.reset.withFetchWord 8 0x05)) = false := by decide

/-! ### Witnesses: the hypotheses of every statement that has some are met together, each clause at its boundary values -/

/-- A command or request presented next. -/
def presenting (port : Port) (bytes : List Byte) (s : State) : State := { s with agenda := [.present port bytes 1 0] }

/-- A host request that a drive answers without the transport: `status(0)`. -/
def statusRecord : List Byte := [0x01#8, 0x00#8, 0x00#8, 0x00#8, 0x00#8, 0x00#8, 0x00#8, 0x00#8, 0x00#8, 0x00#8]

/-- `initialize(0)`. -/
def initRecord : List Byte := [0x00#8, 0x00#8, 0x00#8, 0x00#8, 0x00#8, 0x00#8, 0x00#8, 0x00#8, 0x00#8, 0x00#8]

theorem drive_launchable (ty : CardType) (card : List Byte) : Launchable (drive ty card) :=
  ⟨rfl, rfl, rfl, by show Params.default.wf = true; decide⟩

theorem sized_launchable (n : Nat) (ty : CardType) (card : List Byte) : Launchable (sized n (drive ty card)) :=
  ⟨rfl, rfl, rfl, by show Params.default.wf = true; decide⟩

theorem drive_inv (ty : CardType) (card : List Byte) (h : ty.legal = true) (hn : ty ≠ CardType.unknown) : Inv (drive ty card) :=
  ⟨h, fun _ => hn, fun _ => rfl, rfl, ⟨rfl, rfl, trivial, rfl⟩, by show Params.default.wf = true; decide⟩

theorem witness_DecodeOfEncodeIsInstruction : Params.default.wf = true ∧
    (Instr.readMulti 0#8 .given 8#32 128#16).wellFormed Params.default = true ∧
    (Instr.ioctlUnknown 0#8 255#8 .null).wellFormed Params.default = true ∧
      (Instr.cmd17 0xFFFFFFFF#32).wellFormed Params.default = true := by decide

theorem witness_EncodeOfDecodeIsRecord : decode Params.default .host statusRecord = .ok (.driveStatus 0#8) := rfl

/-- A host record; a command from idle; a command after another; a record that is no instruction. -/
theorem witness_StepRunsDecodedInstruction :
    ((presenting .host statusRecord (drive .ofSdV1 [])).agenda = [.present .host statusRecord 1 0] ∧
      decode Params.default .host statusRecord = .ok (.driveStatus 0#8)) ∧
    (decode Params.default .tokenTx [0xFF#8] = .ok .dummyTx ∧ Port.tokenTx ≠ .host ∧ Port.tokenTx ≠ .ioctlCode ∧
      (drive .ofSdV1 []).seq = .idle) ∧
    ({ drive .ofSdV1 [] with seq := .issuing }.seq ≠ .idle) ∧ decode Params.default .tokenTx [0x00#8] = .error .byteValue :=
  ⟨⟨rfl, rfl⟩, ⟨rfl, by decide, by decide, rfl⟩, by decide, rfl⟩

theorem witness_FetchedWordRunsNext : decodeTableWord 48 0x510000060001 = some (.cmd17 0x600#32) ∧
    decodeTableWord 8 0x00 = some (.initDrive 0#8) ∧ State.reset.params.wf = true ∧
    (Instr.cmd17 0x600#32).wellFormed State.reset.params = true ∧ (Instr.initDrive 0#8).wellFormed State.reset.params = true :=
  ⟨rfl, rfl, by decide, rfl, rfl⟩

/-- A media event and a buffer fill in idle and in an operation; no move left in idle and in an operation. -/
theorem witness_EnvironmentMovesAndQuietSteps :
    ({ drive .ofSdV1 [] with agenda := [.media true false true] }.seq = .idle) ∧
    ({ drive .ofSdV1 [] with agenda := [.media true false true], seq := .issuing }.seq ≠ .idle) ∧
    ({ drive .ofSdV1 [] with agenda := [.buffer 512 [(1, 5#8), (0, 7#8), (1, 9#8)] (0#32, 1#32)] }.seq = .idle) ∧
    ({ drive .ofSdV1 [] with agenda := [.buffer 0 [] (0#32, 1#32)], seq := .issuing }.seq ≠ .idle) ∧
    ((drive .ofSdV1 []).agenda = [] ∧ (drive .ofSdV1 []).seq = .idle) ∧ { drive .ofSdV1 [] with seq := .issuing }.seq ≠ .idle := by
  decide

/-- A buffer fill (rule R334): the last cell given for an offset counts, the pair is kept, and other offsets read as zero. -/
theorem test_buffer_fill :
    let t := after (step { drive .ofSdV1 [] with agenda := [.buffer 512 [(1, 5#8), (0, 7#8), (1, 9#8)] (3#32, 4#32)] })
    bufBytes 0 3 t = [7#8, 9#8, 0#8] ∧ t.buf.size = 512 ∧ t.buf.pair = (3#32, 4#32) ∧ Memory.wf t.buf.mem = true := by decide

/-- The invariant and a step: a host request, a command, `initialize(0)`, a media event. -/
theorem witness_StepKeepsInvariant :
    (Inv (presenting .host statusRecord (drive .ofSdV1 [])) ∧
      answers (step (presenting .host statusRecord (drive .ofSdV1 []))) = true) ∧
    answers (step (presenting .tokenTx [0xFF#8] (drive .ofSdV1 [0xFF#8]))) = true ∧
    answers (step (presenting .host initRecord (failedDrive (ff 30)))) = true ∧
    answers (step { drive .ofSdV1 [] with agenda := [.media true false true] }) = true :=
  ⟨⟨⟨rfl, fun _ => by decide, fun _ => rfl, rfl, ⟨rfl, rfl, trivial, rfl⟩, by show Params.default.wf = true; decide⟩, by decide⟩,
    by decide, by decide, by decide⟩

/-- The three writers at work: `initialize(0)` clears and sets `NOT_INITIALIZED` and writes `TYPE`; a media event sets all three. -/
theorem witness_SessionWrittenOnlyByItsWriters :
    (let t := after (step (presenting .host initRecord (failedDrive (ff 10 ++ bracket 0x01#8 ++ bracket 0x05#8 ++ bracket 0x05#8 ++
        bracket 0x00#8 ++ bracket 0x00#8 ++ ff 1)))); t.status.notInitialized = false ∧ t.type = .ofMmcV3) ∧
    (let t := after (step (presenting .host initRecord (drive .ofSdV1 (ff 30)))); t.status.notInitialized = true) ∧
    (let t := after (step { drive .ofSdV1 [] with agenda := [.media true true true] }); t.status = ⟨true, true, true⟩) := by decide

theorem witness_EveryInstructionDrawsInOrder :
    (¬ isAwaitedRow .dummyTx ∧ answers (exec .dummyTx (drive .ofSdV1 [0x5A#8])) = true) ∧
    (isAwaitedRow .readyByte ∧ answers (exec .readyByte (drive .ofSdV1 [0x5A#8])) = true) ∧
    isAwaitedRow (.tokenStartBlock .fromCard) ∧ isAwaitedRow (.r1Valid 5#7) ∧ isAwaitedRow (.dataResponseAccepted 7#3) := by
  unfold isAwaitedRow; decide

/-- Uninitialized; each parameter out of its range, counts 0 and 129; counts 1 and 128 on a write-protected drive. -/
theorem witness_ReadWriteChecksInOrder :
    ((failedDrive []).seq = .idle ∧ (failedDrive []).status.notInitialized = true ∧ (failedDrive []).writeCapable = true) ∧
    ((drive .ofSdV1 []).seq = .idle ∧ (drive .ofSdV1 []).status.notInitialized = false) ∧
    ((1#8).toNat ≠ 0 ∧ (0#16).toNat < 1 ∧ 128 < (129#16).toNat) ∧
    (let s := { drive .ofSdV1 [] with status := ⟨false, true, true⟩ };
      s.seq = .idle ∧ s.status.notInitialized = false ∧ s.status.writeProtected = true ∧ s.writeCapable = true) ∧
    (0#8).toNat = 0 ∧ 1 ≤ (1#16).toNat ∧ (128#16).toNat ≤ 128 := by decide

/-- Uninitialized; another drive; codes 2, 5, 49, 55, 255; a null buffer with code 1; `trim` with a null buffer. -/
theorem witness_IoctlChecksInOrder :
    ((failedDrive []).seq = .idle ∧ (failedDrive []).status.notInitialized = true) ∧
    ((drive .ofSdV1 []).seq = .idle ∧ (drive .ofSdV1 []).status.notInitialized = false) ∧
    (Instr.ioctl 0#8 5#8 .given = .ioctl 0#8 5#8 .given ∨ Instr.ioctl 0#8 5#8 .given = ioctlOf Params.default 5#8 0#8 .given) ∧
    ((1#8).toNat ≠ 0 ∧ (∀ c ∈ [2#8, 5#8, 49#8, 55#8, 255#8], ¬ isKnownCode Params.default c) ∧ (1#8).toNat ≠ 4) ∧
    ((0#8).toNat = 0 ∧ (4#8).toNat = 4) := by
  unfold isKnownCode; decide

theorem witness_UnknownIoctlCodeIsParamError : (drive .ofSdV1 []).seq = .idle ∧ (drive .ofSdV1 []).status.notInitialized = false ∧
    ¬ isKnownCode Params.default 2#8 ∧ ¬ isKnownCode Params.default 255#8 ∧ Params.default.wf = true := by unfold isKnownCode; decide

theorem witness_IllegalHostRequests :
    (5 ≤ (5#8).toNat ∧ (7#8).toNat ≤ 7 ∧ decode Params.default .host (0x05#8 :: List.replicate 9 0x00#8) = .ok .reservedOp5 ∧
      decode Params.default .host (0x07#8 :: List.replicate 9 0x00#8) = .ok .reservedOp7) ∧
    ((drive .ofSdV1 []).seq = .idle ∧ (drive .ofSdV1 []).status.notInitialized = false ∧ (drive .ofSdV1 []).writeCapable = true) ∧
    ((255#8).toNat ≠ 0 ∧ (0#16).toNat < 1 ∧ 128 < (129#16).toNat ∧ ¬ isKnownCode Params.default 2#8) :=
  ⟨⟨by decide, by decide, rfl, rfl⟩, by decide, by unfold isKnownCode; decide⟩

/-- A read-only instance, idle, with an `OFF` and room for a sector. -/
theorem witness_TransmitNeedsWriteCapable :
    let s := sized 512 { drive .ofSdV1 [] with writeCapable := false }
    s.writeCapable = false ∧ s.seq = .idle ∧ 512 ≤ s.buf.size := by decide

theorem witness_OutstandingAndUndersizedAreRefused :
    (isHostRow (.driveStatus 0#8) ∧ Instr.driveStatus 0#8 ≠ .reservedOp5 ∧ Instr.driveStatus 0#8 ≠ .reservedOp6 ∧
      Instr.driveStatus 0#8 ≠ .reservedOp7 ∧ { drive .ofSdV1 [] with seq := .issuing }.seq ≠ .idle) ∧
    (Launchable (sized 511 (drive .ofSdV1 [])) ∧ (sized 511 (drive .ofSdV1 [])).buf.size < (1#16).toNat * 512 ∧
      (sized 65535 (drive .ofSdV1 [])).buf.size < (128#16).toNat * 512 ∧ (sized 511 (drive .ofSdV1 [])).writeCapable = true ∧
      (sized 511 (drive .ofSdV1 [])).status.writeProtected = false) ∧
    (Launchable (sized 0 (drive .ofSdV1 [])) ∧ (sized 0 (drive .ofSdV1 [])).buf.size < 1 ∧ (sized 3 (drive .ofSdV1 [])).buf.size < 4 ∧
      (sized 15 (drive .ofSdV1 [])).buf.size < 16 ∧ (sized 63 (drive .ofSdV1 [])).buf.size < 64) :=
  ⟨⟨.inl rfl, by decide, by decide, by decide, by decide⟩,
    ⟨sized_launchable _ _ _, by decide, by decide, by decide, by decide⟩,
    sized_launchable _ _ _, by decide, by decide, by decide, by decide⟩

theorem witness_StatusRepliesAndWritesNothing : (failedDrive []).seq = .idle := rfl

theorem witness_InitializeFinish : (failedDrive []).seq = .idle := rfl

theorem witness_InitializeFollowsItsStateMachine : (failedDrive (ff 30)).seq = .idle ∧ (failedDrive (ff 30)).params.wf = true ∧
    answers (exec (.initDrive 0#8) (failedDrive (ff 30))) = true := by decide

theorem witness_InitializeBeginsWithPowerUpClocks : (drive .ofSdV1 []).seq = .idle ∧ (drive .ofSdV1 []).params.wf = true ∧
    (drive .ofSdV1 []).params = Params.default ∧ Inv (drive .ofSdV1 []) :=
  ⟨rfl, by decide, rfl, drive_inv _ _ (by decide) (by decide)⟩

/-- A drive at the default parameters, as every statement about a command presented by itself assumes. -/
theorem witness_PlainCommandsSendTheirFrame : (drive .ofSdV1 []).params.wf = true := by decide

theorem witness_ReceivingCommandsFillBuf : (sized 512 (drive .ofSdV1 [])).params.wf = true ∧
    Memory.wf (sized 512 (drive .ofSdV1 [])).buf.mem = true ∧
    16 ≤ (sized 16 (drive .ofSdV1 [])).buf.size ∧ 64 ≤ (sized 64 (drive .ofSdV1 [])).buf.size ∧
    512 ≤ (sized 512 (drive .ofSdV1 [])).buf.size := by decide

/-- A drive between two commands of a sequence whose issuer gave a `COUNT` and an `OFF`. -/
def counted (n off : Fin 129) (s : State) : State :=
  { s with seq := .issuing, w := { Working.empty with count := some n, off := some off } }

/-- A bare `CMD18` with no `COUNT`: it ends where the card rejects it or sends no token, and comes to `COUNT` after a first sector. -/
theorem witness_readReachesCount :
    [bracket 0x04#8, bracket 0x00#8 ++ [0x00#8], bracket 0x00#8 ++ [0xFE#8] ++ ff 514].map
      (fun card => readReachesCount Params.default 8#32 (drive .ofSdV1 card)) = [false, false, true] ∧
    answers (exec (.cmd18 8#32) (drive .ofSdV1 (bracket 0x04#8))) = true ∧ (drive .ofSdV1 []).w.count = none ∧
    512 ≤ (sized 512 (drive .ofSdV1 [])).buf.size := by decide +kernel

/-- A bare `CMD25` with no `COUNT`: it ends where the card rejects it or its first packet, and else comes to `COUNT`. -/
theorem witness_writeReachesCount :
    [bracket 0x04#8, bracket 0x00#8 ++ ff 516 ++ [0xEB#8], bracket 0x00#8 ++ ff 516 ++ [0xE5#8]].map
      (fun card => writeReachesCount Params.default 8#32 (drive .ofSdV1 card)) = [false, false, true] ∧
    answers (exec (.cmd25 8#32) (drive .ofSdV1 (bracket 0x04#8))) = true := by decide +kernel

theorem witness_MultipleReadCommandFillsBuf :
    (∀ n ∈ [(0 : Fin 129), 1, 128], (counted n 0 (drive .ofSdV1 [])).w.count = some n ∧
      n.val * 512 ≤ (counted n 0 (drive .ofSdV1 [])).buf.size) ∧ (drive .ofSdV1 []).params.wf = true ∧
    Memory.wf (drive .ofSdV1 []).buf.mem = true ∧ (drive .ofSdV1 []).w.count = none := by decide

theorem witness_TransmittingCommandsSendBuf :
    (sized 512 (drive .ofSdV1 [])).writeCapable = true ∧ 512 ≤ (sized 512 (drive .ofSdV1 [])).buf.size ∧
    (∀ n ∈ [(1 : Fin 129), 128], (counted n 0 (drive .ofSdV1 [])).w.count = some n ∧
      n.val * 512 ≤ (counted n 0 (drive .ofSdV1 [])).buf.size ∧ 1 ≤ n.val) ∧ (drive .ofSdV1 []).params.wf = true ∧
    (drive .ofSdV1 []).w.count = none := by decide

theorem witness_ReceivedStartTokenOpensPacket : Memory.wf (sized 512 (drive .ofSdV1 [])).buf.mem = true ∧
    512 ≤ (sized 512 (drive .ofSdV1 [])).buf.size := by decide

theorem witness_SentStartTokensOpenPackets :
    (drive .ofSdV1 []).writeCapable = true ∧ 512 ≤ (sized 512 (drive .ofSdV1 [])).buf.size ∧
    (counted 1 127 (drive .ofSdV1 [])).w.off = some 127 ∧ (drive .ofSdV1 []).params.wf = true ∧
    (127 : Fin 129).val * 512 + 512 ≤ (counted 1 127 (drive .ofSdV1 [])).buf.size ∧
    (sized 66048 (counted 1 128 (drive .ofSdV1 []))).w.off = some 128 ∧
    (sized 66048 (counted 1 128 (drive .ofSdV1 []))).writeCapable = true ∧
    (sized 66048 (counted 1 128 (drive .ofSdV1 []))).params.wf = true ∧
    (128 : Fin 129).val * 512 + 512 ≤ (sized 66048 (counted 1 128 (drive .ofSdV1 []))).buf.size ∧
    (drive .ofSdV1 []).w.off = none := by decide

theorem witness_StopTokenSendsNothingElse : (drive .ofSdV1 []).writeCapable = true := rfl

theorem witness_SingleBytesEndTheirWait : (drive .ofSdV1 []).writeCapable = true ∧ (drive .ofSdV1 [0x5A#8]).cardIn = [0x5A#8] := by
  decide

/-- A byte with bit 7 clear at the first poll and at the tenth; ten bytes with bit 7 set. -/
theorem witness_ResponsePollReturnsLastByteRead :
    ((drive .ofSdV1 [0x7F#8]).cardIn = [] ++ 0x7F#8 :: [] ∧ (0x7F#8).toNat < 128) ∧
    ((drive .ofSdV1 (ff 9 ++ [0x00#8])).cardIn = ff 9 ++ 0x00#8 :: [] ∧ (∀ b ∈ ff 9, 128 ≤ b.toNat) ∧ (0x00#8).toNat < 128 ∧
      (ff 9).length ≤ 9) ∧
    ((drive .ofSdV1 (ff 9 ++ [0x80#8])).cardIn = ff 9 ++ 0x80#8 :: [] ∧ (ff 9).length = 9) := by decide

/-- Two false answers: ready at the first poll, at the third and last, and never. -/
theorem witness_ReadyWaitTestsByteBeforeDeadline :
    (drive .ofSdV1 []).clockIn = 2 :: List.replicate 7 2 ∧
    ((drive .ofSdV1 [0xFF#8]).cardIn = [] ++ 0xFF#8 :: []) ∧
    ((drive .ofSdV1 [0x00#8, 0xFE#8, 0xFF#8]).cardIn = [0x00#8, 0xFE#8] ++ 0xFF#8 :: [] ∧ ∀ b ∈ [0x00#8, 0xFE#8], b ≠ 0xFF#8) ∧
    ((drive .ofSdV1 [0x00#8, 0x00#8, 0x00#8]).cardIn = [0x00#8, 0x00#8, 0x00#8] ++ [] ∧ ∀ b ∈ [0x00#8, 0x00#8, 0x00#8], b ≠ 0xFF#8) := by
  decide

/-- Two false answers: the token at the third and last poll; another byte there; only idle bytes. -/
theorem witness_TokenWaitHasThreeOutcomes :
    (drive .ofSdV1 []).clockIn = 2 :: List.replicate 7 2 ∧ Memory.wf (drive .ofSdV1 []).buf.mem = true ∧
    ((drive .ofSdV1 (ff 2 ++ [0xFE#8, 0x11#8, 0x12#8, 0x34#8])).cardIn = List.replicate 2 0xFF#8 ++ 0xFE#8 :: [0x11#8] ++
      [0x12#8, 0x34#8] ++ []) ∧
    ((drive .ofSdV1 (ff 2 ++ [0x09#8])).cardIn = List.replicate 2 0xFF#8 ++ 0x09#8 :: [] ∧ 0x09#8 ≠ 0xFF#8 ∧ 0x09#8 ≠ 0xFE#8) ∧
    (drive .ofSdV1 (ff 3)).cardIn = List.replicate 3 0xFF#8 ++ [] := by decide

theorem witness_DataResponseDecidesTransmit : Params.default.wf = true ∧ (ff 515).length = 515 ∧
    (drive .ofSdV1 (0xFF#8 :: ff 515 ++ [0xEB#8])).cardIn = 0xFF#8 :: ff 515 ++ 0xEB#8 :: [] :=
  ⟨by decide, List.length_replicate, rfl⟩

theorem witness_ReadSingleDeliversOnePacket : Launchable (sized 512 (drive .ofSdV1 [])) ∧
    512 ≤ (sized 512 (drive .ofSdV1 [])).buf.size := ⟨sized_launchable _ _ _, by decide⟩

theorem witness_ReadMultiDeliversItsSectors :
    (Launchable (sized 1024 (drive .ofSdV2Block [])) ∧ 2 ≤ (2#16).toNat ∧
      (2#16).toNat * 512 ≤ (sized 1024 (drive .ofSdV2Block [])).buf.size) ∧
    Launchable (drive .ofSdV2Block []) ∧ (128#16).toNat ≤ 128 ∧ (128#16).toNat * 512 ≤ (drive .ofSdV2Block []).buf.size :=
  ⟨⟨sized_launchable _ _ _, by decide, by decide⟩, drive_launchable _ _, by decide, by decide⟩

theorem witness_WriteSingleSendsOnePacket : Launchable (sized 512 (drive .ofSdV1 [])) ∧ (sized 512 (drive .ofSdV1 [])).writeCapable = true ∧
    (sized 512 (drive .ofSdV1 [])).status.writeProtected = false ∧ 512 ≤ (sized 512 (drive .ofSdV1 [])).buf.size :=
  ⟨sized_launchable _ _ _, rfl, rfl, by decide⟩

theorem witness_WriteMultiSendsItsSectors :
    (Launchable (sized 1024 (drive .ofMmcV3 [])) ∧ (drive .ofMmcV3 []).writeCapable = true ∧
      (drive .ofMmcV3 []).status.writeProtected = false ∧ 2 ≤ (2#16).toNat ∧
      (2#16).toNat * 512 ≤ (sized 1024 (drive .ofMmcV3 [])).buf.size) ∧
    Launchable (drive .ofSdV2Block []) ∧ (128#16).toNat ≤ 128 ∧ (128#16).toNat * 512 ≤ (drive .ofSdV2Block []).buf.size :=
  ⟨⟨sized_launchable _ _ _, rfl, rfl, by decide, by decide⟩, drive_launchable _ _, by decide, by decide⟩

theorem witness_ReadyCardMovesOneSector :
    (Launchable (drive .ofSdV1 ([0x00#8, 0x00#8, 0xFF#8] ++ ff 6 ++ [0x00#8, 0xFE#8] ++ ff 512 ++ [0x12#8, 0x34#8, 0xFF#8] ++ [])) ∧
      (ff 6).length = 6 ∧ (ff 512).length = 512) ∧
    (Launchable (drive .ofSdV1 ([0x00#8, 0x00#8, 0xFF#8] ++ ff 6 ++ [0x00#8, 0xFF#8] ++ ff 515 ++ [0xE5#8, 0xFF#8] ++ [])) ∧
      (ff 515).length = 515 ∧ (0xE5#8).toNat % 32 = 5) ∧
    512 ≤ (drive .ofSdV1 []).buf.size ∧ (drive .ofSdV1 []).writeCapable = true ∧ (drive .ofSdV1 []).status.writeProtected = false :=
  ⟨⟨drive_launchable _ _, List.length_replicate, List.length_replicate⟩,
    ⟨drive_launchable _ _, List.length_replicate, by decide⟩, by decide, rfl, rfl⟩

theorem witness_SyncIsOneSelect : Launchable (drive .ofSdV1 []) := drive_launchable _ _

theorem witness_SectorCountReadsCsd : Launchable (drive .ofSdV1 []) := drive_launchable _ _

/-- An `SDv2` card; an MMC card; an `SDv1` card whose CSD byte 13 is 0x40, and one whose byte 13 is 0x3F. -/
theorem witness_BlockSizeReadsItsRegister :
    let sdv1 (b : Byte) := drive .ofSdV1 (bracket 0x00#8 ++ [0xFE#8] ++ List.replicate 13 0x00#8 ++ [b] ++ ff 5)
    let reg (b : Byte) := (granularityRegister Params.default (beginOperation (.control 0x03#8) (sdv1 b))).1
    (drive .ofSdV2 []).type.sdV2 = true ∧ (drive .ofMmcV3 []).type.sdV1 = false ∧
    ((reg 0x40#8).map fun bytes => (bytes.getD 13 0x00#8).toNat) = some 64 ∧
    ((reg 0x3F#8).map fun bytes => (bytes.getD 13 0x00#8).toNat) = some 63 ∧
    (sdv1 0x3F#8).params.registerFunctions = .specDefault ∧ (sdv1 0x3F#8).type.sdV2 = false ∧ (sdv1 0x3F#8).type.sdV1 = true := by decide

theorem witness_TrimErasesItsRange : Launchable (drive .ofSdV1 []) := drive_launchable _ _

theorem witness_RawTypeStoresTypeByte : Launchable (sized 1 (drive .ofSdV1 [])) ∧ 1 ≤ (sized 1 (drive .ofSdV1 [])).buf.size :=
  ⟨sized_launchable _ _ _, by decide⟩

theorem witness_RawRegistersStorePackets : Launchable (sized 16 (drive .ofSdV1 [])) ∧ 16 ≤ (sized 16 (drive .ofSdV1 [])).buf.size ∧
    64 ≤ (sized 64 (drive .ofSdV1 [])).buf.size := ⟨sized_launchable _ _ _, by decide, by decide⟩

theorem witness_RawOcrStoresTrailingBytes : Launchable (sized 4 (drive .ofSdV1 [])) ∧ 4 ≤ (sized 4 (drive .ofSdV1 [])).buf.size :=
  ⟨sized_launchable _ _ _, by decide⟩

theorem witness_IoctlEndsDeselected :
    (Launchable (sized 64 (drive .ofMmcV3 [])) ∧ (∀ c ∈ [0#8, 54#8], isKnownCode Params.default c ∧
      ioctlBufBytes Params.default c ≤ (sized 64 (drive .ofMmcV3 [])).buf.size) ∧ (drive .ofMmcV3 []).type.sdV1 = false) ∧
    answers (exec (.ioctl 0#8 0#8 .null) (drive .ofSdV1 (ff 4))) = true :=
  ⟨⟨sized_launchable _ _ _, by unfold isKnownCode; decide, rfl⟩, by decide⟩

/-- A version-2 CSD; another whose exponent is 9 and one whose exponent is 18. -/
theorem witness_CsdFunctionsOfBytes : Params.default.registerFunctions = .specDefault ∧
    csdV2.length = 16 ∧ (csdV2.getD 0 0x00#8).toNat / 64 = 1 ∧
    (let csd := List.replicate 5 0x00#8 ++ [0x07#8] ++ List.replicate 10 0x00#8;
      csd.length = 16 ∧ (csd.getD 0 0x00#8).toNat / 64 ≠ 1 ∧ csdExponentV1 csd = 9) ∧
    csdExponentV1 (List.replicate 5 0x00#8 ++ [0x59#8, 0x03#8, 0xFF#8, 0xC0#8, 0x03#8, 0x80#8] ++ List.replicate 5 0x00#8) = 18 := by
  decide

theorem witness_EraseGranularityOfBytes :
    CardType.ofSdV2.sdV2 = true ∧ (CardType.ofSdV1.sdV2 = false ∧ CardType.ofSdV1.sdV1 = true) ∧
    (CardType.ofMmcV3.sdV2 = false ∧ CardType.ofMmcV3.sdV1 = false) ∧
    (List.replicate 16 0x00#8).length = 16 ∧ ((List.replicate 16 0x00#8).getD 13 0x00#8).toNat / 64 = 0 ∧
    ((List.replicate 13 0x00#8 ++ [0x40#8, 0x00#8, 0x00#8]).getD 13 0x00#8).toNat / 64 ≠ 0 := by decide

theorem witness_LineReleasedBeforeEveryReply : (drive .ofSdV1 (ff 4)).params = Params.default ∧ isHostRow (.ioctlSync 0#8 .null) ∧
    (drive .ofSdV1 (ff 4)).seq = .idle ∧
    (drive .ofSdV1 (ff 4)).cs = .deasserted ∧
    (∃ t, exec (.ioctlSync 0#8 .null) (drive .ofSdV1 (ff 4)) = .next t ∧ t.wire ≠ (drive .ofSdV1 (ff 4)).wire) :=
  ⟨rfl, .inr rfl, rfl, rfl, after (exec (.ioctlSync 0#8 .null) (drive .ofSdV1 (ff 4))), by
    obtain ⟨t, h⟩ := answers_next (o := exec (.ioctlSync 0#8 .null) (drive .ofSdV1 (ff 4))) (by decide)
    rw [h]; rfl, by decide⟩

/-- A buffer larger than the span, and a packet into it. -/
theorem witness_BufBeyondItsSpanIsNeverStored :
    answers (step (presenting .tokenRx [0xFE#8] (sized 70000 (drive .ofSdV1 (ff 514))))) = true := by decide +kernel

theorem witness_NegotiationTestsDeadlineBeforeEachSend : Params.default.wf = true := by decide

/-- Two false answers of `D_NEG`: accepted at the second and last send, and never, on each path. -/
theorem witness_InitializeOutcomesOfReadyCard :
    let start := List.replicate 10 0x00#8 ++ readyAnswer 0x00#8 0x01#8
    let echoed := start ++ readyAnswer 0x00#8 0x01#8 ++ [0x00#8, 0x00#8, 0x01#8, 0xAA#8]
    let probed := fun p => start ++ readyAnswer 0x00#8 0x05#8 ++ readyAppAnswer 0x00#8 p
    let later := readyAppAnswer 0x00#8 0x01#8
    let done := readyAnswer 0x00#8 0x00#8
    let ends := fun card =>
      let t := after (exec (.initDrive 0#8) { failedDrive card with clockIn := List.replicate 16 2 })
      (t.type, t.status.notInitialized, t.cardIn)
    (failedDrive []).seq = .idle ∧ (failedDrive []).params.wf = true ∧ (failedDrive []).clockIn = 2 :: 2 :: List.replicate 6 2 ∧
    ends (echoed ++ later ++ readyAppAnswer 0x00#8 0x00#8 ++ done ++ [0xC0#8, 0x00#8, 0x00#8, 0x00#8] ++ [0x00#8] ++ [0x77#8]) =
      (.ofSdV2Block, false, [0x77#8]) ∧
    ends (probed 0x01#8 ++ later ++ readyAppAnswer 0x00#8 0x00#8 ++ done ++ [0x00#8] ++ [0x77#8]) = (.ofSdV1, false, [0x77#8]) ∧
    ends (probed 0x02#8 ++ readyAnswer 0x00#8 0x01#8 ++ done ++ done ++ [0x00#8] ++ [0x77#8]) = (.ofMmcV3, false, [0x77#8]) ∧
    ends (echoed ++ later ++ later ++ [0x00#8] ++ [0x77#8]) = (.unknown, true, [0x77#8]) ∧
    ends (probed 0x01#8 ++ later ++ later ++ [0x00#8] ++ [0x77#8]) = (.unknown, true, [0x77#8]) ∧
    ends (probed 0x02#8 ++ readyAnswer 0x00#8 0x01#8 ++ readyAnswer 0x00#8 0x01#8 ++ [0x00#8] ++ [0x77#8]) =
      (.unknown, true, [0x77#8]) := by decide

/-- Rule R9: an engine of other parameters sends them. -/
theorem test_configured_parameters_are_sent :
    let s := { drive .ofSdV1 (ff 20) with params := { Params.default with dummyTx := 0xAA#8, cmdPrefixBits := 0x00#8, opSendCsd := 20#6 } }
    ((after (exec .dummyTx s)).wire = [.xchg 0xAA#8 0xFF#8]) ∧
    (after (exec .cmd9 s)).wire.contains (.xchg 0x14#8 0xFF#8) = true := by decide

end Sys2Proof.Tests
end

section
/-! PROOFS. The statements of 00_scope.md. That every instruction draws the card's bytes in order (rules R13, R53) rests on the laws of
the two kinds of row, `exec_commandRow` and `exec_hostRow`. What they leave open is shown here: a row that awaits a byte makes an
exchange before anything else that touches the wire, and the stages of `initialize(0)` draw in order whatever the parameters. -/

namespace Sys2Proof.Scope

open Sys2Proof.Machine Sys2Proof.Safety

/-! ### Rows that await a byte -/

/-- `t` is reached from `s` by an exchange that clocks the card, before anything else reaches the wire. -/
def ClocksFirst (cfg : Params) (s t : State) : Prop :=
  ∃ u, u.wire = s.wire ∧ u.cardIn = s.cardIn ∧ Runs cfg bufSpan (send cfg.dummyTx u) t

section
variable {cfg : Params} {s t : State}

theorem ClocksFirst.send (s : State) : ClocksFirst cfg s (send cfg.dummyTx s) := ⟨s, rfl, rfl, .refl⟩

theorem ClocksFirst.trans {t' : State} (h : ClocksFirst cfg s t) (hr : Runs cfg bufSpan t t') : ClocksFirst cfg s t' :=
  let ⟨u, hw, hc, hu⟩ := h
  ⟨u, hw, hc, hu.trans hr⟩

theorem ClocksFirst.registers (w : Working) (h : ClocksFirst cfg s t) : ClocksFirst cfg s { t with w := w } :=
  h.trans (.registers w .refl)

/-- What comes before the first exchange leaves the wire and the script alone. -/
theorem ClocksFirst.before {s' : State} (h : ClocksFirst cfg s' t) (hw : s'.wire = s.wire) (hc : s'.cardIn = s.cardIn) :
    ClocksFirst cfg s t :=
  let ⟨u, uw, uc, hu⟩ := h
  ⟨u, uw.trans hw, uc.trans hc, hu⟩

variable (cfg s)

theorem waitReadyLoop_clocksFirst (ms k : Nat) : ClocksFirst cfg s (waitReadyLoop cfg ms k s).2 := by
  cases k with
  | zero => exact .send s
  | succ k =>
    unfold waitReadyLoop
    split
    · exact .send s
    · exact ((ClocksFirst.send s).registers _).trans (Runs.refl.waitReadyLoop ms k)

theorem waitReady_clocksFirst (ms : Nat) : ClocksFirst cfg s (waitReady cfg ms s).2 :=
  (waitReadyLoop_clocksFirst cfg _ ms _).before rfl rfl

theorem pollR1Loop_clocksFirst (n : Nat) : ClocksFirst cfg s (pollR1Loop cfg n s).2 := by
  have noted (n : Nat) : ClocksFirst cfg s (setNPoll n (setR1 (xchg cfg.dummyTx s).1 (xchg cfg.dummyTx s).2)) :=
    ((ClocksFirst.send s).registers _).registers _
  cases n with
  | zero => exact noted 0
  | succ n =>
    unfold pollR1Loop
    split
    · exact noted (n + 1)
    · exact (noted (n + 1)).trans (Runs.refl.pollR1Loop n)

theorem pollR1_clocksFirst : ClocksFirst cfg s (pollR1 cfg s).2 := (pollR1Loop_clocksFirst cfg _ _).before rfl rfl

theorem tokenWaitLoop_clocksFirst (ms k : Nat) : ClocksFirst cfg s (tokenWaitLoop cfg ms k s).2 := by
  have noted : ClocksFirst cfg s (setToken (xchg cfg.dummyTx s).1 (xchg cfg.dummyTx s).2) := (ClocksFirst.send s).registers _
  cases k with
  | zero => exact noted
  | succ k =>
    unfold tokenWaitLoop
    split
    · exact (noted.registers _).trans (Runs.refl.tokenWaitLoop ms k)
    · exact noted

theorem tokenWait_clocksFirst : ClocksFirst cfg s (tokenWait cfg s).2 := (tokenWaitLoop_clocksFirst cfg _ _ _).before rfl rfl

theorem recvDataBlock_clocksFirst (len : Nat) (hl : len ≤ 65536) : ClocksFirst cfg s (recvDataBlock cfg 0 len s).2 := by
  unfold recvDataBlock
  split
  · exact (tokenWait_clocksFirst cfg s).trans
      ((Runs.refl.recvBlock 0 len fun a _ ha => show a < 65536 by omega).sendDummies 2)
  · exact tokenWait_clocksFirst cfg s

theorem dataResponse_clocksFirst : ClocksFirst cfg s (dataResponse cfg s).2 := (ClocksFirst.send s).registers _

end

/-- An awaited row meets its own byte, the card's next, in its first exchange (rules R75, R112, R171, R176; assumption 7). -/
theorem exec_awaitedRow {i : Instr} {s t : State} (hi : isAwaitedRow i) (h : exec i s = .next t) :
    ∃ b, (encode s.params i).2 = [b] ∧ ClocksFirst s.params (cardAnswers b s) t := by
  cases i with
  | tokenStartBlock dir =>
    cases dir with
    | toCard => rcases hi with hi | hi | hi | hi <;> cases hi
    | fromCard =>
      change execTokenStartBlock .fromCard s = _ at h
      unfold execTokenStartBlock at h
      dsimp only at h
      split at h
      · cases h
        exact ⟨startBlockToken, rfl, (recvDataBlock_clocksFirst _ _ sectorSize (by decide)).registers _⟩
      · cases h
  | dataResponseAccepted high =>
    change execDataResponseAccepted high s = _ at h
    unfold execDataResponseAccepted at h
    split at h
    · cases h
      exact ⟨high ++ s.params.acceptVal, rfl, (dataResponse_clocksFirst _ _).registers _⟩
    · cases h
  | r1Valid flags =>
    cases h
    exact ⟨0#1 ++ flags, rfl, pollR1_clocksFirst _ _⟩
  | readyByte =>
    cases h
    exact ⟨readyByteValue, rfl, (waitReady_clocksFirst _ _ _).registers _⟩
  | _ => rcases hi with hi | hi | hi | hi <;> cases hi

/-- A first exchange draws the awaited byte, and what follows draws from the script as it stood. -/
theorem ClocksFirst.drew {cfg : Params} {b : Byte} {s t : State} (h : ClocksFirst cfg (cardAnswers b s) t) :
    ∃ evs, Appends s t evs ∧ (received evs).head? = some b ∧ Drew (cardAnswers b s) t evs := by
  obtain ⟨u, hw, hc, hr⟩ := h
  obtain ⟨evs, ha, hd⟩ := hr.drew
  have hrx : nextRx cfg.dummyTx u = b := nextRx_scripted _ hc
  have hd' := Drew_trans (Drew_xchg cfg.dummyTx u) hd
  refine ⟨_, appends_from_wire (Appends_trans (appends_send cfg.dummyTx u) ha) hw, congrArg some hrx, ?_⟩
  unfold Drew at hd' ⊢
  rwa [hc] at hd'

/-! ### `initialize(0)` -/

section
variable (cfg : Params)

theorem negotiateSdV2_keeps (d : Deadline) (s : State) : StageKeeps cfg s (negotiateSdV2 cfg d s).2 := by
  have negotiated : StageKeeps cfg s (negotiateLoop cfg (sdSendOpCond cfg true) d.left (setSeq .negotiating s)).2 :=
    (StageKeeps.seq _ s).trans (.ofRuns (Runs.refl.negotiateLoop _ _))
  unfold negotiateSdV2
  dsimp only
  split
  · have probed := negotiated.trans (.ofRuns Runs.refl.ocrTransaction)
    split
    · exact probed.trans (initReadyStage_law _ _).1
    · exact probed.trans (initFailedStage_law _).1
  · exact negotiated.trans (initFailedStage_law _).1

theorem negotiateLegacy_keeps (c : Command) (ty : CardType) (d : Deadline) (s : State) :
    StageKeeps cfg s (negotiateLegacy cfg c ty d s).2 := by
  have negotiated : StageKeeps cfg s
      (negotiateLoop cfg c d.left (setSeq .negotiating (setInitCmd c.op c.acmd (setTy ty s)))).2 :=
    (((StageKeeps.registers _ s).trans (.registers _ _)).trans (.seq _ _)).trans (.ofRuns (Runs.refl.negotiateLoop _ _))
  unfold negotiateLegacy
  dsimp only
  split
  · have sized := negotiated.trans (.ofRuns (Runs.refl.sendCmd setBlockLen))
    split
    · exact sized.trans (initReadyStage_law _ _).1
    · exact sized.trans (initFailedStage_law _).1
  · exact negotiated.trans (initFailedStage_law _).1

theorem initLegacyProbe_keeps (d : Deadline) (s : State) : StageKeeps cfg s (initLegacyProbe cfg d s).2 := by
  have probed : StageKeeps cfg s (sendCmd cfg (sdSendOpCond cfg false) (setSeq .legacyProbe s)).2 :=
    (StageKeeps.seq _ s).trans (.ofRuns (Runs.refl.sendCmd _))
  unfold initLegacyProbe
  dsimp only
  split <;> exact probed.trans (negotiateLegacy_keeps ..)

theorem initSdV2Probe_keeps (d : Deadline) (s : State) : StageKeeps cfg s (initSdV2Probe cfg d s).2 := by
  have probed : StageKeeps cfg s (readTrailing cfg (setSeq .sdv2Probe s)).2 :=
    (StageKeeps.seq _ s).trans (.ofRuns Runs.refl.readTrailing)
  unfold initSdV2Probe
  dsimp only
  split
  · exact probed.trans (negotiateSdV2_keeps ..)
  · exact probed.trans (initFailedStage_law _).1

theorem initIdleSent_keeps (s : State) : StageKeeps cfg s (initIdleSent cfg s).2 := by
  have sent : StageKeeps cfg s (sendCmd cfg sendIfCond
      (setDNeg (setDeadline tNegotiateMs (setSeq .idleSent s)).1 (setDeadline tNegotiateMs (setSeq .idleSent s)).2)).2 :=
    (StageKeeps.seq _ s).trans (.ofRuns (((Runs.refl.deadline _).registers _).sendCmd _))
  unfold initIdleSent
  dsimp only
  split
  · exact sent.trans (initSdV2Probe_keeps ..)
  · exact sent.trans (initLegacyProbe_keeps ..)

/-- The whole run keeps what a stage keeps, whatever the parameters (`initResetStage_law` has it for those of an engine). -/
theorem initResetStage_keeps (s : State) : StageKeeps cfg s (initResetStage cfg s).2 := by
  have reset : StageKeeps cfg s (sendCmd cfg goIdleState (setTy CardType.unknown (sendDummies cfg nPowerUpDummy s))).2 :=
    .ofRuns (((Runs.refl.sendDummies _).registers _).sendCmd _)
  unfold initResetStage
  dsimp only
  split
  · exact reset.trans (initIdleSent_keeps ..)
  · exact reset.trans (initFailedStage_law _).1

theorem initializeDrive_eq_finish (s : State) :
    initializeDrive cfg s = finishInitialize cfg (initResetStage cfg (beginOperation .reset s)).1
      (initResetStage cfg (beginOperation .reset s)).2 := by
  unfold initializeDrive
  dsimp only
  split
  · next h => rw [h]; rfl
  · rfl

/-- `initialize(0)` draws in order: its stages do, and its finish is a `Deselect` (rule R200). -/
theorem initializeDrive_drew (s : State) :
    ∃ evs, Appends s (initializeDrive cfg s) evs ∧ Drew s (initializeDrive cfg s) evs := by
  rw [initializeDrive_eq_finish]
  obtain ⟨body, ha, hd⟩ := (initResetStage_keeps cfg (beginOperation .reset s)).drew
  generalize initResetStage cfg (beginOperation .reset s) = q at ha hd ⊢
  obtain ⟨des, ha', hd'⟩ := (Runs.refl (cfg := cfg) (stores := noStore) (s := q.2)).deselect.drew
  exact ⟨body ++ des, Appends_trans ha ha', Drew_trans hd hd'⟩

end

/-! ### The statements -/

/-- Settles O12: an awaited row by its first exchange; any other command or token is a run, and a host request is served or is
`initialize(0)`. -/
theorem everyInstructionDrawsInOrder : Obligations.EveryInstructionDrawsInOrder := by
  intro i s t h
  refine ⟨fun hna => ?_, fun ha => ?_⟩
  · by_cases hh : isHostRow i
    · obtain ⟨-, hs | ⟨-, rfl⟩⟩ := exec_hostRow hh h
      · exact hs.effect.drew
      · exact initializeDrive_drew s.params s
    · obtain hr | ⟨ha, -⟩ := exec_commandRow hh h
      · exact hr.drew
      · exact absurd ha hna
  · obtain ⟨b, hb, hf⟩ := exec_awaitedRow ha h
    obtain ⟨evs, h1, h2, h3⟩ := hf.drew
    exact ⟨b, evs, hb, h1, h2, h3⟩

/-- Settles O4, by running the decoder on each record. -/
theorem wordsDecodeToTheirInstruction : Obligations.WordsDecodeToTheirInstruction :=
  ⟨rfl, rfl, rfl, rfl, rfl, rfl, rfl, rfl, rfl, rfl, rfl⟩

/-- Settles O8: each field of the reset state and each default is the value written in its definition. -/
theorem resetLeavesFailedState : Obligations.ResetLeavesFailedState :=
  ⟨rfl, rfl, rfl, rfl, rfl, rfl, rfl, rfl, rfl, rfl, rfl, rfl, rfl, rfl, rfl, rfl⟩

end Sys2Proof.Scope
end

section
/-! PROOFS. The statement of 10_state.md on who writes the session (rule R37). `step_session` says once who wrote it in a step: nobody, the
media detector, or `initialize(0)`, the one instruction that does not keep the session (`exec_session`). -/

namespace Sys2Proof.Session

open Sys2Proof.Machine Sys2Proof.Safety

theorem sameSession_trans {s t u : State} (h : SameSession s t) (g : SameSession t u) : SameSession s u := by
  obtain ⟨hp, hs, ht, hw, ha⟩ := h
  obtain ⟨gp, gs, gt, gw, ga⟩ := g
  exact ⟨gp.trans hp, gs.trans hs, gt.trans ht, gw.trans hw, ga.trans ha⟩

/-! ### Instructions -/

/-- Every instruction but `initialize(0)` keeps the session. -/
theorem exec_session {i : Instr} {s t : State} (h : exec i s = .next t) :
    SameSession s t ∨ i = .initDrive lunIndex ∧ t = initializeDrive s.params s := by
  by_cases hh : isHostRow i
  · obtain ⟨-, served | init⟩ := exec_hostRow hh h
    · exact .inl served.effect.session
    · exact .inr init
  · obtain ran | ⟨-, b, -, ran⟩ := exec_commandRow hh h
    · exact .inl ran.sameSession.1
    · exact .inl (sameSession_trans (t := cardAnswers b s) ⟨rfl, rfl, rfl, rfl, rfl⟩ ran.sameSession.1)

/-- What of the session is not the initializer's to write. -/
structure KeepsInputs (s t : State) : Prop where
  params : t.params = s.params
  writeCapable : t.writeCapable = s.writeCapable
  noMedium : t.status.noMedium = s.status.noMedium
  writeProtected : t.status.writeProtected = s.status.writeProtected

/-- The stages of `initialize(0)` keep the session; its finish writes `TYPE` and `NOT_INITIALIZED` (rule R200). -/
theorem initializeDrive_keepsInputs (cfg : Params) (s : State) : KeepsInputs s (initializeDrive cfg s) := by
  rw [Scope.initializeDrive_eq_finish]
  obtain ⟨hp, hs, -, hw, -⟩ := (Scope.initResetStage_keeps cfg (beginOperation .reset s)).session
  exact ⟨hp, hw, (congrArg Status.noMedium hs :), (congrArg Status.writeProtected hs :)⟩

/-! ### Steps -/

theorem issuerPrepares_session (beyond done : Fin 128) (s : State) : SameSession s (issuerPrepares beyond done s) := by
  unfold issuerPrepares
  dsimp only
  split <;> exact ⟨rfl, rfl, rfl, rfl, rfl⟩

/-- A presented record that answers was decoded and executed in a state of the same session. -/
theorem presentRecord_next {port : Port} {bytes : List Byte} {beyond done : Fin 128} {s t : State}
    (h : presentRecord port bytes beyond done s = .next t) :
    ∃ i u, decode s.params port bytes = .ok i ∧ SameSession s u ∧ exec i u = .next t := by
  unfold presentRecord at h
  split at h
  · cases h
  · next i hi =>
    split at h
    · exact ⟨i, s, hi, ⟨rfl, rfl, rfl, rfl, rfl⟩, h⟩
    · exact ⟨i, _, hi, issuerPrepares_session beyond done s, h⟩

/-- The next move is a record that decodes to `initialize(0)`. -/
def InitializeComesNext (s : State) : Prop :=
  ∃ port bytes beyond done rest, s.agenda = .present port bytes beyond done :: rest ∧ decode s.params port bytes = .ok (.initDrive 0#8)

/-- Who wrote the session from `s` to `t` (rule R37). -/
inductive SessionWriter (s t : State) : Prop
  | nobody : t.status = s.status → t.type = s.type → SessionWriter s t
  | mediaDetector (noMedium writeProtected removed : Bool) (rest : List EnvMove) :
      s.agenda = .media noMedium writeProtected removed :: rest →
      t.status = ⟨s.status.notInitialized || removed, noMedium, writeProtected⟩ → t.type = s.type → SessionWriter s t
  | initializer : InitializeComesNext s → t.status.noMedium = s.status.noMedium →
      t.status.writeProtected = s.status.writeProtected → SessionWriter s t

theorem step_session {s t : State} (h : step s = .next t) :
    (t.writeCapable = s.writeCapable ∧ t.params = s.params) ∧ SessionWriter s t := by
  unfold step at h
  split at h
  · split at h <;> cases h <;> exact ⟨⟨rfl, rfl⟩, .nobody rfl rfl⟩
  · next port bytes beyond done rest hmove =>
    obtain ⟨i, u, hdec, ⟨up, us, ut, uw, -⟩, hexec⟩ := presentRecord_next h
    obtain ⟨hp, hs, ht, hw, -⟩ | ⟨rfl, rfl⟩ := exec_session hexec
    · exact ⟨⟨hw.trans uw, hp.trans up⟩, .nobody (hs.trans us) (ht.trans ut)⟩
    · obtain ⟨hp, hw, hn, hwp⟩ := initializeDrive_keepsInputs u.params u
      exact ⟨⟨hw.trans uw, hp.trans up⟩, .initializer ⟨port, bytes, beyond, done, rest, hmove, hdec⟩
        (hn.trans (congrArg Status.noMedium us)) (hwp.trans (congrArg Status.writeProtected us))⟩
  · next noMedium writeProtected removed rest hmove =>
    split at h <;> cases h
    exact ⟨⟨rfl, rfl⟩, .mediaDetector noMedium writeProtected removed rest hmove rfl rfl⟩
  · split at h <;> cases h
    exact ⟨⟨rfl, rfl⟩, .nobody rfl rfl⟩

/-! ### The statement -/

/-- Settles O11, by who wrote the session in the step: each change is one that its writer can make, and the writer is named. -/
theorem sessionWrittenOnlyByItsWriters : Obligations.SessionWrittenOnlyByItsWriters := by
  intro s t h
  obtain ⟨fixed, writer⟩ := step_session h
  refine ⟨fixed, ?_⟩
  cases writer with
  | nobody hs ht =>
    refine ⟨fun hne => absurd hne (by simp [hs]), fun hne => absurd ht hne, fun hset hclear => ?_, fun hclear hset => ?_⟩
    · simp [hs, hset] at hclear
    · simp [hs, hclear] at hset
  | mediaDetector noMedium writeProtected removed rest hmove hs ht =>
    refine ⟨fun _ => ?_, fun hne => absurd ht hne, fun hset hclear => ?_, fun hclear hset => .inr ?_⟩
    · cases removed
      · exact .inr ⟨noMedium, writeProtected, rest, hmove⟩
      · exact .inl ⟨noMedium, writeProtected, rest, hmove⟩
    · simp [hs, hset] at hclear
    · obtain rfl : removed = true := by simpa [hs, hclear] using hset
      exact ⟨noMedium, writeProtected, rest, hmove⟩
  | initializer hinit hn hw =>
    exact ⟨fun hne => absurd hne (by simp [hn, hw]), fun _ => hinit, fun _ _ => hinit, fun _ _ => .inl hinit⟩

end Sys2Proof.Session
end

section
/-! PROOFS. The statements of 20_memory.md: the moves of the environment that fill the host buffer or signal a media event, the span of
the buffer that everything else stores to, and the address of a sector. -/

namespace Sys2Proof.HostMemory

open Sys2Proof.Machine Sys2Proof.Safety

/-! ### The cells of a buffer fill -/

theorem memOfCells_concat (cells : List Host.Cell) (c : Host.Cell) :
    memOfCells (cells ++ [c]) = memWrite (memOfCells cells) c.1 c.2 := by
  simp [memOfCells]

/-- The last cell given for an offset is the first found from the end. -/
theorem memRead_memOfCells (cells : List Host.Cell) (a : Nat) :
    memRead (memOfCells cells) a = (cells.reverse.lookup a).getD 0x00#8 := by
  induction cells using List.reverseRecOn with
  | nil => rfl
  | append_singleton cells c ih =>
    rw [memOfCells_concat, memRead_memWrite (memOfCells_wf cells), List.reverse_concat, List.lookup_cons]
    by_cases ha : a = c.1
    · simp [ha]
    · simp [ha, beq_false_of_ne ha, ih]

/-! ### A step, by its move -/

section
variable {s : State} {rest : List EnvMove}

theorem step_media {noMedium writeProtected removed : Bool} (h : s.agenda = .media noMedium writeProtected removed :: rest) :
    step s = if s.seq = .idle then .next (mediaEvent noMedium writeProtected removed { s with agenda := rest })
      else .refused .operationOutstanding := by
  unfold step; rw [h]

theorem step_buffer {size : Nat} {cells : List Host.Cell} {pair : Word × Word} (h : s.agenda = .buffer size cells pair :: rest) :
    step s = if s.seq = .idle then .next (fillBuffer size cells pair { s with agenda := rest })
      else .refused .operationOutstanding := by
  unfold step; rw [h]

theorem step_present {port : Port} {bytes : List Byte} {beyond done : Fin 128} (h : s.agenda = .present port bytes beyond done :: rest) :
    step s = presentRecord port bytes beyond done { s with agenda := rest } := by
  unfold step; rw [h]

theorem step_noMove (h : s.agenda = []) : step s = if s.seq = .idle then .next s else .next (issuerCloses s) := by
  unfold step; rw [h]

end

/-- Settles O7, by the three moves that are no instruction, each in idle and with an operation outstanding. -/
theorem environmentMovesAndQuietSteps : Obligations.EnvironmentMovesAndQuietSteps := by
  refine ⟨fun s noMedium writeProtected removed rest hmove => ?_, fun s size cells pair rest hmove => ?_, fun s hmove => ?_⟩
  · rw [step_media hmove]
    exact ⟨fun hidle => if_pos hidle, fun hbusy => if_neg hbusy⟩
  · rw [step_buffer hmove]
    exact ⟨fun hidle => ⟨memOfCells cells, if_pos hidle, memOfCells_wf cells, memRead_memOfCells cells⟩, fun hbusy => if_neg hbusy⟩
  · rw [step_noMove hmove]
    refine ⟨fun hidle => if_pos hidle, fun hbusy =>
      ⟨issuerCloses s, if_neg hbusy, ⟨rfl, rfl⟩, ?_, ⟨rfl, rfl, rfl, rfl, rfl⟩, rfl, rfl, rfl⟩⟩
    obtain ⟨evs, appended, trace⟩ := deselect_trace s.params s
    exact ⟨evs, appends_of_wire appended rfl, trace⟩

/-! ### What of the buffer only the host changes -/

/-- The size, the pair and every byte beyond offset 65535 are the same (rules R51, R57). -/
def SameBeyondSpan (b c : Buf) : Prop :=
  c.size = b.size ∧ c.pair = b.pair ∧ ∀ a : Nat, 65536 ≤ a → memRead c.mem a = memRead b.mem a

theorem SameBeyondSpan.of_eq {b c : Buf} (h : c = b) : SameBeyondSpan b c := by subst h; exact ⟨rfl, rfl, fun _ _ => rfl⟩

theorem runs_sameBeyondSpan {cfg : Params} {s t : State} (h : Runs cfg bufSpan s t) : SameBeyondSpan s.buf t.buf :=
  ⟨h.bufShape.1, h.bufShape.2, fun _ ha => h.bufOutside (Nat.not_lt.2 ha)⟩

theorem serves_sameBeyondSpan {s t : State} (h : Serves s t) : SameBeyondSpan s.buf t.buf := by
  cases h with
  | atOnce r e => exact .of_eq (by rw [e, replyAtOnce_buf])
  | operated r launched ran e =>
    rw [e, finishOperation_buf, ← launched.buf]
    exact runs_sameBeyondSpan ran

/-- `initialize(0)` moves no byte of `BUF`. -/
theorem initializeDrive_buf (cfg : Params) (s : State) : (initializeDrive cfg s).buf = s.buf := by
  rw [Scope.initializeDrive_eq_finish]
  exact (Scope.initResetStage_keeps cfg (beginOperation .reset s)).buf

theorem exec_sameBeyondSpan {i : Instr} {s t : State} (h : exec i s = .next t) : SameBeyondSpan s.buf t.buf := by
  by_cases hh : isHostRow i
  · obtain ⟨-, served | ⟨-, rfl⟩⟩ := exec_hostRow hh h
    · exact serves_sameBeyondSpan served
    · exact .of_eq (initializeDrive_buf s.params s)
  · obtain ran | ⟨-, b, -, ran⟩ := exec_commandRow hh h
    · exact runs_sameBeyondSpan ran
    · exact runs_sameBeyondSpan (s := cardAnswers b s) ran

theorem issuerPrepares_buf (beyond done : Fin 128) (s : State) : (issuerPrepares beyond done s).buf = s.buf := by
  unfold issuerPrepares
  dsimp only
  split <;> rfl

theorem presentRecord_sameBeyondSpan {port : Port} {bytes : List Byte} {beyond done : Fin 128} {s t : State}
    (h : presentRecord port bytes beyond done s = .next t) : SameBeyondSpan s.buf t.buf := by
  unfold presentRecord at h
  split at h
  · cases h
  · split at h
    · exact exec_sameBeyondSpan h
    · rw [← issuerPrepares_buf beyond done s]
      exact exec_sameBeyondSpan h

/-- Settles O58, by the move: an instruction stores within offset 65535, and a media event or a quiet step stores nothing. -/
theorem bufBeyondItsSpanIsNeverStored : Obligations.BufBeyondItsSpanIsNeverStored := by
  intro s t h
  match hmove : s.agenda with
  | .buffer size cells pair :: rest => exact .inl ⟨size, cells, pair, rest, rfl⟩
  | [] =>
    rw [step_noMove hmove] at h
    exact .inr (SameBeyondSpan.of_eq (by split at h <;> cases h <;> rfl))
  | .media noMedium writeProtected removed :: rest =>
    rw [step_media hmove] at h
    exact .inr (SameBeyondSpan.of_eq (by split at h <;> cases h; rfl))
  | .present port bytes beyond done :: rest =>
    rw [step_present hmove] at h
    have kept := presentRecord_sameBeyondSpan h
    exact .inr kept

/-! ### Addresses -/

/-- Settles O54, by the two forms of an address: the sector number itself, or its product with 512 kept to 32 bits. -/
theorem addressConversionOfSectors : Obligations.AddressConversionOfSectors := by
  intro t sector
  unfold convertAddress
  split
  · rfl
  · exact BitVec.toNat_mul sector 512#32

end Sys2Proof.HostMemory
end

section
/-! PROOFS. The statements of 30_encoding.md: the bytes of a frame, the requests that rule R91 calls illegal, and the one command that is
sent without a bracket. A checked request answers with the error its check names; which error that is, is said once for each of the two
checks (`ioPreconditions_paramError`, `ioctlPreconditions_paramError`). -/

namespace Sys2Proof.Encoding

open Sys2Proof.Machine Sys2Proof.Safety

/-! ### The bytes of a frame -/

/-- The four bytes of a word are its digits in base 256, most significant first (rule R54). -/
theorem wordBytes_toNat (w : Word) :
    (w.extractLsb' 24 8).toNat * 2 ^ 24 + (w.extractLsb' 16 8).toNat * 2 ^ 16 + (w.extractLsb' 8 8).toNat * 2 ^ 8 +
      (w.extractLsb' 0 8).toNat = w.toNat := by
  have hlt := w.isLt
  simp only [BitVec.extractLsb'_toNat, Nat.shiftRight_eq_div_pow]
  omega

/-- The last byte distinguishes two opcodes, `CMD0` and `CMD8`, and sees nothing else of the command (rule R74). -/
theorem crcByte_eq (cfg : Params) (op : BitVec 6) :
    crcByte cfg op = if op.toNat = 0 then cfg.crcCmd0 else if op.toNat = 8 then cfg.crcCmd8 else cfg.crcDummy := by
  simp only [crcByte, opGoIdleState, opSendIfCond, BitVec.toNat_eq, BitVec.toNat_ofNat, Nat.reducePow, Nat.reduceMod]

/-- The default prefix has no bit in common with an opcode, so it is added. -/
theorem frameByte0_default_toNat (op : BitVec 6) : (frameByte0 Params.default op).toNat = 0x40 + op.toNat := by
  revert op; decide

theorem crcByte_default_toNat (op : BitVec 6) :
    (crcByte Params.default op).toNat = if op.toNat = 0 then 0x95 else if op.toNat = 8 then 0x87 else 0x01 := by
  rw [crcByte_eq, apply_ite BitVec.toNat, apply_ite BitVec.toNat]
  rfl

/-- Settles O3: the six bytes are those `frameBytes` is written from, each by the lemma on its value. -/
theorem frameBytesOfAnyCommand : Obligations.FrameBytesOfAnyCommand := by
  intro cfg op arg
  refine ⟨frameByte0 cfg op, _, _, _, _, crcByte cfg op, rfl, rfl, wordBytes_toNat arg, crcByte_eq cfg op, ?_⟩
  rintro rfl
  exact ⟨frameByte0_default_toNat op, crcByte_default_toNat op⟩

/-! ### The reserved selectors -/

/-- Settles O17: the three arms are refusals. -/
theorem reservedSelectorsAreRefused : Obligations.ReservedSelectorsAreRefused := fun _ => ⟨rfl, rfl, rfl⟩

/-- A record of a reserved selector is read as the row that is refused. -/
theorem decode_reservedSelector (cfg : Params) {op : Byte} (h5 : 5 ≤ op.toNat) (h7 : op.toNat ≤ 7) :
    ∃ i, decode cfg .host (op :: List.replicate 9 0x00#8) = .ok i ∧ ∀ s, exec i s = .refused .reservedOpSel := by
  have hop : op = 5#8 ∨ op = 6#8 ∨ op = 7#8 := by bv_omega
  obtain rfl | rfl | rfl := hop
  · exact ⟨.reservedOp5, rfl, fun s => (reservedSelectorsAreRefused s).1⟩
  · exact ⟨.reservedOp6, rfl, fun s => (reservedSelectorsAreRefused s).2.1⟩
  · exact ⟨.reservedOp7, rfl, fun s => (reservedSelectorsAreRefused s).2.2⟩

/-! ### The checks of a request -/

theorem ne_lunIndex {lun : Byte} (h : lun.toNat ≠ 0) : lun ≠ lunIndex := by rintro rfl; exact h rfl

theorem countLegal_iff (n : Nat) : countLegal n = true ↔ 1 ≤ n ∧ n ≤ 128 := by
  simp only [countLegal, Bool.and_eq_true, decide_eq_true_eq]
  rfl

/-- Rule R220: the operands of a transfer that an initialized drive rejects. -/
theorem ioPreconditions_paramError {lun : Byte} {buf : Handle} {n : Nat} {v : Status} (isWrite : Bool)
    (hinit : v.notInitialized = false) (h : lun.toNat ≠ 0 ∨ buf = .null ∨ n < 1 ∨ 128 < n) :
    ioPreconditions isWrite lun buf n v = some .paramError := by
  have hbad : lun ≠ lunIndex ∨ buf = .null ∨ countLegal n = false := by
    refine h.imp ne_lunIndex (Or.imp_right fun hn => ?_)
    rw [← Bool.not_eq_true, countLegal_iff]
    omega
  simp [ioPreconditions, hinit, hbad]

/-- The nine codes, four by their number and five by their parameter, are those of `ioctlCodes` (rule R88). -/
theorem isKnownCode_iff (cfg : Params) (code : Byte) : isKnownCode cfg code ↔ code ∈ ioctlCodes cfg := by
  simp [isKnownCode, ioctlCodes, syncCode, sectorCountCode, blockSizeCode, trimCode, BitVec.toNat_eq, or_assoc]

theorem ioctlNeedsBuf_iff (code : Byte) : ioctlNeedsBuf code = true ↔ code.toNat ≠ 0 ∧ code.toNat ≠ 4 := by
  simp [ioctlNeedsBuf, syncCode, trimCode, BitVec.toNat_eq]

/-- Rule R250: the operands of an `ioctl` that an initialized drive rejects. -/
theorem ioctlPreconditions_paramError {cfg : Params} {lun code : Byte} {buf : Handle} {v : Status}
    (hinit : v.notInitialized = false)
    (h : lun.toNat ≠ 0 ∨ ¬ isKnownCode cfg code ∨ (buf = .null ∧ code.toNat ≠ 0 ∧ code.toNat ≠ 4)) :
    ioctlPreconditions cfg lun code buf v = some .paramError := by
  rw [isKnownCode_iff, ← ioctlNeedsBuf_iff] at h
  unfold ioctlPreconditions
  rw [if_neg (by simp [hinit])]
  obtain hlun | hcode | hbuf := h
  · rw [if_pos (ne_lunIndex hlun)]
  · have hno : (ioctlCodes cfg).contains code = false := by simpa using hcode
    rw [if_pos hno, ite_self]
  · rw [if_pos hbuf, ite_self, ite_self]

/-! ### A request whose check names an error -/

section
variable {cfg : Params} {lun : Byte} {buf : Handle} {s : State} {e : SdError}

theorem readRequest_rejected {count : Nat} (hidle : s.seq = .idle) (he : ioPreconditions false lun buf count s.status = some e)
    (run : State) : readRequest cfg lun buf count run s = .next (raiseError cfg e s) := by
  unfold readRequest; rw [if_pos hidle, he]

theorem writeRequest_rejected {count : Nat} (hidle : s.seq = .idle) (hcap : s.writeCapable = true)
    (he : ioPreconditions true lun buf count s.status = some e) (run : State) :
    writeRequest cfg lun buf count run s = .next (raiseError cfg e s) := by
  unfold writeRequest; rw [if_pos hidle, if_pos hcap, he]

theorem ioctlRequest_rejected {code : Byte} (hidle : s.seq = .idle) (he : ioctlPreconditions cfg lun code buf s.status = some e) :
    ioctlRequest cfg lun code buf s = .next (raiseError cfg e s) := by
  unfold ioctlRequest; rw [if_pos hidle, he]

end

/-- Both rows of `read` are one request for their count (rule R228). -/
theorem exec_readOf (lun : Byte) (buf : Handle) (sector : Word) (count : BitVec 16) (s : State) :
    ∃ run, exec (readOf lun buf sector count) s = readRequest s.params lun buf count.toNat run s := by
  unfold readOf
  split
  · next hone => subst hone; exact ⟨_, rfl⟩
  · exact ⟨_, rfl⟩

/-- Both rows of `write` are one request for their count (rule R228). -/
theorem exec_writeOf (lun : Byte) (buf : Handle) (sector : Word) (count : BitVec 16) (s : State) :
    ∃ run, exec (writeOf lun buf sector count) s = writeRequest s.params lun buf count.toNat run s := by
  unfold writeOf
  split
  · next hone => subst hone; exact ⟨_, rfl⟩
  · exact ⟨_, rfl⟩

/-! ### Another drive index -/

section
variable {s : State} {lun : Byte}

theorem exec_initDrive_otherIndex (hidle : s.seq = .idle) (hlun : lun.toNat ≠ 0) :
    exec (.initDrive lun) s = .next (replyAtOnce (.status s.status.forcedNotInitialized) s) := by
  show execInitDrive lun s = _
  unfold execInitDrive
  rw [if_pos hidle, if_neg (ne_lunIndex hlun)]

theorem exec_driveStatus_otherIndex (hidle : s.seq = .idle) (hlun : lun.toNat ≠ 0) :
    exec (.driveStatus lun) s = .next (replyAtOnce (.status s.status.forcedNotInitialized) s) := by
  show execDriveStatus lun s = _
  unfold execDriveStatus
  rw [if_pos hidle, if_neg (ne_lunIndex hlun)]

end

/-- Settles O16, by the request: a reserved selector is read and refused, another drive index gets the forced status from the two
operations that answer with `STATUS`, and every other illegal operand is one that the check of its operation rejects. -/
theorem illegalHostRequests : Obligations.IllegalHostRequests := by
  refine ⟨fun s op i h5 h7 hdec => ?_, fun cfg op h5 h7 => ?_, fun s lun hidle hlun => ?_,
    fun s lun code buf sector count hidle hinit hcap => ⟨fun hbad => ?_, fun hbad => ?_⟩⟩
  · obtain ⟨j, hj, hrefused⟩ := decode_reservedSelector s.params h5 h7
    obtain rfl : j = i := Except.ok.inj (hj.symm.trans hdec)
    exact hrefused s
  · obtain ⟨i, hi, -⟩ := decode_reservedSelector cfg h5 h7
    exact ⟨i, hi⟩
  · exact ⟨exec_initDrive_otherIndex hidle hlun, exec_driveStatus_otherIndex hidle hlun⟩
  · have hbad : lun.toNat ≠ 0 ∨ buf = .null ∨ count.toNat < 1 ∨ 128 < count.toNat := by tauto
    obtain ⟨read, hread⟩ := exec_readOf lun buf sector count s
    obtain ⟨write, hwrite⟩ := exec_writeOf lun buf sector count s
    exact ⟨hread.trans (readRequest_rejected hidle (ioPreconditions_paramError false hinit hbad) read),
      hwrite.trans (writeRequest_rejected hidle hcap (ioPreconditions_paramError true hinit hbad) write)⟩
  · exact ioctlRequest_rejected hidle (ioctlPreconditions_paramError hinit hbad)

/-! ### The stop command -/

theorem sendAll_cs (bytes : List Byte) (s : State) : (sendAll bytes s).cs = s.cs := by
  induction bytes generalizing s with
  | nil => rfl
  | cons b rest ih => exact ih (send b s)

theorem pollR1Loop_cs (cfg : Params) (n : Nat) (s : State) : (pollR1Loop cfg n s).2.cs = s.cs := by
  induction n generalizing s with
  | zero => rfl
  | succ n ih =>
    unfold pollR1Loop
    split
    · rfl
    · exact ih _

theorem pollR1_cs (cfg : Params) (s : State) : (pollR1 cfg s).2.cs = s.cs := pollR1Loop_cs cfg _ _

/-- With no bracket nothing moves the line: the frame, the stuff byte and the poll are exchanges (rules R90, R122). -/
theorem sendCmd_stop_cs (cfg : Params) (s : State) : (sendCmd cfg (stopTransmission cfg) s).2.cs = s.cs := by
  rw [(sendCmd_plain cfg _ rfl s).2, setR_cs]
  unfold sendOne sendFrame
  rw [isStop_stopTransmission, if_pos rfl, pollR1_cs, send_cs, sendAll_cs, setCmd_cs]

/-- Settles O26: the trace, the line, the byte returned and the frame of the stop command, each by its law. -/
theorem stopCommandSkipsTheBracket : Obligations.StopCommandSkipsTheBracket := by
  intro s
  obtain ⟨evs, appended, trace⟩ := sendCmd_stop_trace s.params s
  have ran : Runs s.params noStore s (sendCmd s.params (stopTransmission s.params) s).2 := Runs.sendCmd _ .refl
  exact ⟨_, evs, _, rfl, appended, trace, sendCmd_stop_cs s.params s, sendCmd_r s.params _ s, ran.sameButTransport,
    sendCmd_working s.params _ s (List.Subset.refl _)⟩

end Sys2Proof.Encoding
end

section
/-! PROOFS. The statement of 40_chip_select.md on the ready wait (rule R112). A poll either meets the ready byte, whatever is left of the
deadline, or costs one of its false answers; the two outcomes of the wait follow by induction on the busy bytes before them. -/

namespace Sys2Proof.ChipSelect

open Sys2Proof.Machine Sys2Proof.Safety

/-- A wait from `s` ended with `ok`: it polled the bytes `drawn`, left the script at `rest`, and did not move the line. -/
def Polled (cfg : Params) (s : State) (ok : Bool) (drawn rest : List Byte) (result : Bool × State) : Prop :=
  result.1 = ok ∧ result.2.cardIn = rest ∧ Appends s result.2 (sending cfg.dummyTx drawn) ∧ result.2.cs = s.cs

section
variable {cfg : Params} {s : State} {b : Byte} {rest : List Byte}

/-! ### One poll -/

theorem isReady_iff (b : Byte) : isReady b = true ↔ b = 0xFF#8 := beq_iff_eq

theorem isReady_poll (h : s.cardIn = b :: rest) : isReady (xchg cfg.dummyTx s).1 = true ↔ b = 0xFF#8 := by
  rw [(xchg_scripted cfg.dummyTx h).1, isReady_iff]

/-- The wait ends at its first poll. -/
theorem polled_once (ok : Bool) (h : s.cardIn = b :: rest) : Polled cfg s ok [b] rest (ok, (xchg cfg.dummyTx s).2) := by
  obtain ⟨-, left, appended⟩ := xchg_scripted cfg.dummyTx h
  exact ⟨rfl, left, appended, rfl⟩

/-- The wait goes on after its first poll, with what is left of the deadline in `D_POLL`. -/
theorem Polled.afterPoll {later drawn : List Byte} {ok : Bool} {result : Bool × State} {d : Deadline} (h : s.cardIn = b :: later)
    (polled : Polled cfg (setDPoll d (xchg cfg.dummyTx s).2) ok drawn rest result) : Polled cfg s ok (b :: drawn) rest result := by
  obtain ⟨answer, left, appended, line⟩ := polled
  obtain ⟨-, -, first⟩ := xchg_scripted cfg.dummyTx h
  exact ⟨answer, left, Appends_trans first (appends_from_wire appended rfl), line⟩

/-- The byte is tested before the deadline: a ready byte ends the wait whatever is left of it. -/
theorem waitReadyLoop_ready (ms k : Nat) (h : s.cardIn = 0xFF#8 :: rest) :
    Polled cfg s true [0xFF#8] rest (waitReadyLoop cfg ms k s) := by
  have hready : isReady (xchg cfg.dummyTx s).1 = true := (isReady_poll h).2 rfl
  have ended := polled_once (cfg := cfg) true h
  cases k with
  | zero => unfold waitReadyLoop; rwa [hready]
  | succ k => unfold waitReadyLoop; rwa [if_pos hready]

/-- A busy byte met by an expired deadline fails the wait. -/
theorem waitReadyLoop_busy_expired (ms : Nat) (h : s.cardIn = b :: rest) (hb : b ≠ 0xFF#8) :
    Polled cfg s false [b] rest (waitReadyLoop cfg ms 0 s) := by
  have hbusy : isReady (xchg cfg.dummyTx s).1 = false := Bool.eq_false_iff.2 (mt (isReady_poll h).1 hb)
  unfold waitReadyLoop
  rw [hbusy]
  exact polled_once false h

/-- A busy byte met by a deadline not expired costs one of its false answers. -/
theorem waitReadyLoop_busy_succ (ms k : Nat) (h : s.cardIn = b :: rest) (hb : b ≠ 0xFF#8) :
    waitReadyLoop cfg ms (k + 1) s = waitReadyLoop cfg ms k (setDPoll ⟨ms, k⟩ (xchg cfg.dummyTx s).2) :=
  if_neg (mt (isReady_poll h).1 hb)

end

/-! ### The wait -/

section
variable {cfg : Params} (ms : Nat) {busy : List Byte} (rest : List Byte)

/-- No more busy bytes than false answers: the ready byte after them is met, on the last poll at the latest. -/
theorem waitReadyLoop_succeeds (hbusy : ∀ b ∈ busy, b ≠ 0xFF#8) {k : Nat} {s : State} (hk : busy.length ≤ k)
    (h : s.cardIn = busy ++ 0xFF#8 :: rest) : Polled cfg s true (busy ++ [0xFF#8]) rest (waitReadyLoop cfg ms k s) := by
  induction busy generalizing k s with
  | nil => exact waitReadyLoop_ready ms k h
  | cons b busy ih =>
    obtain ⟨hb, hbusy⟩ := List.forall_mem_cons.1 hbusy
    cases k with
    | zero => exact absurd hk (Nat.not_succ_le_zero _)
    | succ k =>
      rw [waitReadyLoop_busy_succ ms k h hb]
      exact .afterPoll h (ih hbusy (Nat.le_of_succ_le_succ hk) (xchg_scripted cfg.dummyTx h).2.1)

/-- One busy byte more than false answers: the wait fails after polling them all. -/
theorem waitReadyLoop_fails (hbusy : ∀ b ∈ busy, b ≠ 0xFF#8) {k : Nat} {s : State} (hk : busy.length = k + 1)
    (h : s.cardIn = busy ++ rest) : Polled cfg s false busy rest (waitReadyLoop cfg ms k s) := by
  induction k generalizing busy s with
  | zero =>
    obtain ⟨b, rfl⟩ := List.length_eq_one_iff.1 hk
    exact waitReadyLoop_busy_expired ms h (hbusy b List.mem_cons_self)
  | succ k ih =>
    obtain ⟨b, busy, rfl⟩ := List.exists_cons_of_length_eq_add_one hk
    obtain ⟨hb, hbusy⟩ := List.forall_mem_cons.1 hbusy
    rw [waitReadyLoop_busy_succ ms k h hb]
    exact .afterPoll h (ih hbusy (Nat.succ.inj hk) (xchg_scripted cfg.dummyTx h).2.1)

/-- The wait starts by drawing the deadline's number of false answers, which touches neither the card's script nor the wire nor the
line. -/
theorem polled_waitReady {s : State} {n : Nat} {clocks : List Nat} {ok : Bool} {drawn : List Byte} (hclock : s.clockIn = n :: clocks)
    (loop : ∀ t : State, t.cardIn = s.cardIn → Polled cfg t ok drawn rest (waitReadyLoop cfg ms n t)) :
    Polled cfg s ok drawn rest (waitReady cfg ms s) := by
  have hn : (setDeadline ms s).1.left = n := nextExpiry_cons ms n clocks s hclock
  obtain ⟨answer, left, appended, line⟩ := loop (setDPoll (setDeadline ms s).1 (setDeadline ms s).2) rfl
  unfold waitReady
  rw [hn]
  exact ⟨answer, left, appends_from_wire appended rfl, line⟩

end

/-- Settles O38: the frame is that of any run and of the wait's one register, and each outcome is the loop's with `n` false answers. -/
theorem readyWaitTestsByteBeforeDeadline : Obligations.ReadyWaitTestsByteBeforeDeadline := by
  intro cfg s ms n clocks busy rest hclock hbusy
  have ran : Runs cfg noStore s (waitReady cfg ms s).2 := Runs.waitReady ms .refl
  exact ⟨ran.sameButTransport, waitReady_working cfg ms s List.mem_cons_self,
    fun hlast hcard => polled_waitReady ms rest hclock fun _ ht => waitReadyLoop_succeeds ms rest hbusy hlast (ht.trans hcard),
    fun hall hcard => polled_waitReady ms rest hclock fun _ ht => waitReadyLoop_fails ms rest hbusy hall (ht.trans hcard)⟩

end Sys2Proof.ChipSelect
end

section
/-! PROOFS. The statements of 41_command_dispatcher.md on commands presented by themselves and on the response poll. A bare command is its
transaction with, where it has a success, that in `ok`; each transaction's trace, frame and registers are said by its laws, and the
statements put them together. New here: what `CMD9`, `ACMD13`, `CMD38` and the commands with trailing bytes write of the registers, and the
poll against a scripted card. -/

namespace Sys2Proof.Dispatcher

open Sys2Proof.Machine Sys2Proof.Safety

/-! ### Commands with nothing after their R1 -/

/-- One command was sent: the wire shows `trace` of the byte left in `r`, and the rest is the frame of the dispatcher. -/
def SendsCommand (trace : Byte → List WireEvent → Prop) (s : State) (o : Host.Outcome State Fault Refusal) : Prop :=
  ∃ t evs r, o = .next t ∧ Appends s t evs ∧ trace r evs ∧ t.w.r = some r ∧ SameButTransport s t ∧
    SameWorkingBut dispatcherRegisters s t

section
variable {s : State} {c : Command}

/-- Whatever the command, its trace alone is left to say. -/
theorem bareCommand_sends {trace : Byte → List WireEvent → Prop}
    (h : ∃ evs, Appends s (sendCmd s.params c s).2 evs ∧ trace (sendCmd s.params c s).1 evs) :
    SendsCommand trace s (bareCommand s.params c s) := by
  obtain ⟨evs, appended, traced⟩ := h
  have ran : Runs s.params noStore s (sendCmd s.params c s).2 := Runs.refl.sendCmd c
  exact ⟨_, evs, _, rfl, appended, traced, sendCmd_r s.params c s, ran.sameButTransport,
    sendCmd_working s.params c s (List.Subset.refl _)⟩

theorem bareCommand_bracket (hc : isStop s.params c = false) (ha : c.acmd = false) :
    SendsCommand (BracketTrace s.params (frameBytes s.params c.op c.arg)) s (bareCommand s.params c s) :=
  bareCommand_sends (sendCmd_trace s.params c hc ha s)

theorem bareCommand_app (hcfg : s.params.wf = true) (hc : isStop s.params c = false) (ha : c.acmd = true) :
    SendsCommand (AppTrace s.params (frameBytes s.params c.op c.arg)) s (bareCommand s.params c s) :=
  bareCommand_sends (sendCmd_app_trace s.params hcfg c hc ha s)

end

/-- Settles O24: six commands that are neither the stop command nor application commands. -/
theorem plainCommandsSendTheirFrame : Obligations.PlainCommandsSendTheirFrame := fun _ addr hcfg =>
  ⟨bareCommand_bracket (isStop_goIdleState hcfg) rfl, bareCommand_bracket (isStop_sendOpCond hcfg) rfl,
    bareCommand_bracket (isStop_setBlockLen hcfg) rfl, bareCommand_bracket (isStop_eraseWrBlkStart hcfg addr) rfl,
    bareCommand_bracket (isStop_eraseWrBlkEnd hcfg addr) rfl, bareCommand_bracket (isStop_appCmd hcfg) rfl⟩

/-- Settles O25: two application commands. -/
theorem applicationCommandsSendTheirPrefix : Obligations.ApplicationCommandsSendTheirPrefix := fun _ count hcs hcfg =>
  ⟨bareCommand_app hcfg (isStop_setWrBlkEraseCount hcfg count) rfl, bareCommand_app hcfg (isStop_sdSendOpCond hcfg hcs) rfl⟩

/-! ### Commands with trailing bytes -/

/-- A command and, where its response passes a test, its four trailing bytes: the one form of the transactions of `CMD8` and `CMD58`. -/
def trailingTransaction (cfg : Params) (c : Command) (test : Byte → Bool) (s : State) : Option Word × State :=
  if test (sendCmd cfg c s).1 then
    (some (readTrailing cfg (sendCmd cfg c s).2).1, (readTrailing cfg (sendCmd cfg c s).2).2)
  else (none, (sendCmd cfg c s).2)

theorem ifCondTransaction_eq (cfg : Params) (s : State) :
    ifCondTransaction cfg s = trailingTransaction cfg sendIfCond r1Idle s := rfl

theorem ocrTransaction_eq (cfg : Params) (s : State) :
    ocrTransaction cfg s = trailingTransaction cfg readOcr r1Accepted s := rfl

theorem exec_cmd8 (s : State) : exec .cmd8 s =
    bareResult ((trailingTransaction s.params sendIfCond r1Idle s).1.elim false echoMatches,
      (trailingTransaction s.params sendIfCond r1Idle s).2) := rfl

theorem exec_cmd58 (s : State) : exec .cmd58 s =
    bareResult ((trailingTransaction s.params readOcr r1Accepted s).1.elim false fun _ => true,
      (trailingTransaction s.params readOcr r1Accepted s).2) := by
  show bareResult ((ocrTransaction s.params s).1.isSome, (ocrTransaction s.params s).2) = _
  rw [ocrTransaction_eq]
  cases (trailingTransaction s.params readOcr r1Accepted s).1 <;> rfl

/-- The echo test reads the last two trailing bytes (rule R78). -/
theorem echoMatches_eq_decide (b0 b1 b2 b3 : Byte) :
    echoMatches (b0 ++ b1 ++ b2 ++ b3) = decide (b2.toNat = 0x01 ∧ b3.toNat = 0xAA) := by
  have h := echoMatches_bytesWord b0 b1 b2 b3
  rw [BitVec.toNat_eq, BitVec.toNat_eq] at h
  exact Bool.eq_iff_iff.2 (h.trans decide_eq_true_iff.symm)

/-- A bare command with trailing bytes: they are read where the response is the one awaited, and `passes` of them is left in `ok`. -/
theorem bareResult_trailing {s : State} {c : Command} (hc : isStop s.params c = false) (ha : c.acmd = false) {test : Byte → Bool}
    {want : Byte} (htest : ∀ r, test r = true ↔ r = want) (passes : Word → Bool) :
    ∃ t evs trailing, bareResult ((trailingTransaction s.params c test s).1.elim false passes,
        (trailingTransaction s.params c test s).2) = .next t ∧ Appends s t evs ∧
      TrailingTrace s.params (frameBytes s.params c.op c.arg) want trailing evs ∧
      (∀ b0 b1 b2 b3 : Byte, trailing = some [b0, b1, b2, b3] → t.w.resp4 = some (b0 ++ b1 ++ b2 ++ b3) ∧
        t.w.ok = some (passes (b0 ++ b1 ++ b2 ++ b3))) ∧
      (trailing = none → t.w.ok = some false ∧ t.w.resp4 = s.w.resp4) ∧
      SameButTransport s t ∧ SameWorkingBut (dispatcherRegisters ++ [.resp4, .ok]) s t := by
  obtain ⟨cmd, sent, bracket⟩ := sendCmd_trace s.params c hc ha s
  have ran : Runs s.params noStore s (sendCmd s.params c s).2 := Runs.refl.sendCmd c
  have wrote : SameWorkingBut (dispatcherRegisters ++ [.resp4, .ok]) s (sendCmd s.params c s).2 :=
    sendCmd_working s.params c s (List.subset_append_left _ _)
  have kept : (sendCmd s.params c s).2.w.resp4 = s.w.resp4 :=
    (sendCmd_working s.params c s (List.Subset.refl _)).resp4 (by decide)
  unfold trailingTransaction
  split
  · next hpass =>
    obtain ⟨b0, b1, b2, b3, word, stored, read⟩ := readTrailing_trace s.params (sendCmd s.params c s).2
    have awaited : BracketTrace s.params (frameBytes s.params c.op c.arg) want cmd := (htest _).1 hpass ▸ bracket
    refine ⟨_, _, some [b0, b1, b2, b3], rfl, appends_of_wire (Appends_trans sent read) rfl,
      .inr ⟨cmd, b0, b1, b2, b3, rfl, awaited, rfl⟩, ?_, nofun, (ran.readTrailing.registers _).sameButTransport,
      (wrote.trans (readTrailing_working s.params _ (by simp))).trans (setOk_working _ _ (by simp))⟩
    rintro _ _ _ _ ⟨⟩
    exact ⟨stored, congrArg (fun w => some (passes w)) word⟩
  · next hother =>
    exact ⟨_, cmd, none, rfl, appends_of_wire sent rfl, .inl ⟨_, fun e => hother ((htest _).2 e), bracket, rfl⟩, nofun,
      fun _ => ⟨rfl, kept⟩, (ran.registers _).sameButTransport, wrote.trans (setOk_working _ _ (by simp))⟩

/-- Settles O27: `CMD8` awaits 1 and tests the echo, `CMD58` awaits 0 and tests nothing. -/
theorem trailingBytesOfIfCondAndOcr : Obligations.TrailingBytesOfIfCondAndOcr := by
  intro s hcfg
  refine ⟨?_, ?_⟩
  · obtain ⟨t, evs, trailing, ended, appended, traced, read, frame⟩ :=
      bareResult_trailing (s := s) (isStop_sendIfCond hcfg) rfl idle_iff echoMatches
    refine ⟨t, evs, trailing, (exec_cmd8 s).trans ended, appended, traced, fun b0 b1 b2 b3 h => ?_, frame⟩
    rw [← echoMatches_eq_decide b0 b1]
    exact read b0 b1 b2 b3 h
  · rw [exec_cmd58]
    exact bareResult_trailing (isStop_readOcr hcfg) rfl accepted_iff fun _ => true

/-! ### Commands with a received packet -/

section
variable (cfg : Params) {named : List WorkingRegister}

theorem dPoll_mem (h : dispatcherRegisters ⊆ named) : .dPoll ∈ named := h (by simp [dispatcherRegisters])

theorem csdTransaction_working (s : State) (h : dispatcherRegisters ⊆ named) (ht : .token ∈ named) (hb : .csdBuf ∈ named) :
    SameWorkingBut named s (csdTransaction cfg s).2 := by
  unfold csdTransaction
  split
  · exact (sendCmd_working cfg _ s h).trans (recvRegister_working cfg _ (dPoll_mem h) ht hb)
  · exact sendCmd_working cfg _ s h

/-- Without a packet `CSDBUF` is not written: only the token wait ran after the command. -/
theorem csdTransaction_none_working {s : State} (h : (csdTransaction cfg s).1 = none) :
    SameWorkingBut (dispatcherRegisters ++ [.token]) s (csdTransaction cfg s).2 := by
  have sent : SameWorkingBut (dispatcherRegisters ++ [.token]) s (sendCmd cfg (sendCsd cfg) s).2 :=
    sendCmd_working cfg _ s (List.subset_append_left _ _)
  unfold csdTransaction recvRegister at h ⊢
  split at h
  · next accepted =>
    split at h
    · cases h
    · next noToken =>
      rw [if_pos accepted, if_neg noToken]
      exact sent.trans (tokenWait_working cfg _ (by simp [dispatcherRegisters]) (by simp))
  · next rejected => rwa [if_neg rejected]

theorem sdStatusTransaction_working (s : State) (h : dispatcherRegisters ⊆ named) (ht : .token ∈ named) :
    SameWorkingBut named s (sdStatusTransaction cfg s).2 := by
  unfold sdStatusTransaction
  split
  · exact ((sendCmd_working cfg _ s h).trans (send_working cfg.dummyTx _)).trans (recvDataBlock_working cfg _ _ _ (dPoll_mem h) ht)
  · exact sendCmd_working cfg _ s h

end

/-- Settles O28: the bytes and `CSDBUF` by the law of the transaction, and without a packet by what the token wait writes. -/
theorem csdCommandFillsCsdBuf : Obligations.CsdCommandFillsCsdBuf := by
  intro s hcfg
  obtain ⟨evs, appended, traced, filled⟩ := csdTransaction_trace s.params hcfg s
  have ran : Runs s.params noStore s (csdTransaction s.params s).2 := Runs.refl.csdTransaction
  have wrote : SameWorkingBut (dispatcherRegisters ++ [.token, .csdBuf, .ok]) s (csdTransaction s.params s).2 :=
    csdTransaction_working s.params s (List.subset_append_left _ _) (by simp) (by simp)
  refine ⟨_, evs, (csdTransaction s.params s).1, rfl, appends_of_wire appended rfl, traced, fun bytes h => ?_, fun h => ?_,
    (ran.registers _).sameButTransport, wrote.trans (setOk_working _ _ (by simp))⟩
  · obtain ⟨length, stored⟩ := filled bytes h
    exact ⟨length, stored, congrArg (some ∘ Option.isSome) h⟩
  · exact ⟨(csdTransaction_none_working s.params h).csdBuf (by decide), congrArg (some ∘ Option.isSome) h⟩

/-- At most one packet was received: the wire shows `trace` of its payload, which `BUF` then holds at its start, the rest of it the same,
or, without a packet, all of it; whether it came is left in `ok`. -/
def ReceivesPacket (len : Nat) (trace : Option (List Byte) → List WireEvent → Prop) (s : State)
    (o : Host.Outcome State Fault Refusal) : Prop :=
  ∃ t evs payload, o = .next t ∧ Appends s t evs ∧ trace payload evs ∧
    (∀ bytes, payload = some bytes → bufBytes 0 len t = bytes ∧ t.w.ok = some true ∧ SameBufBut 0 len s t) ∧
    (payload = none → t.buf = s.buf ∧ t.w.ok = some false) ∧
    SameSession s t ∧ t.seq = s.seq ∧ t.reply = s.reply ∧ SameWorkingBut (dispatcherRegisters ++ [.token, .ok]) s t

/-- A bare row whose transaction receives a packet of `len` bytes at the start of `BUF`, in a buffer that holds it: by the trace of
the transaction, its run, and what it leaves without a packet. -/
theorem bareResult_receives {s : State} {q : Bool × State} {len : Nat} {trace : Option (List Byte) → List WireEvent → Prop}
    (traced : ∃ evs, Appends s q.2 evs ∧ trace (if q.1 then some (bufBytes 0 len q.2) else none) evs)
    (ran : Runs s.params (storesIn 0 len) s q.2) (unfilled : q.1 = false → q.2.buf = s.buf)
    (wrote : SameWorkingBut (dispatcherRegisters ++ [.token, .ok]) s q.2) (fits : len ≤ s.buf.size) :
    ReceivesPacket len trace s (if bufFits len s then bareResult q else .refused .bufferTooSmall) := by
  obtain ⟨evs, appended, traced⟩ := traced
  have ended : Runs s.params (storesIn 0 len) s (setOk q.1 q.2) := ran.registers _
  obtain ⟨session, sequencer, reply⟩ := ended.sameSession
  refine ⟨_, evs, _, if_pos (decide_eq_true fits), appends_of_wire appended rfl, traced, ?_, ?_, session, sequencer, reply,
    wrote.trans (setOk_working _ _ (by simp))⟩
  · cases received : q.1
    · nofun
    · rintro _ ⟨⟩
      exact ⟨rfl, rfl, received ▸ ended.sameBufBut⟩
  · cases received : q.1
    · exact fun _ => ⟨unfilled received, rfl⟩
    · nofun

/-- A command and its packet, in a buffer that holds it. -/
theorem bareRecv_receives {s : State} {c : Command} {len : Nat} (hw : Memory.wf s.buf.mem = true) (hc : isStop s.params c = false)
    (ha : c.acmd = false) (fits : len ≤ s.buf.size) :
    ReceivesPacket len (CmdRecvTrace s.params (frameBytes s.params c.op c.arg)) s
      (if bufFits len s then bareResult (recvTransaction s.params c len s) else .refused .bufferTooSmall) :=
  bareResult_receives (recvTransaction_trace s.params c len hc ha s hw)
    (Runs.refl.recvTransaction c len fun _ h => ⟨Nat.zero_le _, by omega⟩) (recvTransaction_false s.params)
    (recvTransaction_working s.params c len s (List.subset_append_left _ _) (by simp)) fits

/-- Settles O29: two commands with their packet, and `ACMD13` with one byte between. -/
theorem receivingCommandsFillBuf : Obligations.ReceivingCommandsFillBuf := fun s addr hw hcfg =>
  ⟨bareRecv_receives hw (isStop_sendCid hcfg) rfl,
    bareResult_receives (sdStatusTransaction_trace s.params hcfg s hw)
      (Runs.refl.sdStatusTransaction fun _ h => ⟨Nat.zero_le _, by unfold sdStatusLength at h; omega⟩)
      (sdStatusTransaction_false s.params)
      (sdStatusTransaction_working s.params s (List.subset_append_left _ _) (by simp)),
    bareRecv_receives hw (isStop_readSingleBlock hcfg addr) rfl⟩

/-! ### Multi-sector commands -/

section
variable {s : State} {n : Fin 129}

/-- `COUNT` as the number the loops take it for. -/
theorem count_eq_ofNat (h : s.w.count = some n) : s.w.count = some (Fin.ofNat 129 n.val) := by
  rw [h, Fin.ofNat_val_eq_self]

theorem exec_cmd18_counted (addr : Word) (h : s.w.count = some n) (fits : n.val * 512 ≤ s.buf.size) :
    exec (.cmd18 addr) s = .next (readMultiTransaction s.params addr n.val s) := by
  show execCmd18 addr s = _
  unfold execCmd18
  rw [h]
  exact if_pos (decide_eq_true fits)

theorem exec_cmd18_uncounted (addr : Word) (h : s.w.count = none) (fits : 512 ≤ s.buf.size) :
    exec (.cmd18 addr) s = if readReachesCount s.params addr s then .fault (.unwrittenRegister .count)
      else .next (readMultiTransaction s.params addr 1 s) := by
  show execCmd18 addr s = _
  unfold execCmd18
  rw [h]
  exact if_pos (decide_eq_true fits)

theorem exec_cmd24 (addr : Word) (hcap : s.writeCapable = true) (fits : 512 ≤ s.buf.size) :
    exec (.cmd24 addr) s = bareResult (writeSingleTransaction s.params addr s) :=
  (if_pos hcap).trans (if_pos (decide_eq_true fits))

theorem exec_cmd25_counted (addr : Word) (hcap : s.writeCapable = true) (h : s.w.count = some n) (fits : n.val * 512 ≤ s.buf.size) :
    exec (.cmd25 addr) s = .next (writeMultiTransaction s.params addr n.val s) := by
  show execCmd25 addr s = _
  unfold execCmd25
  rw [if_pos hcap, h]
  exact if_pos (decide_eq_true fits)

theorem exec_cmd25_uncounted (addr : Word) (hcap : s.writeCapable = true) (h : s.w.count = none) (fits : 512 ≤ s.buf.size) :
    exec (.cmd25 addr) s = if writeReachesCount s.params addr s then .fault (.unwrittenRegister .count)
      else .next (writeMultiTransaction s.params addr 1 s) := by
  show execCmd25 addr s = _
  unfold execCmd25
  rw [if_pos hcap, h]
  exact if_pos (decide_eq_true fits)

end

/-- Settles O30: with a `COUNT` by the law of the transaction, without one by whether it comes to read `COUNT`. -/
theorem multipleReadCommandFillsBuf : Obligations.MultipleReadCommandFillsBuf := by
  intro s addr hw hcfg
  refine ⟨fun n hn fits => ?_, fun hn fits => ?_⟩
  · obtain ⟨evs, payloads, appended, traced, atMost, sectors, filled, ran, left⟩ :=
      readMultiTransaction_trace s.params hcfg addr n.val s hw (count_eq_ofNat hn)
    obtain ⟨session, sequencer, reply⟩ := ran.sameSession
    have counted : (Fin.ofNat 129 (n.val - payloads.length)).val = n.val - payloads.length := Nat.mod_eq_of_lt (by omega)
    refine ⟨_, evs, payloads, exec_cmd18_counted addr hn fits, appended, traced, atMost, sectors, filled, ran.sameBufBut, ?_, session,
      sequencer, reply,
      readMultiTransaction_working s.params addr n.val s (List.subset_append_left _ _) (by simp) (by simp) (by simp)⟩
    rw [left, Option.map_some, counted]
  · rw [exec_cmd18_uncounted addr hn fits]
    cases reaches : readReachesCount s.params addr s
    · obtain ⟨evs, appended, traced, ran, wrote⟩ := readMultiTransaction_uncounted s.params hcfg addr s hw reaches
      exact ⟨_, evs, rfl, appended, traced, ran.sameButTransport, wrote⟩
    · rfl

/-- Settles O31: `CMD24` by the law of its transaction; `CMD25` as `CMD18`, with a `COUNT` and without one. -/
theorem transmittingCommandsSendBuf : Obligations.TransmittingCommandsSendBuf := by
  intro s addr hcap hcfg
  have ran (n : Nat) : Runs s.params noStore s (writeMultiTransaction s.params addr n s) := Runs.refl.writeMultiTransaction addr n
  have wrote (n : Nat) : SameWorkingBut (dispatcherRegisters ++ [.token, .dResp, .count, .off]) s
      (writeMultiTransaction s.params addr n s) :=
    writeMultiTransaction_working s.params addr n s (List.subset_append_left _ _) (by simp) (by simp) (by simp) (by simp)
  refine ⟨fun fits => ?_, fun n hn fits => ?_, fun hn fits => ?_⟩
  · obtain ⟨evs, appended, traced⟩ := writeSingleTransaction_trace s.params hcfg addr s
    have ran : Runs s.params noStore s (writeSingleTransaction s.params addr s).2 := Runs.refl.writeSingleTransaction addr
    have wrote : SameWorkingBut (dispatcherRegisters ++ [.token, .dResp, .ok]) s (writeSingleTransaction s.params addr s).2 :=
      writeSingleTransaction_working s.params addr s (List.subset_append_left _ _) (by simp) (by simp)
    exact ⟨_, evs, _, exec_cmd24 addr hcap fits, appends_of_wire appended rfl, traced, rfl, (ran.registers _).sameButTransport,
      wrote.trans (setOk_working _ _ (by simp))⟩
  · obtain ⟨evs, ok, appended, traced, allAccepted⟩ :=
      writeMultiTransaction_trace s.params hcfg addr n.val s (count_eq_ofNat hn) (Nat.le_of_lt_succ n.isLt)
    exact ⟨_, evs, ok, exec_cmd25_counted addr hcap hn fits, appended, traced, allAccepted, (ran _).sameButTransport, wrote _⟩
  · rw [exec_cmd25_uncounted addr hcap hn fits]
    cases reaches : writeReachesCount s.params addr s
    · obtain ⟨evs, appended, traced, left⟩ := writeMultiTransaction_uncounted s.params hcfg addr s reaches
      exact ⟨_, evs, rfl, appended, traced, hn ▸ left, (ran 1).sameButTransport, wrote 1⟩
    · rfl

/-! ### `CMD38` -/

theorem eraseTransaction_working {named : List WorkingRegister} (cfg : Params) (s : State) (h : dispatcherRegisters ⊆ named) :
    SameWorkingBut named s (eraseTransaction cfg s).2 := by
  unfold eraseTransaction
  split
  · exact (sendCmd_working cfg _ s h).trans (waitReady_working cfg _ _ (dPoll_mem h))
  · exact sendCmd_working cfg _ s h

/-- Settles O32: the trace, the frame and the registers of the erase, each by its law. -/
theorem eraseCommandWaitsForReady : Obligations.EraseCommandWaitsForReady := by
  intro s hcfg
  obtain ⟨evs, appended, traced⟩ := eraseTransaction_trace s.params hcfg s
  have ran : Runs s.params noStore s (eraseTransaction s.params s).2 := Runs.refl.eraseTransaction
  have wrote : SameWorkingBut (dispatcherRegisters ++ [.ok]) s (eraseTransaction s.params s).2 :=
    eraseTransaction_working s.params s (List.subset_append_left _ _)
  exact ⟨_, evs, _, rfl, appends_of_wire appended rfl, traced, rfl, (ran.registers _).sameButTransport,
    wrote.trans (setOk_working _ _ (by simp))⟩

/-! ### The response poll, against a scripted card -/

/-- A poll from `s` ended with `r`: it received the bytes `drawn`, left the script at `rest`, set no deadline and did not move the
line. -/
def Heard (cfg : Params) (s : State) (r : Byte) (drawn rest : List Byte) (result : Byte × State) : Prop :=
  result.1 = r ∧ result.2.w.r1 = some r ∧ result.2.cardIn = rest ∧ Appends s result.2 (sending cfg.dummyTx drawn) ∧
    result.2.clockIn = s.clockIn ∧ result.2.cs = s.cs

section
variable {cfg : Params} {s : State} {b : Byte} {rest : List Byte}

/-- `R1` and `NPOLL` after one poll of the loop. -/
def afterPoll (cfg : Params) (n : Nat) (s : State) : State := setNPoll n (setR1 (xchg cfg.dummyTx s).1 (xchg cfg.dummyTx s).2)

theorem heard_once (n : Nat) (h : s.cardIn = b :: rest) : Heard cfg s b [b] rest ((xchg cfg.dummyTx s).1, afterPoll cfg n s) := by
  obtain ⟨drawn, left, appended⟩ := xchg_scripted cfg.dummyTx h
  exact ⟨drawn, congrArg some drawn, left, appends_of_wire appended rfl, rfl, rfl⟩

/-- A poll that goes on is part of the one it belongs to. -/
theorem Heard.afterPoll {r : Byte} {later drawn : List Byte} {n : Nat} {result : Byte × State} (h : s.cardIn = b :: later)
    (heard : Heard cfg (afterPoll cfg n s) r drawn rest result) : Heard cfg s r (b :: drawn) rest result := by
  obtain ⟨returned, held, left, appended, clock, line⟩ := heard
  obtain ⟨-, -, first⟩ := xchg_scripted cfg.dummyTx h
  exact ⟨returned, held, left, Appends_trans first (appends_from_wire appended rfl), clock, line⟩

theorem r1Arrived_poll (h : s.cardIn = b :: rest) : r1Arrived (xchg cfg.dummyTx s).1 = true ↔ b.toNat < 128 := by
  rw [(xchg_scripted cfg.dummyTx h).1, r1Arrived_iff]

/-- The loop ends on a byte with bit 7 clear, and on any byte at its last poll. -/
theorem pollR1Loop_ends {n : Nat} (hend : b.toNat < 128 ∨ n = 0) (h : s.cardIn = b :: rest) :
    Heard cfg s b [b] rest (pollR1Loop cfg n s) := by
  cases n with
  | zero => exact heard_once 0 h
  | succ n =>
    have arrived : r1Arrived (xchg cfg.dummyTx s).1 = true := (r1Arrived_poll h).2 (hend.resolve_right (Nat.succ_ne_zero n))
    unfold pollR1Loop
    rw [if_pos arrived]
    exact heard_once (n + 1) h

/-- A byte with bit 7 set costs one poll. -/
theorem pollR1Loop_noise (n : Nat) (hb : 128 ≤ b.toNat) (h : s.cardIn = b :: rest) :
    pollR1Loop cfg (n + 1) s = pollR1Loop cfg n (afterPoll cfg (n + 1) s) :=
  if_neg (mt (r1Arrived_poll h).1 (Nat.not_lt.2 hb))

end

/-- The loop with `n` polls left after this one: past at most `n` bytes of noise it returns the first byte with bit 7 clear, and past
`n` of them the next, whatever it is. -/
theorem pollR1Loop_heard {cfg : Params} {noise rest : List Byte} {r : Byte} (hnoise : ∀ b ∈ noise, 128 ≤ b.toNat) {n : Nat} {s : State}
    (hend : r.toNat < 128 ∧ noise.length ≤ n ∨ noise.length = n) (h : s.cardIn = noise ++ r :: rest) :
    Heard cfg s r (noise ++ [r]) rest (pollR1Loop cfg n s) := by
  induction noise generalizing n s with
  | nil => exact pollR1Loop_ends (hend.imp And.left Eq.symm) h
  | cons b noise ih =>
    obtain ⟨hb, hnoise⟩ := List.forall_mem_cons.1 hnoise
    rw [List.length_cons] at hend
    cases n with
    | zero => omega
    | succ n =>
      rw [pollR1Loop_noise n hb h]
      exact .afterPoll h (ih hnoise (by omega) (xchg_scripted cfg.dummyTx h).2.1)

/-- Settles O37: the loop with nine polls left after its first, from the state in which `NPOLL` is 10. -/
theorem responsePollReturnsLastByteRead : Obligations.ResponsePollReturnsLastByteRead := by
  intro cfg s noise rest r hcard hnoise hend
  obtain ⟨returned, held, left, appended, clock, line⟩ :=
    pollR1Loop_heard (cfg := cfg) (s := setNPoll nR1Poll s) hnoise hend hcard
  exact ⟨returned, held, left, appends_from_wire appended rfl, clock, line⟩

end Sys2Proof.Dispatcher
end

section
/-! PROOFS. The statements of 42_data_transceiver.md. The token wait, the packet after its token and the transmit are each said once:
against a scripted card, and by what they leave of the line and the registers. The statements on the procedures and on the tokens
presented by themselves put these together. -/

namespace Sys2Proof.Transceiver

open Sys2Proof.Machine Sys2Proof.Safety

/-! ### What is exchanged without moving the line -/

section
variable (cfg : Params)

theorem waitReadyLoop_cs (ms k : Nat) (s : State) : (waitReadyLoop cfg ms k s).2.cs = s.cs := by
  induction k generalizing s with
  | zero => rfl
  | succ k ih =>
    unfold waitReadyLoop
    split
    · rfl
    · exact ih _

theorem waitReady_cs (ms : Nat) (s : State) : (waitReady cfg ms s).2.cs = s.cs := waitReadyLoop_cs cfg ms _ _

theorem recvBlock_cs (off len : Nat) (s : State) : (recvBlock cfg off len s).cs = s.cs := by
  induction len generalizing off s with
  | zero => rfl
  | succ n ih => exact ih (off + 1) _

theorem xmitBlock_cs (off len : Nat) (s : State) : (xmitBlock off len s).cs = s.cs := by
  induction len generalizing off s with
  | zero => rfl
  | succ n ih => exact ih (off + 1) _

theorem dataResponse_cs (s : State) : (dataResponse cfg s).2.cs = s.cs := rfl

theorem xmitPayload_cs (off : Nat) (s : State) : (xmitPayload cfg off s).2.cs = s.cs := by
  unfold xmitPayload
  exact (dataResponse_cs cfg _).trans ((Encoding.sendAll_cs _ _).trans (xmitBlock_cs off sectorSize s))

theorem xmitDataBlock_cs (off : Nat) (token : Byte) (s : State) : (xmitDataBlock cfg off token s).2.cs = s.cs := by
  have waited : (waitReady cfg tReadyMs (setToken token s)).2.cs = s.cs := waitReady_cs cfg _ _
  unfold xmitDataBlock
  dsimp only
  split
  · split
    · exact waited
    · exact (xmitPayload_cs cfg off _).trans waited
  · exact waited

end

/-! ### The token wait, against a scripted card -/

/-- A token wait from `s` ended on `token`, which `TOKEN` holds: it received the bytes `drawn`, left the script at `rest`, and did not
move the line. -/
def Awaited (cfg : Params) (s : State) (token : Byte) (drawn rest : List Byte) (result : Byte × State) : Prop :=
  result.1 = token ∧ result.2.w.token = some token ∧ result.2.cardIn = rest ∧ Appends s result.2 (sending cfg.dummyTx drawn) ∧
    result.2.cs = s.cs

section
variable {cfg : Params} {s : State} {b : Byte} {rest : List Byte}

/-- `TOKEN` after one poll of the loop. -/
def afterPoll (cfg : Params) (s : State) : State := setToken (xchg cfg.dummyTx s).1 (xchg cfg.dummyTx s).2

theorem awaited_once (h : s.cardIn = b :: rest) : Awaited cfg s b [b] rest ((xchg cfg.dummyTx s).1, afterPoll cfg s) := by
  obtain ⟨drawn, left, appended⟩ := xchg_scripted cfg.dummyTx h
  exact ⟨drawn, congrArg some drawn, left, appends_of_wire appended rfl, rfl⟩

/-- A wait that goes on after a poll is part of the one it belongs to. -/
theorem Awaited.afterPoll {token : Byte} {later drawn : List Byte} {d : Deadline} {result : Byte × State} (h : s.cardIn = b :: later)
    (awaited : Awaited cfg (setDPoll d (afterPoll cfg s)) token drawn rest result) : Awaited cfg s token (b :: drawn) rest result := by
  obtain ⟨returned, held, left, appended, line⟩ := awaited
  obtain ⟨-, -, first⟩ := xchg_scripted cfg.dummyTx h
  exact ⟨returned, held, left, Appends_trans first (appends_from_wire appended rfl), line⟩

theorem isNotYetToken_iff (b : Byte) : isNotYetToken b = true ↔ b = 0xFF#8 := beq_iff_eq

theorem isNotYetToken_poll (h : s.cardIn = b :: rest) : isNotYetToken (xchg cfg.dummyTx s).1 = true ↔ b = 0xFF#8 := by
  rw [(xchg_scripted cfg.dummyTx h).1, isNotYetToken_iff]

/-- The loop ends on a byte other than 0xFF, and on any byte once the deadline has expired. -/
theorem tokenWaitLoop_ends (ms : Nat) {n : Nat} (hend : b ≠ 0xFF#8 ∨ n = 0) (h : s.cardIn = b :: rest) :
    Awaited cfg s b [b] rest (tokenWaitLoop cfg ms n s) := by
  cases n with
  | zero => exact awaited_once h
  | succ n =>
    have arrived : ¬ isNotYetToken (xchg cfg.dummyTx s).1 = true :=
      mt (isNotYetToken_poll h).1 (hend.resolve_right (Nat.succ_ne_zero n))
    unfold tokenWaitLoop
    rw [if_neg arrived]
    exact awaited_once h

/-- An idle byte met by a deadline not expired costs one of its false answers. -/
theorem tokenWaitLoop_idle (ms n : Nat) (h : s.cardIn = 0xFF#8 :: rest) :
    tokenWaitLoop cfg ms (n + 1) s = tokenWaitLoop cfg ms n (setDPoll ⟨ms, n⟩ (afterPoll cfg s)) :=
  if_pos ((isNotYetToken_poll h).2 rfl)

end

/-- The loop with `n` false answers of the deadline left: past at most `n` idle bytes it ends on the first other byte, and past `n`
of them on the next, whatever it is. -/
theorem tokenWaitLoop_awaited {cfg : Params} (ms : Nat) {b : Byte} {rest : List Byte} {k n : Nat} {s : State}
    (hend : b ≠ 0xFF#8 ∧ k ≤ n ∨ k = n) (h : s.cardIn = List.replicate k 0xFF#8 ++ b :: rest) :
    Awaited cfg s b (List.replicate k 0xFF#8 ++ [b]) rest (tokenWaitLoop cfg ms n s) := by
  induction k generalizing n s with
  | zero => exact tokenWaitLoop_ends ms (hend.imp And.left Eq.symm) h
  | succ k ih =>
    cases n with
    | zero => omega
    | succ n =>
      rw [tokenWaitLoop_idle ms n h]
      exact .afterPoll h (ih (hend.imp (And.imp_right Nat.le_of_succ_le_succ) Nat.succ.inj) (xchg_scripted cfg.dummyTx h).2.1)

/-- The wait is the loop with the false answers of a deadline set now. -/
theorem tokenWait_awaited {cfg : Params} {b : Byte} {rest : List Byte} {k : Nat} {s : State}
    (hend : b ≠ 0xFF#8 ∧ k ≤ nextExpiry tTokenMs s ∨ k = nextExpiry tTokenMs s)
    (h : s.cardIn = List.replicate k 0xFF#8 ++ b :: rest) :
    Awaited cfg s b (List.replicate k 0xFF#8 ++ [b]) rest (tokenWait cfg s) := by
  obtain ⟨returned, held, left, appended, line⟩ := tokenWaitLoop_awaited (cfg := cfg) tTokenMs
    (s := setDPoll (setDeadline tTokenMs s).1 (setDeadline tTokenMs s).2) hend h
  exact ⟨returned, held, left, appends_from_wire appended rfl, line⟩

/-! ### The packet after its token -/

/-- The payload into `BUF` and the two bytes after it, discarded (rules R171, R173). -/
def takePacket (cfg : Params) (off len : Nat) (s : State) : State := sendDummies cfg 2 (recvBlock cfg off len s)

section
variable {cfg : Params} {off len : Nat} {s : State}

/-- On 0xFE the packet is taken (rule R171). -/
theorem recvDataBlock_of_token (h : (tokenWait cfg s).1 = 0xFE#8) :
    recvDataBlock cfg off len s = (true, takePacket cfg off len (tokenWait cfg s).2) := if_pos (beq_iff_eq.2 h)

/-- On another byte the receive ends there (rule R172). -/
theorem recvDataBlock_of_no_token (h : (tokenWait cfg s).1 ≠ 0xFE#8) : recvDataBlock cfg off len s = (false, (tokenWait cfg s).2) :=
  if_neg (mt beq_iff_eq.1 h)

theorem takePacket_w : (takePacket cfg off len s).w = s.w := (sendAll_w _ _).trans (recvBlock_w cfg off len s)

theorem takePacket_cs : (takePacket cfg off len s).cs = s.cs := (Encoding.sendAll_cs _ _).trans (recvBlock_cs cfg off len s)

theorem takePacket_runs : Runs cfg (storesIn off len) s (takePacket cfg off len s) :=
  (Runs.refl.recvBlock off len fun _ h1 h2 => ⟨h1, h2⟩).sendDummies 2

/-- The two discarded bytes leave the payload in `BUF`. -/
theorem bufBytes_takePacket : bufBytes off len (takePacket cfg off len s) = bufBytes off len (recvBlock cfg off len s) :=
  bufBytes_of_buf off len (Runs.sendDummies (cfg := cfg) (p := noStore) 2 .refl).sameBuf

theorem received_sending (tx : Byte) (rxs : List Byte) : received (sending tx rxs) = rxs := by
  induction rxs with
  | nil => rfl
  | cons b rxs ih => exact congrArg (b :: ·) ih

theorem appends_unique {t : State} {a b : List WireEvent} (ha : Appends s t a) (hb : Appends s t b) : a = b :=
  List.reverse_injective (List.append_cancel_right (ha.symm.trans hb))

/-- What `BUF` then holds, and the two bytes after it, are what the card sent, the scripted bytes first (rules R13, R173). -/
theorem takePacket_drew (hw : Memory.wf s.buf.mem = true) : ∃ c1 c2 : Byte,
    Appends s (takePacket cfg off len s)
      (sending cfg.fillByte (bufBytes off len (takePacket cfg off len s)) ++ sending cfg.dummyTx [c1, c2]) ∧
    (takePacket cfg off len s).cardIn = s.cardIn.drop (len + 2) ∧
    (bufBytes off len (takePacket cfg off len s) ++ [c1, c2]).take s.cardIn.length = s.cardIn.take (len + 2) := by
  obtain ⟨crc, two, dummies⟩ := sendDummies_trace cfg 2 (recvBlock cfg off len s)
  obtain ⟨c1, c2, rfl⟩ := List.length_eq_two.1 two
  have appended := Appends_trans (recvBlock_trace cfg off len s hw) dummies
  rw [← bufBytes_takePacket] at appended
  obtain ⟨evs, appended', left, drawn⟩ := (takePacket_runs (cfg := cfg) (off := off) (len := len) (s := s)).drew
  obtain rfl := appends_unique appended appended'
  rw [received_append, received_sending, received_sending, List.length_append, bufBytes_length] at left drawn
  exact ⟨c1, c2, appended, left, drawn⟩

/-- A scripted packet is taken whole, whatever the two bytes after its payload are. -/
theorem takePacket_scripted {payload rest : List Byte} (c1 c2 : Byte) (hw : Memory.wf s.buf.mem = true)
    (h : s.cardIn = payload ++ ([c1, c2] ++ rest)) :
    (takePacket cfg off payload.length s).cardIn = rest ∧
      bufBytes off payload.length (takePacket cfg off payload.length s) = payload := by
  obtain ⟨left, filled⟩ := recvBlock_scripted cfg payload off s ([c1, c2] ++ rest) hw h
  exact ⟨sendAll_scripted _ _ [c1, c2] rest rfl left, bufBytes_takePacket.trans filled⟩

end

/-- A receive whose token is the card's next byte takes its packet, with any clock. -/
theorem recvDataBlock_at_once {cfg : Params} (off len : Nat) {s : State} {rest : List Byte} (hw : Memory.wf s.buf.mem = true)
    (h : s.cardIn = 0xFE#8 :: rest) : ∃ t c1 c2, recvDataBlock cfg off len s = (true, t) ∧
      Appends s t (.xchg cfg.dummyTx 0xFE#8 :: sending cfg.fillByte (bufBytes off len t) ++ sending cfg.dummyTx [c1, c2]) ∧
      t.cardIn = rest.drop (len + 2) ∧ (bufBytes off len t ++ [c1, c2]).take rest.length = rest.take (len + 2) ∧
      t.w.token = some 0xFE#8 ∧ t.cs = s.cs := by
  obtain ⟨returned, held, left, token, line⟩ := tokenWait_awaited (cfg := cfg) (k := 0) (.inl ⟨by decide, Nat.zero_le _⟩) h
  have waited : Runs cfg noStore s (tokenWait cfg s).2 := Runs.tokenWait .refl
  obtain ⟨c1, c2, packet, after, drawn⟩ := takePacket_drew (cfg := cfg) (off := off) (len := len) (waited.bufWf hw)
  rw [left] at after drawn
  have appended := Appends_trans token packet
  rw [← List.append_assoc] at appended
  exact ⟨_, c1, c2, recvDataBlock_of_token returned, appended, after, drawn,
    (congrArg Working.token takePacket_w).trans held, takePacket_cs.trans line⟩

/-- Settles O39: in each case the wait ends on the byte after the idle ones, and whether it is 0xFE decides. -/
theorem tokenWaitHasThreeOutcomes : Obligations.TokenWaitHasThreeOutcomes := by
  intro cfg s off n k clocks rest hclock hw
  have hn : nextExpiry tTokenMs s = n := nextExpiry_cons tTokenMs n clocks s hclock
  have waited : Runs cfg noStore s (tokenWait cfg s).2 := Runs.tokenWait .refl
  have failed {b : Byte} {idle : List Byte} (len : Nat) (hb : b ≠ 0xFE#8) (awaited : Awaited cfg s b idle rest (tokenWait cfg s)) :
      (recvDataBlock cfg off len s).1 = false ∧ (recvDataBlock cfg off len s).2.cardIn = rest ∧
        (recvDataBlock cfg off len s).2.buf = s.buf := by
    obtain ⟨returned, -, left, -⟩ := awaited
    rw [recvDataBlock_of_no_token (returned ▸ hb)]
    exact ⟨rfl, left, waited.sameBuf⟩
  refine ⟨fun payload c1 c2 hk hcard => ?_, fun len b hk hidle hb hcard => ?_, fun len hk hcard => ?_⟩
  · have script : s.cardIn = List.replicate k 0xFF#8 ++ 0xFE#8 :: (payload ++ ([c1, c2] ++ rest)) := by simpa using hcard
    obtain ⟨returned, -, left, -⟩ := tokenWait_awaited (cfg := cfg) (.inl ⟨by decide, hn.symm ▸ hk⟩) script
    obtain ⟨after, filled⟩ := takePacket_scripted (cfg := cfg) (off := off) c1 c2 (waited.bufWf hw) left
    rw [recvDataBlock_of_token returned]
    exact ⟨rfl, after, filled, (waited.ofNone.trans takePacket_runs).sameBufBut⟩
  · exact failed len hb (tokenWait_awaited (.inl ⟨hidle, hn.symm ▸ hk⟩) hcard)
  · have script : s.cardIn = List.replicate n 0xFF#8 ++ 0xFF#8 :: rest := by
      rw [hcard, hk, List.replicate_succ', List.append_assoc]; rfl
    exact failed len (by decide) (tokenWait_awaited (.inr hn.symm) script)

/-- Settles O33: a receive that meets its token at once, the packet drawn from the script as it stood before the awaited byte. -/
theorem receivedStartTokenOpensPacket : Obligations.ReceivedStartTokenOpensPacket := by
  intro s hw fits
  obtain ⟨t, c1, c2, received, appended, after, drawn, token, line⟩ :=
    recvDataBlock_at_once (cfg := s.params) 0 512 (s := cardAnswers 0xFE#8 s) hw rfl
  have ended : exec (.tokenStartBlock .fromCard) s = bareResult (recvDataBlock s.params 0 512 (cardAnswers 0xFE#8 s)) :=
    if_pos (decide_eq_true fits)
  have ran : Runs s.params (storesIn 0 512) (cardAnswers 0xFE#8 s) (recvDataBlock s.params 0 512 (cardAnswers 0xFE#8 s)).2 :=
    Runs.refl.recvDataBlock 0 512 fun _ h1 h2 => ⟨h1, h2⟩
  have wrote : SameWorkingBut [.dPoll, .token, .ok] s (recvDataBlock s.params 0 512 (cardAnswers 0xFE#8 s)).2 :=
    working_from (recvDataBlock_working s.params 0 512 _ (by simp) (by simp)) rfl
  rw [received] at ended ran wrote
  obtain ⟨session, sequencer, reply⟩ := ran.sameSession
  exact ⟨_, _, c1, c2, ended, appends_of_wire (appends_from_wire appended rfl) rfl, rfl, after, drawn, token, rfl, ran.sameBufBut,
    session, sequencer, reply, line, wrote.trans (setOk_working _ _ (by simp))⟩

/-! ### The transmit -/

/-- Beyond `TOKEN`, written before the ready wait (assumption 21), a transmit writes `D_POLL`, and `DRESP` where it has a packet. -/
theorem xmitDataBlock_registers {cfg : Params} {named : List WorkingRegister} (off : Nat) {token : Byte} (s : State)
    (hpoll : .dPoll ∈ named) (hresp : token ≠ cfg.stopMultiToken → .dResp ∈ named) :
    SameWorkingBut named (setToken token s) (xmitDataBlock cfg off token s).2 := by
  have waited : SameWorkingBut named (setToken token s) (waitReady cfg tReadyMs (setToken token s)).2 := waitReady_working cfg _ _ hpoll
  unfold xmitDataBlock
  dsimp only
  split
  · split
    · exact waited.trans (send_working token _)
    · next packet => exact (waited.trans (send_working token _)).trans (xmitPayload_working cfg off _ (hresp packet))
  · exact waited

/-- The test of a data response looks at its low five bits (rule R83). -/
theorem dataAccepted_iff (cfg : Params) (d : Byte) : dataAccepted cfg d = true ↔ d.toNat % 32 = cfg.acceptVal.toNat := by
  have masked : (d &&& acceptMask).toNat = d.toNat % 32 := by
    rw [BitVec.toNat_and]; exact Nat.and_two_pow_sub_one_eq_mod d.toNat 5
  have widened : (cfg.acceptVal.setWidth 8).toNat = cfg.acceptVal.toNat := BitVec.toNat_setWidth_of_le (by decide)
  unfold dataAccepted
  rw [beq_iff_eq, BitVec.toNat_eq, masked, widened]

theorem dataResponse_scripted {cfg : Params} {s : State} {rest : List Byte} {d : Byte} (h : s.cardIn = d :: rest) :
    (dataResponse cfg s).1 = dataAccepted cfg d ∧ (dataResponse cfg s).2.w.dResp = some d ∧ (dataResponse cfg s).2.cardIn = rest := by
  obtain ⟨drawn, left, -⟩ := xchg_scripted cfg.dummyTx h
  exact ⟨congrArg (dataAccepted cfg) drawn, congrArg some drawn, left⟩

/-- The byte after the payload and the two dummy CRC bytes is the data response, and the last that is drawn. -/
theorem xmitPayload_scripted {cfg : Params} (off : Nat) {s : State} {discarded rest : List Byte} {d : Byte}
    (hlen : discarded.length = 514) (h : s.cardIn = discarded ++ d :: rest) :
    (xmitPayload cfg off s).1 = dataAccepted cfg d ∧ (xmitPayload cfg off s).2.w.dResp = some d ∧
      (xmitPayload cfg off s).2.cardIn = rest := by
  have sent : (xmitBlock off sectorSize s).cardIn = discarded.drop 512 ++ d :: rest := by
    refine xmitBlock_scripted sectorSize off s (discarded.take 512) _ ?_ ?_
    · rw [List.length_take, hlen]; rfl
    · rw [h, ← List.append_assoc, List.take_append_drop]
  have crc : (sendAll [cfg.crcPlaceholderTx, cfg.crcPlaceholderTx] (xmitBlock off sectorSize s)).cardIn = d :: rest :=
    sendAll_scripted _ _ (discarded.drop 512) _ (by rw [List.length_drop, hlen]; rfl) sent
  exact dataResponse_scripted crc

/-- A transmit to a card that is ready is its token and its payload. -/
theorem xmitDataBlock_of_ready {cfg : Params} {off : Nat} {token : Byte} {s : State} (htoken : token ≠ cfg.stopMultiToken)
    (hready : (waitReady cfg tReadyMs (setToken token s)).1 = true) :
    xmitDataBlock cfg off token s = xmitPayload cfg off (send token (waitReady cfg tReadyMs (setToken token s)).2) :=
  (if_pos hready).trans (if_neg htoken)

/-- A token that opens a packet is not the stop token. -/
theorem startToken_ne_stop {cfg : Params} {token : Byte} (hcfg : cfg.wf = true) (h : token = 0xFE#8 ∨ token = cfg.startMultiToken) :
    token ≠ cfg.stopMultiToken := by
  obtain rfl | rfl := h
  · exact startBlock_ne_stop hcfg
  · exact startMulti_ne_stop hcfg

/-- Settles O40: the card is met ready at the first poll; the token and the payload with its two dummy CRC bytes draw the 515
discarded bytes. -/
theorem dataResponseDecidesTransmit : Obligations.DataResponseDecidesTransmit := by
  intro cfg s off token d discarded rest htoken hcfg hlen hcard
  obtain ⟨first, discarded, rfl⟩ := List.exists_cons_of_length_eq_add_one hlen
  obtain ⟨ready, left, -⟩ := waitReady_scripted cfg tReadyMs (setToken token s) _ hcard
  have sent : (send token (waitReady cfg tReadyMs (setToken token s)).2).cardIn = discarded ++ d :: rest :=
    (xchg_scripted token left).2.1
  obtain ⟨accepted, held, after⟩ := xmitPayload_scripted (cfg := cfg) off (Nat.succ.inj hlen) sent
  have same : (xmitDataBlock cfg off token s).2.buf = s.buf := (Runs.refl.xmitDataBlock off token).sameBuf
  rw [xmitDataBlock_of_ready (startToken_ne_stop hcfg htoken) ready] at same ⊢
  exact ⟨accepted ▸ dataAccepted_iff cfg d, held, after, same⟩

/-! ### Tokens presented by themselves -/

/-- A packet from `off` was transmitted: the wire shows it behind `token`, which `TOKEN` holds; its success is in `ok`, and the rest is
the frame of a transmit. -/
def TransmitsPacket (token : Byte) (off : Nat) (s : State) (o : Host.Outcome State Fault Refusal) : Prop :=
  ∃ t evs ok, o = .next t ∧ Appends s t evs ∧ XmitTrace s.params token (bufBytes off 512 s) ok evs ∧ t.w.token = some token ∧
    t.w.ok = some ok ∧ t.cs = s.cs ∧ SameButTransport s t ∧ SameWorkingBut [.dPoll, .token, .dResp, .ok] s t

section
variable {s : State}

theorem transmitToken_transmits {off : Nat} {token : Byte} (hcap : s.writeCapable = true) (htoken : token ≠ s.params.stopMultiToken)
    (fits : off + 512 ≤ s.buf.size) : TransmitsPacket token off s (transmitToken s.params off token s) := by
  obtain ⟨evs, appended, traced⟩ := xmitDataBlock_trace s.params off token htoken s
  have ran : Runs s.params noStore s (xmitDataBlock s.params off token s).2 := Runs.refl.xmitDataBlock off token
  have held : SameWorkingBut [.dPoll, .dResp] (setToken token s) (xmitDataBlock s.params off token s).2 :=
    xmitDataBlock_registers off s (by simp) (by simp)
  have wrote : SameWorkingBut [.dPoll, .token, .dResp, .ok] s (xmitDataBlock s.params off token s).2 :=
    xmitDataBlock_working s.params off token s (by simp) (by simp) (by simp)
  exact ⟨_, evs, _, (if_pos hcap).trans (if_pos (decide_eq_true fits)), appends_of_wire appended rfl, traced, held.token (by decide), rfl,
    xmitDataBlock_cs s.params off token s, (ran.registers _).sameButTransport, wrote.trans (setOk_working _ _ (by simp))⟩

theorem exec_tokenStartMulti (hcap : s.writeCapable = true) :
    exec .tokenStartMulti s = s.w.off.elim (.fault (.unwrittenRegister .off))
      fun off => transmitToken s.params (off.val * 512) s.params.startMultiToken s := by
  show execTokenStartMulti s = _
  unfold execTokenStartMulti
  rw [if_pos hcap]
  cases s.w.off <;> rfl

end

/-- Settles O34: both start tokens are a transmit, from the start of `BUF` and from `OFF`. -/
theorem sentStartTokensOpenPackets : Obligations.SentStartTokensOpenPackets := by
  intro s hcap hcfg
  refine ⟨fun fits => transmitToken_transmits hcap (startBlock_ne_stop hcfg) (by omega), fun off hoff fits => ?_, fun hoff => ?_⟩
  · show TransmitsPacket s.params.startMultiToken (off.val * 512) s (exec .tokenStartMulti s)
    rw [exec_tokenStartMulti hcap, hoff]
    exact transmitToken_transmits hcap (startMulti_ne_stop hcfg) fits
  · rw [exec_tokenStartMulti hcap, hoff]
    rfl

/-- Settles O35: the trace of the stop token, and of the registers only those of the ready wait, `TOKEN` and `ok`. -/
theorem stopTokenSendsNothingElse : Obligations.StopTokenSendsNothingElse := by
  intro s hcap
  obtain ⟨evs, appended, traced⟩ := stopToken_trace s.params 0 s
  have ran : Runs s.params noStore s (xmitDataBlock s.params 0 s.params.stopMultiToken s).2 := Runs.refl.xmitDataBlock _ _
  have wrote : SameWorkingBut [.dPoll, .token, .ok] s (xmitDataBlock s.params 0 s.params.stopMultiToken s).2 :=
    (setToken_working _ _ (by simp)).trans (xmitDataBlock_registers 0 s (by simp) (absurd rfl))
  exact ⟨_, evs, _, if_pos hcap, appends_of_wire appended rfl, traced, rfl, xmitDataBlock_cs s.params 0 _ s,
    (ran.registers _).sameButTransport, wrote.trans (setOk_working _ _ (by simp))⟩

/-! ### Without write capability -/

theorem writeRequest_readOnly {s : State} {lun : Byte} {buf : Handle} {count : Nat} (hidle : s.seq = .idle)
    (hro : ¬ s.writeCapable = true) (run : State) : writeRequest s.params lun buf count run s = .refused .writeNotCapable :=
  (if_pos hidle).trans (if_neg hro)

/-- Settles O18: each row of the transmit half tests `WRITE_CAPABLE` first, a `write` after the idle test; a received token does not
test it. -/
theorem transmitNeedsWriteCapable : Obligations.TransmitNeedsWriteCapable := by
  intro s hcap
  have hro : ¬ s.writeCapable = true := Bool.eq_false_iff.1 hcap
  refine ⟨fun lun buf sector count hidle => ?_, fun addr => ⟨if_neg hro, if_neg hro⟩, if_neg hro, if_neg hro, if_neg hro,
    fun high => if_neg hro, fun fits => ⟨_, if_pos (decide_eq_true fits)⟩⟩
  obtain ⟨run, hrun⟩ := Encoding.exec_writeOf lun buf sector count s
  exact hrun.trans (writeRequest_readOnly hidle hro run)

end Sys2Proof.Transceiver
end

section
/-! PROOFS. The statements of 43_card_initializer.md. The finish of `initialize(0)` rests on the laws of its stages; new here is that the
type they answer is legal whatever the parameters. One round of the negotiation is said once (`negotiateLoop_accepted`,
`negotiateLoop_rejected`), and the bounds of rule R197 and the runs of rule R203 against a scripted card are inductions over it. -/

namespace Sys2Proof.Initializer

open Sys2Proof.Machine Sys2Proof.Safety

/-! ### `status` -/

theorem eq_lunIndex {lun : Byte} (h : lun.toNat = 0) : lun = lunIndex := BitVec.eq_of_toNat_eq h

theorem exec_driveStatus_ownIndex {s : State} {lun : Byte} (hidle : s.seq = .idle) (hlun : lun.toNat = 0) :
    exec (.driveStatus lun) s = .next (replyAtOnce (.status s.status) s) := by
  show execDriveStatus lun s = _
  unfold execDriveStatus
  rw [if_pos hidle, if_pos (eq_lunIndex hlun)]

/-- Settles O20: a reply at once, for either kind of drive index. -/
theorem statusRepliesAndWritesNothing : Obligations.StatusRepliesAndWritesNothing := by
  intro s lun hidle
  split
  · next hlun => exact exec_driveStatus_ownIndex hidle hlun
  · next hlun => exact Encoding.exec_driveStatus_otherIndex hidle hlun

/-! ### The type `initialize(0)` ends in -/

section
variable (cfg : Params)

theorem initFailedStage_legal (s : State) : (initFailedStage s).1.legal = true := rfl

theorem initReadyStage_legal {ty : CardType} (s : State) (h : ty.legal = true) : (initReadyStage ty s).1.legal = true := h

theorem negotiateSdV2_legal (d : Deadline) (s : State) : (negotiateSdV2 cfg d s).1.legal = true := by
  unfold negotiateSdV2
  dsimp only
  split
  · split
    · exact initReadyStage_legal _ (by split <;> rfl)
    · exact initFailedStage_legal _
  · exact initFailedStage_legal _

theorem negotiateLegacy_legal (c : Command) {ty : CardType} (h : ty.legal = true) (d : Deadline) (s : State) :
    (negotiateLegacy cfg c ty d s).1.legal = true := by
  unfold negotiateLegacy
  dsimp only
  split
  · split
    · exact initReadyStage_legal _ h
    · exact initFailedStage_legal _
  · exact initFailedStage_legal _

theorem initSdV2Probe_legal (d : Deadline) (s : State) : (initSdV2Probe cfg d s).1.legal = true := by
  unfold initSdV2Probe
  dsimp only
  split
  · exact negotiateSdV2_legal ..
  · exact initFailedStage_legal _

theorem initLegacyProbe_legal (d : Deadline) (s : State) : (initLegacyProbe cfg d s).1.legal = true := by
  unfold initLegacyProbe
  dsimp only
  split <;> exact negotiateLegacy_legal cfg _ rfl d _

/-- The type is legal whatever the parameters (`InitTrace_legal` has it for those of an engine). -/
theorem initResetStage_legal (s : State) : (initResetStage cfg s).1.legal = true := by
  unfold initResetStage initIdleSent
  dsimp only
  split
  · split
    · exact initSdV2Probe_legal ..
    · exact initLegacyProbe_legal ..
  · exact initFailedStage_legal _

/-! ### The finish -/

variable {cfg} {s : State}

theorem finishInitialize_notInitialized (ty : CardType) :
    (finishInitialize cfg ty s).status.notInitialized = true ↔ ty = CardType.unknown := beq_iff_eq

theorem finishInitialize_endsDeselected (ty : CardType) (h : s.params = cfg) : EndsDeselected (finishInitialize cfg ty s) := by
  subst h
  exact ⟨_, _, rfl⟩

/-- `initialize(0)` from idle is its stages and then the finish of rule R200. -/
theorem exec_initDrive_zero (hidle : s.seq = .idle) : exec (.initDrive 0#8) s = .next (initializeDrive s.params s) :=
  (if_pos hidle).trans (if_pos rfl)

end

/-- Settles O21: the stages keep the session and the buffer and answer a legal type, and the finish writes the rest. -/
theorem initializeFinish : Obligations.InitializeFinish := by
  intro s hidle
  have wrote := initializeDrive_working s.params s
  refine ⟨_, exec_initDrive_zero hidle, ?_⟩
  rw [Scope.initializeDrive_eq_finish] at wrote ⊢
  obtain ⟨⟨hp, hs, -, hw, ha⟩, hbuf, -, -, -⟩ := Scope.initResetStage_keeps s.params (beginOperation .reset s)
  exact ⟨rfl, initResetStage_legal .., ⟨rfl, rfl⟩, finishInitialize_endsDeselected _ hp, finishInitialize_notInitialized _, rfl,
    (congrArg Status.noMedium hs :), (congrArg Status.writeProtected hs :), hbuf, hw, hp, ha, wrote⟩

/-! ### One round of the negotiation -/

section
variable {cfg : Params} {c : Command} {k : Nat} {s : State}

/-- One send of the negotiation, after a false answer of `D_NEG` that leaves `k` more (rule R197). -/
def attemptSend (cfg : Params) (c : Command) (k : Nat) (s : State) : Byte × State := sendCmd cfg c (setDNeg ⟨tNegotiateMs, k⟩ s)

theorem negotiateLoop_accepted (h : (attemptSend cfg c k s).1 = 0x00#8) :
    negotiateLoop cfg c (k + 1) s = (true, (attemptSend cfg c k s).2) := if_pos ((accepted_iff _).2 h)

theorem negotiateLoop_rejected (h : (attemptSend cfg c k s).1 ≠ 0x00#8) :
    negotiateLoop cfg c (k + 1) s = negotiateLoop cfg c k (attemptSend cfg c k s).2 := if_neg (mt (accepted_iff _).1 h)

theorem setDNeg_working {named : List WorkingRegister} (d : Deadline) (s : State) (h : .dNeg ∈ named) :
    SameWorkingBut named s (setDNeg d s) := by
  constructor <;> intro m <;> first | rfl | exact absurd h m

theorem attemptSend_working {named : List WorkingRegister} (h : dispatcherRegisters ⊆ named) (hd : .dNeg ∈ named) :
    SameWorkingBut named s (attemptSend cfg c k s).2 :=
  (setDNeg_working _ s hd).trans (sendCmd_working cfg c _ h)

/-- `D_NEG` still holds what the deadline test left. -/
theorem attemptSend_dNeg : (attemptSend cfg c k s).2.w.dNeg = some ⟨1000, k⟩ :=
  (sendCmd_working cfg c (setDNeg ⟨tNegotiateMs, k⟩ s) (List.Subset.refl _)).dNeg (by decide)

/-! ### The bounds of the negotiation -/

theorem negotiateLoop_working {named : List WorkingRegister} (h : dispatcherRegisters ⊆ named) (hd : .dNeg ∈ named) (n : Nat)
    (s : State) : SameWorkingBut named s (negotiateLoop cfg c n s).2 := by
  induction n generalizing s with
  | zero => exact .ofEq rfl
  | succ n ih =>
    have sent : SameWorkingBut named s (attemptSend cfg c n s).2 := attemptSend_working h hd
    by_cases accepted : (attemptSend cfg c n s).1 = 0x00#8
    · rwa [negotiateLoop_accepted accepted]
    · rw [negotiateLoop_rejected accepted]
      exact sent.trans (ih _)

end

/-- A negotiation from `s` with `n` false answers of `D_NEG` left ended with `result` after the sends that returned `responses`. -/
structure Negotiated (attempt : Byte → List WireEvent → Prop) (n : Nat) (s : State) (responses : List Byte) (result : Bool × State) :
    Prop where
  traced : ∃ evs, Appends s result.2 evs ∧ AttemptsTrace attempt responses evs
  atMost : responses.length ≤ n
  retried : ∀ r ∈ responses.dropLast, r ≠ 0x00#8
  succeeds : result.1 = true ↔ responses.getLast? = some 0x00#8
  exhausts : result.1 = false → responses.length = n
  deadline : result.2.w.dNeg = if responses = [] then s.w.dNeg else some ⟨1000, n - responses.length⟩

section
variable {attempt : Byte → List WireEvent → Prop} {n : Nat} {s u : State} {evs : List WireEvent}

/-- With no false answer left nothing is sent. -/
theorem Negotiated.expired : Negotiated attempt 0 s [] (false, s) where
  traced := ⟨[], rfl, rfl⟩
  atMost := le_rfl
  retried := nofun
  succeeds := by simp
  exhausts _ := rfl
  deadline := rfl

/-- A send that is accepted is the last. -/
theorem Negotiated.accepted (appended : Appends s u evs) (sent : attempt 0x00#8 evs) (left : u.w.dNeg = some ⟨1000, n⟩) :
    Negotiated attempt (n + 1) s [0x00#8] (true, u) where
  traced := ⟨evs, appended, evs, [], (List.append_nil evs).symm, sent, rfl⟩
  atMost := Nat.le_add_left ..
  retried := nofun
  succeeds := by simp
  exhausts := nofun
  deadline := left

/-- After a send that is not accepted the negotiation goes on with one false answer less. -/
theorem Negotiated.again {r : Byte} {responses : List Byte} {result : Bool × State} (hr : r ≠ 0x00#8) (appended : Appends s u evs)
    (sent : attempt r evs) (left : u.w.dNeg = some ⟨1000, n⟩) (later : Negotiated attempt n u responses result) :
    Negotiated attempt (n + 1) s (r :: responses) result where
  traced := let ⟨more, ha, ht⟩ := later.traced; ⟨evs ++ more, Appends_trans appended ha, evs, more, rfl, sent, ht⟩
  atMost := Nat.succ_le_succ later.atMost
  retried := by
    cases responses with
    | nil => nofun
    | cons r' responses => exact List.forall_mem_cons.2 ⟨hr, later.retried⟩
  succeeds := by
    cases responses with
    | nil => simpa [hr] using later.succeeds
    | cons r' responses => exact later.succeeds
  exhausts h := congrArg Nat.succ (later.exhausts h)
  deadline := by
    rw [later.deadline, if_neg (List.cons_ne_nil _ _), left, List.length_cons, Nat.add_sub_add_right]
    split
    · next unsent => rw [unsent]; rfl
    · rfl

end

/-- The loop is bounded by the false answers of `D_NEG`, for any command whose sends have a trace. -/
theorem negotiateLoop_negotiated (cfg : Params) {c : Command} {attempt : Byte → List WireEvent → Prop}
    (traced : ∀ s, ∃ evs, Appends s (sendCmd cfg c s).2 evs ∧ attempt (sendCmd cfg c s).1 evs) (n : Nat) (s : State) :
    ∃ responses, Negotiated attempt n s responses (negotiateLoop cfg c n s) := by
  induction n generalizing s with
  | zero => exact ⟨[], .expired⟩
  | succ n ih =>
    obtain ⟨evs, appended, sent⟩ := traced (setDNeg ⟨tNegotiateMs, n⟩ s)
    have appended : Appends s (attemptSend cfg c n s).2 evs := appends_from_wire appended rfl
    by_cases accepted : (attemptSend cfg c n s).1 = 0x00#8
    · rw [negotiateLoop_accepted accepted]
      exact ⟨_, .accepted appended (accepted ▸ sent) attemptSend_dNeg⟩
    · rw [negotiateLoop_rejected accepted]
      obtain ⟨responses, later⟩ := ih (attemptSend cfg c n s).2
      exact ⟨_, .again accepted appended sent attemptSend_dNeg later⟩

/-- Settles O59: the bounds of the loop for `ACMD41`, with or without HCS, and for `CMD1`. -/
theorem negotiationTestsDeadlineBeforeEachSend : Obligations.NegotiationTestsDeadlineBeforeEachSend := by
  intro cfg n s hcfg bounded
  have ofTrace {c : Command} {attempt : Byte → List WireEvent → Prop}
      (traced : ∀ u, ∃ evs, Appends u (sendCmd cfg c u).2 evs ∧ attempt (sendCmd cfg c u).1 evs) : bounded c attempt := by
    obtain ⟨responses, ⟨evs, appended, sent⟩, atMost, retried, succeeds, exhausts, deadline⟩ := negotiateLoop_negotiated cfg traced n s
    have ran : Runs cfg noStore s (negotiateLoop cfg c n s).2 := Runs.refl.negotiateLoop c n
    exact ⟨responses, evs, appended, sent, atMost, retried, succeeds, exhausts, deadline, ran.sameButTransport,
      negotiateLoop_working (List.subset_append_left _ _) (by simp) n s⟩
  exact ⟨fun hcs => ofTrace (sendCmd_app_trace cfg hcfg _ (isStop_sdSendOpCond hcfg hcs) rfl),
    ofTrace (sendCmd_trace cfg _ (isStop_sendOpCond hcfg) rfl)⟩

/-! ### Against a card that is ready and answers at the first poll -/

/-- A procedure answered `v` and left the card's script at `rest`. -/
def Yields {α : Type} (result : α × State) (v : α) (rest : List Byte) : Prop := result.1 = v ∧ result.2.cardIn = rest

/-- The command returns the response `r` of a card that has `answer r` next. -/
def Answers (cfg : Params) (c : Command) (answer : Byte → List Byte) : Prop :=
  ∀ (s : State) (r : Byte) (rest : List Byte), r.toNat < 128 → s.cardIn = answer r ++ rest → Yields (sendCmd cfg c s) r rest

section
variable {cfg : Params} {c : Command}

theorem answers_plain (hc : isStop cfg c = false) (ha : c.acmd = false) (junk : Byte) : Answers cfg c (readyAnswer junk) := by
  intro s r rest hr h
  obtain ⟨returned, left, -⟩ := sendCmd_answered cfg c hc ha s junk r rest hr h
  exact ⟨returned, left⟩

theorem answers_sdSendOpCond (hcfg : cfg.wf = true) (hcs : Bool) (junk : Byte) :
    Answers cfg (sdSendOpCond cfg hcs) (readyAppAnswer junk) := by
  intro s r rest hr h
  obtain ⟨returned, left, -⟩ := sendCmd_app_answered cfg hcfg _ (isStop_sdSendOpCond hcfg hcs) rfl s junk r rest hr h
  exact ⟨returned, left⟩

variable {answer : Byte → List Byte} {rest : List Byte}

/-- A response 1 costs one false answer of `D_NEG`. -/
theorem negotiateLoop_busy (ans : Answers cfg c answer) (n : Nat) {s : State} (h : s.cardIn = answer 0x01#8 ++ rest) :
    ∃ u, u.cardIn = rest ∧ negotiateLoop cfg c (n + 1) s = negotiateLoop cfg c n u := by
  obtain ⟨returned, left⟩ := ans (setDNeg ⟨tNegotiateMs, n⟩ s) 0x01#8 rest (by decide) h
  have rejected : (attemptSend cfg c n s).1 ≠ 0x00#8 := by
    rw [show (attemptSend cfg c n s).1 = 0x01#8 from returned]
    decide
  exact ⟨_, left, negotiateLoop_rejected rejected⟩

/-- Fewer responses 1 than false answers: the response 0 after them is met. -/
theorem negotiateLoop_yields_true (ans : Answers cfg c answer) {k n : Nat} (hk : k < n) {s : State}
    (h : s.cardIn = (List.replicate k (answer 0x01#8)).flatten ++ (answer 0x00#8 ++ rest)) :
    Yields (negotiateLoop cfg c n s) true rest := by
  induction n generalizing k s with
  | zero => exact absurd hk (Nat.not_lt_zero k)
  | succ n ih =>
    cases k with
    | zero =>
      obtain ⟨returned, left⟩ := ans (setDNeg ⟨tNegotiateMs, n⟩ s) 0x00#8 rest (by decide) h
      rw [negotiateLoop_accepted returned]
      exact ⟨rfl, left⟩
    | succ k =>
      rw [List.replicate_succ, List.flatten_cons, List.append_assoc] at h
      obtain ⟨u, hu, later⟩ := negotiateLoop_busy ans n h
      rw [later]
      exact ih (Nat.lt_of_succ_lt_succ hk) hu

/-- As many responses 1 as false answers: all are sent for, and nothing more. -/
theorem negotiateLoop_yields_false (ans : Answers cfg c answer) (n : Nat) {s : State}
    (h : s.cardIn = (List.replicate n (answer 0x01#8)).flatten ++ rest) : Yields (negotiateLoop cfg c n s) false rest := by
  induction n generalizing s with
  | zero => exact ⟨rfl, h⟩
  | succ n ih =>
    rw [List.replicate_succ, List.flatten_cons, List.append_assoc] at h
    obtain ⟨u, hu, later⟩ := negotiateLoop_busy ans n h
    rw [later]
    exact ih hu

end

/-! ### The stages, against that card -/

section
variable {cfg : Params} {s : State} {d : Deadline} {junk : Byte} {rest : List Byte}

theorem readTrailing_yields {b0 b1 b2 b3 : Byte} (h : s.cardIn = [b0, b1, b2, b3] ++ rest) :
    Yields (readTrailing cfg s) (bytesWord b0 b1 b2 b3) rest := by
  obtain ⟨r0, h0, -⟩ := xchg_scripted cfg.dummyTx h
  obtain ⟨r1, h1, -⟩ := xchg_scripted cfg.dummyTx h0
  obtain ⟨r2, h2, -⟩ := xchg_scripted cfg.dummyTx h1
  obtain ⟨r3, h3, -⟩ := xchg_scripted cfg.dummyTx h2
  refine ⟨?_, h3⟩
  unfold readTrailing
  dsimp only
  rw [r0, r1, r2, r3]

theorem ocrTransaction_yields (hcfg : cfg.wf = true) {o0 o1 o2 o3 : Byte}
    (h : s.cardIn = readyAnswer junk 0x00#8 ++ ([o0, o1, o2, o3] ++ rest)) :
    Yields (ocrTransaction cfg s) (some (bytesWord o0 o1 o2 o3)) rest := by
  obtain ⟨returned, left⟩ := answers_plain (isStop_readOcr hcfg) rfl junk s 0x00#8 _ (by decide) h
  obtain ⟨ocr, left⟩ := readTrailing_yields (cfg := cfg) left
  unfold ocrTransaction
  rw [if_pos ((accepted_iff _).2 returned), ocr]
  exact ⟨rfl, left⟩

/-- Rule R198: the type is the one CCS says. -/
theorem negotiateSdV2_ready (hcfg : cfg.wf = true) {k : Nat} (hk : k < d.left) {o0 o1 o2 o3 : Byte}
    (h : s.cardIn = (List.replicate k (readyAppAnswer junk 0x01#8)).flatten ++
      (readyAppAnswer junk 0x00#8 ++ (readyAnswer junk 0x00#8 ++ ([o0, o1, o2, o3] ++ rest)))) :
    Yields (negotiateSdV2 cfg d s) (if o0.getLsbD 6 then .ofSdV2Block else .ofSdV2) rest := by
  obtain ⟨accepted, left⟩ := negotiateLoop_yields_true (s := setSeq .negotiating s) (answers_sdSendOpCond hcfg true junk) hk h
  obtain ⟨ocr, left⟩ := ocrTransaction_yields hcfg left
  unfold negotiateSdV2
  dsimp only
  rw [if_pos accepted, ocr, ← ccsSet_bytesWord o0 o1 o2 o3]
  exact ⟨rfl, left⟩

theorem negotiateSdV2_failed (hcfg : cfg.wf = true)
    (h : s.cardIn = (List.replicate d.left (readyAppAnswer junk 0x01#8)).flatten ++ rest) :
    Yields (negotiateSdV2 cfg d s) .unknown rest := by
  obtain ⟨expired, left⟩ := negotiateLoop_yields_false (s := setSeq .negotiating s) (answers_sdSendOpCond hcfg true junk) d.left h
  unfold negotiateSdV2
  dsimp only
  rw [if_neg (Bool.eq_false_iff.1 expired)]
  exact ⟨rfl, left⟩

variable {c : Command} {answer : Byte → List Byte}

/-- Rule R199: the type is the family's once `CMD16` is accepted. -/
theorem negotiateLegacy_ready (hcfg : cfg.wf = true) (ans : Answers cfg c answer) (ty : CardType) {k : Nat} (hk : k < d.left)
    (h : s.cardIn = (List.replicate k (answer 0x01#8)).flatten ++ (answer 0x00#8 ++ (readyAnswer junk 0x00#8 ++ rest))) :
    Yields (negotiateLegacy cfg c ty d s) ty rest := by
  obtain ⟨accepted, left⟩ :=
    negotiateLoop_yields_true (s := setSeq .negotiating (setInitCmd c.op c.acmd (setTy ty s))) ans hk h
  obtain ⟨sized, left⟩ := answers_plain (isStop_setBlockLen hcfg) rfl junk _ 0x00#8 _ (by decide) left
  unfold negotiateLegacy
  dsimp only
  rw [if_pos accepted, if_pos ((accepted_iff _).2 sized)]
  exact ⟨rfl, left⟩

theorem negotiateLegacy_failed (ans : Answers cfg c answer) (ty : CardType)
    (h : s.cardIn = (List.replicate d.left (answer 0x01#8)).flatten ++ rest) :
    Yields (negotiateLegacy cfg c ty d s) .unknown rest := by
  obtain ⟨expired, left⟩ :=
    negotiateLoop_yields_false (s := setSeq .negotiating (setInitCmd c.op c.acmd (setTy ty s))) ans d.left h
  unfold negotiateLegacy
  dsimp only
  rw [if_neg (Bool.eq_false_iff.1 expired)]
  exact ⟨rfl, left⟩

/-- Rule R195: an echo leads to the SDv2 path. -/
theorem initSdV2Probe_echoed {e0 e1 : Byte} (h : s.cardIn = [e0, e1, 0x01#8, 0xAA#8] ++ rest) :
    ∃ u, u.cardIn = rest ∧ initSdV2Probe cfg d s = negotiateSdV2 cfg d u := by
  obtain ⟨trailing, left⟩ := readTrailing_yields (cfg := cfg) (s := setSeq .sdv2Probe s) h
  have echo := (echoMatches_bytesWord e0 e1 0x01#8 0xAA#8).2 ⟨rfl, rfl⟩
  exact ⟨_, left, if_pos (trailing ▸ echo)⟩

/-- Rule R196: the response to the bare `ACMD41(0)` tells SD from MMC. -/
theorem initLegacyProbe_answered (hcfg : cfg.wf = true) {probe : Byte} (hp : probe.toNat < 128)
    (h : s.cardIn = readyAppAnswer junk probe ++ rest) :
    ∃ u, u.cardIn = rest ∧ initLegacyProbe cfg d s =
      if probe.toNat ≤ 1 then negotiateLegacy cfg (sdSendOpCond cfg false) .ofSdV1 d u
      else negotiateLegacy cfg sendOpCond .ofMmcV3 d u := by
  obtain ⟨returned, left⟩ := answers_sdSendOpCond hcfg false junk (setSeq .legacyProbe s) probe rest hp h
  refine ⟨_, left, ?_⟩
  unfold initLegacyProbe
  dsimp only
  rw [returned]
  simp only [r1Understood, decide_eq_true_eq]

/-- Rules R192 to R194: the first deadline is that of the select of `CMD0`, the second is `D_NEG`, and the response to `CMD8` chooses
the probe. -/
theorem initResetStage_answered (hcfg : cfg.wf = true) {r8 : Byte} (hr8 : r8.toNat < 128) {first n : Nat} {clocks : List Nat}
    (hclock : s.clockIn = first :: n :: clocks)
    (h : s.cardIn = List.replicate 10 junk ++ (readyAnswer junk 0x01#8 ++ (readyAnswer junk r8 ++ rest))) :
    ∃ u d, d.left = n ∧ u.cardIn = rest ∧
      initResetStage cfg s = if r8 = 0x01#8 then initSdV2Probe cfg d u else initLegacyProbe cfg d u := by
  have powered := sendAll_scripted (List.replicate nPowerUpDummy cfg.dummyTx) s (List.replicate 10 junk) _ rfl h
  obtain ⟨idle, left, clock⟩ := sendCmd_answered cfg goIdleState (isStop_goIdleState hcfg) rfl
    (setTy CardType.unknown (sendDummies cfg nPowerUpDummy s)) junk 0x01#8 _ (by decide) powered
  have drawn : (sendDummies cfg nPowerUpDummy s).clockIn = first :: n :: clocks := (sendAll_clock _ s).trans hclock
  rw [setTy_clockIn, drawn, List.tail_cons] at clock
  unfold initResetStage
  dsimp only
  rw [if_pos ((idle_iff _).2 idle)]
  generalize (sendCmd cfg goIdleState (setTy CardType.unknown (sendDummies cfg nPowerUpDummy s))).2 = t at left clock
  obtain ⟨returned, left⟩ := answers_plain (isStop_sendIfCond hcfg) rfl junk
    (setDNeg (setDeadline tNegotiateMs (setSeq .idleSent t)).1 (setDeadline tNegotiateMs (setSeq .idleSent t)).2) r8 rest hr8 left
  refine ⟨_, (setDeadline tNegotiateMs (setSeq .idleSent t)).1, nextExpiry_cons tNegotiateMs n clocks (setSeq .idleSent t) clock, left, ?_⟩
  unfold initIdleSent
  dsimp only
  rw [returned]
  simp only [idle_iff]

end

/-! ### The outcomes -/

section
variable {s : State} {ty : CardType} {junk : Byte} {rest : List Byte}

/-- The finish after the stages draws one byte more and reports the type. -/
theorem exec_initDrive_ends (hidle : s.seq = .idle) {stages : CardType × State}
    (run : initResetStage s.params (beginOperation .reset s) = stages) (h : Yields stages ty ([junk] ++ rest)) :
    ∃ t, exec (.initDrive 0#8) s = .next t ∧ t.type = ty ∧ (t.status.notInitialized = true ↔ ty = CardType.unknown) ∧
      t.reply = some (.status t.status) ∧ t.cardIn = rest := by
  obtain ⟨rfl, left⟩ := h
  refine ⟨_, exec_initDrive_zero hidle, ?_⟩
  rw [Scope.initializeDrive_eq_finish, run]
  exact ⟨rfl, finishInitialize_notInitialized _, rfl, congrArg List.tail left⟩

variable {first n : Nat} {clocks : List Nat}

/-- `CMD8` echoed: the run is that of the SDv2 path. -/
theorem initResetStage_echoed (hcfg : s.params.wf = true) (hclock : s.clockIn = first :: n :: clocks) {e0 e1 : Byte}
    (h : s.cardIn = List.replicate 10 junk ++ (readyAnswer junk 0x01#8 ++ (readyAnswer junk 0x01#8 ++
      ([e0, e1, 0x01#8, 0xAA#8] ++ rest)))) :
    ∃ u d, d.left = n ∧ u.cardIn = rest ∧
      initResetStage s.params (beginOperation .reset s) = negotiateSdV2 s.params d u := by
  obtain ⟨u, d, hd, hu, probe⟩ := initResetStage_answered (s := beginOperation .reset s) hcfg (by decide) hclock h
  obtain ⟨v, hv, echoed⟩ := initSdV2Probe_echoed (cfg := s.params) (d := d) hu
  exact ⟨v, d, hd, hv, probe.trans ((if_pos rfl).trans echoed)⟩

/-- `CMD8` rejected: the run is that of the legacy path, for the family the probe chose. -/
theorem initResetStage_probed (hcfg : s.params.wf = true) (hclock : s.clockIn = first :: n :: clocks) {r8 probe : Byte}
    (hne : r8 ≠ 0x01#8) (hr8 : r8.toNat < 128) (hp : probe.toNat < 128)
    (h : s.cardIn = List.replicate 10 junk ++ (readyAnswer junk 0x01#8 ++ (readyAnswer junk r8 ++
      (readyAppAnswer junk probe ++ rest)))) :
    ∃ u d, d.left = n ∧ u.cardIn = rest ∧ initResetStage s.params (beginOperation .reset s) =
      if probe.toNat ≤ 1 then negotiateLegacy s.params (sdSendOpCond s.params false) .ofSdV1 d u
      else negotiateLegacy s.params sendOpCond .ofMmcV3 d u := by
  obtain ⟨u, d, hd, hu, rejected⟩ := initResetStage_answered (s := beginOperation .reset s) hcfg hr8 hclock h
  obtain ⟨v, hv, probed⟩ := initLegacyProbe_answered (d := d) hcfg hp hu
  exact ⟨v, d, hd, hv, rejected.trans ((if_neg hne).trans probed)⟩

end

/-- Settles O60: the response to `CMD8` and the probe choose the path, and its negotiation is accepted or expires. -/
theorem initializeOutcomesOfReadyCard : Obligations.InitializeOutcomesOfReadyCard := by
  intro s first n k junk r8 probe e0 e1 o0 o1 o2 o3 clocks rest hidle hcfg hclock hne hr8 hp
  have mmc : Answers s.params sendOpCond (readyAnswer junk) := answers_plain (isStop_sendOpCond hcfg) rfl junk
  have sd : Answers s.params (sdSendOpCond s.params false) (readyAppAnswer junk) := answers_sdSendOpCond hcfg false junk
  refine ⟨fun hk h => ?_, fun hk hsd h => ?_, fun hk hmmc h => ?_, fun hk h => ?_, fun hk hsd h => ?_, fun hk hmmc h => ?_⟩ <;>
    simp only [List.append_assoc] at h
  · obtain ⟨u, d, rfl, hu, run⟩ := initResetStage_echoed hcfg hclock h
    exact exec_initDrive_ends hidle run (negotiateSdV2_ready hcfg hk hu)
  · obtain ⟨u, d, rfl, hu, run⟩ := initResetStage_probed hcfg hclock hne hr8 hp h
    exact exec_initDrive_ends hidle (run.trans (if_pos hsd)) (negotiateLegacy_ready hcfg sd _ hk hu)
  · obtain ⟨u, d, rfl, hu, run⟩ := initResetStage_probed hcfg hclock hne hr8 hp h
    exact exec_initDrive_ends hidle (run.trans (if_neg (Nat.not_le.2 hmmc))) (negotiateLegacy_ready hcfg mmc _ hk hu)
  · obtain ⟨u, d, rfl, hu, run⟩ := initResetStage_echoed hcfg hclock h
    exact exec_initDrive_ends hidle run (negotiateSdV2_failed hcfg (hk ▸ hu))
  · obtain ⟨u, d, rfl, hu, run⟩ := initResetStage_probed hcfg hclock hne hr8 hp h
    exact exec_initDrive_ends hidle (run.trans (if_pos hsd)) (negotiateLegacy_failed sd _ (hk ▸ hu))
  · obtain ⟨u, d, rfl, hu, run⟩ := initResetStage_probed hcfg hclock hne hr8 hp h
    exact exec_initDrive_ends hidle (run.trans (if_neg (Nat.not_le.2 hmmc))) (negotiateLegacy_failed mmc _ (hk ▸ hu))

end Sys2Proof.Initializer
end

section
/-! PROOFS. The statements of 44_block_io.md on `read` and `write`. A transfer starts with `COUNT` and `ADDR` written, runs the
transaction of its command, and ends with the reply its `COUNT` gives: the start and the end are said once (`transfer_ends`, and
`oneSector_ends` where `COUNT` is 1), so that a statement adds the trace, the run and the registers of its transaction, each by its
law. -/

namespace Sys2Proof.BlockIo

open Sys2Proof.Machine Sys2Proof.Safety

/-! ### The checks -/

theorem ioPreconditions_notReady {v : Status} (h : v.notInitialized = true) (isWrite : Bool) (lun : Byte) (buf : Handle) (n : Nat) :
    ioPreconditions isWrite lun buf n v = some .notReady := if_pos h

/-- The last check of a `write`, past the operands (rule R220). -/
theorem ioPreconditions_writeProtected {lun : Byte} {n : Nat} {v : Status} (hinit : v.notInitialized = false) (hlun : lun.toNat = 0)
    (h1 : 1 ≤ n) (h128 : n ≤ 128) (hp : v.writeProtected = true) :
    ioPreconditions true lun .given n v = some .writeProtected := by
  have drive : lun = lunIndex := BitVec.eq_of_toNat_eq hlun
  have legal : countLegal n = true := (Encoding.countLegal_iff n).2 ⟨h1, h128⟩
  simp [ioPreconditions, hinit, drive, legal, hp]

/-- Settles O13: both rows of an operation are one request, and it answers with the error its check names. -/
theorem readWriteChecksInOrder : Obligations.ReadWriteChecksInOrder := by
  intro s lun buf sector count hidle
  obtain ⟨read, hread⟩ := Encoding.exec_readOf lun buf sector count s
  obtain ⟨write, hwrite⟩ := Encoding.exec_writeOf lun buf sector count s
  rw [hread, hwrite]
  refine ⟨fun hno => ?_, fun hinit hbad => ?_, fun hinit hlun hbuf h1 h128 hp hcap => ?_⟩
  · exact ⟨Encoding.readRequest_rejected hidle (ioPreconditions_notReady hno false lun buf _) read,
      fun hcap => Encoding.writeRequest_rejected hidle hcap (ioPreconditions_notReady hno true lun buf _) write⟩
  · exact ⟨Encoding.readRequest_rejected hidle (Encoding.ioPreconditions_paramError false hinit hbad) read,
      fun hcap => Encoding.writeRequest_rejected hidle hcap (Encoding.ioPreconditions_paramError true hinit hbad) write⟩
  · subst hbuf
    exact Encoding.writeRequest_rejected hidle hcap (ioPreconditions_writeProtected hinit hlun h1 h128 hp) write

/-! ### The start and the end of a transfer -/

theorem startTransfer_working {named : List WorkingRegister} (q : Seq) (sector : Word) (count : Nat) (s : State) (hc : .count ∈ named)
    (ha : .addr ∈ named) : SameWorkingBut named (cleared s) (startTransfer q sector count s) :=
  have begun : SameWorkingBut named (cleared s) (beginOperation q s) := .ofEq rfl
  (begun.trans (setCount_working count _ hc)).trans (setAddr_working _ _ ha)

theorem ofNat_eq_zero_iff {m : Nat} (h : m ≤ 128) : Fin.ofNat 129 m = 0 ↔ m = 0 := by
  rw [Fin.ext_iff, Fin.val_ofNat, Nat.mod_eq_of_lt (by omega), Fin.val_zero]

/-- A transfer from `sector` ended in `t`: its wire shows `trace`, the reply says `ok`, `ADDR` is the converted sector (rule R60), and
only the registers named were written. -/
structure Ended (s : State) (sector : Word) (trace : List WireEvent → Prop) (ok : Bool) (named : List WorkingRegister) (t : State) :
    Prop where
  ran : Ran s t trace
  reply : t.reply = okOrError ok
  addr : t.w.addr = some (convertAddress s.type sector)
  registers : SameWorkingBut named (cleared s) t

section
variable {s : State} {q : Seq} {sector : Word} {n : Nat} {p : Nat → Prop} {trace : List WireEvent → Prop} {evs : List WireEvent}
  {written : List WorkingRegister}

/-- The end of a transfer whose transaction ran to `u`: `OK` exactly when `COUNT` is 0 (rule R226). Beyond what the transaction writes,
the start wrote `COUNT` and `ADDR`. -/
theorem transfer_ends {u : State} {ok : Bool} {named : List WorkingRegister} (ran : Runs s.params p (startTransfer q sector n s) u)
    (appended : Appends (startTransfer q sector n s) u evs) (traced : trace evs)
    (wrote : SameWorkingBut written (startTransfer q sector n s) u) (hcount : u.w.count = some 0 ↔ ok = true)
    (sub : written ++ [WorkingRegister.count, .addr] ⊆ named) (ha : .addr ∉ written) :
    Ended s sector trace ok named (endTransfer s.params u) ∧ (endTransfer s.params u).buf = u.buf ∧
      (endTransfer s.params u).w.count = u.w.count := by
  obtain ⟨whole, reply, buf, w⟩ := endTransfer_ran (s := s) ok ran.sameSession.1 appended traced hcount
  have registers : SameWorkingBut named (cleared s) u :=
    (startTransfer_working q sector n s (sub (by simp)) (sub (by simp))).trans (wrote.mono fun _ h => sub (List.mem_append_left _ h))
  exact ⟨⟨whole, reply, (congrArg Working.addr w).trans (wrote.addr ha), registers.trans (.ofEq w)⟩, buf,
    congrArg Working.count w⟩

/-! ### A single sector -/

/-- The end of a transfer of one sector, whose transaction does not write `COUNT`: 1 from the start, and 0 after its success. -/
theorem oneSector_ends {u : State} {ok : Bool} (ran : Runs s.params p (startTransfer q sector 1 s) u)
    (appended : Appends (startTransfer q sector 1 s) u evs) (traced : trace evs)
    (wrote : SameWorkingBut written (startTransfer q sector 1 s) u) (hc : .count ∉ written) (ha : .addr ∉ written) :
    Ended s sector trace ok (written ++ [WorkingRegister.count, .addr]) (endTransfer s.params (if ok then setCount 0 u else u)) ∧
      (endTransfer s.params (if ok then setCount 0 u else u)).buf = u.buf ∧
      (endTransfer s.params (if ok then setCount 0 u else u)).w.count = some (if ok then 0 else 1) := by
  cases ok
  · have one : u.w.count = some 1 := wrote.count hc
    obtain ⟨ended, buf, count⟩ := transfer_ends ran appended traced wrote (ok := false) (by rw [one]; decide)
      (List.Subset.refl _) ha
    exact ⟨ended, buf, count.trans one⟩
  · have counted : SameWorkingBut (written ++ [WorkingRegister.count]) (startTransfer q sector 1 s) (setCount 0 u) :=
      (wrote.mono (List.subset_append_left _ _)).trans (setCount_working 0 u (by simp))
    exact transfer_ends (u := setCount 0 u) (ran.registers _) (appends_of_wire appended rfl) traced counted (iff_of_true rfl rfl)
      (by simp) (by simp [ha])

end

theorem exec_readSingle {s : State} (h : Launchable s) (fits : 512 ≤ s.buf.size) (sector : Word) :
    exec (.readSingle 0#8 .given sector) s = .next (readSinglePath s.params sector s) :=
  readRequest_runs s.params h 1 (by omega) (by omega) (by omega) _

theorem exec_writeSingle {s : State} (h : Launchable s) (hcap : s.writeCapable = true) (hp : s.status.writeProtected = false)
    (fits : 512 ≤ s.buf.size) (sector : Word) :
    exec (.writeSingle 0#8 .given sector) s = .next (writeSinglePath s.params sector s) :=
  writeRequest_runs s.params h hcap hp 1 (by omega) (by omega) (by omega) _

theorem sameBufBut_of_buf {off len : Nat} {s t u : State} (h : SameBufBut off len s u) (e : t.buf = u.buf) : SameBufBut off len s t := by
  unfold SameBufBut bufRead at *
  rwa [e]

/-- Settles O41: the packet by the trace of `CMD17` and its run; without one, `BUF` is as it was. -/
theorem readSingleDeliversOnePacket : Obligations.ReadSingleDeliversOnePacket := by
  intro s sector h fits
  let start : State := startTransfer .reading sector 1 s
  let c : Command := readSingleBlock s.params (convertAddress s.type sector)
  obtain ⟨evs, appended, traced⟩ :=
    recvTransaction_trace s.params c 512 (isStop_readSingleBlock h.configured _) rfl start h.bufCanonical
  have ran : Runs s.params (storesIn 0 512) start (recvTransaction s.params c 512 start).2 :=
    Runs.refl.recvTransaction c 512 fun _ h => ⟨Nat.zero_le _, by omega⟩
  have wrote : SameWorkingBut (dispatcherRegisters ++ [WorkingRegister.token]) start (recvTransaction s.params c 512 start).2 :=
    recvTransaction_working s.params c 512 start (List.subset_append_left _ _) (by simp)
  have unfilled : (recvTransaction s.params c 512 start).1 = false → (recvTransaction s.params c 512 start).2.buf = start.buf :=
    recvTransaction_false s.params
  obtain ⟨ended, buf, count⟩ := oneSector_ends (ok := (recvTransaction s.params c 512 start).1) ran appended traced wrote
    (by decide) (by decide)
  refine ⟨_, _, exec_readSingle h fits sector, ended.ran, ended.reply.trans ?_, ?_, ?_, ended.addr, ended.registers⟩
  · cases (recvTransaction s.params c 512 start).1 <;> rfl
  · cases received : (recvTransaction s.params c 512 start).1
    · nofun
    · intro bytes came
      obtain rfl := Option.some.inj came
      exact ⟨bufBytes_of_buf 0 512 buf, sameBufBut_of_buf ran.sameBufBut buf, count.trans (by rw [received]; rfl)⟩
  · cases received : (recvTransaction s.params c 512 start).1
    · exact fun _ => ⟨buf.trans (unfilled received), count.trans (by rw [received]; rfl)⟩
    · nofun

/-- Settles O43: the packet by the trace of `CMD24`, whose run stores nothing. -/
theorem writeSingleSendsOnePacket : Obligations.WriteSingleSendsOnePacket := by
  intro s sector h hcap hp fits
  let start : State := startTransfer .writing sector 1 s
  let addr : Word := convertAddress s.type sector
  obtain ⟨evs, appended, traced⟩ := writeSingleTransaction_trace s.params h.configured addr start
  have ran : Runs s.params noStore start (writeSingleTransaction s.params addr start).2 := Runs.refl.writeSingleTransaction addr
  have wrote : SameWorkingBut (dispatcherRegisters ++ [WorkingRegister.token, .dResp]) start
      (writeSingleTransaction s.params addr start).2 :=
    writeSingleTransaction_working s.params addr start (List.subset_append_left _ _) (by simp) (by simp)
  obtain ⟨ended, buf, count⟩ := oneSector_ends ran appended traced wrote (by decide) (by decide)
  exact ⟨_, _, exec_writeSingle h hcap hp fits sector, ended.ran, ended.reply, buf.trans ran.sameBuf, count, ended.addr,
    ended.registers⟩

/-! ### Several sectors -/

theorem exec_readMulti {s : State} {count : BitVec 16} (h : Launchable s) (h2 : 2 ≤ count.toNat) (h128 : count.toNat ≤ 128)
    (fits : count.toNat * 512 ≤ s.buf.size) (sector : Word) :
    exec (.readMulti 0#8 .given sector count) s = .next (readMultiPath s.params sector count.toNat s) :=
  readRequest_runs s.params h count.toNat (by omega) h128 fits _

theorem exec_writeMulti {s : State} {count : BitVec 16} (h : Launchable s) (hcap : s.writeCapable = true)
    (hp : s.status.writeProtected = false) (h2 : 2 ≤ count.toNat) (h128 : count.toNat ≤ 128)
    (fits : count.toNat * 512 ≤ s.buf.size) (sector : Word) :
    exec (.writeMulti 0#8 .given sector count) s = .next (writeMultiPath s.params sector count.toNat s) :=
  writeRequest_runs s.params h hcap hp count.toNat (by omega) h128 fits _

/-- Settles O42: the payloads by the trace of `CMD18`, and `COUNT` is what is left of them. -/
theorem readMultiDeliversItsSectors : Obligations.ReadMultiDeliversItsSectors := by
  intro s sector count h h2 h128 fits
  let start : State := startTransfer .reading sector count.toNat s
  let addr : Word := convertAddress s.type sector
  obtain ⟨evs, payloads, appended, traced, atMost, sectors, filled, ran, left⟩ :=
    readMultiTransaction_trace s.params h.configured addr count.toNat start h.bufCanonical rfl
  have wrote : SameWorkingBut (dispatcherRegisters ++ [WorkingRegister.token, .count, .off]) start
      (readMultiTransaction s.params addr count.toNat start) :=
    readMultiTransaction_working s.params addr count.toNat start (List.subset_append_left _ _) (by simp) (by simp) (by simp)
  have finished : (readMultiTransaction s.params addr count.toNat start).w.count = some 0 ↔
      decide (payloads.length = count.toNat) = true := by
    rw [left, Option.some_inj, ofNat_eq_zero_iff (by omega), decide_eq_true_iff]
    omega
  obtain ⟨ended, buf, counted⟩ := transfer_ends (named := dispatcherRegisters ++ [WorkingRegister.token, .count, .addr, .off]) ran
    appended traced wrote finished (by decide) (by decide)
  have remaining : (readMultiPath s.params sector count.toNat s).w.count = some (Fin.ofNat 129 (count.toNat - payloads.length)) :=
    counted.trans left
  refine ⟨_, payloads, exec_readMulti h h2 h128 fits sector, ended.ran, atMost, sectors, ended.reply,
    (bufBytes_of_buf _ _ buf).trans filled, sameBufBut_of_buf ran.sameBufBut buf, ?_, ended.addr, ended.registers⟩
  rw [remaining, Option.map_some, Fin.val_ofNat, Nat.mod_eq_of_lt (by omega)]

/-! ### The erase-count hint -/

theorem predefineEraseCount_runs {cfg : Params} {p : Nat → Prop} {s t : State} (n : Nat) (h : Runs cfg p s t) :
    Runs cfg p s (predefineEraseCount cfg n t) := by
  unfold predefineEraseCount
  split
  · exact h.sendCmd _
  · exact h

theorem predefineEraseCount_working {named : List WorkingRegister} (cfg : Params) (n : Nat) (s : State)
    (h : dispatcherRegisters ⊆ named) : SameWorkingBut named s (predefineEraseCount cfg n s) := by
  unfold predefineEraseCount
  split
  · exact sendCmd_working cfg _ s h
  · exact .ofEq rfl

/-- `ACMD23` with the count, for an SD card, and nothing for another; the result plays no part (rule R225). -/
theorem predefineEraseCount_trace (cfg : Params) (hcfg : cfg.wf = true) (n : Nat) (s : State) :
    ∃ hint, Appends s (predefineEraseCount cfg n s) hint ∧
      if s.type.sdV1 || s.type.sdV2 then
        ∃ r, AppTrace cfg (frameBytes cfg cfg.opSetWrBlkEraseCount ((BitVec.ofNat 8 n).setWidth 32)) r hint
      else hint = [] := by
  unfold predefineEraseCount CardType.isSdc
  split
  · obtain ⟨hint, appended, traced⟩ := sendCmd_app_trace cfg hcfg (setWrBlkEraseCount cfg (BitVec.ofNat 8 n))
      (isStop_setWrBlkEraseCount hcfg _) rfl s
    exact ⟨hint, appended, _, traced⟩
  · exact ⟨[], rfl, rfl⟩

/-- A count that passed its check fits the byte of the hint. -/
theorem hintCount_eq {count : BitVec 16} (h : count.toNat ≤ 128) : (BitVec.ofNat 8 count.toNat).setWidth 32 = count.setWidth 32 := by
  bv_omega

theorem WriteMultiTrace_congr {cfg : Params} {s u : State} {frame : List Byte} {n : Nat} {ok : Bool} {evs : List WireEvent}
    (h : u.buf = s.buf) (traced : WriteMultiTrace cfg u frame n ok evs) : WriteMultiTrace cfg s frame n ok evs := by
  refine traced.imp id ?_
  rintro ⟨cmd, sectors, stop, k, stopped, rfl, accepted, sent, rest⟩
  exact ⟨cmd, sectors, stop, k, stopped, rfl, accepted, XmitSectorsTrace_congr cfg h _ _ _ _ sent, rest⟩

/-- What the wire shows of a write of several sectors, to its final `Deselect`: for an SD card the hint, and `CMD25` with its packets
(rule R225). -/
def HintedWriteTrace (s : State) (sector : Word) (count : BitVec 16) (ok : Bool) (evs : List WireEvent) : Prop :=
  ∃ hint rest, evs = hint ++ rest ∧
    (if s.type.sdV1 || s.type.sdV2 then
      ∃ r, AppTrace s.params (frameBytes s.params s.params.opSetWrBlkEraseCount (count.setWidth 32)) r hint
    else hint = []) ∧
    WriteMultiTrace s.params s (frameBytes s.params s.params.opWriteMultipleBlock (convertAddress s.type sector)) count.toNat ok rest

/-- Settles O44: the hint, and then the packets by the trace of `CMD25`; neither stores to `BUF`. -/
theorem writeMultiSendsItsSectors : Obligations.WriteMultiSendsItsSectors := by
  intro s sector count h hcap hp h2 h128 fits
  let start : State := startTransfer .writing sector count.toNat s
  let hinted : State := predefineEraseCount s.params count.toNat start
  let addr : Word := convertAddress s.type sector
  obtain ⟨hint, sentHint, hintTraced⟩ := predefineEraseCount_trace s.params h.configured count.toNat start
  rw [hintCount_eq h128] at hintTraced
  have ranHint : Runs s.params noStore start hinted := predefineEraseCount_runs _ .refl
  have wroteHint : SameWorkingBut dispatcherRegisters start hinted := predefineEraseCount_working _ _ _ (List.Subset.refl _)
  obtain ⟨evs, ok, appended, traced, finished⟩ :=
    writeMultiTransaction_trace s.params h.configured addr count.toNat hinted (wroteHint.count (by decide)) h128
  have ran : Runs s.params noStore start (writeMultiTransaction s.params addr count.toNat hinted) := ranHint.writeMultiTransaction _ _
  have wrote : SameWorkingBut (dispatcherRegisters ++ [WorkingRegister.token, .dResp, .count, .off]) start
      (writeMultiTransaction s.params addr count.toNat hinted) :=
    (wroteHint.mono (List.subset_append_left _ _)).trans
      (writeMultiTransaction_working s.params addr count.toNat hinted (List.subset_append_left _ _) (by simp) (by simp) (by simp)
        (by simp))
  have whole : HintedWriteTrace s sector count ok (hint ++ evs) :=
    ⟨hint, evs, rfl, hintTraced, WriteMultiTrace_congr ranHint.sameBuf traced⟩
  obtain ⟨ended, buf, -⟩ := transfer_ends (named := dispatcherRegisters ++ [WorkingRegister.token, .dResp, .count, .addr, .off]) ran
    (Appends_trans sentHint appended) whole wrote (finished (by omega)) (by decide) (by decide)
  exact ⟨_, ok, exec_writeMulti h hcap hp h2 h128 fits sector, ended.ran, ended.reply, buf.trans ran.sameBuf, ended.addr,
    ended.registers⟩

end Sys2Proof.BlockIo
end

section
/-! PROOFS. The statements of 45_control.md on `ioctl`. Both forms of a request, its code as an operand and the row of the code, are one
request (`exec_ioctlOf`), and one that passed its checks is the body of its code (`Dispatches.runs`). Every body ends in the final
`Deselect` with `ok` written (`endControl_ends`, `endWithValue_ends`), so that a statement adds the trace, the run and the registers of
its transaction, each by its law. When get-block-size faults is said by `eraseGranularity_eq_none_iff`. The configuration functions are
read as numbers field by field (`field_toNat`). -/

namespace Sys2Proof.Control

open Sys2Proof.Machine Sys2Proof.Safety

/-! ### The request and its checks -/

/-- The row of a code is the request for that code (rules R88, R250). -/
theorem exec_ioctlOf (s : State) (code lun : Byte) (buf : Handle) :
    exec (ioctlOf s.params code lun buf) s = ioctlRequest s.params lun code buf s := by
  unfold ioctlOf
  split_ifs <;> subst_vars <;> rfl

section
variable {cfg : Params} {lun code : Byte} {buf : Handle} {v : Status} {s : State}

theorem ioctlPreconditions_notReady (h : v.notInitialized = true) : ioctlPreconditions cfg lun code buf v = some .notReady := if_pos h

/-- The operands of an `ioctl` that an initialized drive accepts (rule R250). -/
theorem ioctlPreconditions_none (hinit : v.notInitialized = false) (hlun : lun.toNat = 0) (hcode : code ∈ ioctlCodes cfg)
    (hbuf : buf = .null → ioctlNeedsBuf code = false) : ioctlPreconditions cfg lun code buf v = none := by
  have drive : lun = lunIndex := BitVec.eq_of_toNat_eq hlun
  have present : ¬ (buf = .null ∧ ioctlNeedsBuf code = true) := by
    rintro ⟨null, needed⟩
    rw [hbuf null] at needed
    cases needed
  simp [ioctlPreconditions, hinit, drive, hcode, present]

/-- Past the checks a `trim` without its pair is refused (U4). -/
theorem ioctlRequest_trimNull (hidle : s.seq = .idle) (h : ioctlPreconditions cfg lun trimCode .null s.status = none) :
    ioctlRequest cfg lun trimCode .null s = .refused .trimNullBuffer := by
  unfold ioctlRequest
  rw [if_pos hidle, h]
  exact if_pos ⟨rfl, rfl⟩

/-- Past the checks any other request runs, in a buffer that holds what it moves. -/
theorem ioctlRequest_accepted (hidle : s.seq = .idle) (h : ioctlPreconditions cfg lun code buf s.status = none)
    (hbuf : ¬ (buf = .null ∧ code = trimCode)) : ioctlRequest cfg lun code buf s =
      if bufFits (ioctlBufBytes cfg code) s then ioctlBody cfg code (beginOperation (.control code) s)
      else .refused .bufferTooSmall := by
  unfold ioctlRequest
  rw [if_pos hidle, h]
  exact if_neg hbuf

end

/-- Settles O14: either form is one request, it answers with the error its check names, and a `trim` that no check stops is refused. -/
theorem ioctlChecksInOrder : Obligations.IoctlChecksInOrder := by
  intro s lun code buf i hidle form
  have request : exec i s = ioctlRequest s.params lun code buf s := by
    obtain rfl | rfl := form
    · rfl
    · exact exec_ioctlOf s code lun buf
  rw [request]
  refine ⟨fun hno => ?_, fun hinit hbad => ?_, fun hinit hlun hcode hnull => ?_⟩
  · exact Encoding.ioctlRequest_rejected hidle (ioctlPreconditions_notReady hno)
  · exact Encoding.ioctlRequest_rejected hidle (Encoding.ioctlPreconditions_paramError hinit hbad)
  · obtain rfl : code = trimCode := BitVec.eq_of_toNat_eq hcode
    subst hnull
    exact ioctlRequest_trimNull hidle (ioctlPreconditions_none hinit hlun (by simp [ioctlCodes]) fun _ => rfl)

/-! ### Unknown codes -/

theorem ioctlOf_unknown {cfg : Params} {code : Byte} (h : code ∉ ioctlCodes cfg) (lun : Byte) (buf : Handle) :
    ioctlOf cfg code lun buf = .ioctlUnknown lun code buf := by
  simp only [ioctlCodes, List.mem_cons, List.not_mem_nil, or_false, not_or] at h
  simp [ioctlOf, h]

/-- The codes the source does not number are 50 or above (rules R9, R88). -/
theorem rawCode_ge {cfg : Params} (h : cfg.wf = true) {code : Byte} (hcode : code ∈ (ioctlCodes cfg).drop 4) : 50 ≤ code.toNat := by
  unfold Params.wf at h
  simp only [Bool.and_eq_true, List.all_eq_true, decide_eq_true_eq] at h
  obtain ⟨⟨⟨⟨⟨⟨-, raw⟩, -⟩, -⟩, -⟩, -⟩, -⟩ := h
  exact raw code hcode

/-- Code 2 is none of the four numbered codes, and below the raw queries (rule R260). -/
theorem two_not_mem_ioctlCodes {cfg : Params} (h : cfg.wf = true) : 2#8 ∉ ioctlCodes cfg := by
  intro hmem
  rw [← List.take_append_drop 4 (ioctlCodes cfg), List.mem_append] at hmem
  obtain numbered | raw := hmem
  · revert numbered
    show 2#8 ∉ [syncCode, sectorCountCode, blockSizeCode, trimCode]
    decide
  · exact absurd (rawCode_ge h raw) (by decide)

/-- Settles O15: the row of a code outside the nine is the unknown one, which the check of the code rejects. -/
theorem unknownIoctlCodeIsParamError : Obligations.UnknownIoctlCodeIsParamError :=
  ⟨fun _ lun _ buf hidle hinit hcode =>
    ⟨ioctlOf_unknown (mt (Encoding.isKnownCode_iff _ _).2 hcode) lun buf,
      Encoding.ioctlRequest_rejected hidle (Encoding.ioctlPreconditions_paramError hinit (.inr (.inl hcode)))⟩,
    fun _ lun buf hcfg => ioctlOf_unknown (two_not_mem_ioctlCodes hcfg) lun buf⟩

/-! ### The body of a code -/

/-- A known code whose request moves `len` bytes of `BUF` (rule R51) and, accepted, runs `body`. -/
structure Dispatches (cfg : Params) (code : Byte) (len : Nat) (body : State → ControlOutcome) : Prop where
  known : code ∈ ioctlCodes cfg
  moves : ioctlBufBytes cfg code = len
  runsBody : ∀ s, ioctlBody cfg code s = body s

/-- The nine codes (rules R251 to R259). -/
structure DispatchTable (cfg : Params) : Prop where
  sync : Dispatches cfg syncCode 0 (syncBody cfg)
  sectorCount : Dispatches cfg sectorCountCode 0 (sectorCountBody cfg)
  blockSize : Dispatches cfg blockSizeCode 0 (blockSizeBody cfg)
  trim : Dispatches cfg trimCode 0 fun s => trimBody cfg s.buf.pair s
  rawType : Dispatches cfg cfg.rawTypeCode 1 (rawTypeBody cfg)
  rawCsd : Dispatches cfg cfg.rawCsdCode 16 (rawCsdBody cfg)
  rawCid : Dispatches cfg cfg.rawCidCode 16 (rawCidBody cfg)
  rawOcr : Dispatches cfg cfg.rawOcrCode 4 (rawOcrBody cfg)
  rawSdStatus : Dispatches cfg cfg.rawSdStatusCode 64 (rawSdStatusBody cfg)

/-- No code is taken for another, as all nine are different (rule R9). -/
theorem dispatchTable {cfg : Params} (h : cfg.wf = true) : DispatchTable cfg := by
  have later := Params.wf_codes h
  have earlier := List.nodup_reverse.2 later
  simp only [ioctlCodes, List.reverse_cons, List.reverse_nil, List.nil_append, List.cons_append, List.nodup_cons, List.mem_cons,
    not_or] at later earlier
  constructor <;>
    exact ⟨by simp [ioctlCodes], by simp [ioctlBufBytes, later, earlier, registerLength, ocrLength, sdStatusLength],
      fun s => by simp [ioctlBody, earlier]⟩

/-- The request for a known code that passes its checks runs the body. -/
theorem Dispatches.runs {s : State} {code : Byte} {len : Nat} {body : State → ControlOutcome} (d : Dispatches s.params code len body)
    (h : Launchable s) {buf : Handle} (hbuf : buf = .given ∨ code = syncCode) (fits : len ≤ s.buf.size) :
    ioctlRequest s.params 0#8 code buf s = body (beginOperation (.control code) s) := by
  rw [ioctlRequest_runs s.params h code buf d.known hbuf (by rw [d.moves]; exact fits), d.runsBody]

/-! ### The end of an operation -/

/-- An `ioctl` whose body ran to `u` ended in `t`: its wire shows `trace` and then the final `Deselect`, the reply is `r`, and of the
working registers only `ok` and those named as written were written (rule R261). -/
structure Ended (s u t : State) (trace : List WireEvent → Prop) (r : Reply) (written : List WorkingRegister) : Prop where
  ran : Ran s t trace
  reply : t.reply = some r
  buf : t.buf = u.buf
  closed : SameWorkingBut [.ok] u t
  registers : SameWorkingBut (written ++ [.ok]) (cleared s) t

section
variable {s u : State} {code : Byte} {p : Nat → Prop} {trace : List WireEvent → Prop} {evs : List WireEvent}
  {written : List WorkingRegister}

theorem finish_ends (ran : Runs s.params p (beginOperation (.control code) s) u)
    (appended : Appends (beginOperation (.control code) s) u evs) (traced : trace evs)
    (wrote : SameWorkingBut written (beginOperation (.control code) s) u) (ok : Bool) (r : Reply) :
    Ended s u (finishOperation s.params r (setOk ok u)) trace r written := by
  have begun : SameWorkingBut (written ++ [.ok]) (cleared s) (beginOperation (.control code) s) := .ofEq rfl
  have closed : SameWorkingBut [.ok] u (finishOperation s.params r (setOk ok u)) :=
    (setOk_working ok u (by simp)).trans (.ofEq rfl)
  exact ⟨finishOperation_ran (u := setOk ok u) r ran.sameSession.1 appended traced, rfl, rfl, closed,
    (begun.trans (wrote.mono (List.subset_append_left _ _))).trans (closed.mono (List.subset_append_right _ _))⟩

theorem endControl_ends (ran : Runs s.params p (beginOperation (.control code) s) u)
    (appended : Appends (beginOperation (.control code) s) u evs) (traced : trace evs)
    (wrote : SameWorkingBut written (beginOperation (.control code) s) u) (ok : Bool) :
    Ended s u (endControl s.params ok u) trace (.result (if ok then .ok else .error)) written := by
  rw [endControl_eq]
  exact finish_ends ran appended traced wrote _ _

theorem endWithValue_ends (ran : Runs s.params p (beginOperation (.control code) s) u)
    (appended : Appends (beginOperation (.control code) s) u evs) (traced : trace evs)
    (wrote : SameWorkingBut written (beginOperation (.control code) s) u) (v : Option Word) :
    Ended s u (endWithValue s.params v u) trace (v.elim (.result .error) .value) written := by
  cases v
  · exact endControl_ends ran appended traced wrote false
  · exact finish_ends ran appended traced wrote true _

end

/-- Settles O46: one select, whose result is the reply. -/
theorem syncIsOneSelect : Obligations.SyncIsOneSelect := by
  intro s buf h
  let start : State := beginOperation (.control syncCode) s
  obtain ⟨evs, appended, traced⟩ := select_trace s.params start
  have ran : Runs s.params noStore start (select s.params start).2 := Runs.refl.select
  have wrote : SameWorkingBut [.dPoll] start (select s.params start).2 := select_working s.params start (by simp)
  have runs : exec (.ioctlSync 0#8 buf) s = syncBody s.params start := (dispatchTable h.configured).sync.runs h (.inr rfl) (Nat.zero_le _)
  have ended := endControl_ends ran appended traced wrote (select s.params start).1
  exact ⟨_, _, runs, ended.ran, ended.reply, ended.buf.trans ran.sameBuf, ended.registers⟩

/-! ### The typed values -/

/-- Settles O47: the CSD by the law of its transaction, and its capacity where it came. -/
theorem sectorCountReadsCsd : Obligations.SectorCountReadsCsd := by
  intro s h
  let start : State := beginOperation (.control sectorCountCode) s
  obtain ⟨evs, appended, traced, filled⟩ := csdTransaction_trace s.params h.configured start
  have ran : Runs s.params noStore start (csdTransaction s.params start).2 := Runs.refl.csdTransaction
  have wrote : SameWorkingBut (dispatcherRegisters ++ [.token, .csdBuf]) start (csdTransaction s.params start).2 :=
    Dispatcher.csdTransaction_working s.params start (List.subset_append_left _ _) (by simp) (by simp)
  have runs : exec (.ioctlSectorCount 0#8 .given) s = sectorCountBody s.params start :=
    (dispatchTable h.configured).sectorCount.runs h (.inl rfl) (Nat.zero_le _)
  have ended := endWithValue_ends ran appended traced wrote ((csdTransaction s.params start).1.map (csdCapacity s.params))
  refine ⟨_, (csdTransaction s.params start).1, runs, ended.ran, ended.buf.trans ran.sameBuf, fun bytes came => ?_, fun absent => ?_,
    ended.registers⟩
  · obtain ⟨length, stored⟩ := filled bytes came
    exact ⟨length, (ended.closed.csdBuf (by decide)).trans stored, ended.reply.trans (by rw [came]; rfl)⟩
  · exact ended.reply.trans (by rw [absent]; rfl)

/-- A shift by -1 is what makes the default granularity a fault (rule R263). -/
theorem eraseGranularity_eq_none_iff (cfg : Params) (t : CardType) (reg : List Byte) :
    eraseGranularity cfg t reg = none ↔
      cfg.registerFunctions = .specDefault ∧ t.sdV2 = false ∧ t.sdV1 = true ∧ (reg.getD 13 0x00#8).toNat < 64 := by
  have shift : (regByte reg 13 >>> 6).toNat = 0 ↔ (reg.getD 13 0x00#8).toNat < 64 := by
    rw [BitVec.toNat_ushiftRight, Nat.shiftRight_eq_div_pow]
    exact Nat.div_eq_zero_iff_lt (by decide)
  rw [← shift]
  unfold eraseGranularity eraseGranularityDefault
  cases cfg.registerFunctions with
  | configured => simp
  | specDefault => cases t.sdV2 <;> cases t.sdV1 <;> simp

theorem eraseGranularity_ne_none {cfg : Params} {t : CardType} {reg : List Byte}
    (h : cfg.registerFunctions = .configured ∨ t.sdV2 = true ∨ t.sdV1 = false ∨ 64 ≤ (reg.getD 13 0x00#8).toNat) :
    eraseGranularity cfg t reg ≠ none := by
  rw [Ne, eraseGranularity_eq_none_iff]
  rintro ⟨hdef, hv2, hv1, hshift⟩
  obtain own | v2 | other | shift := h
  · cases own.symm.trans hdef
  · cases v2.symm.trans hv2
  · cases other.symm.trans hv1
  · exact absurd hshift (Nat.not_lt.2 shift)

section
variable {cfg : Params} {s : State}

/-- get-block-size ends with the granularity of the register, unless that is the fault. -/
theorem blockSizeBody_eq (h : ∀ reg, (granularityRegister cfg s).1 = some reg → eraseGranularity cfg s.type reg ≠ none) :
    blockSizeBody cfg s = .next (endWithValue cfg ((granularityRegister cfg s).1.bind (eraseGranularity cfg s.type))
      (granularityRegister cfg s).2) := by
  unfold blockSizeBody
  cases received : (granularityRegister cfg s).1 with
  | none => rfl
  | some reg =>
    obtain ⟨sectors, value⟩ := Option.ne_none_iff_exists'.1 (h reg received)
    simp [value]

theorem blockSizeBody_fault {reg : List Byte} (received : (granularityRegister cfg s).1 = some reg)
    (h : eraseGranularity cfg s.type reg = none) : blockSizeBody cfg s = .fault .eraseGranularityShift := by
  unfold blockSizeBody
  rw [received]
  dsimp only
  rw [h]

/-- The register is read as its own transaction shows it (rule R253). -/
theorem granularityRegister_trace (hcfg : cfg.wf = true) : ∃ evs, Appends s (granularityRegister cfg s).2 evs ∧
    (if s.type.sdV2 then SdStatusHeadTrace cfg (granularityRegister cfg s).1
      else CmdRecvTrace cfg (frameBytes cfg cfg.opSendCsd 0#32) (granularityRegister cfg s).1) evs ∧
    ∀ reg, (granularityRegister cfg s).1 = some reg → reg.length = 16 := by
  unfold granularityRegister
  split
  · obtain ⟨evs, appended, traced, filled⟩ := sdStatusHeadTransaction_trace cfg hcfg s
    exact ⟨evs, appended, traced, fun reg came => (filled reg came).1⟩
  · obtain ⟨evs, appended, traced, filled⟩ := csdTransaction_trace cfg hcfg s
    exact ⟨evs, appended, traced, fun reg came => (filled reg came).1⟩

end

section
variable {named : List WorkingRegister} (cfg : Params) (s : State)

theorem sdStatusHeadTransaction_working (h : dispatcherRegisters ⊆ named) (ht : .token ∈ named) (hb : .csdBuf ∈ named) :
    SameWorkingBut named s (sdStatusHeadTransaction cfg s).2 := by
  have sent : SameWorkingBut named s (send cfg.dummyTx (sendCmd cfg (sdStatus cfg) s).2) :=
    (sendCmd_working cfg _ s h).trans (send_working cfg.dummyTx _)
  have read := sent.trans (recvRegister_working cfg _ (Dispatcher.dPoll_mem h) ht hb)
  unfold sdStatusHeadTransaction
  split
  · dsimp only
    split
    · exact read.trans (.ofEq (sendAll_w _ _))
    · exact read
  · exact sendCmd_working cfg _ s h

theorem granularityRegister_working (h : dispatcherRegisters ⊆ named) (ht : .token ∈ named) (hb : .csdBuf ∈ named) :
    SameWorkingBut named s (granularityRegister cfg s).2 := by
  unfold granularityRegister
  split
  · exact sdStatusHeadTransaction_working cfg s h ht hb
  · exact Dispatcher.csdTransaction_working cfg s h ht hb

end

/-- Settles O48: the register by the law of its transaction; its granularity is answered, or is the fault, where the two clauses say. -/
theorem blockSizeReadsItsRegister : Obligations.BlockSizeReadsItsRegister := by
  intro s h reg
  let start : State := beginOperation (.control blockSizeCode) s
  obtain ⟨evs, appended, traced, length⟩ := granularityRegister_trace (s := start) h.configured
  have ran : Runs s.params noStore start (granularityRegister s.params start).2 := Runs.refl.granularityRegister
  have wrote : SameWorkingBut (dispatcherRegisters ++ [.token, .csdBuf]) start (granularityRegister s.params start).2 :=
    granularityRegister_working s.params start (List.subset_append_left _ _) (by simp) (by simp)
  have runs : exec (.ioctlBlockSize 0#8 .given) s = blockSizeBody s.params start :=
    (dispatchTable h.configured).blockSize.runs h (.inl rfl) (Nat.zero_le _)
  refine ⟨fun excluded => ?_, fun bytes came hdef hv2 hv1 hshift => ?_⟩
  · have valued : ∀ bytes, reg = some bytes → eraseGranularity s.params s.type bytes ≠ none := fun bytes came =>
      eraseGranularity_ne_none (excluded.imp_right (Or.imp_right (Or.imp_right fun h => h bytes came)))
    have ended := endWithValue_ends ran appended traced wrote (reg.bind (eraseGranularity s.params s.type))
    refine ⟨_, runs.trans (blockSizeBody_eq valued), ended.ran, ended.buf.trans ran.sameBuf, fun bytes came => ?_, fun absent => ?_,
      ended.registers⟩
    · obtain ⟨sectors, value⟩ := Option.ne_none_iff_exists'.1 (valued bytes came)
      have replied := ended.reply.trans (c := some (Reply.value sectors)) (by rw [came, Option.bind_some, value]; rfl)
      exact ⟨length bytes came, replied.trans (by rw [value]; rfl), fun absent => Option.some_ne_none _ (replied.symm.trans absent)⟩
    · exact ended.reply.trans (by rw [absent]; rfl)
  · exact runs.trans (blockSizeBody_fault came ((eraseGranularity_eq_none_iff _ _ _).2 ⟨hdef, hv2, hv1, hshift⟩))

/-! ### `trim` -/

section
variable {named : List WorkingRegister} (cfg : Params)

theorem eraseRange_working (first last : Word) (s : State) (h : dispatcherRegisters ⊆ named) (ha : .addr ∈ named) :
    SameWorkingBut named s (eraseRange cfg first last s).2 := by
  have addressed : SameWorkingBut named s (setAddr last (setAddr first s)) :=
    (setAddr_working first s ha).trans (setAddr_working last _ ha)
  have started := addressed.trans (sendCmd_working cfg (eraseWrBlkStart cfg first) _ h)
  have bounded := started.trans (sendCmd_working cfg (eraseWrBlkEnd cfg last) _ h)
  unfold eraseRange
  dsimp only
  split
  · split
    · exact bounded.trans (Dispatcher.eraseTransaction_working cfg _ h)
    · exact bounded
  · exact started

theorem trimSequence_working (pair : Word × Word) (s : State) (h : dispatcherRegisters ⊆ named) (ht : .token ∈ named)
    (hb : .csdBuf ∈ named) (ha : .addr ∈ named) : SameWorkingBut named s (trimSequence cfg pair s).2 := by
  have read : SameWorkingBut named s (csdTransaction cfg s).2 := Dispatcher.csdTransaction_working cfg s h ht hb
  unfold trimSequence
  split
  · split
    · split
      · exact read.trans (eraseRange_working cfg _ _ _ h ha)
      · exact read
    · exact read
  · exact .ofEq rfl

end

/-- Settles O49: the sequence by its trace law; none of it stores to `BUF`. -/
theorem trimErasesItsRange : Obligations.TrimErasesItsRange := by
  intro s h
  let start : State := beginOperation (.control trimCode) s
  obtain ⟨evs, appended, traced⟩ := trimSequence_trace s.params h.configured s.buf.pair start
  have ran : Runs s.params noStore start (trimSequence s.params s.buf.pair start).2 := Runs.refl.trimSequence _
  have wrote : SameWorkingBut (dispatcherRegisters ++ [.token, .csdBuf, .addr]) start (trimSequence s.params s.buf.pair start).2 :=
    trimSequence_working s.params _ start (List.subset_append_left _ _) (by simp) (by simp) (by simp)
  have runs : exec (.ioctlTrim 0#8 .given) s = trimBody s.params s.buf.pair start :=
    (dispatchTable h.configured).trim.runs h (.inl rfl) (Nat.zero_le _)
  have ended := endControl_ends ran appended traced wrote (trimSequence s.params s.buf.pair start).1
  exact ⟨_, _, runs, ended.ran, ended.reply, ended.buf.trans ran.sameBuf, ended.registers⟩

/-! ### The raw queries -/

theorem typeByte_eq (cfg : Params) (t : CardType) : CardType.toByte cfg t =
    (if t.mmcV3 then cfg.mmcV3Mask else 0#8) ||| (if t.mmcV4 then cfg.mmcV4Mask else 0#8) |||
      (if t.sdV1 then cfg.sdV1Mask else 0#8) ||| (if t.sdV2 then cfg.sdV2Mask else 0#8) |||
      (if t.blockAddressed then cfg.blockAddressedMask else 0#8) := rfl

/-- The default masks are different powers of two, so they are added (rule R24). -/
theorem typeByte_default_toNat (t : CardType) : (CardType.toByte Params.default t).toNat =
    (if t.mmcV3 then 1 else 0) + (if t.mmcV4 then 2 else 0) + (if t.sdV1 then 4 else 0) + (if t.sdV2 then 8 else 0) +
      (if t.blockAddressed then 16 else 0) := by
  obtain ⟨mmcV3, mmcV4, sdV1, sdV2, blockAddressed⟩ := t
  revert mmcV3 mmcV4 sdV1 sdV2 blockAddressed
  decide

/-- Settles O50: one store, and no exchange before the final `Deselect`. -/
theorem rawTypeStoresTypeByte : Obligations.RawTypeStoresTypeByte := by
  intro s h fits
  let start : State := beginOperation (.control s.params.rawTypeCode) s
  let typeByte : Byte := CardType.toByte s.params s.type
  let stored : State := bufWrite 0 typeByte start
  have ran : Runs s.params (storesIn 0 1) start stored := Runs.refl.store 0 typeByte ⟨by omega, by omega⟩
  have runs : exec (.ioctlRawType 0#8 .given) s = rawTypeBody s.params start :=
    (dispatchTable h.configured).rawType.runs h (.inl rfl) fits
  have ended := endControl_ends (trace := fun evs => evs = []) (written := []) ran (evs := []) rfl rfl (.ofEq rfl) true
  have read : bufRead 0 (endControl s.params true stored) = typeByte := by
    have written : bufRead 0 stored = typeByte := bufRead_bufWrite start h.bufCanonical 0 typeByte 0
    unfold bufRead at written ⊢
    rwa [ended.buf]
  refine ⟨_, runs, ended.ran, ended.reply, BlockIo.sameBufBut_of_buf ran.sameBufBut ended.buf, ended.registers, ?_, fun hdef => ?_⟩
  · exact read.trans (typeByte_eq _ _)
  · exact (congrArg BitVec.toNat read).trans (by rw [← typeByte_default_toNat, ← hdef])

/-- A request left at the start of `BUF` the packet of `len` bytes whose trace its wire shows, the rest of `BUF` the same, and replied
`OK`; or, without a packet, all of `BUF` the same, and replied `ERROR`. -/
def StoresPacket (s : State) (len : Nat) (trace : Option (List Byte) → List WireEvent → Prop) (o : ControlOutcome) : Prop :=
  ∃ t payload, o = .next t ∧ Ran s t (trace payload) ∧ t.reply = okOrError payload.isSome ∧
    (∀ bytes, payload = some bytes → bufBytes 0 len t = bytes ∧ SameBufBut 0 len s t) ∧ (payload = none → t.buf = s.buf) ∧
    SameWorkingBut (dispatcherRegisters ++ [.token, .ok]) (cleared s) t

/-- A body that ends with the success of its transaction: by the trace of the transaction, its run, and what it leaves without a
packet. -/
theorem endControl_stores {s : State} {code : Byte} {q : Bool × State} {len : Nat} {trace : Option (List Byte) → List WireEvent → Prop}
    (traced : ∃ evs, Appends (beginOperation (.control code) s) q.2 evs ∧
      trace (if q.1 then some (bufBytes 0 len q.2) else none) evs)
    (ran : Runs s.params (storesIn 0 len) (beginOperation (.control code) s) q.2) (unfilled : q.1 = false → q.2.buf = s.buf)
    (wrote : SameWorkingBut (dispatcherRegisters ++ [.token]) (beginOperation (.control code) s) q.2) :
    StoresPacket s len trace (.next (endControl s.params q.1 q.2)) := by
  obtain ⟨evs, appended, traced⟩ := traced
  have ended := endControl_ends ran appended traced wrote q.1
  refine ⟨_, _, rfl, ended.ran, ended.reply.trans ?_, ?_, ?_, ended.registers⟩
  · cases q.1 <;> rfl
  · cases received : q.1
    · nofun
    · rintro _ ⟨⟩
      rw [received] at ended
      exact ⟨bufBytes_of_buf 0 len ended.buf, BlockIo.sameBufBut_of_buf ran.sameBufBut ended.buf⟩
  · cases received : q.1
    · rw [received] at ended
      exact fun _ => ended.buf.trans (unfilled received)
    · nofun

theorem recvTransaction_stores {s : State} (h : Launchable s) (code : Byte) (c : Command) (len : Nat)
    (hc : isStop s.params c = false) (ha : c.acmd = false) :
    StoresPacket s len (CmdRecvTrace s.params (frameBytes s.params c.op c.arg))
      (.next (endControl s.params (recvTransaction s.params c len (beginOperation (.control code) s)).1
        (recvTransaction s.params c len (beginOperation (.control code) s)).2)) :=
  endControl_stores (recvTransaction_trace s.params c len hc ha _ h.bufCanonical)
    (Runs.refl.recvTransaction c len fun _ h => ⟨Nat.zero_le _, by omega⟩) (recvTransaction_false s.params)
    (recvTransaction_working s.params c len _ (List.subset_append_left _ _) (by simp))

theorem sdStatusTransaction_stores {s : State} (h : Launchable s) (code : Byte) :
    StoresPacket s 64 (SdStatusTrace s.params)
      (.next (endControl s.params (sdStatusTransaction s.params (beginOperation (.control code) s)).1
        (sdStatusTransaction s.params (beginOperation (.control code) s)).2)) :=
  endControl_stores (sdStatusTransaction_trace s.params h.configured _ h.bufCanonical)
    (Runs.refl.sdStatusTransaction fun _ h => ⟨Nat.zero_le _, by unfold sdStatusLength at h; omega⟩)
    (sdStatusTransaction_false s.params)
    (Dispatcher.sdStatusTransaction_working s.params _ (List.subset_append_left _ _) (by simp))

/-- Settles O51: `CMD9` and `CMD10` with their packet, and `ACMD13` with one byte between. -/
theorem rawRegistersStorePackets : Obligations.RawRegistersStorePackets := by
  intro s h
  have table := dispatchTable h.configured
  refine ⟨fun fits => ?_, fun fits => ?_, fun fits => ?_⟩
  · show StoresPacket s 16 _ (ioctlRequest s.params 0#8 s.params.rawCsdCode .given s)
    rw [table.rawCsd.runs h (.inl rfl) fits]
    exact recvTransaction_stores h _ (sendCsd s.params) 16 (isStop_sendCsd h.configured) rfl
  · show StoresPacket s 16 _ (ioctlRequest s.params 0#8 s.params.rawCidCode .given s)
    rw [table.rawCid.runs h (.inl rfl) fits]
    exact recvTransaction_stores h _ (sendCid s.params) 16 (isStop_sendCid h.configured) rfl
  · show StoresPacket s 64 _ (ioctlRequest s.params 0#8 s.params.rawSdStatusCode .given s)
    rw [table.rawSdStatus.runs h (.inl rfl) fits]
    exact sdStatusTransaction_stores h _

theorem respByte_bytesWord (b0 b1 b2 b3 : Byte) : respByte (bytesWord b0 b1 b2 b3) 0 = b0 ∧ respByte (bytesWord b0 b1 b2 b3) 1 = b1 ∧
    respByte (bytesWord b0 b1 b2 b3) 2 = b2 ∧ respByte (bytesWord b0 b1 b2 b3) 3 = b3 := by
  have drop (start : Nat) (h : 8 ≤ start) {w : Nat} (hi : BitVec w) (b : Byte) :
      (hi ++ b).extractLsb' start 8 = hi.extractLsb' (start - 8) 8 := BitVec.extractLsb'_append_eq_of_le h
  unfold respByte bytesWord
  refine ⟨?_, ?_, ?_, ?_⟩
  · rw [drop _ (by decide), drop _ (by decide)]; exact BitVec.extractLsb'_append_eq_left
  · rw [drop _ (by decide), drop _ (by decide)]; exact BitVec.extractLsb'_append_eq_right
  · rw [drop _ (by decide)]; exact BitVec.extractLsb'_append_eq_right
  · exact BitVec.extractLsb'_append_eq_right

/-- The four bytes of the OCR are stored in the order received (rules R55, R258). -/
theorem bufBytes_storeOcr {s : State} (hw : Memory.wf s.buf.mem = true) (b0 b1 b2 b3 : Byte) :
    bufBytes 0 4 (storeOcr (bytesWord b0 b1 b2 b3) s) = [b0, b1, b2, b3] := by
  obtain ⟨h0, h1, h2, h3⟩ := respByte_bytesWord b0 b1 b2 b3
  have w0 := memWrite_wf hw 0 b0
  have w1 := memWrite_wf w0 1 b1
  have w2 := memWrite_wf w1 2 b2
  unfold storeOcr
  rw [h0, h1, h2, h3]
  simp [bufBytes, bufRead, List.range_succ, memRead_memWrite hw, memRead_memWrite w0, memRead_memWrite w1, memRead_memWrite w2]

@[simp] theorem storeOcr_wire (ocr : Word) (s : State) : (storeOcr ocr s).wire = s.wire := rfl
@[simp] theorem storeOcr_w (ocr : Word) (s : State) : (storeOcr ocr s).w = s.w := rfl

theorem storeOcr_runs {cfg : Params} (ocr : Word) {s t : State} (h : Runs cfg (storesIn 0 4) s t) :
    Runs cfg (storesIn 0 4) s (storeOcr ocr t) :=
  (((h.store 0 _ (by decide)).store 1 _ (by decide)).store 2 _ (by decide)).store 3 _ (by decide)

theorem ocrTransaction_working {named : List WorkingRegister} (cfg : Params) (s : State) (h : dispatcherRegisters ⊆ named)
    (hr : .resp4 ∈ named) : SameWorkingBut named s (ocrTransaction cfg s).2 := by
  unfold ocrTransaction
  split
  · exact (sendCmd_working cfg _ s h).trans (readTrailing_working cfg _ hr)
  · exact sendCmd_working cfg _ s h

theorem rawOcrBody_none {cfg : Params} {s : State} (h : (ocrTransaction cfg s).1 = none) :
    rawOcrBody cfg s = .next (endControl cfg false (ocrTransaction cfg s).2) := by
  unfold rawOcrBody; rw [h]

theorem rawOcrBody_some {cfg : Params} {s : State} {ocr : Word} (h : (ocrTransaction cfg s).1 = some ocr) :
    rawOcrBody cfg s = .next (endControl cfg true (storeOcr ocr (ocrTransaction cfg s).2)) := by
  unfold rawOcrBody; rw [h]

/-- Settles O52: the four trailing bytes are the word that is stored, and stored in their order. -/
theorem rawOcrStoresTrailingBytes : Obligations.RawOcrStoresTrailingBytes := by
  intro s h fits
  let start : State := beginOperation (.control s.params.rawOcrCode) s
  obtain ⟨evs, trailing, appended, traced, word⟩ := ocrTransaction_trace s.params h.configured start
  have ran : Runs s.params noStore start (ocrTransaction s.params start).2 := Runs.refl.ocrTransaction
  have wrote : SameWorkingBut (dispatcherRegisters ++ [.resp4]) start (ocrTransaction s.params start).2 :=
    ocrTransaction_working s.params start (List.subset_append_left _ _) (by simp)
  have runs : exec (.ioctlRawOcr 0#8 .given) s = rawOcrBody s.params start :=
    (dispatchTable h.configured).rawOcr.runs h (.inl rfl) fits
  split at word
  · next b0 b1 b2 b3 =>
    have stored := storeOcr_runs (bytesWord b0 b1 b2 b3) (ran.ofNone (p := storesIn 0 4))
    have ended := endControl_ends stored (appends_of_wire appended (storeOcr_wire _ _)) traced
      (wrote.trans (.ofEq (storeOcr_w _ _))) true
    refine ⟨_, some [b0, b1, b2, b3], runs.trans (rawOcrBody_some word), ended.ran, ended.reply, ?_, nofun, ended.registers⟩
    rintro _ ⟨⟩
    exact ⟨(bufBytes_of_buf 0 4 ended.buf).trans (bufBytes_storeOcr (ran.bufWf h.bufCanonical) b0 b1 b2 b3),
      BlockIo.sameBufBut_of_buf stored.sameBufBut ended.buf⟩
  · obtain ⟨rfl, absent⟩ := word
    have ended := endControl_ends ran appended traced wrote false
    exact ⟨_, none, runs.trans (rawOcrBody_none absent), ended.ran, ended.reply, nofun, fun _ => ended.buf.trans ran.sameBuf,
      ended.registers⟩

/-! ### The end of every request -/

/-- The replies of an `ioctl` that passed its checks: `OK`, `ERROR`, or `OK` with a value (rule R261). -/
def Answered (t : State) : Prop := (∃ ok, t.reply = okOrError ok) ∨ ∃ v, t.reply = some (.value v)

theorem endControl_answered (cfg : Params) (ok : Bool) (s : State) : Answered (endControl cfg ok s) := by
  rw [endControl_eq]
  exact .inl ⟨ok, rfl⟩

theorem endWithValue_answered (cfg : Params) (v : Option Word) (s : State) : Answered (endWithValue cfg v s) := by
  cases v with
  | none => exact endControl_answered cfg false s
  | some sectors => exact .inr ⟨sectors, rfl⟩

/-- A body ends the operation with a reply; or it is get-block-size, and the granularity of the register is the fault. -/
def Completes (cfg : Params) (s : State) (o : ControlOutcome) : Prop :=
  (∃ t, o = .next t ∧ Answered t) ∨ o = .fault .eraseGranularityShift ∧ ∃ reg, eraseGranularity cfg s.type reg = none

section
variable (cfg : Params) (s : State)

theorem blockSizeBody_completes : Completes cfg s (blockSizeBody cfg s) := by
  by_cases fault : ∃ reg, (granularityRegister cfg s).1 = some reg ∧ eraseGranularity cfg s.type reg = none
  · obtain ⟨reg, received, shift⟩ := fault
    exact .inr ⟨blockSizeBody_fault received shift, reg, shift⟩
  · exact .inl ⟨_, blockSizeBody_eq fun reg received shift => fault ⟨reg, received, shift⟩, endWithValue_answered _ _ _⟩

theorem rawOcrBody_completes : Completes cfg s (rawOcrBody cfg s) := by
  cases received : (ocrTransaction cfg s).1 with
  | none => exact .inl ⟨_, rawOcrBody_none received, endControl_answered _ _ _⟩
  | some ocr => exact .inl ⟨_, rawOcrBody_some received, endControl_answered _ _ _⟩

theorem ioctlBody_completes {code : Byte} (hcfg : cfg.wf = true) (hcode : code ∈ ioctlCodes cfg) :
    Completes cfg s (ioctlBody cfg code s) := by
  have table := dispatchTable hcfg
  have control (ok : Bool) (u : State) : Completes cfg s (.next (endControl cfg ok u)) := .inl ⟨_, rfl, endControl_answered _ _ _⟩
  simp only [ioctlCodes, List.mem_cons, List.not_mem_nil, or_false] at hcode
  obtain rfl | rfl | rfl | rfl | rfl | rfl | rfl | rfl | rfl := hcode
  · rw [table.sync.runsBody]; exact control _ _
  · rw [table.sectorCount.runsBody]; exact .inl ⟨_, rfl, endWithValue_answered _ _ _⟩
  · rw [table.blockSize.runsBody]; exact blockSizeBody_completes cfg s
  · rw [table.trim.runsBody]; exact control _ _
  · rw [table.rawType.runsBody]; exact control _ _
  · rw [table.rawCsd.runsBody]; exact control _ _
  · rw [table.rawCid.runsBody]; exact control _ _
  · rw [table.rawOcr.runsBody]; exact rawOcrBody_completes cfg s
  · rw [table.rawSdStatus.runsBody]; exact control _ _

end

section
variable {s t : State} {code : Byte} {buf : Handle}

/-- A body that ends leaves the engine at rest with a reply. -/
theorem ioctlBody_ends (hcfg : s.params.wf = true) (hcode : code ∈ ioctlCodes s.params)
    (h : ioctlBody s.params code (beginOperation (.control code) s) = .next t) : Ran s t (fun _ => True) ∧ Answered t := by
  refine ⟨?_, ?_⟩
  · obtain ⟨u, r, ran, rfl⟩ := ioctlBody_next hcode h
    obtain ⟨evs, appended⟩ := ran.appends
    exact finishOperation_ran (u := u) r ran.sameSession.1 appended trivial
  · obtain ⟨t', ended, answered⟩ | ⟨fault, -⟩ := ioctlBody_completes s.params (beginOperation (.control code) s) hcfg hcode
    · obtain rfl : t' = t := Host.Outcome.next.inj (ended.symm.trans h)
      exact answered
    · rw [fault] at h
      cases h

/-- An `ioctl` that passes its checks, by its code as an operand. -/
theorem exec_ioctl_accepted (h : Launchable s) (hcode : isKnownCode s.params code) (hbuf : buf = .given ∨ code.toNat = 0) :
    exec (.ioctl 0#8 code buf) s = if bufFits (ioctlBufBytes s.params code) s then
      ioctlBody s.params code (beginOperation (.control code) s) else .refused .bufferTooSmall := by
  have null (hnull : buf = .null) : code = syncCode := by
    obtain rfl | zero := hbuf
    · cases hnull
    · exact BitVec.eq_of_toNat_eq zero
  refine ioctlRequest_accepted h.idle (ioctlPreconditions_none h.initialized rfl ((Encoding.isKnownCode_iff _ _).1 hcode) ?_) ?_
  · intro hnull
    rw [null hnull]
    rfl
  · rintro ⟨hnull, trim⟩
    exact absurd ((null hnull).symm.trans trim) (by decide)

end

/-- Settles O53: either form is one request; accepted, it is its body, which ends unless the granularity is a fault. -/
theorem ioctlEndsDeselected : Obligations.IoctlEndsDeselected := by
  intro s code buf
  refine ⟨(exec_ioctlOf s code 0#8 buf).symm, fun h hcode hbuf fits excluded => ?_, fun h hcode hbuf t ended => ?_⟩
  · have known := (Encoding.isKnownCode_iff _ _).1 hcode
    have room : bufFits (ioctlBufBytes s.params code) s = true := decide_eq_true fits
    rw [exec_ioctl_accepted h hcode hbuf, if_pos room]
    obtain ⟨t, ended, -⟩ | ⟨-, reg, fault⟩ :=
      ioctlBody_completes s.params (beginOperation (.control code) s) h.configured known
    · exact ⟨t, ended, ioctlBody_ends h.configured known ended⟩
    · exact absurd fault (eraseGranularity_ne_none (excluded.imp_right (Or.imp_right .inl)))
  · rw [exec_ioctl_accepted h hcode hbuf] at ended
    split at ended
    · exact ioctlBody_ends h.configured ((Encoding.isKnownCode_iff _ _).1 hcode) ended
    · cases ended

/-! ### The configuration functions as numbers -/

theorem regWord_toNat (reg : List Byte) (k : Nat) : (regWord reg k).toNat = (reg.getD k 0x00#8).toNat :=
  BitVec.toNat_setWidth_of_le (by decide)

theorem regWord_lt (reg : List Byte) (k : Nat) : (regWord reg k).toNat < 256 := by
  rw [regWord_toNat]
  exact (reg.getD k 0x00#8).isLt

/-- A field of `n` bits, cut out by its mask and shifted down from bit `k`. -/
theorem field_toNat (x : Word) {mask : Word} {k n : Nat} (h : mask.toNat >>> k = 2 ^ n - 1) :
    ((x &&& mask) >>> k).toNat = x.toNat / 2 ^ k % 2 ^ n := by
  rw [BitVec.toNat_ushiftRight, BitVec.toNat_and, Nat.shiftRight_and_distrib, h, Nat.and_two_pow_sub_one_eq_mod,
    Nat.shiftRight_eq_div_pow]

/-- A field at bit 0. -/
theorem lowField_toNat (x : Word) {mask : Word} {n : Nat} (h : mask.toNat = 2 ^ n - 1) : (x &&& mask).toNat = x.toNat % 2 ^ n := by
  rw [BitVec.toNat_and, h, Nat.and_two_pow_sub_one_eq_mod]

/-- A shift up of a number small enough to keep all its bits. -/
theorem shiftLeft_toNat {x : Word} {k : Nat} (h : x.toNat * 2 ^ k < 2 ^ 32) : (x <<< k).toNat = x.toNat * 2 ^ k := by
  rw [BitVec.toNat_shiftLeft, Nat.shiftLeft_eq, Nat.mod_eq_of_lt h]

theorem csdVersion_toNat (csd : List Byte) : (csdVersion csd).toNat = (csd.getD 0 0x00#8).toNat / 64 := by
  have hlt := (csd.getD 0 0x00#8).isLt
  unfold csdVersion regByte
  rw [BitVec.extractLsb'_toNat, Nat.shiftRight_eq_div_pow]
  omega

theorem csdSizeV2_toNat (csd : List Byte) : (csdSizeV2 csd).toNat =
    (regWord csd 9).toNat + (regWord csd 8).toNat * 2 ^ 8 + (regWord csd 7).toNat % 64 * 2 ^ 16 := by
  have h8 := regWord_lt csd 8
  have h9 := regWord_lt csd 9
  have high : (regWord csd 7 &&& 0x3F#32).toNat = (regWord csd 7).toNat % 2 ^ 6 := lowField_toNat _ rfl
  unfold csdSizeV2
  have s8 : (regWord csd 8 <<< 8).toNat = _ := shiftLeft_toNat (by omega)
  have s7 : ((regWord csd 7 &&& 0x3F#32) <<< 16).toNat = _ := shiftLeft_toNat (by omega)
  rw [BitVec.toNat_add, BitVec.toNat_add, s7, s8, high]
  omega

theorem csdSizeV1_toNat (csd : List Byte) : (csdSizeV1 csd).toNat =
    (regWord csd 8).toNat / 64 + (regWord csd 7).toNat * 4 + (regWord csd 6).toNat % 4 * 2 ^ 10 := by
  have h7 := regWord_lt csd 7
  have h8 := regWord_lt csd 8
  have high : (regWord csd 6 &&& 0x03#32).toNat = (regWord csd 6).toNat % 2 ^ 2 := lowField_toNat _ rfl
  have s8 : (regWord csd 8 >>> 6).toNat = (regWord csd 8).toNat / 64 := by
    rw [BitVec.toNat_ushiftRight, Nat.shiftRight_eq_div_pow]
  have s7 : (regWord csd 7 <<< 2).toNat = _ := shiftLeft_toNat (by omega)
  have s6 : ((regWord csd 6 &&& 0x03#32) <<< 10).toNat = _ := shiftLeft_toNat (by omega)
  unfold csdSizeV1
  rw [BitVec.toNat_add, BitVec.toNat_add, s6, s7, s8, high]
  omega

theorem csdExponentV1_eq (csd : List Byte) : csdExponentV1 csd =
    (regWord csd 5).toNat % 16 + (regWord csd 10).toNat / 128 + (regWord csd 9).toNat % 4 * 2 + 2 := by
  have h10 := regWord_lt csd 10
  have f5 : (regWord csd 5 &&& 0x0F#32).toNat = (regWord csd 5).toNat % 2 ^ 4 := lowField_toNat _ rfl
  have f9 : (regWord csd 9 &&& 0x03#32).toNat = (regWord csd 9).toNat % 2 ^ 2 := lowField_toNat _ rfl
  have f10 : ((regWord csd 10 &&& 0x80#32) >>> 7).toNat = (regWord csd 10).toNat / 2 ^ 7 % 2 ^ 1 := field_toNat _ rfl
  have s9 : ((regWord csd 9 &&& 0x03#32) <<< 1).toNat = _ := shiftLeft_toNat (by omega)
  have two : (2#32).toNat = 2 := rfl
  unfold csdExponentV1
  rw [BitVec.toNat_add, BitVec.toNat_add, BitVec.toNat_add, s9, f5, f9, f10, two]
  omega

/-- Bit 6 of byte 10 (rule R262). -/
theorem eraseBit_iff (b : Byte) : b &&& 0x40#8 ≠ 0x00#8 ↔ b.toNat / 64 % 2 = 1 := by
  revert b; decide

theorem eraseEnabledDefault_iff (csd : List Byte) : eraseEnabledDefault csd = true ↔
    (csd.getD 0 0x00#8).toNat / 64 ≠ 0 ∨ (csd.getD 10 0x00#8).toNat / 64 % 2 = 1 := by
  have version : csdVersion csd ≠ 0#2 ↔ (csd.getD 0 0x00#8).toNat / 64 ≠ 0 := by
    rw [← csdVersion_toNat, Ne, BitVec.toNat_eq]; rfl
  unfold eraseEnabledDefault regByte
  rw [Bool.or_eq_true, bne_iff_ne, bne_iff_ne, version, eraseBit_iff]

/-- A number of sectors, scaled by a power of two in 32 bits. -/
theorem scaled_toNat {size : Word} (h : size.toNat < 2 ^ 31) (k : Nat) :
    ((size + 1#32) <<< k).toNat = (size.toNat + 1) * 2 ^ k % 2 ^ 32 := by
  have one : (size + 1#32).toNat = size.toNat + 1 := by
    rw [BitVec.toNat_add, BitVec.toNat_ofNat]
    omega
  rw [BitVec.toNat_shiftLeft, Nat.shiftLeft_eq, one]

/-- Settles O55: the fields as numbers, each by its lemma, and one shift in 32 bits. -/
theorem csdFunctionsOfBytes : Obligations.CsdFunctionsOfBytes := by
  intro cfg csd hdef _ byte n
  have capacity : csdCapacity cfg csd = csdCapacityDefault csd := by unfold csdCapacity; rw [hdef]
  have enabled : eraseEnabled cfg csd = eraseEnabledDefault csd := by unfold eraseEnabled; rw [hdef]
  have word (k : Nat) : (regWord csd k).toNat = byte k := regWord_toNat csd k
  have byteLt (k : Nat) : byte k < 256 := word k ▸ regWord_lt csd k
  have version : csdVersion csd = 1#2 ↔ byte 0 / 64 = 1 := by rw [BitVec.toNat_eq, csdVersion_toNat]; rfl
  have exponent : csdExponentV1 csd = n := by rw [csdExponentV1_eq]; simp only [word]; rfl
  rw [capacity, enabled]
  unfold csdCapacityDefault
  refine ⟨fun v2 => ?_, fun other hn => ?_, eraseEnabledDefault_iff csd⟩
  · have size := csdSizeV2_toNat csd
    simp only [word] at size
    have h8 := byteLt 8
    have h9 := byteLt 9
    rw [if_pos (version.2 v2), scaled_toNat (by omega), size]
  · have size := csdSizeV1_toNat csd
    simp only [word] at size
    have h7 := byteLt 7
    have h8 := byteLt 8
    rw [if_neg (mt version.1 other), exponent, if_pos hn, scaled_toNat (by omega), size]

/-- The allocation unit of `SDv2` (rule R263). -/
theorem allocationUnit_toNat (b : Byte) : (16#32 <<< (b >>> 4).toNat).toNat = 16 * 2 ^ (b.toNat / 16) := by
  have hlt := b.isLt
  have pow : 2 ^ (b.toNat / 16) ≤ 2 ^ 15 := Nat.pow_le_pow_right (by decide) (by omega)
  have shift : (b >>> 4).toNat = b.toNat / 16 := by rw [BitVec.toNat_ushiftRight, Nat.shiftRight_eq_div_pow]
  rw [shift]
  refine shiftLeft_toNat ?_
  show 16 * _ < _
  omega

section
variable (reg : List Byte)

/-- The erase-sector field of an `SDv1` CSD, plus one (rule R263). -/
theorem eraseSector_toNat :
    (((regWord reg 10 &&& 0x3F#32) <<< 1) + ((regWord reg 11 &&& 0x80#32) >>> 7) + 1#32).toNat =
      (regWord reg 10).toNat % 64 * 2 + (regWord reg 11).toNat / 128 + 1 := by
  have h11 := regWord_lt reg 11
  have f10 : (regWord reg 10 &&& 0x3F#32).toNat = (regWord reg 10).toNat % 2 ^ 6 := lowField_toNat _ rfl
  have f11 : ((regWord reg 11 &&& 0x80#32) >>> 7).toNat = (regWord reg 11).toNat / 2 ^ 7 % 2 ^ 1 := field_toNat _ rfl
  have s10 : ((regWord reg 10 &&& 0x3F#32) <<< 1).toNat = _ := shiftLeft_toNat (by omega)
  have one : (1#32).toNat = 1 := rfl
  rw [BitVec.toNat_add, BitVec.toNat_add, s10, f10, f11, one]
  omega

/-- The two factors of the erase group of an MMC CSD (rule R263). -/
theorem eraseGroupSize_toNat : (((regWord reg 10 &&& 0x7C#32) >>> 2) + 1#32).toNat = (regWord reg 10).toNat / 4 % 32 + 1 := by
  have f10 : ((regWord reg 10 &&& 0x7C#32) >>> 2).toNat = (regWord reg 10).toNat / 2 ^ 2 % 2 ^ 5 := field_toNat _ rfl
  have one : (1#32).toNat = 1 := rfl
  rw [BitVec.toNat_add, f10, one]
  omega

theorem eraseGroupMultiplier_toNat :
    ((((regWord reg 11 &&& 0x03#32) <<< 3) + ((regWord reg 11 &&& 0xE0#32) >>> 5)) + 1#32).toNat =
      (regWord reg 11).toNat % 4 * 8 + (regWord reg 11).toNat / 32 + 1 := by
  have h11 := regWord_lt reg 11
  have low : (regWord reg 11 &&& 0x03#32).toNat = (regWord reg 11).toNat % 2 ^ 2 := lowField_toNat _ rfl
  have high : ((regWord reg 11 &&& 0xE0#32) >>> 5).toNat = (regWord reg 11).toNat / 32 :=
    (field_toNat (n := 3) _ rfl).trans (Nat.mod_eq_of_lt (by omega))
  have shifted : ((regWord reg 11 &&& 0x03#32) <<< 3).toNat = _ := shiftLeft_toNat (by omega)
  have one : (1#32).toNat = 1 := rfl
  rw [BitVec.toNat_add, BitVec.toNat_add, shifted, low, high, one]
  omega

end

/-- Settles O56: one clause for each family, and the fault by `eraseGranularity_eq_none_iff`. -/
theorem eraseGranularityOfBytes : Obligations.EraseGranularityOfBytes := by
  intro cfg t reg hdef _ byte
  have granularity : eraseGranularity cfg t reg = eraseGranularityDefault t reg := by unfold eraseGranularity; rw [hdef]
  have word (k : Nat) : (regWord reg k).toNat = byte k := regWord_toNat reg k
  have byteLt (k : Nat) : byte k < 256 := word k ▸ regWord_lt reg k
  have shift : (regByte reg 13 >>> 6).toNat = byte 13 / 64 := by
    rw [BitVec.toNat_ushiftRight, Nat.shiftRight_eq_div_pow]; rfl
  refine ⟨fun v2 => ?_, fun v2 v1 zero => ?_, fun v2 v1 nonzero => ?_, fun v2 v1 => ?_⟩
  · rw [granularity, eraseGranularityDefault, if_pos v2, Option.map_some, allocationUnit_toNat]; rfl
  · exact (eraseGranularity_eq_none_iff _ _ _).2 ⟨hdef, v2, v1, show byte 13 < 64 by omega⟩
  · have sector := eraseSector_toNat reg
    simp only [word] at sector
    have h11 := byteLt 11
    have h13 := byteLt 13
    have pow : 2 ^ (byte 13 / 64 - 1) ≤ 2 ^ 2 := Nat.pow_le_pow_right (by decide) (by omega)
    rw [granularity, eraseGranularityDefault, if_neg (by simp [v2]), if_pos v1, shift, if_neg nonzero, Option.map_some,
      shiftLeft_toNat, sector]
    rw [sector]
    calc _ ≤ 256 * 2 ^ 2 := Nat.mul_le_mul (by omega) pow
      _ < 2 ^ 32 := by decide
  · have size := eraseGroupSize_toNat reg
    have multiplier := eraseGroupMultiplier_toNat reg
    simp only [word] at size multiplier
    have h11 := byteLt 11
    have product : (byte 10 / 4 % 32 + 1) * (byte 11 % 4 * 8 + byte 11 / 32 + 1) ≤ 32 * 32 := Nat.mul_le_mul (by omega) (by omega)
    rw [granularity, eraseGranularityDefault, if_neg (by simp [v2]), if_neg (by simp [v1]), Option.map_some, BitVec.toNat_mul, size,
      multiplier, Nat.mod_eq_of_lt (by omega)]

end Sys2Proof.Control
end

section
/-! PROOFS. The statements of 70_reset_and_hazards.md. That the line is released rests on the two ways a host request is served
(`exec_hostRow`), and the power-up clocks on the trace of `initialize(0)` up to its finish. The counts of rule R341 are put together
from what each procedure exchanges with a card that is ready and answers at the first poll (`Exchanged`). -/

namespace Sys2Proof.Hazards

open Sys2Proof.Machine Sys2Proof.Safety

/-! ### The line before a reply -/

/-- A host request is over (rule R332): the engine is at rest and has replied, and the last two events are the final `Deselect`. -/
structure Released (t : State) : Prop where
  rest : AtRest t
  replied : t.reply ≠ none
  deselected : EndsDeselected t

theorem finishOperation_released {cfg : Params} {u : State} (r : Reply) (h : u.params = cfg) : Released (finishOperation cfg r u) :=
  let ⟨rest, deselected⟩ := finishOperation_ends r h
  ⟨rest, nofun, deselected⟩

theorem initializeDrive_released (s : State) : Released (initializeDrive s.params s) := by
  obtain ⟨⟨hp, -⟩, -⟩ := Scope.initResetStage_keeps s.params (beginOperation .reset s)
  rw [Scope.initializeDrive_eq_finish]
  exact ⟨⟨rfl, rfl⟩, nofun, Initializer.finishInitialize_endsDeselected _ hp⟩

/-- A host row answers at once and touches nothing but the reply, or it ends with the final `Deselect`. -/
theorem exec_hostRow_releases {i : Instr} {s t : State} (hi : isHostRow i) (h : exec i s = .next t) :
    (∃ r, t = replyAtOnce r s) ∨ t.params = s.params ∧ Released t := by
  obtain ⟨-, served | ⟨-, rfl⟩⟩ := exec_hostRow hi h
  · cases served with
    | atOnce r answered => exact .inl ⟨r, answered⟩
    | operated r launched ran finished =>
      obtain ⟨⟨ranParams, -⟩, -⟩ := ran.sameSession
      obtain ⟨launchedParams, -⟩ := launched.session
      have same := ranParams.trans launchedParams
      subst finished
      exact .inr ⟨same, finishOperation_released r same⟩
  · exact .inr ⟨(Session.initializeDrive_keepsInputs s.params s).params, initializeDrive_released s⟩

/-- Settles O57: a reply at once leaves the wire and the line as they were, and any other end is the final `Deselect`. -/
theorem lineReleasedBeforeEveryReply : Obligations.LineReleasedBeforeEveryReply := by
  intro i s t hi hidle hline h
  obtain ⟨r, rfl⟩ | ⟨params, rest, replied, deselected⟩ := exec_hostRow_releases hi h
  · exact ⟨⟨hidle, hline⟩, nofun, fun touched => absurd rfl touched⟩
  · refine ⟨rest, replied, fun _ => ⟨deselected, fun hdef => ?_⟩⟩
    obtain ⟨rx, before, wire⟩ := deselected
    rw [params, hdef] at wire
    exact ⟨rx, before, wire⟩

/-! ### The power-up clocks -/

/-- A bracket, whether its select was ready or not, begins with a transition that deselects (rules R111, R113). -/
theorem BracketTrace_begins {cfg : Params} {frame : List Byte} {r : Byte} {evs : List WireEvent} (h : BracketTrace cfg frame r evs) :
    ∃ more, evs = .cs .deasserted :: more := by
  obtain ⟨⟨a, b, polls, rfl, -⟩, -⟩ | ⟨_, fr, poll, rfl, ⟨a, b, polls, rfl, -⟩, -⟩ := h <;> exact ⟨_, rfl⟩

/-- The stages of `initialize(0)` begin with ten exchanges and then the bracket of `CMD0` (rules R192, R193). -/
theorem InitTrace_begins {cfg : Params} {ty : CardType} {evs : List WireEvent} (h : InitTrace cfg ty evs) :
    ∃ ten more, ten.length = 10 ∧ evs = sending cfg.dummyTx ten ++ .cs .deasserted :: more := by
  obtain ⟨ten, cmd0, rest, r0, rfl, length, bracket, -⟩ := h
  obtain ⟨more, rfl⟩ := BracketTrace_begins bracket
  exact ⟨ten, more ++ rest, length, by simp⟩

/-- Exchanges leave the level of the line. -/
theorem wireLevel_sending (tx : Byte) (rxs : List Byte) (wire : List WireEvent) :
    wireLevel ((sending tx rxs).reverse ++ wire) = wireLevel wire := by
  induction rxs generalizing wire with
  | nil => rfl
  | cons rx rxs ih =>
    rw [sending_cons, List.reverse_cons, List.append_assoc]
    exact ih _

/-- Settles O23: the trace of the stages begins so, and the finish only adds to it; the level before is that of the idle line. -/
theorem initializeBeginsWithPowerUpClocks : Obligations.InitializeBeginsWithPowerUpClocks := by
  intro s hidle hcfg
  obtain ⟨-, -, body, appended, traced⟩ := initResetStage_law s.params hcfg (beginOperation .reset s)
  obtain ⟨ten, more, length, rfl⟩ := InitTrace_begins traced
  obtain ⟨des, finished, -⟩ := deselect_trace s.params (initResetStage s.params (beginOperation .reset s)).2
  have begins : Appends s (initializeDrive s.params s) (sending s.params.dummyTx ten ++ .cs .deasserted :: (more ++ des)) := by
    rw [Scope.initializeDrive_eq_finish]
    have whole := Appends_trans appended finished
    rw [List.append_assoc] at whole
    exact whole
  refine ⟨_, ten, more ++ des, Initializer.exec_initDrive_zero hidle, length, begins, fun hdef => ?_, fun inv k _ => ?_⟩
  · rw [hdef] at begins ⊢
    exact begins
  · rw [wireLevel_sending, ← inv.wireOk.level]
    exact inv.idleDeselected hidle

/-! ### Counting exchanges -/

theorem exchanges_append (a b : List WireEvent) : exchanges (a ++ b) = exchanges a + exchanges b := by
  induction a with
  | nil => exact (Nat.zero_add _).symm
  | cons e a ih =>
    cases e with
    | cs => exact ih
    | xchg => rw [List.cons_append, exchanges, exchanges, ih, Nat.add_right_comm]

theorem exchanges_reverse (evs : List WireEvent) : exchanges evs.reverse = exchanges evs := by
  induction evs with
  | nil => rfl
  | cons e evs ih =>
    rw [List.reverse_cons, exchanges_append, ih]
    cases e <;> rfl

theorem exchanges_sending (tx : Byte) (rxs : List Byte) : exchanges (sending tx rxs) = rxs.length := by
  induction rxs with
  | nil => rfl
  | cons rx rxs ih => exact congrArg (· + 1) ih

theorem exchanges_of_sends {txs : List Byte} {evs : List WireEvent} (h : Sends txs evs) : exchanges evs = txs.length := by
  obtain ⟨rxs, length, rfl⟩ := h
  induction txs generalizing rxs with
  | nil => rfl
  | cons tx txs ih =>
    obtain ⟨rx, rxs, rfl⟩ := List.exists_cons_of_length_eq_add_one length
    exact congrArg (· + 1) (ih rxs (Nat.succ.inj length))

/-- From `s` to `t` there were `n` exchanges, and they left the card's script at `rest`. -/
def Exchanged (s t : State) (n : Nat) (rest : List Byte) : Prop := exchanges t.wire = exchanges s.wire + n ∧ t.cardIn = rest

section
variable {s t u : State} {n m : Nat} {rest later : List Byte}

theorem Exchanged.trans (h : Exchanged s t n later) (g : Exchanged t u m rest) : Exchanged s u (n + m) rest :=
  ⟨by rw [g.1, h.1, Nat.add_assoc], g.2⟩

theorem exchanged_of_appends {evs : List WireEvent} (h : Appends s t evs) (left : t.cardIn = rest) :
    Exchanged s t (exchanges evs) rest := by
  refine ⟨?_, left⟩
  rw [h, exchanges_append, exchanges_reverse, Nat.add_comm]

/-! ### A card that is ready and answers at the first poll -/

variable {cfg : Params}

theorem send_exchanged (tx : Byte) {b : Byte} (h : s.cardIn = b :: rest) : Exchanged s (send tx s) 1 rest :=
  ⟨rfl, (xchg_scripted tx h).2.1⟩

theorem deselect_exchanged {b : Byte} (h : s.cardIn = b :: rest) : Exchanged s (deselect cfg s) 1 rest :=
  send_exchanged (s := csOff s) cfg.dummyTx h

theorem assertLine_exchanged {b : Byte} (h : s.cardIn = b :: rest) : Exchanged s (send cfg.dummyTx (csOn s)) 1 rest :=
  send_exchanged (s := csOn s) cfg.dummyTx h

theorem waitReady_exchanged (ms : Nat) (h : s.cardIn = 0xFF#8 :: rest) :
    (waitReady cfg ms s).1 = true ∧ Exchanged s (waitReady cfg ms s).2 1 rest :=
  let ⟨ready, left, appended⟩ := waitReady_scripted cfg ms s rest h
  ⟨ready, exchanged_of_appends appended left⟩

theorem select_exchanged {a b : Byte} (h : s.cardIn = [a, b, 0xFF#8] ++ rest) :
    (select cfg s).1 = true ∧ Exchanged s (select cfg s).2 3 rest := by
  have off : Exchanged s (deselect cfg s) 1 ([b, 0xFF#8] ++ rest) := deselect_exchanged h
  have on : Exchanged (deselect cfg s) (send cfg.dummyTx (csOn (deselect cfg s))) 1 ([0xFF#8] ++ rest) := assertLine_exchanged off.2
  obtain ⟨ready, polled⟩ := waitReady_exchanged (cfg := cfg) tReadyMs on.2
  exact ⟨ready, (off.trans on).trans polled⟩

theorem sendAll_exchanged {bytes drawn : List Byte} (hl : drawn.length = bytes.length) (h : s.cardIn = drawn ++ rest) :
    Exchanged s (sendAll bytes s) bytes.length rest := by
  obtain ⟨evs, appended, sent⟩ := sendAll_trace bytes s
  rw [← exchanges_of_sends sent]
  exact exchanged_of_appends appended (sendAll_scripted bytes s drawn rest hl h)

theorem pollR1_exchanged {r : Byte} (hr : r.toNat < 128) (h : s.cardIn = r :: rest) :
    (pollR1 cfg s).1 = r ∧ Exchanged s (pollR1 cfg s).2 1 rest := by
  obtain ⟨returned, -, left, appended, -⟩ := Dispatcher.responsePollReturnsLastByteRead cfg s [] rest r h nofun (.inl ⟨hr, by simp⟩)
  exact ⟨returned, exchanged_of_appends appended left⟩

/-- A command in its bracket: three exchanges of the select, six of the frame and one poll. -/
theorem sendCmd_exchanged {c : Command} (hc : isStop cfg c = false) (ha : c.acmd = false) {a b r : Byte} {frame : List Byte}
    (hframe : frame.length = 6) (hr : r.toNat < 128) (h : s.cardIn = [a, b, 0xFF#8] ++ (frame ++ r :: rest)) :
    (sendCmd cfg c s).1 = r ∧ Exchanged s (sendCmd cfg c s).2 10 rest := by
  obtain ⟨ready, selected⟩ := select_exchanged (cfg := cfg) (s := setCmd c s) h
  have framed : Exchanged _ (sendFrame cfg c (select cfg (setCmd c s)).2) 6 (r :: rest) := sendAll_exchanged hframe selected.2
  obtain ⟨returned, polled⟩ := pollR1_exchanged (cfg := cfg) hr framed.2
  have sent : sendOne cfg c s = pollR1 cfg (sendFrame cfg c (select cfg (setCmd c s)).2) := by
    unfold sendOne
    rw [if_neg (by simp [hc]), if_pos ready]
  rw [(sendCmd_plain cfg c ha s).1, (sendCmd_plain cfg c ha s).2, sent]
  exact ⟨returned, (selected.trans framed).trans polled⟩

/-- A received packet: its token, its payload and the two bytes after it (rules R171, R173). -/
theorem recvDataBlock_exchanged (off : Nat) {payload : List Byte} {c1 c2 : Byte} (hw : Memory.wf s.buf.mem = true)
    (h : s.cardIn = 0xFE#8 :: (payload ++ [c1, c2] ++ rest)) : ∃ t, recvDataBlock cfg off payload.length s = (true, t) ∧
      bufBytes off payload.length t = payload ∧ Exchanged s t (payload.length + 3) rest := by
  obtain ⟨t, d1, d2, received, appended, left, drawn, -⟩ := Transceiver.recvDataBlock_at_once off payload.length (cfg := cfg) hw h
  have packet : (payload ++ [c1, c2]).length = payload.length + 2 := by simp
  have taken : bufBytes off payload.length t ++ [d1, d2] = payload ++ [c1, c2] := by
    rw [← packet, List.take_left, List.take_of_length_le] at drawn
    · exact drawn
    · simp [bufBytes_length]
  rw [← packet, List.drop_left] at left
  refine ⟨t, received, List.append_inj_left taken (bufBytes_length _ _ _), ?_⟩
  have counted := exchanged_of_appends appended left
  simp only [List.cons_append, exchanges, exchanges_append, exchanges_sending, bufBytes_length] at counted
  exact counted

/-- A transmitted packet: the ready wait, the token, the payload with two bytes after it, and the data response (rule R175). -/
theorem xmitDataBlock_exchanged (off : Nat) {token d : Byte} {discarded : List Byte}
    (htoken : token = 0xFE#8 ∨ token = cfg.startMultiToken) (hcfg : cfg.wf = true)
    (hl : discarded.length = 515) (hd : d.toNat % 32 = cfg.acceptVal.toNat)
    (h : s.cardIn = 0xFF#8 :: (discarded ++ d :: rest)) :
    (xmitDataBlock cfg off token s).1 = true ∧ Exchanged s (xmitDataBlock cfg off token s).2 517 rest := by
  obtain ⟨accepted, -, left, -⟩ := Transceiver.dataResponseDecidesTransmit cfg s off token d discarded rest htoken hcfg hl h
  refine ⟨accepted.2 hd, ?_⟩
  obtain ⟨ready, -, polled⟩ := waitReady_scripted cfg tReadyMs (setToken token s) _ h
  rw [Transceiver.xmitDataBlock_of_ready (Transceiver.startToken_ne_stop hcfg htoken) ready] at left ⊢
  obtain ⟨body, response, sent, sends, -⟩ := xmitPayload_trace cfg off (send token (waitReady cfg tReadyMs (setToken token s)).2)
  have counted := exchanged_of_appends
    (appends_from_wire (s := s) (Appends_trans (Appends_trans polled (appends_send token _)) sent) rfl) left
  simp only [exchanges_append, exchanges_of_sends sends, List.length_append, bufBytes_length] at counted
  exact counted

/-- The end of a transfer whose sector went through: `OK`, and the exchange of the final `Deselect` (rule R226). -/
theorem endTransfer_exchanged {d : Byte} (h : Exchanged s u n (d :: rest)) :
    (endTransfer cfg (setCount 0 u)).reply = some (.result .ok) ∧ (endTransfer cfg (setCount 0 u)).buf = u.buf ∧
      Exchanged s (endTransfer cfg (setCount 0 u)) (n + 1) rest := by
  rw [endTransfer_eq]
  exact ⟨rfl, rfl, h.trans (deselect_exchanged (s := setCount 0 u) h.2)⟩

/-! ### One sector -/

variable {sector : Word} {a b d : Byte} {frame : List Byte}

theorem readSinglePath_of_packet
    (returned : (sendCmd cfg (readSingleBlock cfg (convertAddress s.type sector)) (startTransfer .reading sector 1 s)).1 = 0x00#8)
    (received : recvDataBlock cfg 0 512
      (sendCmd cfg (readSingleBlock cfg (convertAddress s.type sector)) (startTransfer .reading sector 1 s)).2 = (true, t)) :
    readSinglePath cfg sector s = endTransfer cfg (setCount 0 t) := by
  unfold readSinglePath recvTransaction
  rw [if_pos ((accepted_iff _).2 returned), show sectorSize = 512 from rfl, received]
  rfl

theorem writeSinglePath_of_packet
    (returned : (sendCmd cfg (writeBlock cfg (convertAddress s.type sector)) (startTransfer .writing sector 1 s)).1 = 0x00#8)
    (accepted : (xmitDataBlock cfg 0 startBlockToken
      (sendCmd cfg (writeBlock cfg (convertAddress s.type sector)) (startTransfer .writing sector 1 s)).2).1 = true) :
    writeSinglePath cfg sector s = endTransfer cfg (setCount 0 (xmitDataBlock cfg 0 startBlockToken
      (sendCmd cfg (writeBlock cfg (convertAddress s.type sector)) (startTransfer .writing sector 1 s)).2).2) := by
  unfold writeSinglePath writeSingleTransaction
  rw [if_pos ((accepted_iff _).2 returned)]
  exact congrArg (endTransfer cfg) (if_pos accepted)

/-- A single read: a command of ten exchanges, a packet of 515 and the final `Deselect`. -/
theorem readSinglePath_exchanged {payload : List Byte} {c1 c2 : Byte} (hcfg : cfg.wf = true) (hw : Memory.wf s.buf.mem = true)
    (hframe : frame.length = 6) (hlen : payload.length = 512)
    (h : s.cardIn = [a, b, 0xFF#8] ++ (frame ++ 0x00#8 :: 0xFE#8 :: (payload ++ [c1, c2] ++ d :: rest))) :
    (readSinglePath cfg sector s).reply = some (.result .ok) ∧ bufBytes 0 512 (readSinglePath cfg sector s) = payload ∧
      Exchanged s (readSinglePath cfg sector s) 526 rest := by
  obtain ⟨returned, sent⟩ := sendCmd_exchanged (s := startTransfer .reading sector 1 s)
    (isStop_readSingleBlock hcfg (convertAddress s.type sector)) rfl hframe (by decide) h
  have canonical := (Runs.sendCmd (cfg := cfg) (p := noStore) (readSingleBlock cfg (convertAddress s.type sector)) .refl).bufWf
    (s := startTransfer .reading sector 1 s) hw
  obtain ⟨t, received, filled, took⟩ := recvDataBlock_exchanged (cfg := cfg) 0 canonical sent.2
  rw [hlen] at received filled took
  obtain ⟨reply, buf, ended⟩ := endTransfer_exchanged (cfg := cfg) (sent.trans took)
  rw [readSinglePath_of_packet returned received]
  exact ⟨reply, (bufBytes_of_buf 0 512 buf).trans filled, ended⟩

/-- A single write: a command of ten exchanges, a packet of 517 with its ready wait and the final `Deselect`. -/
theorem writeSinglePath_exchanged {discarded : List Byte} {response : Byte} (hcfg : cfg.wf = true) (hframe : frame.length = 6)
    (hlen : discarded.length = 515) (haccept : response.toNat % 32 = cfg.acceptVal.toNat)
    (h : s.cardIn = [a, b, 0xFF#8] ++ (frame ++ 0x00#8 :: 0xFF#8 :: (discarded ++ response :: d :: rest))) :
    (writeSinglePath cfg sector s).reply = some (.result .ok) ∧ Exchanged s (writeSinglePath cfg sector s) 528 rest := by
  obtain ⟨returned, sent⟩ := sendCmd_exchanged (s := startTransfer .writing sector 1 s)
    (isStop_writeBlock hcfg (convertAddress s.type sector)) rfl hframe (by decide) h
  obtain ⟨accepted, gave⟩ := xmitDataBlock_exchanged 0 (.inl rfl) hcfg hlen haccept sent.2
  obtain ⟨reply, -, ended⟩ := endTransfer_exchanged (cfg := cfg) (sent.trans gave)
  rw [writeSinglePath_of_packet returned accepted]
  exact ⟨reply, ended⟩

end

/-- Settles O45: each transfer is its path, and the counts of its procedures add up to the number stated. -/
theorem readyCardMovesOneSector : Obligations.ReadyCardMovesOneSector := by
  intro s sector a b d frame rest h fits hframe
  refine ⟨fun payload c1 c2 hlen hcard => ?_, fun discarded response hcap hp hlen haccept hcard => ?_⟩
  · have script : s.cardIn = [a, b, 0xFF#8] ++ (frame ++ 0x00#8 :: 0xFE#8 :: (payload ++ [c1, c2] ++ d :: rest)) :=
      hcard.trans (by simp)
    obtain ⟨reply, filled, counted, left⟩ := readSinglePath_exchanged (sector := sector) h.configured h.bufCanonical hframe hlen script
    exact ⟨_, BlockIo.exec_readSingle h fits sector, reply, filled, counted, left⟩
  · have script : s.cardIn = [a, b, 0xFF#8] ++ (frame ++ 0x00#8 :: 0xFF#8 :: (discarded ++ response :: d :: rest)) :=
      hcard.trans (by simp)
    obtain ⟨reply, counted, left⟩ := writeSinglePath_exchanged (sector := sector) h.configured hframe hlen haccept script
    exact ⟨_, BlockIo.exec_writeSingle h hcap hp fits sector, reply, counted, left⟩

end Sys2Proof.Hazards
end

section
/-! PROOFS. The statements about the machine as a whole. Encoding (30_encoding.md): every row is read back from its record, and at
every port what the decoder accepts is the record of what it answers (`Reads`). The step and the invariant (10_state.md): the port of a
record says whether its instruction is a host row (`isHostRow_iff_of_decode`), so a command or token runs outside idle and a host request
in idle, and each keeps the invariant by the law of its kind, `exec_commandRow` or `exec_hostRow`. Last, three statements on rows: the
refusals, the trace of `initialize(0)`, and the single bytes. -/

namespace Sys2Proof.Codec

open Sys2Proof.Machine

/-! ### From an instruction to its record and back -/

/-- Every instruction is read back from its record, by the lemma of its row. -/
theorem roundTrip : ∀ i : Instr, Laws.RoundTrip.Statement i
  | .cmd0 => Laws.RoundTrip.cmd0
  | .cmd1 => Laws.RoundTrip.cmd1
  | .cmd8 => Laws.RoundTrip.cmd8
  | .cmd9 => Laws.RoundTrip.cmd9
  | .cmd10 => Laws.RoundTrip.cmd10
  | .cmd12 => Laws.RoundTrip.cmd12
  | .acmd13 => Laws.RoundTrip.acmd13
  | .cmd16 => Laws.RoundTrip.cmd16
  | .cmd17 addr => Laws.RoundTrip.cmd17 addr
  | .cmd18 addr => Laws.RoundTrip.cmd18 addr
  | .acmd23 count => Laws.RoundTrip.acmd23 count
  | .cmd24 addr => Laws.RoundTrip.cmd24 addr
  | .cmd25 addr => Laws.RoundTrip.cmd25 addr
  | .cmd32 addr => Laws.RoundTrip.cmd32 addr
  | .cmd33 addr => Laws.RoundTrip.cmd33 addr
  | .cmd38 => Laws.RoundTrip.cmd38
  | .acmd41 hcs => Laws.RoundTrip.acmd41 hcs
  | .cmd55 => Laws.RoundTrip.cmd55
  | .cmd58 => Laws.RoundTrip.cmd58
  | .tokenStartBlock dir => Laws.RoundTrip.tokenStartBlock dir
  | .tokenStartMulti => Laws.RoundTrip.tokenStartMulti
  | .tokenStopMulti => Laws.RoundTrip.tokenStopMulti
  | .dataResponseAccepted high => Laws.RoundTrip.dataResponseAccepted high
  | .r1Valid flags => Laws.RoundTrip.r1Valid flags
  | .readyByte => Laws.RoundTrip.readyByte
  | .dummyTx => Laws.RoundTrip.dummyTx
  | .initDrive lun => Laws.RoundTrip.initDrive lun
  | .driveStatus lun => Laws.RoundTrip.driveStatus lun
  | .readSingle lun buf sector => Laws.RoundTrip.readSingle lun buf sector
  | .readMulti lun buf sector count => Laws.RoundTrip.readMulti lun buf sector count
  | .writeSingle lun buf sector => Laws.RoundTrip.writeSingle lun buf sector
  | .writeMulti lun buf sector count => Laws.RoundTrip.writeMulti lun buf sector count
  | .ioctl lun code buf => Laws.RoundTrip.ioctl lun code buf
  | .reservedOp5 => Laws.RoundTrip.reservedOp5
  | .reservedOp6 => Laws.RoundTrip.reservedOp6
  | .reservedOp7 => Laws.RoundTrip.reservedOp7
  | .ioctlSync lun buf => Laws.RoundTrip.ioctlSync lun buf
  | .ioctlSectorCount lun buf => Laws.RoundTrip.ioctlSectorCount lun buf
  | .ioctlBlockSize lun buf => Laws.RoundTrip.ioctlBlockSize lun buf
  | .ioctlTrim lun buf => Laws.RoundTrip.ioctlTrim lun buf
  | .ioctlRawType lun buf => Laws.RoundTrip.ioctlRawType lun buf
  | .ioctlRawCsd lun buf => Laws.RoundTrip.ioctlRawCsd lun buf
  | .ioctlRawCid lun buf => Laws.RoundTrip.ioctlRawCid lun buf
  | .ioctlRawOcr lun buf => Laws.RoundTrip.ioctlRawOcr lun buf
  | .ioctlRawSdStatus lun buf => Laws.RoundTrip.ioctlRawSdStatus lun buf
  | .ioctlUnknown lun code buf => Laws.RoundTrip.ioctlUnknown lun code buf

/-- Settles O1, by the row of the instruction. -/
theorem decodeOfEncodeIsInstruction : Obligations.DecodeOfEncodeIsInstruction :=
  fun cfg i hcfg hwf => roundTrip i cfg hcfg hwf

/-! ### The fields of a record, written again as they were read -/

theorem wordBytes_bytesWord (b0 b1 b2 b3 : Byte) : wordBytes (bytesWord b0 b1 b2 b3) = [b0, b1, b2, b3] := by
  obtain ⟨h0, h1, h2, h3⟩ := Control.respByte_bytesWord b0 b1 b2 b3
  exact congrArg₂ _ h0 (congrArg₂ _ h1 (congrArg₂ _ h2 (congrArg (· :: []) h3)))

/-- Byte 0 of a frame is its two start bits and its opcode (rules R71, R72). -/
theorem startBits_or_opcode (b : Byte) : b &&& 0xC0#8 ||| (b.extractLsb' 0 6).setWidth 8 = b := by revert b; decide

theorem frameBytes_of_read {cfg : Params} {b0 : Byte} (hstart : b0 &&& 0xC0#8 = cfg.cmdPrefixBits) (b1 b2 b3 b4 : Byte) :
    frameBytes cfg (b0.extractLsb' 0 6) (bytesWord b1 b2 b3 b4) = [b0, b1, b2, b3, b4, crcByte cfg (b0.extractLsb' 0 6)] := by
  unfold frameBytes frameByte0
  rw [← hstart, startBits_or_opcode, wordBytes_bytesWord]
  rfl

/-- An argument whose upper 24 bits are clear is its low byte (rule R140). -/
theorem lowByte_extended {arg : Word} (h : arg.extractLsb' 8 24 = 0#24) : (arg.extractLsb' 0 8).setWidth 32 = arg := by
  have high := congrArg BitVec.toNat h
  have := arg.isLt
  apply BitVec.eq_of_toNat_eq
  simp only [BitVec.extractLsb'_toNat, BitVec.toNat_setWidth, BitVec.toNat_ofNat, Nat.shiftRight_eq_div_pow] at high ⊢
  omega

theorem r1_written {b : Byte} (h : b.extractLsb' 7 1 = 0#1) : 0#1 ++ b.extractLsb' 0 7 = b := by revert b; decide

/-- An accepted data response is its three high bits and the pattern its low five were compared with (rule R83). -/
theorem dataResponse_written {b : Byte} {v : BitVec 5} (h : b &&& acceptMask = v.setWidth 8) : b.extractLsb' 5 3 ++ v = b := by
  have low : ∀ v : BitVec 5, (v.setWidth 8).setWidth 5 = v := by decide
  have parts : ∀ b : Byte, b.extractLsb' 5 3 ++ (b &&& acceptMask).setWidth 5 = b := by decide
  rw [← low v, ← h]
  exact parts b

theorem countBytes_split (c1 c0 : Byte) : (c1 ++ c0).extractLsb' 8 8 = c1 ∧ (c1 ++ c0).extractLsb' 0 8 = c0 :=
  ⟨BitVec.extractLsb'_append_eq_left, BitVec.extractLsb'_append_eq_right⟩

theorem handleByte_of_decode {b : Byte} {buf : Handle} (h : decodeHandle b = .ok buf) : handleByte buf = b := by
  unfold decodeHandle at h
  split at h
  · next hb => cases h; exact hb.symm
  · split at h
    · next hb => cases h; exact hb.symm
    · cases h

/-! ### From a record to its instruction and back -/

/-- What `answer` accepts is the well-formed instruction of the record `bytes` at `port`. -/
def Reads (cfg : Params) (port : Port) (bytes : List Byte) (answer : Except DecodeError Instr) : Prop :=
  ∀ i, answer = .ok i → encode cfg i = (port, bytes) ∧ i.wellFormed cfg = true

section
variable {cfg : Params} {port : Port} {bytes : List Byte} {i : Instr}

theorem Reads.error (e : DecodeError) : Reads cfg port bytes (.error e) := nofun

theorem Reads.ok (h : encode cfg i = (port, bytes)) (hwf : i.wellFormed cfg = true) : Reads cfg port bytes (.ok i) := by
  rintro _ ⟨⟩
  exact ⟨h, hwf⟩

/-- A test that fails with an error. -/
theorem Reads.guard {p : Prop} [Decidable p] {answer : Except DecodeError Instr} {e : DecodeError}
    (h : p → Reads cfg port bytes answer) : Reads cfg port bytes (if p then answer else .error e) := by
  split
  · next hp => exact h hp
  · exact .error e

/-- Trailing fields that are absent from the operation's signature, and so zero (rule R86). -/
theorem Reads.absent (front : List Byte) {fields zeros : List Byte} {e : DecodeError} (h : encode cfg i = (port, front ++ zeros))
    (hwf : i.wellFormed cfg = true) : Reads cfg port (front ++ fields) (if fields = zeros then .ok i else .error e) :=
  .guard fun hzero => .ok (hzero ▸ h) hwf

/-- A record with a buffer handle. -/
theorem Reads.handle {b : Byte} {f : Handle → Instr}
    (h : ∀ buf, handleByte buf = b → encode cfg (f buf) = (port, bytes) ∧ (f buf).wellFormed cfg = true) :
    Reads cfg port bytes ((decodeHandle b).map f) := by
  intro i hi
  cases hb : decodeHandle b with
  | error e => rw [hb] at hi; cases hi
  | ok buf => rw [hb] at hi; cases hi; exact h buf (handleByte_of_decode hb)

end

/-! ### Each port -/

section
variable (cfg : Params)

/-- A command of one fixed argument. -/
theorem fixedArg_reads {op : BitVec 6} {arg want : Word} {i : Instr} (h : encode cfg i = (.command, frameBytes cfg op want))
    (hwf : i.wellFormed cfg = true) : Reads cfg .command (frameBytes cfg op arg) (fixedArg arg want i) :=
  .guard fun harg => .ok (harg ▸ h) hwf

theorem decodeAcmd23_reads (arg : Word) : Reads cfg .command (frameBytes cfg cfg.opSetWrBlkEraseCount arg) (decodeAcmd23 arg) :=
  .guard fun high => .ok (congrArg (fun arg => (Port.command, frameBytes cfg cfg.opSetWrBlkEraseCount arg)) (lowByte_extended high)) rfl

theorem decodeAcmd41_reads (arg : Word) : Reads cfg .command (frameBytes cfg opSdSendOpCond arg) (decodeAcmd41 cfg arg) := by
  unfold decodeAcmd41
  split
  · next harg => exact .ok (harg ▸ rfl) rfl
  · exact .guard fun harg => .ok (harg ▸ rfl) rfl

/-- One line of the table of opcodes. -/
theorem Reads.opcode {cfg : Params} {op named : BitVec 6} {arg : Word} {answer later : Except DecodeError Instr}
    (h : Reads cfg .command (frameBytes cfg named arg) answer) (hlater : Reads cfg .command (frameBytes cfg op arg) later) :
    Reads cfg .command (frameBytes cfg op arg) (if op = named then answer else later) := by
  split
  · next hop => exact hop ▸ h
  · exact hlater

/-- The 19 commands, in the order of rule R98. -/
theorem commandOf_reads (op : BitVec 6) (arg : Word) : Reads cfg .command (frameBytes cfg op arg) (commandOf cfg op arg) :=
  .opcode (fixedArg_reads cfg rfl rfl) <| .opcode (fixedArg_reads cfg rfl rfl) <| .opcode (fixedArg_reads cfg rfl rfl) <|
  .opcode (fixedArg_reads cfg rfl rfl) <| .opcode (fixedArg_reads cfg rfl rfl) <| .opcode (fixedArg_reads cfg rfl rfl) <|
  .opcode (fixedArg_reads cfg rfl rfl) <| .opcode (fixedArg_reads cfg rfl rfl) <|
  .opcode (.ok rfl rfl) <| .opcode (.ok rfl rfl) <| .opcode (decodeAcmd23_reads cfg arg) <| .opcode (.ok rfl rfl) <|
  .opcode (.ok rfl rfl) <| .opcode (.ok rfl rfl) <| .opcode (.ok rfl rfl) <|
  .opcode (fixedArg_reads cfg rfl rfl) <| .opcode (decodeAcmd41_reads cfg arg) <| .opcode (fixedArg_reads cfg rfl rfl) <|
  .opcode (fixedArg_reads cfg rfl rfl) <| .error _

theorem decodeCommand_reads (bytes : List Byte) : Reads cfg .command bytes (decodeCommand cfg bytes) := by
  unfold decodeCommand
  split
  · next b0 b1 b2 b3 b4 b5 =>
    split
    · exact .error _
    · next start =>
      split
      · exact .error _
      · next crc =>
        have frame := frameBytes_of_read (not_not.1 start) b1 b2 b3 b4
        rw [← not_not.1 crc] at frame
        exact frame ▸ commandOf_reads cfg _ _
  · exact .error _

theorem decodeTokenTx_reads (bytes : List Byte) : Reads cfg .tokenTx bytes (decodeTokenTx cfg bytes) := by
  unfold decodeTokenTx
  split
  · split_ifs <;> subst_vars
    · exact .ok rfl rfl
    · exact .ok rfl rfl
    · exact .ok rfl rfl
    · exact .ok rfl rfl
    · exact .error _
  · exact .error _

theorem decodeTokenRx_reads (bytes : List Byte) : Reads cfg .tokenRx bytes (decodeTokenRx bytes) := by
  unfold decodeTokenRx
  split
  · exact .guard fun hb => .ok (hb ▸ rfl) rfl
  · exact .error _

theorem decodeReadyRx_reads (bytes : List Byte) : Reads cfg .readyRx bytes (decodeReadyRx bytes) := by
  unfold decodeReadyRx
  split
  · exact .guard fun hb => .ok (hb ▸ rfl) rfl
  · exact .error _

theorem decodeR1Rx_reads (bytes : List Byte) : Reads cfg .r1Rx bytes (decodeR1Rx bytes) := by
  unfold decodeR1Rx
  split
  · exact .guard fun arrived => .ok (congrArg (fun b => (Port.r1Rx, [b])) (r1_written arrived)) rfl
  · exact .error _

theorem decodeDataResponseRx_reads (bytes : List Byte) : Reads cfg .dataResponseRx bytes (decodeDataResponseRx cfg bytes) := by
  unfold decodeDataResponseRx
  split
  · exact .guard fun accepted => .ok (congrArg (fun b => (Port.dataResponseRx, [b])) (dataResponse_written accepted)) rfl
  · exact .error _

/-- Either row of `read` has the one record of its count, and is well formed (rule R228). -/
theorem readOf_record (lun : Byte) (buf : Handle) (sector : Word) (count : BitVec 16) :
    encode cfg (readOf lun buf sector count) = (.host, hostRecord 0x02#8 lun sector count 0x00#8 (handleByte buf)) ∧
      (readOf lun buf sector count).wellFormed cfg = true := by
  unfold readOf
  split
  · next one => exact ⟨one ▸ rfl, rfl⟩
  · next several => exact ⟨rfl, bne_iff_ne.2 several⟩

/-- Either row of `write` has the one record of its count, and is well formed (rule R228). -/
theorem writeOf_record (lun : Byte) (buf : Handle) (sector : Word) (count : BitVec 16) :
    encode cfg (writeOf lun buf sector count) = (.host, hostRecord 0x03#8 lun sector count 0x00#8 (handleByte buf)) ∧
      (writeOf lun buf sector count).wellFormed cfg = true := by
  unfold writeOf
  split
  · next one => exact ⟨one ▸ rfl, rfl⟩
  · next several => exact ⟨rfl, bne_iff_ne.2 several⟩

/-- The fields of a request record, read and written again. -/
theorem hostRecord_of_read (op lun s3 s2 s1 s0 c1 c0 code h : Byte) :
    hostRecord op lun (bytesWord s3 s2 s1 s0) (c1 ++ c0) code h = [op, lun, s3, s2, s1, s0, c1, c0, code, h] := by
  obtain ⟨high, low⟩ := countBytes_split c1 c0
  unfold hostRecord
  rw [wordBytes_bytesWord, high, low]
  rfl

theorem decodeHost_reads (bytes : List Byte) : Reads cfg .host bytes (decodeHost bytes) := by
  unfold decodeHost
  split
  · next op lun s3 s2 s1 s0 c1 c0 code h =>
    split
    · next hop =>
      obtain rfl : op = 0x00#8 := BitVec.eq_of_toNat_eq hop
      exact .absent [0x00#8, lun] rfl rfl
    · next hop =>
      obtain rfl : op = 0x01#8 := BitVec.eq_of_toNat_eq hop
      exact .absent [0x01#8, lun] rfl rfl
    · next hop =>
      obtain rfl : op = 0x02#8 := BitVec.eq_of_toNat_eq hop
      exact .guard fun absent => .handle fun buf hbuf => by
        rw [← hostRecord_of_read, absent, ← hbuf]
        exact readOf_record ..
    · next hop =>
      obtain rfl : op = 0x03#8 := BitVec.eq_of_toNat_eq hop
      exact .guard fun absent => .handle fun buf hbuf => by
        rw [← hostRecord_of_read, absent, ← hbuf]
        exact writeOf_record ..
    · next hop =>
      obtain rfl : op = 0x04#8 := BitVec.eq_of_toNat_eq hop
      exact .guard fun absent => .handle fun buf hbuf =>
        ⟨congrArg₂ (fun fields h => (Port.host, 0x04#8 :: lun :: (fields ++ [code, h]))) absent.symm hbuf, rfl⟩
    · next hop =>
      obtain rfl : op = 0x05#8 := BitVec.eq_of_toNat_eq hop
      exact .absent [0x05#8] rfl rfl
    · next hop =>
      obtain rfl : op = 0x06#8 := BitVec.eq_of_toNat_eq hop
      exact .absent [0x06#8] rfl rfl
    · next hop =>
      obtain rfl : op = 0x07#8 := BitVec.eq_of_toNat_eq hop
      exact .absent [0x07#8] rfl rfl
    · exact .error _
  · exact .error _

/-- The row of a code has the record of its code, and is well formed (rule R88). -/
theorem ioctlOf_record (code lun : Byte) (buf : Handle) :
    encode cfg (ioctlOf cfg code lun buf) = (.ioctlCode, [code, lun, handleByte buf]) ∧
      (ioctlOf cfg code lun buf).wellFormed cfg = true := by
  unfold ioctlOf
  split_ifs <;> subst_vars
  case neg => exact ⟨rfl, by simp [Instr.wellFormed, ioctlCodes, *]⟩
  all_goals exact ⟨rfl, rfl⟩

theorem decodeIoctlCode_reads (bytes : List Byte) : Reads cfg .ioctlCode bytes (decodeIoctlCode cfg bytes) := by
  unfold decodeIoctlCode
  split
  · exact .handle fun buf hbuf => hbuf ▸ ioctlOf_record cfg _ _ buf
  · exact .error _

end

/-- Settles O2, by the port the record arrives at. -/
theorem encodeOfDecodeIsRecord : Obligations.EncodeOfDecodeIsRecord := by
  intro cfg port bytes
  cases port with
  | command => exact decodeCommand_reads cfg bytes
  | tokenTx => exact decodeTokenTx_reads cfg bytes
  | tokenRx => exact decodeTokenRx_reads cfg bytes
  | readyRx => exact decodeReadyRx_reads cfg bytes
  | r1Rx => exact decodeR1Rx_reads cfg bytes
  | dataResponseRx => exact decodeDataResponseRx_reads cfg bytes
  | host => exact decodeHost_reads cfg bytes
  | ioctlCode => exact decodeIoctlCode_reads cfg bytes

end Sys2Proof.Codec

namespace Sys2Proof.Stepping

open Sys2Proof.Machine Sys2Proof.Safety

/-! ### The row of a record -/

/-- The port of a row does not depend on the parameters. -/
theorem encode_port (cfg cfg' : Params) (i : Instr) : (encode cfg i).1 = (encode cfg' i).1 := by
  cases i with
  | tokenStartBlock dir => cases dir <;> rfl
  | _ => rfl

theorem isHost_iff (port : Port) : Port.isHost port = true ↔ port = .host ∨ port = .ioctlCode := by
  cases port <;> simp [Port.isHost]

/-- A record of the `HOST` interface is a host row, and no other is: an accepted record is that of its instruction, port and all. -/
theorem isHostRow_iff_of_decode {cfg : Params} {port : Port} {bytes : List Byte} {i : Instr} (h : decode cfg port bytes = .ok i) :
    isHostRow i ↔ Port.isHost port = true := by
  obtain ⟨record, -⟩ := Codec.encodeOfDecodeIsRecord cfg port bytes i h
  have arrives : (encode Params.default i).1 = port := (encode_port _ cfg i).trans (congrArg Prod.fst record)
  rw [isHost_iff, isHostRow, arrives]

/-! ### A record presented -/

section
variable {port : Port} {bytes : List Byte} {beyond done : Fin 128} {s : State} {i : Instr}

theorem presentRecord_host (h : decode s.params port bytes = .ok i) (hport : Port.isHost port = true) :
    presentRecord port bytes beyond done s = exec i s := by
  unfold presentRecord
  rw [h]
  exact if_pos hport

theorem presentRecord_sequencer (h : decode s.params port bytes = .ok i) (hport : ¬ Port.isHost port = true) :
    presentRecord port bytes beyond done s = exec i (issuerPrepares beyond done s) := by
  unfold presentRecord
  rw [h]
  exact if_neg hport

theorem presentRecord_undecodable {e : DecodeError} (h : decode s.params port bytes = .error e) :
    presentRecord port bytes beyond done s = .refused (.undecodable e) := by
  unfold presentRecord
  rw [h]

variable (beyond done)

theorem issuerPrepares_idle (h : s.seq = .idle) : issuerPrepares beyond done s =
    { s with seq := .issuing, w := { Working.empty with count := some beyond.succ, off := some done.castSucc } } := by
  unfold issuerPrepares
  rw [if_pos h]

theorem issuerPrepares_busy (h : s.seq ≠ .idle) : issuerPrepares beyond done s =
    { s with w := { s.w with count := some beyond.succ, off := some done.castSucc } } := by
  unfold issuerPrepares
  rw [if_neg h]

end

/-- Settles O5: a step presents the record, and the port says who presents it. -/
theorem stepRunsDecodedInstruction : Obligations.StepRunsDecodedInstruction := by
  intro s port bytes beyond done rest hmove
  rw [HostMemory.step_present hmove]
  have sequencer (hhost : port ≠ .host) (hcode : port ≠ .ioctlCode) : ¬ Port.isHost port = true := by
    rw [isHost_iff]
    exact not_or.2 ⟨hhost, hcode⟩
  refine ⟨fun i h hport => presentRecord_host (s := { s with agenda := rest }) h ((isHost_iff port).2 hport),
    fun i h hhost hcode hidle => ?_, fun i h hhost hcode hbusy => ?_,
    fun e h => presentRecord_undecodable (s := { s with agenda := rest }) h⟩
  · rw [presentRecord_sequencer (s := { s with agenda := rest }) h (sequencer hhost hcode),
      issuerPrepares_idle (s := { s with agenda := rest }) beyond done hidle]
  · rw [presentRecord_sequencer (s := { s with agenda := rest }) h (sequencer hhost hcode),
      issuerPrepares_busy (s := { s with agenda := rest }) beyond done hbusy]

theorem withFetchWord_of_decode {nbits w : Nat} {i : Instr} (s : State) (h : decodeTableWord nbits w = some i) :
    s.withFetchWord nbits w = { s with agenda := .present (encode s.params i).1 (encode s.params i).2 1 0 :: s.agenda } := by
  unfold State.withFetchWord
  rw [h]

/-- Settles O6: the record placed is the one the instruction is read back from. -/
theorem fetchedWordRunsNext : Obligations.FetchedWordRunsNext := by
  intro s nbits w i hcfg hwf hword
  have record := Codec.decodeOfEncodeIsInstruction s.params i hcfg hwf
  have runs : step (s.withFetchWord nbits w) = presentRecord (encode s.params i).1 (encode s.params i).2 1 0 s := by
    rw [withFetchWord_of_decode s hword, HostMemory.step_present rfl]
  rw [runs]
  split
  · next hport => exact presentRecord_host record hport
  · next hport => exact presentRecord_sequencer record hport

/-! ### The invariant -/

/-- Settles O9, field by field: no card is negotiated, the line is deasserted, nothing is stored and the trace is empty. -/
theorem resetMeetsInvariant : Obligations.ResetMeetsInvariant where
  typeLegal := rfl
  typed := nofun
  idleDeselected _ := rfl
  bufCanonical := rfl
  wireOk := ⟨rfl, rfl, trivial, rfl⟩
  configured := Params.default_wf

section
variable {s t : State}

/-- Where the session is kept, the rest of the invariant is about the line, the buffer and the wire. -/
theorem inv_of_session (inv : Inv s) (session : SameSession s t) (released : t.seq = .idle → t.cs = .deasserted)
    (canonical : Memory.wf t.buf.mem = true) (agrees : WireOk s.params t) : Inv t := by
  obtain ⟨params, status, type, -, -⟩ := session
  exact {
    typeLegal := type ▸ inv.typeLegal
    typed := by rw [status, type]; exact inv.typed
    idleDeselected := released
    bufCanonical := canonical
    wireOk := params ▸ agrees
    configured := params ▸ inv.configured }

theorem inv_agenda (inv : Inv s) (rest : List EnvMove) : Inv { s with agenda := rest } where
  typeLegal := inv.typeLegal
  typed := inv.typed
  idleDeselected := inv.idleDeselected
  bufCanonical := inv.bufCanonical
  wireOk := wireOk_congr inv.wireOk rfl rfl rfl rfl
  configured := inv.configured

/-! #### The moves that are no instruction -/

theorem inv_issuerCloses (inv : Inv s) : Inv (issuerCloses s) :=
  inv_of_session inv ⟨rfl, rfl, rfl, rfl, rfl⟩ (fun _ => rfl) inv.bufCanonical
    (wireOk_congr (wireOk_deselect inv.wireOk) rfl rfl rfl rfl)

/-- A media event never clears `NOT_INITIALIZED` (rule R287). -/
theorem inv_mediaEvent (inv : Inv s) (noMedium writeProtected removed : Bool) : Inv (mediaEvent noMedium writeProtected removed s) where
  typeLegal := inv.typeLegal
  typed initialized := inv.typed (Bool.or_eq_false_iff.1 initialized).1
  idleDeselected := inv.idleDeselected
  bufCanonical := inv.bufCanonical
  wireOk := wireOk_congr inv.wireOk rfl rfl rfl rfl
  configured := inv.configured

theorem inv_fillBuffer (inv : Inv s) (size : Nat) (cells : List Host.Cell) (pair : Word × Word) : Inv (fillBuffer size cells pair s) :=
  inv_of_session inv ⟨rfl, rfl, rfl, rfl, rfl⟩ inv.idleDeselected (memOfCells_wf cells) (wireOk_congr inv.wireOk rfl rfl rfl rfl)

/-! #### Commands and tokens -/

theorem issuerPrepares_seq (beyond done : Fin 128) (s : State) : (issuerPrepares beyond done s).seq ≠ .idle := by
  by_cases idle : s.seq = .idle
  · rw [issuerPrepares_idle beyond done idle]
    nofun
  · rw [issuerPrepares_busy beyond done idle]
    exact idle

theorem inv_issuerPrepares (inv : Inv s) (beyond done : Fin 128) : Inv (issuerPrepares beyond done s) := by
  have agrees : WireOk s.params (issuerPrepares beyond done s) := by
    unfold issuerPrepares
    dsimp only
    split <;> exact wireOk_congr inv.wireOk rfl rfl rfl rfl
  refine inv_of_session inv (Session.issuerPrepares_session beyond done s) (absurd · (issuerPrepares_seq beyond done s)) ?_ agrees
  rw [HostMemory.issuerPrepares_buf]
  exact inv.bufCanonical

theorem inv_cardAnswers (inv : Inv s) (b : Byte) : Inv (cardAnswers b s) :=
  inv_of_session inv ⟨rfl, rfl, rfl, rfl, rfl⟩ inv.idleDeselected inv.bufCanonical (wireOk_congr inv.wireOk rfl rfl rfl rfl)

/-- A run leaves the sequencer, so outside idle it may leave the line where it will. -/
theorem inv_runs {p : Nat → Prop} (inv : Inv s) (busy : s.seq ≠ .idle) (ran : Runs s.params p s t) : Inv t := by
  obtain ⟨session, sequencer, -⟩ := ran.sameSession
  exact inv_of_session inv session (fun idle => absurd (sequencer.symm.trans idle) busy) (ran.bufWf inv.bufCanonical)
    (ran.wireOk inv.wireOk)

/-! #### Host requests -/

theorem inv_effect (inv : Inv s) (effect : Effect s t) : Inv t := by
  refine inv_of_session inv effect.session (fun idle => ?_) (effect.bufWf inv.bufCanonical) (effect.wireOk inv.wireOk)
  obtain ⟨sequencer, line⟩ | ⟨-, line⟩ := effect.rest
  · exact line.trans (inv.idleDeselected (sequencer.symm.trans idle))
  · exact line

/-- The finish of rule R200 sets `NOT_INITIALIZED` where the type is 0, and deselects. -/
theorem inv_finishInitialize {ty : CardType} (legal : ty.legal = true) (canonical : Memory.wf s.buf.mem = true)
    (agrees : WireOk s.params s) (configured : s.params.wf = true) : Inv (finishInitialize s.params ty s) where
  typeLegal := legal
  typed initialized unknown := by
    have unset := (Initializer.finishInitialize_notInitialized (cfg := s.params) (s := s) ty).2 unknown
    rw [initialized] at unset
    cases unset
  idleDeselected _ := rfl
  bufCanonical := canonical
  wireOk := wireOk_congr (wireOk_deselect (wireOk_congr agrees rfl rfl rfl rfl)) rfl rfl rfl rfl
  configured := configured

theorem inv_initializeDrive (inv : Inv s) : Inv (initializeDrive s.params s) := by
  have stages := Scope.initResetStage_keeps s.params (beginOperation .reset s)
  have params : (initResetStage s.params (beginOperation .reset s)).2.params = s.params := stages.session.1
  have agrees := stages.wireOk (wireOk_congr inv.wireOk rfl rfl rfl rfl)
  have finished := inv_finishInitialize (Initializer.initResetStage_legal s.params (beginOperation .reset s))
    (stages.buf ▸ inv.bufCanonical) (params.symm ▸ agrees) (params.symm ▸ inv.configured)
  rwa [params, ← Scope.initializeDrive_eq_finish] at finished

end

/-! #### Every step -/

section
variable {s t : State} {i : Instr}

theorem exec_hostRow_inv (inv : Inv s) (hi : isHostRow i) (h : exec i s = .next t) : Inv t := by
  obtain ⟨-, served | ⟨-, rfl⟩⟩ := exec_hostRow hi h
  · exact inv_effect inv served.effect
  · exact inv_initializeDrive inv

theorem exec_commandRow_inv (inv : Inv s) (busy : s.seq ≠ .idle) (hi : ¬ isHostRow i) (h : exec i s = .next t) : Inv t := by
  obtain ran | ⟨-, b, -, ran⟩ := exec_commandRow hi h
  · exact inv_runs inv busy ran
  · exact inv_runs (inv_cardAnswers inv b) busy ran

theorem presentRecord_inv {port : Port} {bytes : List Byte} {beyond done : Fin 128} (inv : Inv s)
    (h : presentRecord port bytes beyond done s = .next t) : Inv t := by
  cases read : decode s.params port bytes with
  | error e =>
    rw [presentRecord_undecodable read] at h
    cases h
  | ok i =>
    have row := isHostRow_iff_of_decode read
    by_cases hport : Port.isHost port = true
    · rw [presentRecord_host read hport] at h
      exact exec_hostRow_inv inv (row.2 hport) h
    · rw [presentRecord_sequencer read hport] at h
      exact exec_commandRow_inv (inv_issuerPrepares inv beyond done) (issuerPrepares_seq beyond done s) (mt row.1 hport) h

end

/-- Settles O10, by the move. A command or token runs outside idle, for its issuer has prepared it; a host request runs in idle and
ends at rest. -/
theorem stepKeepsInvariant : Obligations.StepKeepsInvariant := by
  intro s t inv h
  match hmove : s.agenda with
  | [] =>
    rw [HostMemory.step_noMove hmove] at h
    split at h <;> cases h
    · exact inv
    · exact inv_issuerCloses inv
  | .present port bytes beyond done :: rest =>
    rw [HostMemory.step_present hmove] at h
    exact presentRecord_inv (inv_agenda inv rest) h
  | .media noMedium writeProtected removed :: rest =>
    rw [HostMemory.step_media hmove] at h
    split at h <;> cases h
    exact inv_mediaEvent (inv_agenda inv rest) noMedium writeProtected removed
  | .buffer size cells pair :: rest =>
    rw [HostMemory.step_buffer hmove] at h
    split at h <;> cases h
    exact inv_fillBuffer (inv_agenda inv rest) size cells pair

end Sys2Proof.Stepping

namespace Sys2Proof.Rows

open Sys2Proof.Machine Sys2Proof.Safety

/-! ### Requests that are refused -/

section
variable {cfg : Params} {s : State}

theorem exec_hostRow_outstanding {i : Instr} (hi : isHostRow i) (h5 : i ≠ .reservedOp5) (h6 : i ≠ .reservedOp6)
    (h7 : i ≠ .reservedOp7) (busy : s.seq ≠ .idle) : exec i s = .refused .operationOutstanding := by
  cases i with
  | reservedOp5 => exact absurd rfl h5
  | reservedOp6 => exact absurd rfl h6
  | reservedOp7 => exact absurd rfl h7
  | initDrive | driveStatus => exact if_neg busy
  | readSingle | readMulti => exact if_neg busy
  | writeSingle | writeMulti => exact if_neg busy
  | ioctl | ioctlSync | ioctlSectorCount | ioctlBlockSize | ioctlTrim | ioctlRawType | ioctlRawCsd | ioctlRawCid | ioctlRawOcr
  | ioctlRawSdStatus | ioctlUnknown => exact if_neg busy
  | tokenStartBlock dir => cases dir <;> rcases hi with hi | hi <;> cases hi
  | _ => rcases hi with hi | hi <;> cases hi

/-- The operands of a transfer that an initialized drive accepts (rule R220). -/
theorem ioPreconditions_none {isWrite : Bool} {count : Nat} {v : Status} (hinit : v.notInitialized = false) (h1 : 1 ≤ count)
    (h128 : count ≤ 128) (hprot : isWrite = true → v.writeProtected = false) : ioPreconditions isWrite 0#8 .given count v = none := by
  have operands : ¬ ((0#8 : Byte) ≠ lunIndex ∨ Handle.given = .null ∨ countLegal count = false) := by
    rw [(Encoding.countLegal_iff count).2 ⟨h1, h128⟩]
    decide
  have writable : ¬ (isWrite = true ∧ v.writeProtected = true) := fun ⟨write, prot⟩ => by
    rw [hprot write] at prot
    cases prot
  unfold ioPreconditions
  rw [if_neg (by rw [hinit]; decide), if_neg operands, if_neg writable]

theorem bufFits_undersized {n : Nat} (h : s.buf.size < n) : ¬ bufFits n s = true := by
  simpa [bufFits] using h

variable {count : Nat} (launch : Launchable s) (h1 : 1 ≤ count) (h128 : count ≤ 128) (small : s.buf.size < count * 512)
include launch h1 h128 small

theorem readRequest_undersized (run : State) : readRequest cfg 0#8 .given count run s = .refused .bufferTooSmall := by
  unfold readRequest
  rw [if_pos launch.idle, ioPreconditions_none (isWrite := false) launch.initialized h1 h128 nofun]
  exact if_neg (bufFits_undersized small)

theorem writeRequest_undersized (hcap : s.writeCapable = true) (hprot : s.status.writeProtected = false) (run : State) :
    writeRequest cfg 0#8 .given count run s = .refused .bufferTooSmall := by
  unfold writeRequest
  rw [if_pos launch.idle, if_pos hcap, ioPreconditions_none launch.initialized h1 h128 fun _ => hprot]
  exact if_neg (bufFits_undersized small)

end

/-- A known code whose query moves more bytes than the buffer has. -/
theorem ioctlRequest_undersized {s : State} {code : Byte} {len : Nat} {body : State → ControlOutcome}
    (d : Control.Dispatches s.params code len body) (launch : Launchable s) (small : s.buf.size < len) :
    ioctlRequest s.params 0#8 code .given s = .refused .bufferTooSmall := by
  have passed : ioctlPreconditions s.params 0#8 code .given s.status = none :=
    Control.ioctlPreconditions_none launch.initialized rfl d.known nofun
  rw [Control.ioctlRequest_accepted launch.idle passed nofun, d.moves]
  exact if_neg (bufFits_undersized small)

/-- Settles O19: every host row tests idle first; past its checks, a transfer or a query tests the size before it runs. -/
theorem outstandingAndUndersizedAreRefused : Obligations.OutstandingAndUndersizedAreRefused := by
  refine ⟨fun i s hi h5 h6 h7 busy => exec_hostRow_outstanding hi h5 h6 h7 busy, fun s sector count launch h1 h128 small => ⟨?_, ?_⟩,
    fun s launch => ?_⟩
  · obtain ⟨run, request⟩ := Encoding.exec_readOf 0#8 .given sector count s
    exact request.trans (readRequest_undersized launch h1 h128 small run)
  · intro hcap hprot
    obtain ⟨run, request⟩ := Encoding.exec_writeOf 0#8 .given sector count s
    exact request.trans (writeRequest_undersized launch h1 h128 small hcap hprot run)
  · have table := Control.dispatchTable launch.configured
    exact ⟨ioctlRequest_undersized table.rawType launch, ioctlRequest_undersized table.rawOcr launch,
      fun small => ⟨ioctlRequest_undersized table.rawCsd launch small, ioctlRequest_undersized table.rawCid launch small⟩,
      ioctlRequest_undersized table.rawSdStatus launch⟩

/-! ### `initialize(0)` -/

/-- Settles O22: the stages append a run of the state machine that ends in the type they answer, which the finish writes to `TYPE`
before its `Deselect`. -/
theorem initializeFollowsItsStateMachine : Obligations.InitializeFollowsItsStateMachine := by
  intro s t hidle hcfg h
  obtain rfl := Host.Outcome.next.inj ((Initializer.exec_initDrive_zero hidle).symm.trans h)
  obtain ⟨-, -, body, appended, traced⟩ := initResetStage_law s.params hcfg (beginOperation .reset s)
  obtain ⟨des, finished, deselected⟩ := deselect_trace s.params (initResetStage s.params (beginOperation .reset s)).2
  rw [Scope.initializeDrive_eq_finish]
  exact ⟨body, des, Appends_trans appended finished, traced, deselected⟩

/-! ### Single bytes presented by themselves -/

/-- A byte with bit 7 clear ends the poll at its first, with nine of its ten polls left (rule R125). -/
theorem pollR1_at_once (cfg : Params) (s : State) {b : Byte} (h : b.toNat < 128) : pollR1 cfg (cardAnswers b s) =
    (b, setNPoll 9 (setR1 b (send cfg.dummyTx (setNPoll nR1Poll (cardAnswers b s))))) :=
  if_pos ((r1Arrived_iff b).2 h)

theorem r1_toNat_lt (flags : BitVec 7) : (0#1 ++ flags).toNat < 128 := by
  revert flags; decide

/-- Settles O36: in each row the byte presented is met by the first exchange, and that ends the wait. -/
theorem singleBytesEndTheirWait : Obligations.SingleBytesEndTheirWait := by
  intro s high flags
  refine ⟨fun hcap => ?_, ?_, ?_, ?_⟩
  · have accepted : dataAccepted s.params (high ++ s.params.acceptVal) = true :=
      beq_iff_eq.2 (dataResponse_read high s.params.acceptVal).1
    have ran : Runs s.params noStore (cardAnswers (high ++ s.params.acceptVal) s) _ := Runs.refl.dataResponse
    have wrote : SameWorkingBut [.dResp, .ok] s (dataResponse s.params (cardAnswers (high ++ s.params.acceptVal) s)).2 :=
      working_from (dataResponse_working s.params _ (by simp)) rfl
    exact ⟨_, if_pos hcap, rfl, rfl, congrArg some accepted, rfl, rfl, (ran.registers _).sameButTransport,
      wrote.trans (setOk_working _ _ (by simp))⟩
  · have met := pollR1_at_once s.params s (r1_toNat_lt flags)
    have ended : exec (.r1Valid flags) s = .next (pollR1 s.params (cardAnswers (0#1 ++ flags) s)).2 := rfl
    have ran : Runs s.params noStore (cardAnswers (0#1 ++ flags) s) _ := Runs.refl.pollR1
    have wrote : SameWorkingBut [.r1, .nPoll] s (pollR1 s.params (cardAnswers (0#1 ++ flags) s)).2 :=
      working_from (pollR1_working s.params _ (by simp) (by simp)) rfl
    rw [met] at ended ran wrote
    exact ⟨_, ended, rfl, rfl, rfl, rfl, rfl, ran.sameButTransport, wrote⟩
  · obtain ⟨ready, left, appended⟩ := waitReady_scripted s.params tReadyMs (cardAnswers readyByteValue s) s.cardIn rfl
    have ran : Runs s.params noStore (cardAnswers readyByteValue s) _ := Runs.refl.waitReady tReadyMs
    have wrote : SameWorkingBut [.dPoll, .ok] s (waitReady s.params tReadyMs (cardAnswers readyByteValue s)).2 :=
      working_from (waitReady_working s.params tReadyMs _ (by simp)) rfl
    exact ⟨_, rfl, appends_of_wire (appends_from_wire appended rfl) rfl, congrArg some ready,
      Transceiver.waitReady_cs s.params tReadyMs (cardAnswers readyByteValue s), left, (ran.registers _).sameButTransport,
      wrote.trans (setOk_working _ _ (by simp))⟩
  · have ran : Runs s.params noStore s (send s.params.dummyTx s) := .xchg _ .refl
    exact ⟨_, _, rfl, appends_send _ s, fun b rest h => nextRx_scripted _ h, rfl, ran.sameButTransport, rfl⟩

end Sys2Proof.Rows
end
